-- ==== Sys2Proof/Word.lean ====
section
/-!
DEFINITION. The machine's one unit of data (00_scope.md R8): the 64-bit word, and the byte in which the program
image (20_memory.md R65, R76) and the model's memory lay words out.
-/

namespace Sys2Proof

/-- A word: an unsigned 64-bit integer, the unit of storage, address and register value (R8, R50). -/
abbrev Word := BitVec 64

/-- A byte of a program image (R65, R76). No instruction reads or writes less than a word. -/
abbrev Byte := BitVec 8

/-- `MAX`, the word of all ones (R8). -/
def Word.maxValue : Word := BitVec.allOnes 64

end Sys2Proof
end

