-- ==== Sys2Proof/Syntax.lean ====
section
/-!
DEFINITION. The instruction set as syntax. Two layers, both of 30_encoding.md R118: the decoded record
(`RawInstr`), which every word sequence gives, malformed or not; and the instruction proper (`Instr`, one constructor
for each of the 41 rows of the opcode map R121), whose operands can only be well-formed ones (R120). `Decode.lean`
goes from the first to the second and rejects by the name of the failed check (log 13).
-/

namespace Sys2Proof

/-- The registers of 10_state.md R20 by name: numbers 0 to 24. Numbers 25 to 31 are reserved (R28) and name no register. -/
inductive Reg where
  /-- R0 to R15, general (R27). -/
  | gp (n : Fin 16)
  | rzero
  | rone
  | rmax
  | rip
  | rsp
  | rbp
  | rsip
  | rint1
  | rint2
  deriving DecidableEq, Repr

/-- `RelativeTo` (R103): the register added after primary resolution, before indirection. -/
inductive Rel where
  | none
  | ip
  | sp
  | bp
  deriving DecidableEq, Repr

/-- The conditional operand's predicate (R101, R118). -/
inductive Pred where
  | whenZero
  | whenNotZero
  deriving DecidableEq, Repr

/-- A Literal operand (R107): embedded in four bits of the operand field, or a whole trailing word. -/
inductive Literal where
  | embedded (v : BitVec 4)
  | trailing (v : Word)
  deriving DecidableEq, Repr

/-! ## The decoded record (R118) -/

/-- The kinds of a decoded sub-operand (R108, R118). -/
inductive RawSubKind where
  | register (r : BitVec 5)
  | stack
  | literal (l : Literal)
  /-- The marker of a Calculated inside a Calculated, which makes the instruction malformed (R108, R120 WF4). -/
  | nestedCalculated (sel : BitVec 5)
  deriving DecidableEq, Repr

/-- A decoded sub-operand: an operand field of a nested control word (R102, R108). -/
structure RawSubOperand where
  kind : RawSubKind
  rel : Rel
  ind : Bool
  deriving DecidableEq, Repr

/-- A present sub-operand with its neg bit (R108, R118 `Sub`). -/
structure RawSub where
  op : RawSubOperand
  neg : Bool
  deriving DecidableEq, Repr

/-- The kinds of a decoded operand (R104, R118). -/
inductive RawKind where
  | register (r : BitVec 5)
  | stack
  | literal (l : Literal)
  | calculated (base index scale offset : Option RawSub)
  deriving DecidableEq, Repr

/-- A decoded operand (R118). -/
structure RawOperand where
  kind : RawKind
  rel : Rel
  ind : Bool
  deriving DecidableEq, Repr

/-- The decoded Instruction record (R118). Its `length` is computed from it (`RawInstr.length`, R115). -/
structure RawInstr where
  opcode : BitVec 8
  params : List RawOperand
  cond : Option (RawOperand × Pred)
  deriving DecidableEq, Repr

/-! ## Well-formed operands -/

/-- The kinds of a well-formed sub-operand: Register, Stack or Literal (R108, R120 WF2, WF4). -/
inductive SubKind where
  | register (r : Reg)
  | stack
  | literal (l : Literal)
  deriving DecidableEq, Repr

/-- A well-formed sub-operand, with its own relative register and indirection (R108). -/
structure SubOperand where
  kind : SubKind
  rel : Rel
  ind : Bool
  deriving DecidableEq, Repr

/-- A sub-operand and the sign it enters the address with (R108, R162 `Term`). -/
structure SignedSub where
  op : SubOperand
  neg : Bool
  deriving DecidableEq, Repr

/-- The kinds of a well-formed operand; a Calculated one has a Base (R109, R120 WF3). -/
inductive Kind where
  | register (r : Reg)
  | stack
  | literal (l : Literal)
  | calculated (base : SignedSub) (index scale offset : Option SignedSub)
  deriving DecidableEq, Repr

/-- A well-formed operand that is read (R118). -/
structure Operand where
  kind : Kind
  rel : Rel
  ind : Bool
  deriving DecidableEq, Repr

/-- A well-formed operand that is written (R120 WF5): a register or the stack directly, or any operand through the bus. -/
inductive Dest where
  | register (r : Reg)
  | stack
  | indirect (kind : Kind) (rel : Rel)
  deriving DecidableEq, Repr

/-- The conditional operand of an instruction and its predicate (R111, R155). -/
structure Gate where
  operand : Operand
  pred : Pred
  deriving DecidableEq, Repr

/-- The instructions: one constructor for each row of the opcode map (R121), its operands in slot order after the
optional conditional operand, a `Dest` where the slot's direction includes Write and an `Operand` where it does not. -/
inductive Instr where
  | hlt (g : Option Gate)
  | nop (g : Option Gate)
  | int (g : Option Gate) (type data1 data2 : Operand)
  | eint (g : Option Gate)
  | inte (g : Option Gate)
  | intd (g : Option Gate)
  | xchg (g : Option Gate) (a b : Dest)
  | cas (g : Option Gate) (target expected : Dest) (new : Operand)
  | set (g : Option Gate) (dest : Dest) (src : Operand)
  | cpy (g : Option Gate) (dest src len : Operand)
  | call (g : Option Gate) (target : Operand)
  | ret (g : Option Gate)
  | dbg (g : Option Gate) (a b c : Operand)
  | brk (g : Option Gate)
  | add (g : Option Gate) (dest : Dest) (src1 src2 : Operand)
  | addf (g : Option Gate) (dest : Dest) (src1 src2 : Operand)
  | sub (g : Option Gate) (dest : Dest) (src1 src2 : Operand)
  | subf (g : Option Gate) (dest : Dest) (src1 src2 : Operand)
  | mul (g : Option Gate) (dest : Dest) (src1 src2 : Operand)
  | mulf (g : Option Gate) (dest : Dest) (src1 src2 : Operand)
  | div (g : Option Gate) (dest : Dest) (src1 src2 : Operand)
  | divf (g : Option Gate) (dest : Dest) (src1 src2 : Operand)
  | mod (g : Option Gate) (dest : Dest) (src1 src2 : Operand)
  | modf (g : Option Gate) (dest : Dest) (src1 src2 : Operand)
  | sr (g : Option Gate) (dest : Dest) (src count : Operand)
  | sl (g : Option Gate) (dest : Dest) (src count : Operand)
  | rr (g : Option Gate) (dest : Dest) (src count : Operand)
  | rl (g : Option Gate) (dest : Dest) (src count : Operand)
  | nand (g : Option Gate) (dest : Dest) (src1 src2 : Operand)
  | and (g : Option Gate) (dest : Dest) (src1 src2 : Operand)
  | nor (g : Option Gate) (dest : Dest) (src1 src2 : Operand)
  | or (g : Option Gate) (dest : Dest) (src1 src2 : Operand)
  | nxor (g : Option Gate) (dest : Dest) (src1 src2 : Operand)
  | xor (g : Option Gate) (dest : Dest) (src1 src2 : Operand)
  | not (g : Option Gate) (dest : Dest) (src : Operand)
  | gt (g : Option Gate) (dest : Dest) (src1 src2 : Operand)
  | gte (g : Option Gate) (dest : Dest) (src1 src2 : Operand)
  | lt (g : Option Gate) (dest : Dest) (src1 src2 : Operand)
  | lte (g : Option Gate) (dest : Dest) (src1 src2 : Operand)
  | eq (g : Option Gate) (dest : Dest) (src1 src2 : Operand)
  | neq (g : Option Gate) (dest : Dest) (src1 src2 : Operand)
  deriving DecidableEq, Repr

/-! ## The InstructionDefinition table (R119, R121) -/

/-- The direction of an operand (R119): a non-empty subset of Read and Write. -/
inductive Dir where
  | read
  | write
  | readWrite
  deriving DecidableEq, Repr

/-- One entry of the InstructionDefinition table: the opcode, its mnemonic and the direction of each operand (R119). -/
structure Definition where
  opcode : BitVec 8
  mnemonic : String
  dirs : List Dir
  deriving DecidableEq, Repr

/-- A declared operand of an instruction with its direction (R119, R121). -/
inductive Param where
  | read (op : Operand)
  | write (dest : Dest)
  | readWrite (dest : Dest)
  deriving DecidableEq, Repr

/-- What the engine and the codec need of an instruction: its opcode, its gate and its declared operands in slot order. -/
structure Shape where
  opcode : BitVec 8
  gate : Option Gate
  params : List Param
  deriving DecidableEq, Repr

end Sys2Proof
end

