-- ==== Sys2Proof/Machine/InstructionTable.lean ====
section
/-!
DEFINITION. The InstructionDefinition table (30_encoding.md R119, R121), and each instruction's place in it: its opcode, its
conditional operand and its declared operands with their directions.
-/

namespace Sys2Proof

/-- The opcode map (R121): 41 rows, in the order of the opcode numbers. -/
def opcodeTable : List Definition :=
  [ ⟨0x00, "HLT", []⟩,
    ⟨0x01, "NOP", []⟩,
    ⟨0x02, "INT", [.read, .read, .read]⟩,
    ⟨0x03, "EINT", []⟩,
    ⟨0x04, "INTE", []⟩,
    ⟨0x05, "INTD", []⟩,
    ⟨0x06, "XCHG", [.readWrite, .readWrite]⟩,
    ⟨0x07, "CAS", [.readWrite, .readWrite, .read]⟩,
    ⟨0x08, "SET", [.write, .read]⟩,
    ⟨0x09, "CPY", [.read, .read, .read]⟩,
    ⟨0x0A, "CALL", [.read]⟩,
    ⟨0x0B, "RET", []⟩,
    ⟨0x0C, "DBG", [.read, .read, .read]⟩,
    ⟨0x0D, "BRK", []⟩,
    ⟨0x10, "ADD", [.write, .read, .read]⟩,
    ⟨0x11, "ADDF", [.write, .read, .read]⟩,
    ⟨0x12, "SUB", [.write, .read, .read]⟩,
    ⟨0x13, "SUBF", [.write, .read, .read]⟩,
    ⟨0x14, "MUL", [.write, .read, .read]⟩,
    ⟨0x15, "MULF", [.write, .read, .read]⟩,
    ⟨0x16, "DIV", [.write, .read, .read]⟩,
    ⟨0x17, "DIVF", [.write, .read, .read]⟩,
    ⟨0x18, "MOD", [.write, .read, .read]⟩,
    ⟨0x19, "MODF", [.write, .read, .read]⟩,
    ⟨0x20, "SR", [.write, .read, .read]⟩,
    ⟨0x21, "SL", [.write, .read, .read]⟩,
    ⟨0x22, "RR", [.write, .read, .read]⟩,
    ⟨0x23, "RL", [.write, .read, .read]⟩,
    ⟨0x24, "NAND", [.write, .read, .read]⟩,
    ⟨0x25, "AND", [.write, .read, .read]⟩,
    ⟨0x26, "NOR", [.write, .read, .read]⟩,
    ⟨0x27, "OR", [.write, .read, .read]⟩,
    ⟨0x28, "NXOR", [.write, .read, .read]⟩,
    ⟨0x29, "XOR", [.write, .read, .read]⟩,
    ⟨0x2A, "NOT", [.write, .read]⟩,
    ⟨0x30, "GT", [.write, .read, .read]⟩,
    ⟨0x31, "GTE", [.write, .read, .read]⟩,
    ⟨0x32, "LT", [.write, .read, .read]⟩,
    ⟨0x33, "LTE", [.write, .read, .read]⟩,
    ⟨0x34, "EQ", [.write, .read, .read]⟩,
    ⟨0x35, "NEQ", [.write, .read, .read]⟩ ]

/-- `Def(op)`: the definition of an opcode, if it has one (R119, R122). -/
def definition (opcode : BitVec 8) : Option Definition :=
  opcodeTable.find? fun d => d.opcode == opcode

/-- The declared operand count of an opcode: 0 where it has no definition (R112). -/
def declaredCount (opcode : BitVec 8) : Nat :=
  match definition opcode with
  | some d => d.dirs.length
  | none => 0

/-- Does a direction include Write (R119)? -/
def Dir.includesWrite : Dir → Bool
  | .read => false
  | .write => true
  | .readWrite => true

/-- The direction of a declared operand. -/
def Param.dir : Param → Dir
  | .read _ => .read
  | .write _ => .write
  | .readWrite _ => .readWrite

/-- The opcode, gate and declared operands of each instruction (R121). -/
def Instr.shape : Instr → Shape
  | .hlt g => ⟨0x00, g, []⟩
  | .nop g => ⟨0x01, g, []⟩
  | .int g t a b => ⟨0x02, g, [.read t, .read a, .read b]⟩
  | .eint g => ⟨0x03, g, []⟩
  | .inte g => ⟨0x04, g, []⟩
  | .intd g => ⟨0x05, g, []⟩
  | .xchg g a b => ⟨0x06, g, [.readWrite a, .readWrite b]⟩
  | .cas g t e n => ⟨0x07, g, [.readWrite t, .readWrite e, .read n]⟩
  | .set g d a => ⟨0x08, g, [.write d, .read a]⟩
  | .cpy g d a n => ⟨0x09, g, [.read d, .read a, .read n]⟩
  | .call g t => ⟨0x0A, g, [.read t]⟩
  | .ret g => ⟨0x0B, g, []⟩
  | .dbg g a b c => ⟨0x0C, g, [.read a, .read b, .read c]⟩
  | .brk g => ⟨0x0D, g, []⟩
  | .add g d a b => ⟨0x10, g, [.write d, .read a, .read b]⟩
  | .addf g d a b => ⟨0x11, g, [.write d, .read a, .read b]⟩
  | .sub g d a b => ⟨0x12, g, [.write d, .read a, .read b]⟩
  | .subf g d a b => ⟨0x13, g, [.write d, .read a, .read b]⟩
  | .mul g d a b => ⟨0x14, g, [.write d, .read a, .read b]⟩
  | .mulf g d a b => ⟨0x15, g, [.write d, .read a, .read b]⟩
  | .div g d a b => ⟨0x16, g, [.write d, .read a, .read b]⟩
  | .divf g d a b => ⟨0x17, g, [.write d, .read a, .read b]⟩
  | .mod g d a b => ⟨0x18, g, [.write d, .read a, .read b]⟩
  | .modf g d a b => ⟨0x19, g, [.write d, .read a, .read b]⟩
  | .sr g d a b => ⟨0x20, g, [.write d, .read a, .read b]⟩
  | .sl g d a b => ⟨0x21, g, [.write d, .read a, .read b]⟩
  | .rr g d a b => ⟨0x22, g, [.write d, .read a, .read b]⟩
  | .rl g d a b => ⟨0x23, g, [.write d, .read a, .read b]⟩
  | .nand g d a b => ⟨0x24, g, [.write d, .read a, .read b]⟩
  | .and g d a b => ⟨0x25, g, [.write d, .read a, .read b]⟩
  | .nor g d a b => ⟨0x26, g, [.write d, .read a, .read b]⟩
  | .or g d a b => ⟨0x27, g, [.write d, .read a, .read b]⟩
  | .nxor g d a b => ⟨0x28, g, [.write d, .read a, .read b]⟩
  | .xor g d a b => ⟨0x29, g, [.write d, .read a, .read b]⟩
  | .not g d a => ⟨0x2A, g, [.write d, .read a]⟩
  | .gt g d a b => ⟨0x30, g, [.write d, .read a, .read b]⟩
  | .gte g d a b => ⟨0x31, g, [.write d, .read a, .read b]⟩
  | .lt g d a b => ⟨0x32, g, [.write d, .read a, .read b]⟩
  | .lte g d a b => ⟨0x33, g, [.write d, .read a, .read b]⟩
  | .eq g d a b => ⟨0x34, g, [.write d, .read a, .read b]⟩
  | .neq g d a b => ⟨0x35, g, [.write d, .read a, .read b]⟩

end Sys2Proof
end

