-- ==== Sys2Proof/WellFormed.lean ====
section
/-!
DEFINITION. Well-formedness of a decoded instruction (30_encoding.md R120): the five named checks WF1 to WF5, each
on the decoded record, as the spec states them.
-/

namespace Sys2Proof

/-- The names of the checks of R120, and the reason for which `elaborate` (Decode.lean) rejects a decoded record. -/
inductive WfCheck where
  /-- WF1: the opcode has a definition. -/
  | knownOpcode
  /-- WF2: every register number is at most 24. -/
  | registerInRange
  /-- WF3: every Calculated operand has a Base. -/
  | basePresent
  /-- WF4: no sub-operand is itself Calculated. -/
  | noNestedCalculated
  /-- WF5: every directly written operand is a Register or the Stack with no relative register. -/
  | writableDestination
  /-- Not a check of R120: the record has not the declared number of operands, which no decoded record shows (R118). -/
  | operandCount
  deriving DecidableEq, Repr

/-- A register number that names a register (R20, R28). -/
def RegisterNumber.inRange (r : BitVec 5) : Bool := decide (r.toNat ≤ 24)

/-- WF2 on a sub-operand. -/
def RawSub.registerInRange (p : RawSub) : Bool :=
  match p.op.kind with
  | .register r => RegisterNumber.inRange r
  | _ => true

/-- WF4 on a sub-operand. -/
def RawSub.notNested (p : RawSub) : Bool :=
  match p.op.kind with
  | .nestedCalculated _ => false
  | _ => true

/-- The present sub-operands of an operand, in the order Base, Index, Scale, Offset. -/
def RawOperand.subs (p : RawOperand) : List RawSub :=
  match p.kind with
  | .calculated b i s o => b.toList ++ i.toList ++ s.toList ++ o.toList
  | _ => []

/-- WF2 on an operand and its sub-operands. -/
def RawOperand.registerInRange (p : RawOperand) : Bool :=
  (match p.kind with
    | .register r => RegisterNumber.inRange r
    | _ => true) && p.subs.all RawSub.registerInRange

/-- WF3 on an operand. -/
def RawOperand.basePresent (p : RawOperand) : Bool :=
  match p.kind with
  | .calculated b _ _ _ => b.isSome
  | _ => true

/-- WF4 on an operand. -/
def RawOperand.noNestedCalculated (p : RawOperand) : Bool := p.subs.all RawSub.notNested

/-- WF5 on an operand in a slot whose direction includes Write. -/
def RawOperand.writable (p : RawOperand) : Bool :=
  p.ind || (decide (p.rel = .none) &&
    match p.kind with
    | .register _ => true
    | .stack => true
    | _ => false)

/-- The slot operands and the conditional operand. -/
def RawInstr.operands (r : RawInstr) : List RawOperand := r.params ++ (r.cond.map Prod.fst).toList

/-- WF1 `KnownOpcode` (R120). -/
def RawInstr.knownOpcode (r : RawInstr) : Bool := (definition r.opcode).isSome

/-- WF2 `RegisterInRange` (R120). -/
def RawInstr.registerInRange (r : RawInstr) : Bool := r.operands.all RawOperand.registerInRange

/-- WF3 `BasePresent` (R120). -/
def RawInstr.basePresent (r : RawInstr) : Bool := r.operands.all RawOperand.basePresent

/-- WF4 `NoNestedCalculated` (R120). -/
def RawInstr.noNestedCalculated (r : RawInstr) : Bool := r.operands.all RawOperand.noNestedCalculated

/-- WF5 `WritableDestination` (R120): the declared operands beside their directions. -/
def RawInstr.writableDestination (r : RawInstr) : Bool :=
  match definition r.opcode with
  | some d => (r.params.zip d.dirs).all fun pd => !pd.2.includesWrite || pd.1.writable
  | none => true

/-- The five checks together (R120). -/
def RawInstr.wellFormed (r : RawInstr) : Bool :=
  r.knownOpcode && r.registerInRange && r.basePresent && r.noNestedCalculated && r.writableDestination

/-- The precondition of Encode (R116) that the record's type does not already give: as many operands as the opcode
declares. Every decoded record has it (R118). -/
def RawInstr.countMatches (r : RawInstr) : Bool := decide (r.params.length = declaredCount r.opcode)

end Sys2Proof
end

