-- ==== Sys2Proof/Decode.lean ====
section
/-!
DEFINITION. The codec (30_encoding.md): the fields of the control word, of an operand field and of a nested control
word; Decode (R114) over any source of words; the elaboration of a decoded record into an instruction, which rejects by
the name of the failed check (R120); and after them Encode (R116).
-/

namespace Sys2Proof

/-! ## Fields (R101, R102, R108) -/

/-- The fields of a control word (R101); `reserved` is not among them: Decode ignores it and Encode writes it 0 (R113). -/
structure ControlWord where
  opcode : BitVec 8
  f0 : BitVec 10
  f1 : BitVec 10
  f2 : BitVec 10
  condPresent : BitVec 1
  condPred : BitVec 1
  fc : BitVec 10
  deriving DecidableEq, Repr

/-- The fields of a control word, read out (R101). -/
def ControlWord.unpack (w : Word) : ControlWord where
  opcode := w.extractLsb' 0 8
  f0 := w.extractLsb' 8 10
  f1 := w.extractLsb' 18 10
  f2 := w.extractLsb' 28 10
  condPresent := w.extractLsb' 38 1
  condPred := w.extractLsb' 39 1
  fc := w.extractLsb' 40 10

/-- The control word with these fields and zero reserved bits (R101). -/
def ControlWord.pack (c : ControlWord) : Word :=
  0#14 ++ c.fc ++ c.condPred ++ c.condPresent ++ c.f2 ++ c.f1 ++ c.f0 ++ c.opcode

/-- The fields of an operand field (R102). -/
structure OperandField where
  rel : BitVec 2
  ind : BitVec 1
  type : BitVec 2
  sel : BitVec 5
  deriving DecidableEq, Repr

/-- The fields of an operand field, read out (R102). -/
def OperandField.unpack (f : BitVec 10) : OperandField where
  rel := f.extractLsb' 0 2
  ind := f.extractLsb' 2 1
  type := f.extractLsb' 3 2
  sel := f.extractLsb' 5 5

/-- The operand field with these fields (R102). -/
def OperandField.pack (o : OperandField) : BitVec 10 := o.sel ++ o.type ++ o.ind ++ o.rel

/-- The 12-bit group of one sub-operand in a nested control word (R108). -/
structure SubGroup where
  present : BitVec 1
  neg : BitVec 1
  field : BitVec 10
  deriving DecidableEq, Repr

/-- The fields of a group, read out (R108). -/
def SubGroup.unpack (q : BitVec 12) : SubGroup where
  present := q.extractLsb' 0 1
  neg := q.extractLsb' 1 1
  field := q.extractLsb' 2 10

/-- The group with these fields (R108). -/
def SubGroup.pack (g : SubGroup) : BitVec 12 := g.field ++ g.neg ++ g.present

/-- The four groups of a nested control word: Base, Index, Scale, Offset (R108). -/
structure NestedWord where
  q0 : BitVec 12
  q1 : BitVec 12
  q2 : BitVec 12
  q3 : BitVec 12
  deriving DecidableEq, Repr

/-- The groups of a nested control word, read out (R108). -/
def NestedWord.unpack (n : Word) : NestedWord where
  q0 := n.extractLsb' 0 12
  q1 := n.extractLsb' 12 12
  q2 := n.extractLsb' 24 12
  q3 := n.extractLsb' 36 12

/-- The nested control word with these groups and zero reserved bits (R108). -/
def NestedWord.pack (n : NestedWord) : Word := 0#16 ++ n.q3 ++ n.q2 ++ n.q1 ++ n.q0

/-- The `rel` codes (R103). -/
def Rel.ofCode (c : BitVec 2) : Rel :=
  match c.toNat with
  | 0 => .none
  | 1 => .ip
  | 2 => .sp
  | _ => .bp

/-- The code of a `RelativeTo` (R103). -/
def Rel.code : Rel → BitVec 2
  | .none => 0
  | .ip => 1
  | .sp => 2
  | .bp => 3

/-- The predicate codes (R101). -/
def Pred.ofCode (c : BitVec 1) : Pred := if c = 1#1 then .whenNotZero else .whenZero

/-- The code of a predicate (R101). -/
def Pred.code : Pred → BitVec 1
  | .whenZero => 0
  | .whenNotZero => 1

/-- The register of a number (R20); numbers 25 to 31 name none (R28). -/
def Reg.ofNumber (r : BitVec 5) : Option Reg :=
  if h : r.toNat < 16 then some (.gp ⟨r.toNat, h⟩)
  else
    match r.toNat with
    | 16 => some .rzero
    | 17 => some .rone
    | 18 => some .rmax
    | 19 => some .rip
    | 20 => some .rsp
    | 21 => some .rbp
    | 22 => some .rsip
    | 23 => some .rint1
    | 24 => some .rint2
    | _ => none

/-- The number of a register (R20). -/
def Reg.number : Reg → BitVec 5
  | .gp n => BitVec.ofNat 5 n.val
  | .rzero => 16
  | .rone => 17
  | .rmax => 18
  | .rip => 19
  | .rsp => 20
  | .rbp => 21
  | .rsip => 22
  | .rint1 => 23
  | .rint2 => 24

/-- The value of a literal: an embedded one is zero-extended (R107). -/
def Literal.value : Literal → Word
  | .embedded v => v.setWidth 64
  | .trailing v => v

/-! ## Decode (R114)

`rd` is the word stream: the bus at the next address when the machine fetches (Machine/Fetch.lean), a list of words
otherwise. Decode reads its words in increasing order, each once, and only those it consumes. -/

section Decode

variable {σ ε : Type} (rd : StateT σ (Except ε) Word)

/-- A Literal operand (R107): `sel[0]` says whether it is embedded in `sel[4:1]` or is the next word. -/
def decodeLiteral (sel : BitVec 5) : StateT σ (Except ε) Literal :=
  if sel.extractLsb' 0 1 = 1#1 then pure (.embedded (sel.extractLsb' 1 4))
  else do
    let v ← rd
    pure (.trailing v)

/-- `DecodeOperand` with `inCalc = true` (R114). -/
def decodeSubOperand (f : BitVec 10) : StateT σ (Except ε) RawSubOperand := do
  let o := OperandField.unpack f
  let kind ← match o.type.toNat with
    | 0 => pure (.register o.sel)
    | 1 => pure .stack
    | 2 => do
      let l ← decodeLiteral rd o.sel
      pure (.literal l)
    | _ => pure (.nestedCalculated o.sel)
  pure ⟨kind, Rel.ofCode o.rel, o.ind = 1#1⟩

/-- One group of a nested control word: absent, or a sub-operand with its neg bit (R108, R114). -/
def decodeSub (q : BitVec 12) : StateT σ (Except ε) (Option RawSub) :=
  let g := SubGroup.unpack q
  if g.present = 1#1 then do
    let s ← decodeSubOperand rd g.field
    pure (some ⟨s, g.neg = 1#1⟩)
  else pure none

/-- `DecodeOperand` with `inCalc = false` (R114). -/
def decodeOperand (f : BitVec 10) : StateT σ (Except ε) RawOperand := do
  let o := OperandField.unpack f
  let kind ← match o.type.toNat with
    | 0 => pure (.register o.sel)
    | 1 => pure .stack
    | 2 => do
      let l ← decodeLiteral rd o.sel
      pure (.literal l)
    | _ => do
      let w ← rd
      let n := NestedWord.unpack w
      let b ← decodeSub rd n.q0
      let i ← decodeSub rd n.q1
      let s ← decodeSub rd n.q2
      let t ← decodeSub rd n.q3
      pure (.calculated b i s t)
  pure ⟨kind, Rel.ofCode o.rel, o.ind = 1#1⟩

/-- The operands of some slots, in slot order (R110, R114). -/
def decodeOperands : List (BitVec 10) → StateT σ (Except ε) (List RawOperand)
  | [] => pure []
  | f :: fs => do
    let p ← decodeOperand rd f
    let ps ← decodeOperands fs
    pure (p :: ps)

/-- The conditional operand, when it is present (R111, R114). -/
def decodeCond (c : ControlWord) : StateT σ (Except ε) (Option (RawOperand × Pred)) :=
  if c.condPresent = 1#1 then do
    let p ← decodeOperand rd c.fc
    pure (some (p, Pred.ofCode c.condPred))
  else pure none

/-- `Decode` (R114): every word sequence decodes; an unknown opcode is no error of the codec. -/
def decodeRaw : StateT σ (Except ε) RawInstr := do
  let w ← rd
  let c := ControlWord.unpack w
  let params ← decodeOperands rd ([c.f0, c.f1, c.f2].take (declaredCount c.opcode))
  let cond ← decodeCond rd c
  pure ⟨c.opcode, params, cond⟩

end Decode

/-! ## Length (R115) -/

/-- The trailing words of a literal (R115). -/
def Literal.words : Literal → Nat
  | .embedded _ => 0
  | .trailing _ => 1

/-- The trailing words of a sub-operand (R115). -/
def RawSub.words (p : RawSub) : Nat :=
  match p.op.kind with
  | .literal l => l.words
  | _ => 0

/-- The trailing words of an operand (R115). -/
def RawOperand.words (p : RawOperand) : Nat :=
  match p.kind with
  | .literal l => l.words
  | .calculated _ _ _ _ => 1 + (p.subs.map RawSub.words).sum
  | _ => 0

/-- `Length` (R115): the control word, then the words of the operands and the conditional operand. -/
def RawInstr.length (r : RawInstr) : Nat := 1 + (r.operands.map RawOperand.words).sum

/-! ## Elaboration: from the decoded record to the instruction (R120) -/

/-- A register number as a register, or WF2's failure. -/
def elabReg (r : BitVec 5) : Except WfCheck Reg :=
  match Reg.ofNumber r with
  | some x => .ok x
  | none => .error .registerInRange

/-- A sub-operand without its marker kinds, or the failure of WF2 or WF4. -/
def elabSub (p : RawSub) : Except WfCheck SignedSub :=
  match p.op.kind with
  | .register r => do
    let x ← elabReg r
    pure ⟨⟨.register x, p.op.rel, p.op.ind⟩, p.neg⟩
  | .stack => .ok ⟨⟨.stack, p.op.rel, p.op.ind⟩, p.neg⟩
  | .literal l => .ok ⟨⟨.literal l, p.op.rel, p.op.ind⟩, p.neg⟩
  | .nestedCalculated _ => .error .noNestedCalculated

/-- An optional sub-operand. -/
def elabOptSub : Option RawSub → Except WfCheck (Option SignedSub)
  | none => .ok none
  | some p => do
    let x ← elabSub p
    pure (some x)

/-- An operand's kind, or the failure of WF2, WF3 or WF4. -/
def elabKind : RawKind → Except WfCheck Kind
  | .register r => do
    let x ← elabReg r
    pure (.register x)
  | .stack => .ok .stack
  | .literal l => .ok (.literal l)
  | .calculated none _ _ _ => .error .basePresent
  | .calculated (some b) i s o => do
    let b ← elabSub b
    let i ← elabOptSub i
    let s ← elabOptSub s
    let o ← elabOptSub o
    pure (.calculated b i s o)

/-- A read operand. -/
def elabOperand (p : RawOperand) : Except WfCheck Operand := do
  let k ← elabKind p.kind
  pure ⟨k, p.rel, p.ind⟩

/-- A written operand (WF5): through the bus, or a register or the stack with no relative register. -/
def elabDest (p : RawOperand) : Except WfCheck Dest := do
  let k ← elabKind p.kind
  if p.ind then pure (.indirect k p.rel)
  else
    match k, p.rel with
    | .register r, .none => pure (.register r)
    | .stack, .none => pure .stack
    | _, _ => .error .writableDestination

/-- The conditional operand. -/
def elabGate : Option (RawOperand × Pred) → Except WfCheck (Option Gate)
  | none => .ok none
  | some (p, pred) => do
    let x ← elabOperand p
    pure (some ⟨x, pred⟩)

/-- An instruction without operands. -/
def elabNone (mk : Instr) : List RawOperand → Except WfCheck Instr
  | [] => .ok mk
  | _ => .error .operandCount

/-- An instruction with one read operand. -/
def elabR (mk : Operand → Instr) : List RawOperand → Except WfCheck Instr
  | [a] => do
    let a ← elabOperand a
    pure (mk a)
  | _ => .error .operandCount

/-- An instruction with three read operands. -/
def elabRRR (mk : Operand → Operand → Operand → Instr) : List RawOperand → Except WfCheck Instr
  | [a, b, c] => do
    let a ← elabOperand a
    let b ← elabOperand b
    let c ← elabOperand c
    pure (mk a b c)
  | _ => .error .operandCount

/-- An instruction with a written and a read operand. -/
def elabWR (mk : Dest → Operand → Instr) : List RawOperand → Except WfCheck Instr
  | [d, a] => do
    let d ← elabDest d
    let a ← elabOperand a
    pure (mk d a)
  | _ => .error .operandCount

/-- An instruction with a written and two read operands. -/
def elabWRR (mk : Dest → Operand → Operand → Instr) : List RawOperand → Except WfCheck Instr
  | [d, a, b] => do
    let d ← elabDest d
    let a ← elabOperand a
    let b ← elabOperand b
    pure (mk d a b)
  | _ => .error .operandCount

/-- An instruction with two operands read and written. -/
def elabWW (mk : Dest → Dest → Instr) : List RawOperand → Except WfCheck Instr
  | [a, b] => do
    let a ← elabDest a
    let b ← elabDest b
    pure (mk a b)
  | _ => .error .operandCount

/-- An instruction with two operands read and written and one read. -/
def elabWWR (mk : Dest → Dest → Operand → Instr) : List RawOperand → Except WfCheck Instr
  | [a, b, c] => do
    let a ← elabDest a
    let b ← elabDest b
    let c ← elabOperand c
    pure (mk a b c)
  | _ => .error .operandCount

/-- The instruction of an opcode (R121) from its decoded operands; an opcode without a row fails WF1. -/
def elabOpcode (opcode : BitVec 8) (g : Option Gate) (ps : List RawOperand) : Except WfCheck Instr :=
  match opcode.toNat with
  | 0x00 => elabNone (.hlt g) ps
  | 0x01 => elabNone (.nop g) ps
  | 0x02 => elabRRR (.int g) ps
  | 0x03 => elabNone (.eint g) ps
  | 0x04 => elabNone (.inte g) ps
  | 0x05 => elabNone (.intd g) ps
  | 0x06 => elabWW (.xchg g) ps
  | 0x07 => elabWWR (.cas g) ps
  | 0x08 => elabWR (.set g) ps
  | 0x09 => elabRRR (.cpy g) ps
  | 0x0A => elabR (.call g) ps
  | 0x0B => elabNone (.ret g) ps
  | 0x0C => elabRRR (.dbg g) ps
  | 0x0D => elabNone (.brk g) ps
  | 0x10 => elabWRR (.add g) ps
  | 0x11 => elabWRR (.addf g) ps
  | 0x12 => elabWRR (.sub g) ps
  | 0x13 => elabWRR (.subf g) ps
  | 0x14 => elabWRR (.mul g) ps
  | 0x15 => elabWRR (.mulf g) ps
  | 0x16 => elabWRR (.div g) ps
  | 0x17 => elabWRR (.divf g) ps
  | 0x18 => elabWRR (.mod g) ps
  | 0x19 => elabWRR (.modf g) ps
  | 0x20 => elabWRR (.sr g) ps
  | 0x21 => elabWRR (.sl g) ps
  | 0x22 => elabWRR (.rr g) ps
  | 0x23 => elabWRR (.rl g) ps
  | 0x24 => elabWRR (.nand g) ps
  | 0x25 => elabWRR (.and g) ps
  | 0x26 => elabWRR (.nor g) ps
  | 0x27 => elabWRR (.or g) ps
  | 0x28 => elabWRR (.nxor g) ps
  | 0x29 => elabWRR (.xor g) ps
  | 0x2A => elabWR (.not g) ps
  | 0x30 => elabWRR (.gt g) ps
  | 0x31 => elabWRR (.gte g) ps
  | 0x32 => elabWRR (.lt g) ps
  | 0x33 => elabWRR (.lte g) ps
  | 0x34 => elabWRR (.eq g) ps
  | 0x35 => elabWRR (.neq g) ps
  | _ => .error .knownOpcode

/-- The instruction a decoded record stands for, or the check of R120 it fails. -/
def elaborate (r : RawInstr) : Except WfCheck Instr := do
  let g ← elabGate r.cond
  elabOpcode r.opcode g r.params

/-! ## The decoder over a list of words -/

/-- Why `decodeWords` rejects its words. -/
inductive DecodeReject where
  /-- The list ends before the instruction does. -/
  | endOfWords
  /-- The decoded record fails this check of R120; its opcode and its length are what R153 needs of it. -/
  | malformed (check : WfCheck) (opcode : BitVec 8) (length : Nat)
  deriving DecidableEq, Repr

/-- The word stream of a list. -/
def nextWord : StateT (List Word) (Except DecodeReject) Word := fun ws =>
  match ws with
  | [] => .error .endOfWords
  | w :: rest => .ok (w, rest)

/-- The instruction at the head of a list of words and the words after it, or the name of what is wrong with it. -/
def decodeWords (ws : List Word) : Except DecodeReject (Instr × List Word) :=
  match (decodeRaw nextWord).run ws with
  | .error e => .error e
  | .ok (r, rest) =>
    match elaborate r with
    | .ok i => .ok (i, rest)
    | .error c => .error (.malformed c r.opcode r.length)

/-- `n` words of a number, the first the least significant. -/
def splitWords (w : Nat) : Nat → List Word
  | 0 => []
  | n + 1 => BitVec.ofNat 64 w :: splitWords (w / 2 ^ 64) n

/-- The words of an instruction given as one number of `nbits` bits: the first word is bits 63..0, and every bit from
`nbits` up to the longest instruction's 21 words (R100) is 0. -/
def tableWords (nbits w : Nat) : List Word := splitWords (w % 2 ^ nbits) 21

/-- The instruction the decoder reads from an opcode-table word (its numbering is spec/opcode_table.json's). -/
def decodeTableWord (nbits w : Nat) : Option Instr :=
  match decodeWords (tableWords nbits w) with
  | .ok (i, _) => some i
  | .error _ => none

/-! ## Encode (R116) -/

/-- The `sel` field and trailing words of a literal (R107, R116). -/
def encodeLiteral : Literal → BitVec 5 × List Word
  | .embedded v => (v ++ 1#1, [])
  | .trailing v => (0#5, [v])

/-- The code of an indirection bit or a neg bit. -/
def bitOf (b : Bool) : BitVec 1 := if b then 1#1 else 0#1

/-- `EncodeOperand` for a sub-operand (R116). -/
def encodeSubOperand (p : RawSubOperand) : BitVec 10 × List Word :=
  let field := fun (type : BitVec 2) (sel : BitVec 5) => OperandField.pack ⟨p.rel.code, bitOf p.ind, type, sel⟩
  match p.kind with
  | .register r => (field 0 r, [])
  | .stack => (field 1 0, [])
  | .literal l => (field 2 (encodeLiteral l).1, (encodeLiteral l).2)
  | .nestedCalculated sel => (field 3 sel, [])

/-- The group of an optional sub-operand and its trailing words (R108, R116). -/
def encodeSub : Option RawSub → BitVec 12 × List Word
  | none => (0#12, [])
  | some p =>
    (SubGroup.pack ⟨1#1, bitOf p.neg, (encodeSubOperand p.op).1⟩, (encodeSubOperand p.op).2)

/-- `EncodeOperand` (R116): the operand field and the trailing words, a Calculated operand's nested word first (R110). -/
def encodeOperand (p : RawOperand) : BitVec 10 × List Word :=
  let field := fun (type : BitVec 2) (sel : BitVec 5) => OperandField.pack ⟨p.rel.code, bitOf p.ind, type, sel⟩
  match p.kind with
  | .register r => (field 0 r, [])
  | .stack => (field 1 0, [])
  | .literal l => (field 2 (encodeLiteral l).1, (encodeLiteral l).2)
  | .calculated b i s o =>
    (field 3 0,
      NestedWord.pack ⟨(encodeSub b).1, (encodeSub i).1, (encodeSub s).1, (encodeSub o).1⟩ ::
        ((encodeSub b).2 ++ (encodeSub i).2 ++ (encodeSub s).2 ++ (encodeSub o).2))

/-- The operand field of slot `k`: 0 for a slot that is not declared (R112, R116). -/
def slotField (ps : List RawOperand) (k : Nat) : BitVec 10 :=
  match ps[k]? with
  | some p => (encodeOperand p).1
  | none => 0#10

/-- `Encode` (R116): the control word, then the trailing words in the order of R110. -/
def encodeRaw (r : RawInstr) : List Word :=
  let trailing := (r.params.map fun p => (encodeOperand p).2).flatten
  let f0 := slotField r.params 0
  let f1 := slotField r.params 1
  let f2 := slotField r.params 2
  match r.cond with
  | none => ControlWord.pack ⟨r.opcode, f0, f1, f2, 0#1, 0#1, 0#10⟩ :: trailing
  | some (p, pred) =>
    ControlWord.pack ⟨r.opcode, f0, f1, f2, 1#1, pred.code, (encodeOperand p).1⟩ :: (trailing ++ (encodeOperand p).2)

/-! ## From the instruction back to the record -/

/-- A sub-operand as decoded. -/
def SignedSub.raw (p : SignedSub) : RawSub :=
  match p.op.kind with
  | .register r => ⟨⟨.register r.number, p.op.rel, p.op.ind⟩, p.neg⟩
  | .stack => ⟨⟨.stack, p.op.rel, p.op.ind⟩, p.neg⟩
  | .literal l => ⟨⟨.literal l, p.op.rel, p.op.ind⟩, p.neg⟩

/-- A kind as decoded. -/
def Kind.raw : Kind → RawKind
  | .register r => .register r.number
  | .stack => .stack
  | .literal l => .literal l
  | .calculated b i s o => .calculated (some b.raw) (i.map SignedSub.raw) (s.map SignedSub.raw) (o.map SignedSub.raw)

/-- An operand as decoded. -/
def Operand.raw (p : Operand) : RawOperand := ⟨p.kind.raw, p.rel, p.ind⟩

/-- The operand that a destination is when it is read (R163): a register, the stack, or a word through the bus. -/
def Dest.operand : Dest → Operand
  | .register r => ⟨.register r, .none, false⟩
  | .stack => ⟨.stack, .none, false⟩
  | .indirect k rel => ⟨k, rel, true⟩

/-- A declared operand as decoded. -/
def Param.raw : Param → RawOperand
  | .read op => op.raw
  | .write d => d.operand.raw
  | .readWrite d => d.operand.raw

/-- An instruction as decoded (R118). -/
def Instr.raw (i : Instr) : RawInstr where
  opcode := i.shape.opcode
  params := i.shape.params.map Param.raw
  cond := i.shape.gate.map fun g => (g.operand.raw, g.pred)

/-- The length of an instruction in words (R115). -/
def Instr.length (i : Instr) : Nat := i.raw.length

/-- The words of an instruction (R116). -/
def encode (i : Instr) : List Word := encodeRaw i.raw

/-! ## Canonical encodings (R113)

An encoding is canonical when every ignored bit is 0. These functions clear the ignored bits of an encoding,
working on the words alone: which word holds what follows from the declared count, the `type` fields and `sel[0]`
(R124). -/

/-- An operand field with its ignored bits 0 (R113). `inCalc` is true inside a nested control word, where `sel` of
type 3 is kept (R108). -/
def canonicalField (inCalc : Bool) (f : BitVec 10) : BitVec 10 :=
  let o := OperandField.unpack f
  match o.type.toNat with
  | 0 => f
  | 1 => OperandField.pack { o with sel := 0 }
  | 2 => if o.sel.extractLsb' 0 1 = 1#1 then f else OperandField.pack { o with sel := 0 }
  | _ => if inCalc then f else OperandField.pack { o with sel := 0 }

/-- A group of a nested control word with its ignored bits 0 (R113). -/
def canonicalGroup (q : BitVec 12) : BitVec 12 :=
  let g := SubGroup.unpack q
  if g.present = 1#1 then SubGroup.pack { g with field := canonicalField true g.field } else 0#12

/-- A nested control word with its ignored bits 0 (R113). -/
def canonicalNested (w : Word) : Word :=
  let n := NestedWord.unpack w
  NestedWord.pack ⟨canonicalGroup n.q0, canonicalGroup n.q1, canonicalGroup n.q2, canonicalGroup n.q3⟩

/-- A control word with its ignored bits 0 (R113). -/
def canonicalControl (w : Word) : Word :=
  let c := ControlWord.unpack w
  let n := declaredCount c.opcode
  let slot := fun (k : Nat) (f : BitVec 10) => if k < n then canonicalField false f else 0#10
  let present := c.condPresent = 1#1
  ControlWord.pack
    ⟨c.opcode, slot 0 c.f0, slot 1 c.f1, slot 2 c.f2, c.condPresent,
      if present then c.condPred else 0#1, if present then canonicalField false c.fc else 0#10⟩

/-- Does a sub-operand group take a trailing word (R110)? -/
def groupWords (q : BitVec 12) : Nat :=
  let g := SubGroup.unpack q
  let o := OperandField.unpack g.field
  if g.present = 1#1 ∧ o.type = 2#2 ∧ o.sel.extractLsb' 0 1 = 0#1 then 1 else 0

/-- The trailing words of the operands with these fields, their ignored bits 0 (R110, R113, R124). -/
def canonicalTrailing : List (BitVec 10) → List Word → List Word
  | [], _ => []
  | f :: fs, ws =>
    let o := OperandField.unpack f
    match o.type.toNat with
    | 2 =>
      if o.sel.extractLsb' 0 1 = 1#1 then canonicalTrailing fs ws
      else ws.take 1 ++ canonicalTrailing fs (ws.drop 1)
    | 3 =>
      match ws with
      | [] => []
      | w :: rest =>
        let n := NestedWord.unpack w
        let k := groupWords n.q0 + groupWords n.q1 + groupWords n.q2 + groupWords n.q3
        canonicalNested w :: (rest.take k ++ canonicalTrailing fs (rest.drop k))
    | _ => canonicalTrailing fs ws

/-- The instruction at the head of a list of words with every ignored bit cleared (R113, R117 (c)). -/
def canonicalWords : List Word → List Word
  | [] => []
  | w :: ws =>
    let c := ControlWord.unpack w
    let slots := [c.f0, c.f1, c.f2].take (declaredCount c.opcode)
    let cond := if c.condPresent = 1#1 then [c.fc] else []
    canonicalControl w :: canonicalTrailing (slots ++ cond) ws

end Sys2Proof
end

