-- ==== Sys2Proof/Config.lean ====
section
/-!
DEFINITION. What an implementation fixes and the spec leaves OPEN (00_scope.md R7): the choices named as parameters,
and the free values, which are constants without a body so that nothing can be proved about their values.
-/

namespace Sys2Proof

/-- `SHIFT_COUNT_MODE` (43_bitwise.md R280): how SR and SL read a count of 64 or more. -/
inductive ShiftCountMode where
  /-- The spec's default: the count modulo 64. -/
  | mask
  /-- The spec's alternative: a shift by 64 or more gives 0. -/
  | saturate
  deriving DecidableEq, Repr

/-- The lifecycle calls a device receives from the bus (20_memory.md R61). -/
inductive Lifecycle where
  | start
  | reset
  | stop
  deriving DecidableEq, Repr

/-- `NAN_RESULT` (42_arith.md R252): the draws from which NaN results are made. A free value: log 9. -/
opaque Config.nanDraw : Nat → Word

/-- `BOOT_MAGIC` (20_memory.md R76): the 8-byte marker of a directly bootable image. A free value: log 17. -/
opaque Config.bootMagic : Word

/-- `DEVICES` (20_memory.md R62, R68): `ReadWord` of a device whose behaviour the spec does not give, as a function of
the behaviour's number, the device's own state and the local address: the word read and the device's state after, or
`none` where that behaviour calls the access fatal. A free value: log 10. -/
opaque Config.deviceRead : Nat → Nat → BitVec 52 → Option (Word × Nat)

/-- `DEVICES` (20_memory.md R62, R68): `WriteWord` of such a device: its state after, or `none` where that behaviour
calls the access fatal. A free value: log 10. -/
opaque Config.deviceWrite : Nat → Nat → BitVec 52 → Word → Option Nat

/-- `DEVICES` (20_memory.md R61): what a lifecycle call does to the state of such a device. A free value: log 10. -/
opaque Config.deviceLifecycle : Nat → Nat → Lifecycle → Nat

end Sys2Proof
end

