-- ==== Sys2Proof/Machine/State.lean ====
section
/-!
DEFINITION. The state of the machine as plain data: everything 10_state.md gives it, the agents' plans and the model's
own counters beside it, and the state after reset (70_reset_and_hazards.md R466).
-/

namespace Sys2Proof.Machine

/-- Memory: cells (byte address, byte), the word at word address `a` in the eight bytes at `8 * a`, least significant
first (R65, R76; log 1), in one canonical form (`Memory.wf`, Machine/Memory.lean). -/
abbrev Memory := List Host.Cell

/-- What a byte that no cell lists reads as: RAM, boot image and vector table read 0 until something is stored
(R35, R62; log 2). -/
def Memory.unlistedByte : Byte := 0#8

/-- The processor's run state (R32). -/
inductive RunState where
  | stopped
  | running
  deriving DecidableEq, Repr

/-- What an attached device is (R61 to R64). -/
inductive DeviceKind where
  /-- The reference RAM of `size` words (R62); its contents are in `State.mem`. -/
  | ram (size : Nat)
  /-- The reference boot device, exposing an image of `size` words (R63); its contents are in `State.mem`. -/
  | rom (size : Nat)
  /-- The interrupt controller, exposing the vector table (R64). -/
  | interruptController
  /-- A device of the DEVICES parameter whose behaviour the spec does not give (R62, R68): the number of its behaviour
  and its own state, for `Config.deviceRead`, `Config.deviceWrite` and `Config.deviceLifecycle` (log 10). -/
  | external (behaviour state : Nat)
  deriving DecidableEq, Repr

/-- An attached device (R61, R62): its static identity, its kind, and the interrupt types it enqueues. -/
structure Device where
  deviceType : Word
  vendorId : Word
  productId : Word
  kind : DeviceKind
  irqTypes : List Word
  deriving DecidableEq, Repr

/-- An interrupt record (R36, R402). -/
structure InterruptRecord where
  type : Word
  data1 : Word
  data2 : Word
  handler : Word
  deriving DecidableEq, Repr

/-- What another agent enqueues at an interleaving point (R411): the timer's record (R414), or one of the device with
this id (R415). It is all the machine sees of a device's external inputs (R61); that such an input changes the device's
own state at no such point is the model's choice (log 10). -/
inductive Arrival where
  | timer
  | device (id : Nat) (type data1 data2 : Word)
  deriving DecidableEq, Repr

/-- The plan of the other agents (log 5): what they enqueue at each interleaving point to come, `next` first and then the
points of `again`, over and over, so that an agent may enqueue infinitely often (R430). -/
structure Schedule where
  next : List (List Arrival)
  again : List (List Arrival)
  deriving DecidableEq, Repr

/-- The plan in which no other agent acts. -/
abbrev Schedule.quiet : Schedule := ⟨[], []⟩

/-- An observation event: a call of a host-supplied hook (R330, R331). -/
inductive HookEvent where
  | debug (a b c : Word)
  | brk
  deriving DecidableEq, Repr

/-- What the host can do (R6, R39, R435, R436, R470). -/
inductive HostMove where
  /-- No move this time: the processor ticks by itself if it is Running (R435), so that a later move of the list falls
  between two of its Ticks. -/
  | wait
  /-- `AddDevice` (R55). -/
  | addDevice (d : Device)
  /-- The loader places a program image in the boot device with this id, its words without a boot magic (R63, R470). -/
  | loadImage (id : Nat) (image : List Byte)
  /-- The loader gives a RAM its initial contents, from its local address 0 (R62, R470). -/
  | loadRam (id : Nat) (contents : List Word)
  /-- Bus `Start` (R460). -/
  | busStart
  /-- Bus `Reset` (R460). -/
  | busReset
  /-- Bus `Stop` (R465). -/
  | busStop
  /-- The processor's own `Reset` (R435, R464). -/
  | processorReset
  /-- `Continue` (R435). -/
  | resume
  /-- `Break` (R435). -/
  | suspend
  /-- `Step` (R435). -/
  | stepOnce
  /-- A register write by name (R39). -/
  | writeRegister (r : Reg) (v : Word)
  deriving DecidableEq, Repr

/-- The parameters that some rule of the core reads (R7). -/
structure Params where
  /-- SHIFT_COUNT_MODE (R280; log 11). -/
  shiftCountMode : ShiftCountMode
  /-- BOOT_DEVICE_TYPE (R63, R462). -/
  bootDeviceType : Word
  /-- Is a DebugHook installed (R7, R330; log 8)? -/
  debugHookInstalled : Bool
  deriving DecidableEq, Repr

/-- The state of the machine. -/
structure State where
  /-- R0 to R15 (R20, R27). -/
  gpr : Vector Word 16
  /-- RIP, the instruction pointer (R24). -/
  rip : Word
  /-- RSP, the stack pointer (R25). -/
  rsp : Word
  /-- RBP, the base pointer (R25). -/
  rbp : Word
  /-- RSIP, the saved instruction pointer (R26). -/
  rsip : Word
  /-- RINT1, interrupt data 1 (R26). -/
  rint1 : Word
  /-- RINT2, interrupt data 2 (R26). -/
  rint2 : Word
  /-- `IE`, interrupts globally enabled (R31). -/
  ie : Bool
  /-- `inISR`, inside an interrupt handler (R30). -/
  inISR : Bool
  /-- `runState` (R32). -/
  runState : RunState
  /-- `bootAddr`, the boot address the bus last gave the processor (R34, R462). -/
  bootAddr : Word
  /-- The interrupt controller's vector table (R35): the handler of type `t` is the word at `t`. -/
  vectors : Memory
  /-- The interrupt controller's pending queue, the head first (R36). -/
  queue : List InterruptRecord
  /-- The bus's device table: the device with id `k` is the `k`-th (R37, R55). -/
  devices : List Device
  /-- The directory's backing table, local address 0 first (R37, R54). -/
  directory : List Word
  /-- The contents of every RAM and boot device, by global word address (R50, R62, R63). -/
  mem : Memory
  /-- The parameters (R7). -/
  params : Params
  /-- Has the bus, or Continue, started the machine, so that the timer and the devices are admitted (R415, R430; log 6)? -/
  started : Bool
  /-- The model's own: what the timer and the devices enqueue at each interleaving point to come (R411; log 5). -/
  arrivals : Schedule
  /-- The model's own: what the host does in the steps to come, one entry a step, `wait` where it does nothing; when the
  list is empty the processor ticks by itself (R435, R436; log 7). -/
  hostMoves : List HostMove
  /-- The model's own: the hook calls so far, oldest first (R330, R331; log 8). -/
  hooks : List HookEvent
  /-- The model's own: how many NaN results have been drawn (R252; log 9). -/
  draws : Nat
  deriving DecidableEq, Repr

/-- The host-level fatal conditions (R9, R169, R432). Each ends the session: the model's outcome is this fault and no
later state exists. Stopping is what the spec says, so each is safe. -/
inductive Fault where
  /-- `AddDevice` when every assignable id is used (R55). Raised by the host's AddDevice. Safe. -/
  | deviceIdsExhausted
  /-- An access to a device id with no device attached (R56). Raised by bus reads and writes. Safe. -/
  | noDeviceAtId
  /-- A read above the directory's last group (R54). Raised by bus reads. Safe. -/
  | directoryOutOfRange
  /-- A write to the directory (R54, R58). Raised by bus writes. Safe. -/
  | directoryWrite
  /-- A write to the boot device (R63). Raised by bus writes. Safe. -/
  | readOnlyDevice
  /-- An access past a RAM, past the boot image or past the vector table (R62, R63, R64). Raised by bus reads, bus
  writes and the loader. Safe. -/
  | deviceOutOfRange
  /-- A range of CPY that leaves its device window or wraps (R60). Raised by BusCopy. Safe. -/
  | copyCrossesDevice
  /-- An enqueue of a type of 4096 or more (R403). Raised by Enqueue, for a record of a device. Safe. -/
  | badInterruptType
  /-- `Dequeue` of an empty queue (R404). Raised by Dequeue; the processor checks the count first. Safe. -/
  | dequeueEmpty
  /-- A bus Start or Reset with no boot-capable device (R462). Raised by the host's lifecycle calls. Safe. -/
  | noBootDevice
  /-- A fatal outcome that the behaviour of a device of the DEVICES parameter defines (R62, R432). Raised by bus reads
  and writes of such a device. Safe. -/
  | deviceFatal
  deriving DecidableEq, Repr

/-- Why a step is refused. -/
inductive Refusal where
  /-- An instruction without a meaning, by its mnemonic. Raised by no arm of this model. Safe. -/
  | notModelled (mnemonic : String)
  /-- The host's next move breaks R435, R436 or R475, for which the spec gives the host no move. Raised by host moves.
  Safe. -/
  | hostMoveNotAllowed
  /-- The host attaches a second interrupt controller; the machine has one (R1, R64; log 16). Raised by host moves.
  Safe. -/
  | secondInterruptController
  /-- The loader's move names a device that is not of the kind it loads (R63, R470 say nothing of it). Raised by host
  moves. Safe. -/
  | loaderTargetMismatch
  deriving DecidableEq, Repr

/-- The size of the reference RAM of the spec's example machine (95_test_vectors.md; log 3). -/
def exampleRamSize : Nat := 0x1000

/-- The device table of the spec's example machine (95_test_vectors.md): the boot ROM at id 0 with no image loaded, a RAM
at id 1, the interrupt controller at id 2 (log 3, log 4). DESIGN CHOICE (unsafe): DEVICE_INTERRUPT_TYPES, which the spec leaves
OPEN (R7, R37, R62), is the empty set for each of the three, so that none of them enqueues a record (log 3). -/
def exampleDevices : List Device :=
  [ ⟨2, 0, 0, .rom 0, []⟩,
    ⟨1, 0, 0, .ram exampleRamSize, []⟩,
    ⟨3, 0, 0, .interruptController, []⟩ ]

/-- The machine right after a bus Reset (R466): the registers, control bits, queue, vector table and directory as the
spec states them, on the spec's example machine (log 3) with no program loaded (log 4). -/
def State.reset : State where
  gpr := Vector.replicate 16 0#64
  rip := 0
  rsp := 0
  rbp := 0
  rsip := 0
  rint1 := 0
  rint2 := 0
  ie := false
  inISR := false
  runState := .stopped
  bootAddr := 0
  vectors := []
  queue := []
  devices := exampleDevices
  directory := [3, 2, 0, 0, 0, 1, 0, 0, 1, 3, 0, 0, 2]
  mem := []
  params := ⟨.mask, 2, true⟩
  started := false
  arrivals := .quiet
  hostMoves := []
  hooks := []
  draws := 0

end Sys2Proof.Machine
end

