-- ==== Sys2Proof/Machine/Memory.lean ====
section
/-!
DEFINITION. Reading and writing memory: bytes in the canonical list of cells, and over them the word, the only width of
access the hardware has (20_memory.md R50, R67), its bytes least significant first (R65; log 1).
-/

namespace Sys2Proof.Machine

/-- The canonical form: byte addresses strictly rising, and no cell that holds what an unlisted byte reads as. -/
abbrev Memory.wf (m : Memory) : Prop :=
  m.Pairwise (fun c d => c.1 < d.1) ∧ ∀ c ∈ m, c.2 ≠ Memory.unlistedByte

/-- The byte at a byte address. -/
def Memory.readByte : Memory → Nat → Byte
  | [], _ => Memory.unlistedByte
  | (k, b) :: m, a => if k = a then b else Memory.readByte m a

/-- The memory with one byte replaced, in canonical form if it was. -/
def Memory.writeByte : Memory → Nat → Byte → Memory
  | [], a, b => if b = Memory.unlistedByte then [] else [(a, b)]
  | (k, c) :: m, a, b =>
    if a < k then
      if b = Memory.unlistedByte then (k, c) :: m else (a, b) :: (k, c) :: m
    else if a = k then
      if b = Memory.unlistedByte then m else (a, b) :: m
    else (k, c) :: Memory.writeByte m a b

/-- Some bytes stored at rising addresses. -/
def Memory.writeBytes (m : Memory) (a : Nat) : List Byte → Memory
  | [] => m
  | b :: bs => Memory.writeBytes (m.writeByte a b) (a + 1) bs

/-- The byte of a word that stands `k` bytes above its lowest one (R65: least significant first). -/
def byteOf (w : Word) (k : Nat) : Byte := w.extractLsb' (8 * k) 8

/-- The eight bytes of a word, least significant first (R65, R76). -/
def wordBytes (w : Word) : List Byte :=
  [byteOf w 0, byteOf w 1, byteOf w 2, byteOf w 3, byteOf w 4, byteOf w 5, byteOf w 6, byteOf w 7]

/-- The word of eight bytes, the first the least significant (R65, R76). -/
def joinBytes (b0 b1 b2 b3 b4 b5 b6 b7 : Byte) : Word := b7 ++ b6 ++ b5 ++ b4 ++ b3 ++ b2 ++ b1 ++ b0

/-- The word at a word address. -/
def Memory.readWord (m : Memory) (a : Nat) : Word :=
  joinBytes (m.readByte (8 * a)) (m.readByte (8 * a + 1)) (m.readByte (8 * a + 2)) (m.readByte (8 * a + 3))
    (m.readByte (8 * a + 4)) (m.readByte (8 * a + 5)) (m.readByte (8 * a + 6)) (m.readByte (8 * a + 7))

/-- The memory with the word at a word address replaced. -/
def Memory.writeWord (m : Memory) (a : Nat) (w : Word) : Memory := m.writeBytes (8 * a) (wordBytes w)

end Sys2Proof.Machine
end

