-- ==== Sys2Proof/Machine/Ops.lean ====
section
/-!
DEFINITION. The named operations over the state: registers (10_state.md R22, R23), the interrupt controller
(60_exceptions.md R403 to R406), the bus (20_memory.md R51 to R64), interrupt entry and return (R420, R203).
-/

namespace Sys2Proof.Machine

/-- An operation of the machine: it answers a value and the next state, or a fatal condition (R9). -/
abbrev SM := StateT State (Except Fault)

/-! ## Registers -/

/-- `x[r]` (R22): the constant registers read their constant. -/
def State.readReg (s : State) : Reg → Word
  | .gp n => s.gpr[n]
  | .rzero => 0
  | .rone => 1
  | .rmax => Word.maxValue
  | .rip => s.rip
  | .rsp => s.rsp
  | .rbp => s.rbp
  | .rsip => s.rsip
  | .rint1 => s.rint1
  | .rint2 => s.rint2

/-- `x[r] <- v` (R23): a write to a constant register is discarded. (The Tick's record that RIP was written is
`setReg`'s, Machine/Operands.lean.) -/
def State.writeReg (s : State) (r : Reg) (v : Word) : State :=
  match r with
  | .gp n => { s with gpr := s.gpr.set n v }
  | .rzero => s
  | .rone => s
  | .rmax => s
  | .rip => { s with rip := v }
  | .rsp => { s with rsp := v }
  | .rbp => { s with rbp := v }
  | .rsip => { s with rsip := v }
  | .rint1 => { s with rint1 := v }
  | .rint2 => { s with rint2 := v }

/-- The constant registers (R20, R22, R23). -/
def constantReg : Reg → Bool
  | .rzero => true
  | .rone => true
  | .rmax => true
  | _ => false

/-! ## The interrupt controller -/

/-- The interrupt types the core raises (R401). -/
def typeInvalidInstruction : Word := 0

/-- The interrupt type of a zero divisor (R401). -/
def typeDivideByZero : Word := 1

/-- The interrupt type of the system timer (R401). -/
def typeSystemTimer : Word := 2

/-- The number of vector table entries (R35). -/
def vectorCount : Nat := 4096

/-- The handler the vector table names for a type (R35). -/
def State.vector (s : State) (type : Word) : Word := s.vectors.readWord type.toNat

/-- `PendingCount` (R405). -/
def State.pendingCount (s : State) : Nat := s.queue.length

/-- The atomic part of `Enqueue` (R403): the vector is captured now, and a type of 4096 or more is fatal. -/
def appendRecord (type data1 data2 : Word) (s : State) : Except Fault State :=
  if vectorCount ≤ type.toNat then .error .badInterruptType
  else .ok { s with queue := s.queue ++ [⟨type, data1, data2, s.vector type⟩] }

/-- The record that an arrival enqueues, where the spec admits it: the timer's once the machine has started (R414, R430);
a device's when the device is attached and declares the type (R415). -/
def Arrival.record (s : State) : Arrival → Option (Word × Word × Word)
  | .timer => if s.started then some (typeSystemTimer, 0, 0) else none
  | .device id type data1 data2 =>
    match s.devices[id]? with
    | some d => if s.started && d.irqTypes.contains type then some (type, data1, data2) else none
    | none => none

/-- The arrivals of one interleaving point, in order. -/
def takeArrivals : List Arrival → State → Except Fault State
  | [], s => .ok s
  | x :: xs, s =>
    match x.record s with
    | none => takeArrivals xs s
    | some (type, data1, data2) =>
      match appendRecord type data1 data2 s with
      | .ok s' => takeArrivals xs s'
      | .error f => .error f

/-- What a schedule holds for the interleaving point at hand. -/
def Schedule.now (c : Schedule) : List Arrival :=
  match c.next, c.again with
  | now :: _, _ => now
  | [], now :: _ => now
  | [], [] => []

/-- The schedule after one interleaving point. -/
def Schedule.rest (c : Schedule) : Schedule :=
  match c.next, c.again with
  | _ :: later, again => ⟨later, again⟩
  | [], now :: later => ⟨later, now :: later⟩
  | [], [] => .quiet

/-- The schedule after `n` interleaving points. -/
def Schedule.after (c : Schedule) : Nat → Schedule
  | 0 => c
  | n + 1 => c.rest.after n

/-- An interleaving point (R411; log 5): the timer and the devices enqueue what the schedule holds for this point.
One stands before every bus access and before every queue operation of the processor. -/
def poll : SM Unit := fun s =>
  match takeArrivals s.arrivals.now { s with arrivals := s.arrivals.rest } with
  | .ok s' => .ok ((), s')
  | .error f => .error f

/-- `Enqueue(type, data1, data2)` by the processor (R403), which is also `raise` (R9). -/
def enqueue (type data1 data2 : Word) : SM Unit := do
  poll
  let s ← get
  match appendRecord type data1 data2 s with
  | .ok s' => set s'
  | .error f => throw f

/-- `Dequeue()` (R404). -/
def dequeue : SM InterruptRecord := fun s =>
  match s.queue with
  | [] => .error .dequeueEmpty
  | r :: rest => .ok (r, { s with queue := rest })

/-! ## Taking an interrupt and returning from one -/

/-- Interrupt entry (R420, R421): RIP is saved in RSIP, the handler's address and the two data words are loaded, and
`inISR` is set; nothing else changes. -/
def State.enterInterrupt (s : State) (r : InterruptRecord) : State :=
  { s with rsip := s.rip, rip := r.handler, rint1 := r.data1, rint2 := r.data2, inISR := true }

/-- Return from an interrupt (R203, R424): RIP takes RSIP's value, RSIP, RINT1 and RINT2 become 0, `inISR` is cleared;
nothing else changes. -/
def State.returnFromInterrupt (s : State) : State :=
  { s with rip := s.rsip, rsip := 0, rint1 := 0, rint2 := 0, inISR := false }

/-- May a record be delivered (R420, R423)? -/
def State.deliverable (s : State) : Bool := s.ie && !s.inISR && decide (0 < s.pendingCount)

/-- `Deliver()` (R420): the last step of every Tick takes at most one record. -/
def deliver : SM Unit := do
  poll
  let s ← get
  if s.deliverable then do
    let r ← dequeue
    modify fun s => s.enterInterrupt r
  else pure ()

/-! ## The bus -/

/-- The device id of an address: bits [63:52] (R51). -/
def devId (a : Word) : Nat := (a.extractLsb' 52 12).toNat

/-- The device-local address: bits [51:0] (R51). -/
def localAddr (a : Word) : BitVec 52 := a.extractLsb' 0 52

/-- The id of the directory (R53). -/
def directoryId : Nat := 0xFFF

/-- `nextId` (R37, R55): ids are given in sequence from 0 and none is taken back, so it is the number of devices. -/
def State.nextId (s : State) : Nat := s.devices.length

/-- A device's own state after an access to it (R61). -/
def State.setDeviceState (s : State) (id : Nat) (d : Device) (behaviour state : Nat) : State :=
  { s with devices := s.devices.set id { d with kind := .external behaviour state } }

/-- `ReadWord` of a device (R62 to R64). RAM, the boot device and the vector table have no read side effects (R68). -/
def State.deviceReadWord (s : State) (id : Nat) (d : Device) (addr : Word) : Except Fault (Word × State) :=
  let l := localAddr addr
  match d.kind with
  | .ram size => if l.toNat < size then .ok (s.mem.readWord addr.toNat, s) else .error .deviceOutOfRange
  | .rom size => if l.toNat < size then .ok (s.mem.readWord addr.toNat, s) else .error .deviceOutOfRange
  | .interruptController =>
    if l.toNat < vectorCount then .ok (s.vectors.readWord l.toNat, s) else .error .deviceOutOfRange
  | .external behaviour state =>
    match Config.deviceRead behaviour state l with
    | some (v, state') => .ok (v, s.setDeviceState id d behaviour state')
    | none => .error .deviceFatal

/-- `WriteWord` of a device (R62 to R64). -/
def State.deviceWriteWord (s : State) (id : Nat) (d : Device) (addr v : Word) : Except Fault State :=
  let l := localAddr addr
  match d.kind with
  | .ram size =>
    if l.toNat < size then .ok { s with mem := s.mem.writeWord addr.toNat v } else .error .deviceOutOfRange
  | .rom _ => .error .readOnlyDevice
  | .interruptController =>
    if l.toNat < vectorCount then .ok { s with vectors := s.vectors.writeWord l.toNat v } else .error .deviceOutOfRange
  | .external behaviour state =>
    match Config.deviceWrite behaviour state l v with
    | some state' => .ok (s.setDeviceState id d behaviour state')
    | none => .error .deviceFatal

/-- The access of `MemRead(addr, 1)` (R57): the directory, a hole, or the device with this id. -/
def State.readAt (s : State) (addr : Word) : Except Fault (Word × State) :=
  if devId addr = directoryId then
    match s.directory[(localAddr addr).toNat]? with
    | some v => .ok (v, s)
    | none => .error .directoryOutOfRange
  else
    match s.devices[devId addr]? with
    | some d => s.deviceReadWord (devId addr) d addr
    | none => .error .noDeviceAtId

/-- The access of `MemWrite(addr, 1, v)` (R58). -/
def State.writeAt (s : State) (addr v : Word) : Except Fault State :=
  if devId addr = directoryId then .error .directoryWrite
  else
    match s.devices[devId addr]? with
    | some d => s.deviceWriteWord (devId addr) d addr v
    | none => .error .noDeviceAtId

/-- `MemRead(addr, 1)` (R57). -/
def busRead (addr : Word) : SM Word := do
  poll
  let s ← get
  match s.readAt addr with
  | .ok (v, s') => do
    set s'
    pure v
  | .error f => throw f

/-- `MemWrite(addr, 1, v)` (R58). -/
def busWrite (addr v : Word) : SM Unit := do
  poll
  let s ← get
  match s.writeAt addr v with
  | .ok s' => set s'
  | .error f => throw f

/-- The word at an address, looked at from outside the machine: what a read returns, for the addresses whose reads
have no side effect (R68); `none` where a read is fatal or reaches a device of the DEVICES parameter. -/
def State.peek (s : State) (addr : Word) : Option Word :=
  if devId addr = directoryId then s.directory[(localAddr addr).toNat]?
  else
    match s.devices[devId addr]? with
    | none => none
    | some d =>
      let l := localAddr addr
      match d.kind with
      | .ram size => if l.toNat < size then some (s.mem.readWord addr.toNat) else none
      | .rom size => if l.toNat < size then some (s.mem.readWord addr.toNat) else none
      | .interruptController => if l.toNat < vectorCount then some (s.vectors.readWord l.toNat) else none
      | .external _ _ => none

/-! ## BusCopy (R60) -/

/-- Does a range of `len` words, `len` not 0, leave its device window or wrap (R60)? -/
def rangeCrosses (start len : Word) : Bool :=
  let last := start + (len - 1)
  decide (last.toNat < start.toNat) || decide (devId last ≠ devId start)

/-- Bus reads at rising addresses. -/
def busReadRange (a : Word) : Nat → SM (List Word)
  | 0 => pure []
  | n + 1 => do
    let v ← busRead a
    let vs ← busReadRange (a + 1) n
    pure (v :: vs)

/-- Bus writes at rising addresses. -/
def busWriteRange (a : Word) : List Word → SM Unit
  | [] => pure ()
  | v :: vs => do
    busWrite a v
    busWriteRange (a + 1) vs

/-- `BusCopy(src, dst, len)` (R60): every word is read before any is written. -/
def busCopy (src dst len : Word) : SM Unit :=
  if len = 0 then pure ()
  else if rangeCrosses src len then throw .copyCrossesDevice
  else if rangeCrosses dst len then throw .copyCrossesDevice
  else do
    let vs ← busReadRange src len.toNat
    busWriteRange dst vs

end Sys2Proof.Machine
end

