-- ==== Sys2Proof/Machine/Flags.lean ====
section
/-!
DEFINITION. The core has no flags register and no condition codes (10_state.md R29). What stands in their place: the
Boolean word a comparison writes (44_compare.md R310), and the zero test of a conditional operand (40_execution.md R155).
-/

namespace Sys2Proof.Machine

/-- The result of a comparison (R310): MAX when the relation holds, 0 when it does not. -/
def boolWord (p : Bool) : Word := if p then Word.maxValue else 0

/-- The gate's test of the conditional operand's value (R155). -/
def gatePasses (pred : Pred) (v : Word) : Bool :=
  match pred with
  | .whenZero => decide (v = 0)
  | .whenNotZero => decide (v ≠ 0)

end Sys2Proof.Machine
end

