-- ==== Sys2Proof/Machine/Operands.lean ====
section
/-!
DEFINITION. The Tick's engine (40_execution.md): the stack (R160), reading an operand (R161, R162), writing one (R163,
R164), the conditional gate (R155), the load, dispatch and store phases (R154 to R158) and the IP advance (R159).
-/

namespace Sys2Proof.Machine

/-- The state during a Tick, with the Tick's record that some write to RIP happened in it (R152). The record does not
survive the Tick (R38). -/
structure Tick where
  st : State
  ipWritten : Bool
  deriving DecidableEq, Repr

/-- An operation inside a Tick. -/
abbrev TickM := StateT Tick (Except Fault)

/-- An operation of the machine inside a Tick. -/
def onState {α : Type} (m : SM α) : TickM α := fun t =>
  match m t.st with
  | .ok (a, s) => .ok (a, { t with st := s })
  | .error f => .error f

/-- `x[r]` inside a Tick (R22). -/
def getReg (r : Reg) : TickM Word := fun t => .ok (t.st.readReg r, t)

/-- `x[r] <- v` inside a Tick (R23): a write to RIP sets `ipWritten`. -/
def setReg (r : Reg) (v : Word) : TickM Unit := fun t =>
  .ok ((), ⟨t.st.writeReg r v, t.ipWritten || decide (r = .rip)⟩)

/-- `pc <- target` (R9). -/
def jump (target : Word) : TickM Unit := setReg .rip target

/-! ## The stack (R160) -/

/-- The first half of `Push`: RSP is decremented, and its new value is where the word goes. -/
def pushAddress : TickM Word := do
  let sp ← getReg .rsp
  setReg .rsp (sp - 1)
  pure (sp - 1)

/-- `Push(v)` (R160). -/
def push (v : Word) : TickM Unit := do
  let a ← pushAddress
  onState (busWrite a v)

/-- `Pop()` (R160). -/
def pop : TickM Word := do
  let sp ← getReg .rsp
  let v ← onState (busRead sp)
  setReg .rsp (sp + 1)
  pure v

/-! ## Reading an operand (R161, R162) -/

/-- The relative register is added after the primary resolution (R103, R161). -/
def addRel (rel : Rel) (v : Word) : TickM Word :=
  match rel with
  | .none => pure v
  | .ip => do
    let x ← getReg .rip
    pure (v + x)
  | .sp => do
    let x ← getReg .rsp
    pure (v + x)
  | .bp => do
    let x ← getReg .rbp
    pure (v + x)

/-- The indirection, one more bus read at the resolved value (R161): the value, and the address it was read at. -/
def deref (ind : Bool) (v : Word) : TickM (Word × Option Word) :=
  if ind then do
    let w ← onState (busRead v)
    pure (w, some v)
  else pure (v, none)

/-- The value of a sub-operand's kind (R161). -/
def subKindValue : SubKind → TickM Word
  | .register r => getReg r
  | .stack => pop
  | .literal l => pure l.value

/-- `GetValue` of a sub-operand (R161, R162). -/
def subValue (p : SubOperand) : TickM Word := do
  let v ← subKindValue p.kind
  let v ← addRel p.rel v
  let w ← deref p.ind v
  pure w.1

/-- `Term` (R162): a sub-operand's value, negated when its neg bit is set. -/
def termValue (p : SignedSub) : TickM Word := do
  let w ← subValue p.op
  pure (if p.neg then -w else w)

/-- `Term` of a sub-operand that may be absent, with the value an absent one has (R109, R162). -/
def optTermValue (default : Word) : Option SignedSub → TickM Word
  | none => pure default
  | some p => termValue p

/-- The value of an operand's kind; for Calculated, `CalcValue` (R161, R162). -/
def kindValue : Kind → TickM Word
  | .register r => getReg r
  | .stack => pop
  | .literal l => pure l.value
  | .calculated b i s o => do
    let vb ← termValue b
    let vi ← optTermValue 0 i
    let vs ← optTermValue 1 s
    let vo ← optTermValue 0 o
    pure (vb + vi * vs + vo)

/-- `Primary` (R161). -/
def primary (kind : Kind) (rel : Rel) : TickM Word := do
  let v ← kindValue kind
  addRel rel v

/-- `Load` (R161): the operand's value, and the address it resolved to when it is indirect. -/
def load (p : Operand) : TickM (Word × Option Word) := do
  let v ← primary p.kind p.rel
  deref p.ind v

/-- `GetValue` (R161). -/
def getValue (p : Operand) : TickM Word := do
  let w ← load p
  pure w.1

/-! ## Writing an operand (R163, R164) -/

/-- Where a store goes: a register, or a word of the address space. -/
inductive Target where
  | register (r : Reg)
  | word (addr : Word)
  deriving DecidableEq, Repr

/-- The place a destination names when it is stored to. `addr` is the address the load phase resolved, which is used
again (R164); a Write-only operand resolves its address now; a direct Stack destination pushes (R163). -/
def resolveDest (d : Dest) (addr : Option Word) : TickM Target :=
  match d with
  | .register r => pure (.register r)
  | .stack => do
    let a ← pushAddress
    pure (.word a)
  | .indirect kind rel =>
    match addr with
    | some a => pure (.word a)
    | none => do
      let a ← primary kind rel
      pure (.word a)

/-- The one register write or bus write of a store (R163). -/
def writeTarget (target : Target) (v : Word) : TickM Unit :=
  match target with
  | .register r => setReg r v
  | .word a => onState (busWrite a v)

/-- `Store` (R163). -/
def storeDest (d : Dest) (v : Word) (addr : Option Word) : TickM Unit := do
  let target ← resolveDest d addr
  writeTarget target v

/-! ## Slots (R154) -/

/-- An operand slot of a Tick (R154). -/
structure Slot where
  v : Word
  addr : Option Word
  dirty : Bool
  deriving DecidableEq, Repr

/-- The value of slot `k` (R154: a slot that is not loaded reads 0). -/
def slotValue (slots : List Slot) (k : Nat) : Word :=
  match slots[k]? with
  | some x => x.v
  | none => 0

/-- `slot k <- v`: the handler writes a slot, which marks it dirty (R154). -/
def setSlot (slots : List Slot) (k : Nat) (v : Word) : List Slot :=
  slots.modify k fun x => { x with v := v, dirty := true }

/-- One slot of the load phase: a Read operand is loaded, a Write-only one is not resolved (R156). -/
def loadParam : Param → TickM Slot
  | .read p => do
    let w ← load p
    pure ⟨w.1, w.2, false⟩
  | .write _ => pure ⟨0, none, false⟩
  | .readWrite d => do
    let w ← load d.operand
    pure ⟨w.1, w.2, false⟩

/-- The load phase, in slot order (R156). -/
def loadPhase : List Param → TickM (List Slot)
  | [] => pure []
  | p :: ps => do
    let x ← loadParam p
    let xs ← loadPhase ps
    pure (x :: xs)

/-- One slot of the store phase: a Write operand is stored when its slot is dirty (R158). -/
def storeParam (p : Param) (x : Slot) : TickM Unit :=
  match p with
  | .read _ => pure ()
  | .write d => if x.dirty then storeDest d x.v x.addr else pure ()
  | .readWrite d => if x.dirty then storeDest d x.v x.addr else pure ()

/-- The store phase, in slot order (R158). -/
def storePhase : List Param → List Slot → TickM Unit
  | p :: ps, x :: xs => do
    storeParam p x
    storePhase ps xs
  | _, _ => pure ()

/-! ## The conditional gate (R155) -/

/-- The gate: without a conditional operand it is on; with one, the operand is resolved and tested. -/
def evalGate : Option Gate → TickM Bool
  | none => pure true
  | some g => do
    let v ← getValue g.operand
    pure (gatePasses g.pred v)

/-! ## Dispatch (R150, R157) -/

/-- What a handler is given of its Tick beside the slots (R157): the opcode, the instruction's address, the next one's. -/
structure Env where
  opcode : Word
  a : Word
  nextIP : Word
  deriving DecidableEq, Repr

/-- An opcode's handler: it may read and write slot values and call the machine's operations (R157). -/
abbrev Handler := Env → List Slot → TickM (List Slot)

/-- The address after an instruction of some length at `a` (R152). -/
def nextIP (a : Word) (length : Nat) : Word := a + BitVec.ofNat 64 length

/-- What an instruction at `a` gives its handler. -/
def envOf (i : Instr) (a : Word) : Env := ⟨i.shape.opcode.setWidth 64, a, nextIP a i.length⟩

/-- The body of a Tick for a well-formed instruction: gate, load phase, handler, store phase (R150). -/
def tickBody (i : Instr) (h : Handler) (a : Word) : TickM Unit := do
  let on ← evalGate i.shape.gate
  if on then do
    let slots ← loadPhase i.shape.params
    let slots ← h (envOf i a) slots
    storePhase i.shape.params slots
  else pure ()

/-- The IP advance: if no write to RIP happened during the Tick, RIP becomes `nextIP` (R159). -/
def Tick.advance (t : Tick) (next : Word) : State := if t.ipWritten then t.st else { t.st with rip := next }

/-- The Tick of a well-formed instruction from its gate to its IP advance (R150). Decode comes before it and delivery
after it (Machine/Step.lean). -/
def runInstr (i : Instr) (h : Handler) (s : State) : Host.Outcome State Fault Refusal :=
  match (tickBody i h s.rip).run ⟨s, false⟩ with
  | .ok (_, t) => .next (t.advance (nextIP s.rip i.length))
  | .error f => .fault f

/-- A handler that writes slot 0 with a function of slots 1 and 2: the form `dest = src1 <op> src2`. -/
def binaryHandler (f : Word → Word → Word) : Handler := fun _ slots =>
  pure (setSlot slots 0 (f (slotValue slots 1) (slotValue slots 2)))

/-- A handler that writes slot 0 with a function of slot 1. -/
def unaryHandler (f : Word → Word) : Handler := fun _ slots => pure (setSlot slots 0 (f (slotValue slots 1)))

/-- `raise DivideByZero(opcode, a)` and a clean destination when the divisor is zero, the quotient or remainder otherwise
(R253). -/
def divideHandler (isZero : Word → Bool) (f : Word → Word → TickM Word) : Handler := fun env slots =>
  if isZero (slotValue slots 2) then do
    onState (enqueue typeDivideByZero env.opcode env.a)
    pure slots
  else do
    let r ← f (slotValue slots 1) (slotValue slots 2)
    pure (setSlot slots 0 r)

end Sys2Proof.Machine
end

