-- ==== Sys2Proof/Machine/Float64.lean ====
section
/-!
DEFINITION. Binary64 arithmetic (42_arith.md R251, R252, R259 to R263) over natural numbers: every finite value is a whole
number of units of 2^-1074, the least subnormal, so that an operation is computed exactly as a fraction of units and
rounded once, to nearest with ties to even (log 12). A result is `none` where IEEE-754 gives a NaN, whose bits are a
draw (R252; log 9).
-/

namespace Sys2Proof.Machine

/-- The sign bit of a word read as a binary64. -/
def f64Sign (w : Word) : Bool := w.getLsbD 63

/-- The biased exponent, bits [62:52]. -/
def f64Exp (w : Word) : Nat := (w.extractLsb' 52 11).toNat

/-- The fraction, bits [51:0]. -/
def f64Frac (w : Word) : Nat := (w.extractLsb' 0 52).toNat

/-- A NaN: exponent all ones, fraction not zero (R252). -/
def f64IsNaN (w : Word) : Bool := f64Exp w == 2047 && f64Frac w != 0

/-- An infinity. -/
def f64IsInf (w : Word) : Bool := f64Exp w == 2047 && f64Frac w == 0

/-- +0.0 or -0.0 (R253). -/
def f64IsZero (w : Word) : Bool := f64Exp w == 0 && f64Frac w == 0

/-- The magnitude of a finite value in units of 2^-1074. -/
def f64Units (w : Word) : Nat :=
  if f64Exp w = 0 then f64Frac w else (2 ^ 52 + f64Frac w) * 2 ^ (f64Exp w - 1)

/-- A finite value in units of 2^-1074, with its sign. -/
def f64Int (w : Word) : Int := if f64Sign w then -(f64Units w : Int) else (f64Units w : Int)

/-- The exponent and fraction bits of an infinity. -/
def f64InfBits : Nat := 2047 * 2 ^ 52

/-- A word with a sign and the exponent and fraction bits `bits`. -/
def f64Pack (neg : Bool) (bits : Nat) : Word := BitVec.ofNat 64 ((if neg then 2 ^ 63 else 0) + bits)

/-- How many low bits of a magnitude of `q` whole units lie below the 53 significant ones. -/
def f64Shift (q : Nat) : Nat := Nat.log2 q - 52

/-- `n / d` to the nearest whole number, ties to the even one. -/
def roundHalfEven (n d : Nat) : Nat :=
  if d < 2 * (n % d) ∨ (d = 2 * (n % d) ∧ n / d % 2 = 1) then n / d + 1 else n / d

/-- The exponent and fraction bits of `n / d` units rounded to nearest, ties to even (R251): with `k` bits dropped the
significand `f` stands at bits `k * 2 ^ 52 + f`, also where rounding carried it to 2 ^ 53; a magnitude too large is an
infinity. -/
def f64Round (n d : Nat) : Nat :=
  let k := f64Shift (n / d)
  min (k * 2 ^ 52 + roundHalfEven n (d * 2 ^ k)) f64InfBits

/-- The binary64 sum (R259). An exact zero sum is +0 unless both operands are negative zeros. -/
def f64Add (b c : Word) : Option Word :=
  if f64IsNaN b || f64IsNaN c then none
  else if f64IsInf b then if f64IsInf c && (f64Sign b != f64Sign c) then none else some b
  else if f64IsInf c then some c
  else
    let x := f64Int b + f64Int c
    if x = 0 then some (f64Pack (f64Sign b && f64Sign c) 0)
    else some (f64Pack (decide (x < 0)) (f64Round x.natAbs 1))

/-- A word with its sign bit inverted. -/
def f64Neg (w : Word) : Word := w ^^^ BitVec.ofNat 64 (2 ^ 63)

/-- The binary64 difference (R260): the sum with the subtrahend negated. -/
def f64Sub (b c : Word) : Option Word := f64Add b (f64Neg c)

/-- The binary64 product (R261); its sign is the exclusive or of the signs. -/
def f64Mul (b c : Word) : Option Word :=
  let neg := f64Sign b != f64Sign c
  if f64IsNaN b || f64IsNaN c then none
  else if f64IsInf b || f64IsInf c then
    if f64IsZero b || f64IsZero c then none else some (f64Pack neg f64InfBits)
  else some (f64Pack neg (f64Round (f64Units b * f64Units c) (2 ^ 1074)))

/-- The binary64 quotient by a divisor that is not a zero (R262). -/
def f64Div (b c : Word) : Option Word :=
  let neg := f64Sign b != f64Sign c
  if f64IsNaN b || f64IsNaN c then none
  else if f64IsInf b then if f64IsInf c then none else some (f64Pack neg f64InfBits)
  else if f64IsInf c then some (f64Pack neg 0)
  else some (f64Pack neg (f64Round (f64Units b * 2 ^ 1074) (f64Units c)))

/-- The truncating remainder by a divisor that is not a zero (R263): exact, with the sign of the dividend. -/
def f64Mod (b c : Word) : Option Word :=
  if f64IsNaN b || f64IsNaN c then none
  else if f64IsInf b then none
  else if f64IsInf c then some b
  else some (f64Pack (f64Sign b) (f64Round (f64Units b % f64Units c) 1))

/-- The NaN that a drawn word stands for (R252): exponent all ones, a fraction that is not zero, any sign. Every NaN is
the NaN of some drawn word. -/
def nanOf (draw : Word) : Word :=
  let frac := draw.extractLsb' 0 52
  draw.extractLsb' 63 1 ++ BitVec.allOnes 11 ++ (if frac = 0 then 1#52 else frac)

/-- The next `NAN_RESULT` draw (R252): a free value (log 9). -/
def drawNaN : TickM Word := fun t =>
  .ok (nanOf (Config.nanDraw t.st.draws), { t with st := { t.st with draws := t.st.draws + 1 } })

/-- The word a floating-point instruction writes (R251, R252). -/
def floatResult : Option Word → TickM Word
  | some w => pure w
  | none => drawNaN

/-- A handler of a floating-point instruction that cannot divide by zero. -/
def floatHandler (f : Word → Word → Option Word) : Handler := fun _ slots => do
  let r ← floatResult (f (slotValue slots 1) (slotValue slots 2))
  pure (setSlot slots 0 r)

end Sys2Proof.Machine
end

