-- ==== Sys2Proof/Machine/Arith.lean ====
section
/-!
DEFINITION. The arithmetic instructions (42_arith.md), integer and binary64.
-/

namespace Sys2Proof.Machine

/-- ADD (R254): the sum modulo 2^64. -/
def execAdd (g : Option Gate) (dest : Dest) (src1 src2 : Operand) (s : State) : Host.Outcome State Fault Refusal :=
  runInstr (.add g dest src1 src2) (binaryHandler fun b c => b + c) s

/-- SUB (R255): the difference modulo 2^64, src1 the minuend. -/
def execSub (g : Option Gate) (dest : Dest) (src1 src2 : Operand) (s : State) : Host.Outcome State Fault Refusal :=
  runInstr (.sub g dest src1 src2) (binaryHandler fun b c => b - c) s

/-- MUL (R256): the low 64 bits of the product. -/
def execMul (g : Option Gate) (dest : Dest) (src1 src2 : Operand) (s : State) : Host.Outcome State Fault Refusal :=
  runInstr (.mul g dest src1 src2) (binaryHandler fun b c => b * c) s

/-- Integer zero as a divisor (R253). -/
def intIsZero (c : Word) : Bool := decide (c = 0)

/-- DIV (R257): the unsigned quotient; a zero divisor raises `DivideByZero` and leaves the destination (R253). -/
def execDiv (g : Option Gate) (dest : Dest) (src1 src2 : Operand) (s : State) : Host.Outcome State Fault Refusal :=
  runInstr (.div g dest src1 src2) (divideHandler intIsZero fun b c => pure (BitVec.udiv b c)) s

/-- MOD (R258): the unsigned remainder; a zero divisor raises `DivideByZero` and leaves the destination (R253). -/
def execMod (g : Option Gate) (dest : Dest) (src1 src2 : Operand) (s : State) : Host.Outcome State Fault Refusal :=
  runInstr (.mod g dest src1 src2) (divideHandler intIsZero fun b c => pure (BitVec.umod b c)) s

/-- ADDF (R259). -/
def execAddf (g : Option Gate) (dest : Dest) (src1 src2 : Operand) (s : State) : Host.Outcome State Fault Refusal :=
  runInstr (.addf g dest src1 src2) (floatHandler f64Add) s

/-- SUBF (R260). -/
def execSubf (g : Option Gate) (dest : Dest) (src1 src2 : Operand) (s : State) : Host.Outcome State Fault Refusal :=
  runInstr (.subf g dest src1 src2) (floatHandler f64Sub) s

/-- MULF (R261). -/
def execMulf (g : Option Gate) (dest : Dest) (src1 src2 : Operand) (s : State) : Host.Outcome State Fault Refusal :=
  runInstr (.mulf g dest src1 src2) (floatHandler f64Mul) s

/-- DIVF (R262): a divisor of +0.0 or -0.0 raises `DivideByZero` and leaves the destination (R253). -/
def execDivf (g : Option Gate) (dest : Dest) (src1 src2 : Operand) (s : State) : Host.Outcome State Fault Refusal :=
  runInstr (.divf g dest src1 src2) (divideHandler f64IsZero fun b c => floatResult (f64Div b c)) s

/-- MODF (R263): a divisor of +0.0 or -0.0 raises `DivideByZero` and leaves the destination (R253). -/
def execModf (g : Option Gate) (dest : Dest) (src1 src2 : Operand) (s : State) : Host.Outcome State Fault Refusal :=
  runInstr (.modf g dest src1 src2) (divideHandler f64IsZero fun b c => floatResult (f64Mod b c)) s

end Sys2Proof.Machine
end

