-- ==== Sys2Proof/Machine/Basic.lean ====
section
/-!
DEFINITION. The basic instructions (41_basic.md): HLT, NOP, INT, EINT, INTE, INTD, XCHG, CAS, SET, CPY, CALL, RET.
-/

namespace Sys2Proof.Machine

/-- HLT (R200): RIP is written with the HLT's own address, so it does not advance. The wait for an interrupt is no
step and changes no state (R406). -/
def hltHandler : Handler := fun env slots => do
  jump env.a
  pure slots

/-- HLT (R200). -/
def execHlt (g : Option Gate) (s : State) : Host.Outcome State Fault Refusal := runInstr (.hlt g) hltHandler s

/-- NOP (R201). -/
def execNop (g : Option Gate) (s : State) : Host.Outcome State Fault Refusal :=
  runInstr (.nop g) (fun _ slots => pure slots) s

/-- INT (R202): a record of the type is queued with its vector captured now; a type of 4096 or more raises
`InvalidInstruction`. -/
def intHandler : Handler := fun env slots => do
  if vectorCount ≤ (slotValue slots 0).toNat then onState (enqueue typeInvalidInstruction env.opcode env.a)
  else onState (enqueue (slotValue slots 0) (slotValue slots 1) (slotValue slots 2))
  pure slots

/-- INT (R202). -/
def execInt (g : Option Gate) (type data1 data2 : Operand) (s : State) : Host.Outcome State Fault Refusal :=
  runInstr (.int g type data1 data2) intHandler s

/-- The return of EINT inside a Tick: RIP is written (R203). -/
def returnInTick : TickM Unit := fun t => .ok ((), ⟨t.st.returnFromInterrupt, true⟩)

/-- EINT (R203): return from the handler; outside a handler it raises `InvalidInstruction`. -/
def eintHandler : Handler := fun env slots => do
  let t ← get
  if t.st.inISR then returnInTick
  else onState (enqueue typeInvalidInstruction env.opcode env.a)
  pure slots

/-- EINT (R203). -/
def execEint (g : Option Gate) (s : State) : Host.Outcome State Fault Refusal := runInstr (.eint g) eintHandler s

/-- A handler that sets `IE`. -/
def enableHandler (on : Bool) : Handler := fun _ slots => do
  onState (modify fun s => { s with ie := on })
  pure slots

/-- INTE (R204). -/
def execInte (g : Option Gate) (s : State) : Host.Outcome State Fault Refusal := runInstr (.inte g) (enableHandler true) s

/-- INTD (R205). -/
def execIntd (g : Option Gate) (s : State) : Host.Outcome State Fault Refusal := runInstr (.intd g) (enableHandler false) s

/-- XCHG (R206): both slots are written, each with the other's loaded value. -/
def xchgHandler : Handler := fun _ slots =>
  pure (setSlot (setSlot slots 0 (slotValue slots 1)) 1 (slotValue slots 0))

/-- XCHG (R206). -/
def execXchg (g : Option Gate) (a b : Dest) (s : State) : Host.Outcome State Fault Refusal :=
  runInstr (.xchg g a b) xchgHandler s

/-- CAS (R207): one slot is written, the target's on success and the expected one's on failure. -/
def casHandler : Handler := fun _ slots =>
  if slotValue slots 0 = slotValue slots 1 then pure (setSlot slots 0 (slotValue slots 2))
  else pure (setSlot slots 1 (slotValue slots 0))

/-- CAS (R207). -/
def execCas (g : Option Gate) (target expected : Dest) (new : Operand) (s : State) : Host.Outcome State Fault Refusal :=
  runInstr (.cas g target expected new) casHandler s

/-- SET (R208). -/
def execSet (g : Option Gate) (dest : Dest) (src : Operand) (s : State) : Host.Outcome State Fault Refusal :=
  runInstr (.set g dest src) (unaryHandler id) s

/-- CPY (R209): the operands are the destination address, the source address and the word count. -/
def cpyHandler : Handler := fun _ slots => do
  onState (busCopy (slotValue slots 1) (slotValue slots 0) (slotValue slots 2))
  pure slots

/-- CPY (R209). -/
def execCpy (g : Option Gate) (dest src len : Operand) (s : State) : Host.Outcome State Fault Refusal :=
  runInstr (.cpy g dest src len) cpyHandler s

/-- CALL (R210): the return address is pushed, then RIP is written with the target, which was loaded first. -/
def callHandler : Handler := fun env slots => do
  push env.nextIP
  jump (slotValue slots 0)
  pure slots

/-- CALL (R210). -/
def execCall (g : Option Gate) (target : Operand) (s : State) : Host.Outcome State Fault Refusal :=
  runInstr (.call g target) callHandler s

/-- RET (R211). -/
def retHandler : Handler := fun _ slots => do
  let v ← pop
  jump v
  pure slots

/-- RET (R211). -/
def execRet (g : Option Gate) (s : State) : Host.Outcome State Fault Refusal := runInstr (.ret g) retHandler s

end Sys2Proof.Machine
end

