-- ==== Sys2Proof/Machine/Bitwise.lean ====
section
/-!
DEFINITION. The bitwise and shift instructions (43_bitwise.md).
-/

namespace Sys2Proof.Machine

/-- AND (R281). -/
def execAnd (g : Option Gate) (dest : Dest) (src1 src2 : Operand) (s : State) : Host.Outcome State Fault Refusal :=
  runInstr (.and g dest src1 src2) (binaryHandler fun b c => b &&& c) s

/-- OR (R282). -/
def execOr (g : Option Gate) (dest : Dest) (src1 src2 : Operand) (s : State) : Host.Outcome State Fault Refusal :=
  runInstr (.or g dest src1 src2) (binaryHandler fun b c => b ||| c) s

/-- XOR (R283). -/
def execXor (g : Option Gate) (dest : Dest) (src1 src2 : Operand) (s : State) : Host.Outcome State Fault Refusal :=
  runInstr (.xor g dest src1 src2) (binaryHandler fun b c => b ^^^ c) s

/-- NAND (R284). -/
def execNand (g : Option Gate) (dest : Dest) (src1 src2 : Operand) (s : State) : Host.Outcome State Fault Refusal :=
  runInstr (.nand g dest src1 src2) (binaryHandler fun b c => ~~~(b &&& c)) s

/-- NOR (R285). -/
def execNor (g : Option Gate) (dest : Dest) (src1 src2 : Operand) (s : State) : Host.Outcome State Fault Refusal :=
  runInstr (.nor g dest src1 src2) (binaryHandler fun b c => ~~~(b ||| c)) s

/-- NXOR (R286). -/
def execNxor (g : Option Gate) (dest : Dest) (src1 src2 : Operand) (s : State) : Host.Outcome State Fault Refusal :=
  runInstr (.nxor g dest src1 src2) (binaryHandler fun b c => ~~~(b ^^^ c)) s

/-- NOT (R287). -/
def execNot (g : Option Gate) (dest : Dest) (src : Operand) (s : State) : Host.Outcome State Fault Refusal :=
  runInstr (.not g dest src) (unaryHandler fun b => ~~~b) s

/-- The amount SR and SL shift by (R280). -/
def shiftAmount (mode : ShiftCountMode) (c : Word) : Nat :=
  match mode with
  | .mask => (c.extractLsb' 0 6).toNat
  | .saturate => c.toNat

/-- The logical shift right of R288. -/
def shiftRight (mode : ShiftCountMode) (b c : Word) : Word :=
  let n := shiftAmount mode c
  if 64 ≤ n then 0 else b >>> n

/-- The logical shift left of R289. -/
def shiftLeft (mode : ShiftCountMode) (b c : Word) : Word :=
  let n := shiftAmount mode c
  if 64 ≤ n then 0 else b <<< n

/-- The rotation right of R290, by the count modulo 64 in both modes (R280). -/
def rotateRight (b c : Word) : Word :=
  let n := (c.extractLsb' 0 6).toNat
  if n = 0 then b else (b >>> n) ||| (b <<< (64 - n))

/-- The rotation left of R291, by the count modulo 64 in both modes (R280). -/
def rotateLeft (b c : Word) : Word :=
  let n := (c.extractLsb' 0 6).toNat
  if n = 0 then b else (b <<< n) ||| (b >>> (64 - n))

/-- A handler of a shift, whose count is read as the parameter SHIFT_COUNT_MODE says (R280; log 11). -/
def shiftHandler (f : ShiftCountMode → Word → Word → Word) : Handler := fun _ slots => do
  let t ← get
  pure (setSlot slots 0 (f t.st.params.shiftCountMode (slotValue slots 1) (slotValue slots 2)))

/-- SR (R288). -/
def execSr (g : Option Gate) (dest : Dest) (src count : Operand) (s : State) : Host.Outcome State Fault Refusal :=
  runInstr (.sr g dest src count) (shiftHandler shiftRight) s

/-- SL (R289). -/
def execSl (g : Option Gate) (dest : Dest) (src count : Operand) (s : State) : Host.Outcome State Fault Refusal :=
  runInstr (.sl g dest src count) (shiftHandler shiftLeft) s

/-- RR (R290). -/
def execRr (g : Option Gate) (dest : Dest) (src count : Operand) (s : State) : Host.Outcome State Fault Refusal :=
  runInstr (.rr g dest src count) (binaryHandler rotateRight) s

/-- RL (R291). -/
def execRl (g : Option Gate) (dest : Dest) (src count : Operand) (s : State) : Host.Outcome State Fault Refusal :=
  runInstr (.rl g dest src count) (binaryHandler rotateLeft) s

end Sys2Proof.Machine
end

