-- ==== Sys2Proof/Machine/Compare.lean ====
section
/-!
DEFINITION. The comparison instructions (44_compare.md): unsigned, their result MAX or 0 (R310).
-/

namespace Sys2Proof.Machine

/-- GT (R311). -/
def execGt (g : Option Gate) (dest : Dest) (src1 src2 : Operand) (s : State) : Host.Outcome State Fault Refusal :=
  runInstr (.gt g dest src1 src2) (binaryHandler fun b c => boolWord (decide (c.toNat < b.toNat))) s

/-- GTE (R312). -/
def execGte (g : Option Gate) (dest : Dest) (src1 src2 : Operand) (s : State) : Host.Outcome State Fault Refusal :=
  runInstr (.gte g dest src1 src2) (binaryHandler fun b c => boolWord (decide (c.toNat ≤ b.toNat))) s

/-- LT (R313). -/
def execLt (g : Option Gate) (dest : Dest) (src1 src2 : Operand) (s : State) : Host.Outcome State Fault Refusal :=
  runInstr (.lt g dest src1 src2) (binaryHandler fun b c => boolWord (decide (b.toNat < c.toNat))) s

/-- LTE (R314). -/
def execLte (g : Option Gate) (dest : Dest) (src1 src2 : Operand) (s : State) : Host.Outcome State Fault Refusal :=
  runInstr (.lte g dest src1 src2) (binaryHandler fun b c => boolWord (decide (b.toNat ≤ c.toNat))) s

/-- EQ (R315). -/
def execEq (g : Option Gate) (dest : Dest) (src1 src2 : Operand) (s : State) : Host.Outcome State Fault Refusal :=
  runInstr (.eq g dest src1 src2) (binaryHandler fun b c => boolWord (decide (b = c))) s

/-- NEQ (R316). -/
def execNeq (g : Option Gate) (dest : Dest) (src1 src2 : Operand) (s : State) : Host.Outcome State Fault Refusal :=
  runInstr (.neq g dest src1 src2) (binaryHandler fun b c => boolWord (decide (b ≠ c))) s

end Sys2Proof.Machine
end

