-- ==== Sys2Proof/Machine/Debug.lean ====
section
/-!
DEFINITION. The debug instructions (45_debug.md): DBG, BRK. The host's hooks are observation events (log 8).
-/

namespace Sys2Proof.Machine

/-- A hook call is recorded as an observation event (R330, R331). -/
def recordHook (e : HookEvent) : SM Unit := modify fun s => { s with hooks := s.hooks ++ [e] }

/-- A call of the DebugHook, if one is installed (R330). -/
def callDebugHook (a b c : Word) : SM Unit := do
  let s ← get
  if s.params.debugHookInstalled then recordHook (.debug a b c) else pure ()

/-- DBG (R330): the hook receives the three values; no other state changes. With no hook installed it is a NOP whose
operands were resolved. -/
def dbgHandler : Handler := fun _ slots => do
  onState (callDebugHook (slotValue slots 0) (slotValue slots 1) (slotValue slots 2))
  pure slots

/-- DBG (R330). -/
def execDbg (g : Option Gate) (a b c : Operand) (s : State) : Host.Outcome State Fault Refusal :=
  runInstr (.dbg g a b c) dbgHandler s

/-- BRK (R331): the run loop is suspended, which takes effect after this Tick, and the break hook is called. -/
def brkHandler : Handler := fun _ slots => do
  onState (modify fun s => { s with runState := .stopped })
  onState (recordHook .brk)
  pure slots

/-- BRK (R331). -/
def execBrk (g : Option Gate) (s : State) : Host.Outcome State Fault Refusal := runInstr (.brk g) brkHandler s

end Sys2Proof.Machine
end

