-- ==== Sys2Proof/Machine/Dispatch.lean ====
section
/-!
DEFINITION. Dispatch (40_execution.md R157, R167): each instruction's one meaning.
-/

namespace Sys2Proof.Machine

def exec (i : Instr) (s : State) : Host.Outcome State Fault Refusal :=
  match i with
  | .hlt g => Sys2Proof.Machine.execHlt g s
  | .nop g => Sys2Proof.Machine.execNop g s
  | .int g type data1 data2 => Sys2Proof.Machine.execInt g type data1 data2 s
  | .eint g => Sys2Proof.Machine.execEint g s
  | .inte g => Sys2Proof.Machine.execInte g s
  | .intd g => Sys2Proof.Machine.execIntd g s
  | .xchg g a b => Sys2Proof.Machine.execXchg g a b s
  | .cas g target expected new => Sys2Proof.Machine.execCas g target expected new s
  | .set g dest src => Sys2Proof.Machine.execSet g dest src s
  | .cpy g dest src len => Sys2Proof.Machine.execCpy g dest src len s
  | .call g target => Sys2Proof.Machine.execCall g target s
  | .ret g => Sys2Proof.Machine.execRet g s
  | .dbg g a b c => Sys2Proof.Machine.execDbg g a b c s
  | .brk g => Sys2Proof.Machine.execBrk g s
  | .add g dest src1 src2 => Sys2Proof.Machine.execAdd g dest src1 src2 s
  | .addf g dest src1 src2 => Sys2Proof.Machine.execAddf g dest src1 src2 s
  | .sub g dest src1 src2 => Sys2Proof.Machine.execSub g dest src1 src2 s
  | .subf g dest src1 src2 => Sys2Proof.Machine.execSubf g dest src1 src2 s
  | .mul g dest src1 src2 => Sys2Proof.Machine.execMul g dest src1 src2 s
  | .mulf g dest src1 src2 => Sys2Proof.Machine.execMulf g dest src1 src2 s
  | .div g dest src1 src2 => Sys2Proof.Machine.execDiv g dest src1 src2 s
  | .divf g dest src1 src2 => Sys2Proof.Machine.execDivf g dest src1 src2 s
  | .mod g dest src1 src2 => Sys2Proof.Machine.execMod g dest src1 src2 s
  | .modf g dest src1 src2 => Sys2Proof.Machine.execModf g dest src1 src2 s
  | .sr g dest src count => Sys2Proof.Machine.execSr g dest src count s
  | .sl g dest src count => Sys2Proof.Machine.execSl g dest src count s
  | .rr g dest src count => Sys2Proof.Machine.execRr g dest src count s
  | .rl g dest src count => Sys2Proof.Machine.execRl g dest src count s
  | .nand g dest src1 src2 => Sys2Proof.Machine.execNand g dest src1 src2 s
  | .and g dest src1 src2 => Sys2Proof.Machine.execAnd g dest src1 src2 s
  | .nor g dest src1 src2 => Sys2Proof.Machine.execNor g dest src1 src2 s
  | .or g dest src1 src2 => Sys2Proof.Machine.execOr g dest src1 src2 s
  | .nxor g dest src1 src2 => Sys2Proof.Machine.execNxor g dest src1 src2 s
  | .xor g dest src1 src2 => Sys2Proof.Machine.execXor g dest src1 src2 s
  | .not g dest src => Sys2Proof.Machine.execNot g dest src s
  | .gt g dest src1 src2 => Sys2Proof.Machine.execGt g dest src1 src2 s
  | .gte g dest src1 src2 => Sys2Proof.Machine.execGte g dest src1 src2 s
  | .lt g dest src1 src2 => Sys2Proof.Machine.execLt g dest src1 src2 s
  | .lte g dest src1 src2 => Sys2Proof.Machine.execLte g dest src1 src2 s
  | .eq g dest src1 src2 => Sys2Proof.Machine.execEq g dest src1 src2 s
  | .neq g dest src1 src2 => Sys2Proof.Machine.execNeq g dest src1 src2 s

end Sys2Proof.Machine
end

