-- ==== Sys2Proof/Machine/Fetch.lean ====
section
/-!
DEFINITION. Fetch (40_execution.md R151): Decode reading the bus; Encode writing it (30_encoding.md R116); and the Tick of an
instruction that fails a check of 30_encoding.md R120 (R153).
-/

namespace Sys2Proof.Machine

/-- The word stream of the bus: the word at the next address (R114). -/
def busStream : StateT (State × Word) (Except Fault) Word := fun x =>
  match busRead x.2 x.1 with
  | .ok (w, s) => .ok (w, (s, x.2 + 1))
  | .error f => .error f

/-- The decoded record at RIP, and the state after the bus reads of the fetch (R151). -/
def fetchDecode (s : State) : Except Fault (RawInstr × State) :=
  match (decodeRaw busStream).run (s, s.rip) with
  | .ok (r, x) => .ok (r, x.1)
  | .error f => .error f

/-- `CurrentInstruction` (R168): the decoded instruction at RIP; reading it changes no state. -/
def State.currentInstruction (s : State) : Except Fault RawInstr :=
  match fetchDecode { s with arrivals := .quiet } with
  | .ok (r, _) => .ok r
  | .error f => .error f

/-- `Encode(i, a)` over the bus (R116): the trailing words are written above `a` in increasing order, and the control word
last, an order that a device with write side effects can see. It is the codec's operation, used by a program writer
outside the core (R4 (a)); no instruction and no host move performs it. -/
def encodeAt (r : RawInstr) (a : Word) : SM Unit :=
  match encodeRaw r with
  | [] => pure ()
  | w :: trailing => do
    busWriteRange (a + 1) trailing
    busWrite a w

/-- The Tick of an instruction that fails a check of R120, after its fetch: `InvalidInstruction` is raised with the opcode
and the address, no operand is resolved, and RIP advances by the length (R153). -/
def invalidTick (r : RawInstr) : SM Unit := do
  let s ← get
  enqueue typeInvalidInstruction (r.opcode.setWidth 64) s.rip
  modify fun s' => { s' with rip := nextIP s.rip r.length }

end Sys2Proof.Machine
end

