-- ==== Sys2Proof/Machine/Loader.lean ====
section
/-!
DEFINITION. What is placed in devices from outside the core: the program image and a RAM's initial contents (20_memory.md R62,
R63, R76; 70_reset_and_hazards.md R470; log 17), and an instruction placed at the next fetch (log 18).
-/

namespace Sys2Proof.Machine

/-- The words of a program image: eight bytes each, least significant first (R65, R76). -/
def imageWords : List Byte → List Word
  | b0 :: b1 :: b2 :: b3 :: b4 :: b5 :: b6 :: b7 :: rest => joinBytes b0 b1 b2 b3 b4 b5 b6 b7 :: imageWords rest
  | _ => []

/-- The image's words without the boot magic, when the image carries it (R63, C9). -/
def stripMagic : List Word → List Word
  | [] => []
  | w :: ws => if w = Config.bootMagic then ws else w :: ws

/-- The first word address of a device's window (R51). -/
def windowBase (id : Nat) : Nat := id * 2 ^ 52

/-- The memory without the cells of a device's window. -/
def Memory.clearWindow (m : Memory) (id : Nat) : Memory :=
  m.filter fun c => decide (c.1 < 8 * windowBase id) || decide (8 * windowBase (id + 1) ≤ c.1)

/-- Words stored at rising word addresses. -/
def Memory.writeWords (m : Memory) (a : Nat) : List Word → Memory
  | [] => m
  | w :: ws => Memory.writeWords (m.writeWord a w) (a + 1) ws

/-- The number of words in a device window (R51). -/
def windowWords : Nat := 2 ^ 52

/-- The loader places an image in a boot device: the device exposes exactly the image's words (R63). -/
def State.loadImage (s : State) (id : Nat) (image : List Byte) : Host.Outcome State Fault Refusal :=
  let ws := stripMagic (imageWords image)
  match s.devices[id]? with
  | none => .fault .noDeviceAtId
  | some d =>
    match d.kind with
    | .rom _ =>
      if ws.length ≤ windowWords then
        .next { s with
          devices := s.devices.set id { d with kind := .rom ws.length }
          mem := (s.mem.clearWindow id).writeWords (windowBase id) ws }
      else .fault .deviceOutOfRange
    | _ => .refused .loaderTargetMismatch

/-- The loader gives a RAM its initial contents (R62). -/
def State.loadRam (s : State) (id : Nat) (contents : List Word) : Host.Outcome State Fault Refusal :=
  match s.devices[id]? with
  | none => .fault .noDeviceAtId
  | some d =>
    match d.kind with
    | .ram size =>
      if contents.length ≤ min size windowWords then
        .next { s with mem := (s.mem.clearWindow id).writeWords (windowBase id) contents }
      else .fault .deviceOutOfRange
    | _ => .refused .loaderTargetMismatch

/-- A word placed at an address from outside the machine: in a RAM or a boot device, which is made large enough to hold
it, or in the vector table. An address that no such device answers is left alone (log 18). -/
def State.placeWord (s : State) (addr w : Word) : State :=
  if devId addr = directoryId then s
  else
    match s.devices[devId addr]? with
    | none => s
    | some d =>
      let l := (localAddr addr).toNat
      match d.kind with
      | .ram size =>
        { s with
          devices := s.devices.set (devId addr) { d with kind := .ram (max size (l + 1)) }
          mem := s.mem.writeWord addr.toNat w }
      | .rom size =>
        { s with
          devices := s.devices.set (devId addr) { d with kind := .rom (max size (l + 1)) }
          mem := s.mem.writeWord addr.toNat w }
      | .interruptController =>
        if l < vectorCount then { s with vectors := s.vectors.writeWord l w } else s
      | .external _ _ => s

/-- Words placed at rising addresses (they wrap, R77). -/
def State.placeWords (s : State) (addr : Word) : List Word → State
  | [] => s
  | w :: ws => State.placeWords (s.placeWord addr w) (addr + 1) ws

end Sys2Proof.Machine
end

