-- ==== Sys2Proof/Machine/HostControl.lean ====
section
/-!
DEFINITION. The bus's lifecycle calls and the processor's run control (70_reset_and_hazards.md R460 to R466;
60_exceptions.md R408, R409, R435, R436), and the host's register access by name (10_state.md R39).
-/

namespace Sys2Proof.Machine

/-! ## Lifecycle -/

/-- The directory groups of devices attached from id `k` on (R54). -/
def directoryGroups (k : Nat) : List Device → List Word
  | [] => []
  | d :: ds => d.deviceType :: d.vendorId :: d.productId :: BitVec.ofNat 64 k :: directoryGroups (k + 1) ds

/-- The directory's backing table for these devices (R54, R461). -/
def directoryTable (ds : List Device) : List Word := BitVec.ofNat 64 ds.length :: directoryGroups 0 ds

/-- `RebuildDirectory()` (R461). -/
def State.rebuildDirectory (s : State) : State := { s with directory := directoryTable s.devices }

/-- The lowest id of a boot-capable device (R460, R462). -/
def State.bootId (s : State) : Option Nat := s.devices.findIdx? fun d => d.deviceType == s.params.bootDeviceType

/-- A lifecycle call of one device: the reference RAM and boot device keep their contents (R62, R63, R466); the
interrupt controller's Reset and Stop clear its queue and its table (R408), its Start does nothing (R409). -/
def State.deviceLifecycle (s : State) (c : Lifecycle) (id : Nat) (d : Device) : State :=
  match d.kind with
  | .ram _ => s
  | .rom _ => s
  | .interruptController =>
    match c with
    | .start => s
    | .reset => { s with queue := [], vectors := [] }
    | .stop => { s with queue := [], vectors := [] }
  | .external behaviour state => s.setDeviceState id d behaviour (Config.deviceLifecycle behaviour state c)

/-- The lifecycle call of each device in attachment order (R463). -/
def State.callDevices (c : Lifecycle) (k : Nat) : List Device → State → State
  | [], s => s
  | d :: ds, s => State.callDevices c (k + 1) ds (s.deviceLifecycle c k d)

/-- The processor's `Reset()` (R464). -/
def State.processorReset (s : State) : State :=
  { s with
    gpr := Vector.replicate 16 0#64
    rip := s.bootAddr
    rsp := 0
    rbp := 0
    rsip := 0
    rint1 := 0
    rint2 := 0
    ie := false
    inISR := false
    runState := .stopped }

/-- `Continue` (R435): the processor runs, and the timer is admitted (R430, R465; log 6). -/
def State.resume (s : State) : State := { s with runState := .running, started := true }

/-- `Break` (R435), which is also the processor's `Stop()` (R465). -/
def State.suspend (s : State) : State := { s with runState := .stopped }

/-- The boot address of a boot device (R462). -/
def bootAddress (id : Nat) : Word := BitVec.ofNat 64 id <<< 52

/-- Bus `Start()` and `Reset()` up to the processor's own call (R460). -/
def State.busPrepare (s : State) (c : Lifecycle) : Except Fault State :=
  let s := s.rebuildDirectory
  match s.bootId with
  | none => .error .noBootDevice
  | some b => .ok (State.callDevices c 0 s.devices { s with bootAddr := bootAddress b })

/-- Bus `Start()` (R460, R465): the processor's Start is Reset followed by Continue. -/
def State.busStart (s : State) : Except Fault State :=
  match s.busPrepare .start with
  | .ok s' => .ok s'.processorReset.resume
  | .error f => .error f

/-- Bus `Reset()` (R460). -/
def State.busReset (s : State) : Except Fault State :=
  match s.busPrepare .reset with
  | .ok s' => .ok s'.processorReset
  | .error f => .error f

/-- Bus `Stop()` (R465). -/
def State.busStop (s : State) : State := (State.callDevices .stop 0 s.devices s).suspend

/-- How many interrupt controllers are attached. -/
def State.controllerCount (s : State) : Nat := s.devices.countP fun d => d.kind == .interruptController

/-- `AddDevice(device)` (R55): the device gets the next id. The machine has one interrupt controller (log 16). -/
def State.addDevice (s : State) (d : Device) : Host.Outcome State Fault Refusal :=
  if directoryId ≤ s.nextId then .fault .deviceIdsExhausted
  else if d.kind = .interruptController ∧ 0 < s.controllerCount then .refused .secondInterruptController
  else .next { s with devices := s.devices ++ [d] }

/-! ## The host -/

/-- A register read by name, while the processor is Stopped (R39). -/
def State.hostReadRegister (s : State) (r : Reg) : Option Word :=
  if s.runState = .stopped then some (s.readReg r) else none

/-- When the spec gives the host a move (R39, R435, R436, R475): Reset at any time, Break when Running, every other only
when Stopped. The loader's moves are among the others: R76 and R470 speak of the loader before the bus starts, and that the
model admits it whenever the processor is Stopped is its choice (log 17). -/
def HostMove.allowed (m : HostMove) (s : State) : Bool :=
  match m with
  | .wait => true
  | .processorReset => true
  | .suspend => decide (s.runState = .running)
  | _ => decide (s.runState = .stopped)

/-- A result that may be fatal as a step's outcome. -/
def outcomeOf : Except Fault State → Host.Outcome State Fault Refusal
  | .ok s => .next s
  | .error f => .fault f

/-- The effect of a host move other than Step (R55, R39, R435, R460, R465, R470). `Step` is a Tick and `wait` leaves the turn to
the processor (Machine/Cycle.lean); here they change nothing. -/
def State.hostEffect (s : State) : HostMove → Host.Outcome State Fault Refusal
  | .wait => .next s
  | .addDevice d => s.addDevice d
  | .loadImage id image => s.loadImage id image
  | .loadRam id contents => s.loadRam id contents
  | .busStart => outcomeOf s.busStart
  | .busReset => outcomeOf s.busReset
  | .busStop => .next s.busStop
  | .processorReset => .next s.processorReset
  | .resume => .next s.resume
  | .suspend => .next s.suspend
  | .stepOnce => .next s
  | .writeRegister r v => .next (s.writeReg r v)

end Sys2Proof.Machine
end

