-- ==== Sys2Proof/Machine/Cycle.lean ====
section
/-!
DEFINITION. The Tick as a whole (40_execution.md R150), and who moves next: the host, when it has a move; the processor,
while it is Running; otherwise only time passes (60_exceptions.md R435, 70_reset_and_hazards.md R478; log 7, log 14).
-/

namespace Sys2Proof.Machine

/-- The result of a machine operation that answers nothing, as a step's outcome. -/
def outcomeOfUnit : Except Fault (Unit × State) → Host.Outcome State Fault Refusal
  | .ok (_, s) => .next s
  | .error f => .fault f

/-- The delivery step at the end of a Tick (R150, R420). -/
def withDelivery : Host.Outcome State Fault Refusal → Host.Outcome State Fault Refusal
  | .next s => outcomeOfUnit (deliver.run s)
  | .fault f => .fault f
  | .refused r => .refused r

/-- A Tick after its fetch and before its delivery: the instruction, or the report of a malformed one (R150, R153). -/
def execute (r : RawInstr) (s : State) : Host.Outcome State Fault Refusal :=
  match elaborate r with
  | .ok i => exec i s
  | .error _ => outcomeOfUnit ((invalidTick r).run s)

/-- One Tick (R150): fetch and decode, execute, deliver. -/
def tick (s : State) : Host.Outcome State Fault Refusal :=
  match fetchDecode s with
  | .ok (r, s1) => withDelivery (execute r s1)
  | .error f => .fault f

/-- The host's move, which the timer and the devices may precede (R411, R435, R436). -/
def hostStep (m : HostMove) (s : State) : Host.Outcome State Fault Refusal :=
  if m.allowed s then
    match poll s with
    | .error f => .fault f
    | .ok (_, s1) =>
      match m with
      | .stepOnce => tick s1
      | m => s1.hostEffect m
  else .refused .hostMoveNotAllowed

/-- What the machine does by itself: a Tick when it is Running; when it is Stopped only other agents act (R430, R478). -/
def selfStep (s : State) : Host.Outcome State Fault Refusal :=
  match s.runState with
  | .running => tick s
  | .stopped => outcomeOfUnit (poll.run s)

/-- Who moves next (R435, R478): the host where its list holds a move, the machine where it holds `wait` or is empty. -/
def cycle (s : State) : Host.Outcome State Fault Refusal :=
  match s.hostMoves with
  | m :: rest => if m = .wait then selfStep { s with hostMoves := rest } else hostStep m { s with hostMoves := rest }
  | [] => selfStep s

end Sys2Proof.Machine
end

