-- ==== Sys2Proof/Machine/Step.lean ====
section
/-!
DEFINITION. One step of the machine, and an instruction placed where the next step fetches.
-/

namespace Sys2Proof.Machine

/-- One step (00_scope.md R5; Machine/Cycle.lean): a Tick of a Running processor, or the host's next move. -/
def step (s : State) : Host.Outcome State Fault Refusal := cycle s

/-- The state with an instruction, given as a number in spec/opcode_table.json's numbering, at RIP in the device that
answers there, and the processor Running with no host move before its next Tick, so that the next step runs that
instruction (log 4, log 18). -/
def State.withFetchWord (s : State) (nbits w : Nat) : State :=
  { s.placeWords s.rip (tableWords nbits w) with runState := .running, hostMoves := [] }

end Sys2Proof.Machine
end

