-- ==== Sys2Proof/Safety.lean ====
section
/-!
DEFINITION. The terms in which claims about the machine are stated: the invariant of its states, what a run's states are
classified as (70_reset_and_hazards.md R478), and the parts of the state that an instruction leaves alone.
-/

namespace Sys2Proof.Machine

/-! ## The invariant -/

/-- The memory cells of a word belong to a RAM or a boot device that holds that word (R62, R63). -/
def State.backs (s : State) (addr : Nat) : Prop :=
  ∃ d, s.devices[addr / 2 ^ 52]? = some d ∧
    ((∃ n, d.kind = .ram n ∧ addr % 2 ^ 52 < n) ∨ (∃ n, d.kind = .rom n ∧ addr % 2 ^ 52 < n))

/-- The invariant of the machine's states: memory and vector table in canonical form and within what exists, every queued
record of a type below 4096 (R36), ids within the assignable ones (R55), one interrupt controller (log 16), the boot
address at the start of a device window (R462), the directory a table of the devices attached when the bus last
started or reset (R54). -/
structure State.Inv (s : State) : Prop where
  memWf : s.mem.wf
  vectorsWf : s.vectors.wf
  vectorsInTable : ∀ c ∈ s.vectors, c.1 < 8 * vectorCount
  memBacked : ∀ c ∈ s.mem, s.backs (c.1 / 8)
  queueTypes : ∀ r ∈ s.queue, r.type.toNat < vectorCount
  idsAssignable : s.devices.length ≤ directoryId
  oneController : s.controllerCount ≤ 1
  bootAligned : localAddr s.bootAddr = 0
  directoryTable : ∃ n ≤ s.devices.length, s.directory = Sys2Proof.Machine.directoryTable (s.devices.take n)

/-! ## The classification of R478 -/

/-- Can the timer or a device enqueue (R415, R430, R478)? Once the machine has started, the timer always can. -/
def State.agentsAble (s : State) : Prop := s.started = true

/-- The state in which no other agent is about to act: what an access looks like without them. -/
def State.alone (s : State) : State := { s with arrivals := .quiet }

/-- At RIP stands a HLT that is gated on, and whose fetch and gate change nothing. -/
def State.atHlt (s : State) : Prop :=
  ∃ r g, fetchDecode s.alone = .ok (r, s.alone) ∧ elaborate r = .ok (.hlt g) ∧
    evalGate g ⟨s.alone, false⟩ = .ok (true, ⟨s.alone, false⟩)

/-- Idle (R478): Running at a gated-on HLT, and no delivery can happen: IE is 0, or inISR is 1, or the queue is empty with no
agent able to enqueue. -/
def State.idle (s : State) : Prop :=
  s.runState = .running ∧ s.atHlt ∧ (s.ie = false ∨ s.inISR = true ∨ (s.queue = [] ∧ ¬ s.agentsAble))

/-- Stopped (R478): no Tick happens until the host moves. -/
def State.stopped (s : State) : Prop := s.runState = .stopped

/-- Running (R478): any other state. (The fourth case, a fault, is an outcome of a step and no state.) -/
def State.active (s : State) : Prop := ¬ s.stopped ∧ ¬ s.idle

/-- The state after `n` steps, if each of them answers a next state. -/
def State.steps : Nat → State → Option State
  | 0, s => some s
  | n + 1, s =>
    match step s with
    | .next t => State.steps n t
    | _ => none

/-- The end state of a run (R478): the first idle or stopped state it reaches, with no fault before. -/
def State.endsAt (s : State) (n : Nat) (t : State) : Prop :=
  State.steps n s = some t ∧ ¬ t.active ∧ ∀ m u, m < n → State.steps m s = some u → u.active

/-! ## Fairness of the timer (R430) -/

/-- A schedule in which the timer fires over and over. -/
def Schedule.fair (c : Schedule) : Prop := ∃ now ∈ c.again, Arrival.timer ∈ now

/-- An infinite run of a machine that is Running throughout and to which the host does nothing. -/
def RunningForever (run : Nat → State) : Prop :=
  ∀ k, step (run k) = .next (run (k + 1)) ∧ (run k).runState = .running ∧ (run k).hostMoves = []

/-- In the Tick from `s` the record joins the queue (R403, R411): it is in the tail that the queue has gained after the fetch,
the instruction and the interleaving point before the delivery test, and before delivery takes anything from the head. -/
def EnqueuedInTick (s : State) (r : InterruptRecord) : Prop :=
  ∃ q s1 s2 s3 new, fetchDecode s = .ok (q, s1) ∧ execute q s1 = .next s2 ∧ poll s2 = .ok ((), s3) ∧
    s3.queue = s.queue ++ new ∧ r ∈ new

/-- A step that does not stop the machine. -/
def State.safeStep (s : State) : Prop := ∃ t, step s = .next t

/-! ## What is left alone -/

/-- The same device, but for the own state of a device of the DEVICES parameter (R61, R170). -/
def Device.same (d e : Device) : Prop :=
  e.deviceType = d.deviceType ∧ e.vendorId = d.vendorId ∧ e.productId = d.productId ∧ e.irqTypes = d.irqTypes ∧
    (e.kind = d.kind ∨ ∃ b m n, d.kind = .external b m ∧ e.kind = .external b n)

/-- The same device table, but for the own states of devices of the DEVICES parameter (R170). -/
def sameDevices (ds es : List Device) : Prop := List.Forall₂ Device.same ds es

/-- What no instruction changes: the boot address, the parameters, the directory, the host's plan, the device table (R34,
R170). -/
structure SameFixed (s t : State) : Prop where
  bootAddr : t.bootAddr = s.bootAddr
  params : t.params = s.params
  directory : t.directory = s.directory
  started : t.started = s.started
  hostMoves : t.hostMoves = s.hostMoves
  devices : sameDevices s.devices t.devices

/-- The control bits and the hook events are the same (R30, R31, R32, R330). -/
structure SameControl (s t : State) : Prop where
  ie : t.ie = s.ie
  inISR : t.inISR = s.inISR
  runState : t.runState = s.runState
  hooks : t.hooks = s.hooks

/-- Every word reads as before (through `peek`: RAM, boot image, vector table, directory). -/
def SameWords (s t : State) : Prop := ∀ a, t.peek a = s.peek a

/-- Every word but the one at `a` reads as before. -/
def SameWordsBut (a : Word) (s t : State) : Prop := ∀ b, b ≠ a → t.peek b = s.peek b

/-- The queue holds what it held, followed by records of other agents only: with none of them due, it is the same. -/
def OnlyArrivals (s t : State) : Prop :=
  ∃ new, t.queue = s.queue ++ new ∧ (s.arrivals = .quiet → new = [] ∧ t.arrivals = .quiet)

/-- Every register but RIP, RSP and those of `but` is the same. -/
def SameRegsBut (but : Reg → Prop) (s t : State) : Prop :=
  ∀ r, r ≠ .rip → r ≠ .rsp → ¬ but r → t.readReg r = s.readReg r

/-- The sub-operand pops when it is resolved. -/
def subPops (p : SignedSub) : Bool := decide (p.op.kind = .stack)

/-- An operand kind that pops when it is resolved. -/
def popsKind : Kind → Bool
  | .register _ => false
  | .stack => true
  | .literal _ => false
  | .calculated b i s o => subPops b || i.any subPops || s.any subPops || o.any subPops

/-- An instruction's operands, as they are read or stored to. -/
def paramKind : Param → Kind
  | .read p => p.kind
  | .write d => d.operand.kind
  | .readWrite d => d.operand.kind

/-- Some operand of the instruction pops or pushes (R106). -/
def usesStack (i : Instr) : Bool :=
  (match i.shape.gate with
    | some g => popsKind g.operand.kind
    | none => false) || i.shape.params.any fun p => popsKind (paramKind p)

/-! ## The operands of an instruction, read in order (R156, R165) -/

/-- The gate of an instruction at `s` is on and its one source reads `x`; the Tick then stands at `t`. -/
def Sources1 (g : Option Gate) (a : Operand) (s : State) (x : Word) (t : Tick) : Prop :=
  ∃ t1 oa, evalGate g ⟨s, false⟩ = .ok (true, t1) ∧ load a t1 = .ok ((x, oa), t)

/-- The gate is on and the two sources read `x` and `y`, in this order; the Tick then stands at `t`. -/
def Sources2 (g : Option Gate) (a b : Operand) (s : State) (x y : Word) (t : Tick) : Prop :=
  ∃ t1 t2 oa ob, evalGate g ⟨s, false⟩ = .ok (true, t1) ∧ load a t1 = .ok ((x, oa), t2) ∧ load b t2 = .ok ((y, ob), t)

/-- The gate is on and the three sources read `x`, `y` and `z`, in this order; the Tick then stands at `t`. -/
def Sources3 (g : Option Gate) (a b c : Operand) (s : State) (x y z : Word) (t : Tick) : Prop :=
  ∃ t1 t2 t3 oa ob oc, evalGate g ⟨s, false⟩ = .ok (true, t1) ∧ load a t1 = .ok ((x, oa), t2) ∧
    load b t2 = .ok ((y, ob), t3) ∧ load c t3 = .ok ((z, oc), t)

/-- The value a relative register adds (R103). -/
def relBase (s : State) : Rel → Word
  | .none => 0
  | .ip => s.rip
  | .sp => s.rsp
  | .bp => s.rbp

/-- A word of a RAM at this address exists (R62). -/
def State.ramAt (s : State) (a : Word) : Prop :=
  devId a ≠ directoryId ∧ ∃ d n, s.devices[devId a]? = some d ∧ d.kind = .ram n ∧ (localAddr a).toNat < n

/-- A finite binary64 (R251): neither a NaN nor an infinity. -/
def f64Finite (w : Word) : Prop := f64Exp w ≠ 2047

end Sys2Proof.Machine
end

