-- ==== Sys2Proof/Certificates/Slice0/Obligations.lean ====
section
/-!
DEFINITION. The statements for the provers, from the numbered rules of spec/.
-/

section

open Sys2Proof Sys2Proof.Machine

/-! ## The codec (30_encoding.md) -/

/-- R125: each worked encoding is what the encoder writes for its instruction and what the decoder reads back. -/
def Obligations.WorkedEncodings : Prop :=
  ∀ p ∈ ([(.hlt none, [0x0000_0000_0000_0000]),
      (.set none (.register (.gp 0)) ⟨.literal (.embedded 5), .none, false⟩, [0x0000_0000_05C0_0008]),
      (.set none (.register (.gp 1)) ⟨.literal (.embedded 3), .none, false⟩, [0x0000_0000_03C0_2008]),
      (.add none (.register (.gp 2)) ⟨.register (.gp 0), .none, false⟩ ⟨.register (.gp 1), .none, false⟩,
        [0x0000_0002_0000_4010]),
      (.xchg none .stack (.indirect (.register (.gp 5)) .none), [0x0000_0000_0290_0806]),
      (.cas none (.indirect (.register (.gp 1)) .none) (.register (.gp 2)) ⟨.literal (.embedded 7), .none, false⟩,
        [0x0000_001F_0100_2407]),
      (.set none
        (.indirect
          (.calculated ⟨⟨.register .rbp, .none, false⟩, false⟩ (some ⟨⟨.register (.gp 1), .none, false⟩, false⟩)
            (some ⟨⟨.literal (.embedded 8), .none, false⟩, false⟩)
            (some ⟨⟨.literal (.embedded 2), .none, false⟩, true⟩)) .bp)
        ⟨.literal (.trailing 100), .ip, true⟩,
        [0x0000_0000_0054_1F08, 0x0000_2C38_C108_1A81, 0x0000_0000_0000_0064]),
      (.set (some ⟨⟨.register (.gp 3), .none, false⟩, .whenNotZero⟩) (.register .rip)
        ⟨.calculated ⟨⟨.register (.gp 1), .none, false⟩, false⟩ (some ⟨⟨.register (.gp 2), .none, false⟩, true⟩)
          (some ⟨⟨.literal (.embedded 3), .none, false⟩, true⟩)
          (some ⟨⟨.literal (.trailing 0x1234), .none, false⟩, false⟩), .ip, false⟩,
        [0x0000_60C0_0066_6008, 0x0000_0413_C310_3081, 0x0000_0000_0000_1234]),
      (.divf none (.register (.gp 1)) ⟨.register (.gp 2), .none, false⟩
        ⟨.calculated ⟨⟨.register (.gp 3), .none, false⟩, false⟩ (some ⟨⟨.register (.gp 4), .none, true⟩, false⟩)
          (some ⟨⟨.register (.gp 5), .none, false⟩, false⟩) (some ⟨⟨.literal (.trailing 99), .none, false⟩, false⟩),
          .none, true⟩,
        [0x0000_0001_C100_2017, 0x0000_0412_8121_1181, 0x0000_0000_0000_0063])] : List (Instr × List Word)),
    encode p.1 = p.2 ∧ decodeWords p.2 = .ok (p.1, [])

/-- R117: (a) a record with the declared number of operands is read back from its words, of which there are `Length`;
(b) a canonical encoding is written back as it was; (c) any other is written back with its ignored bits 0
(`canonicalWords`, which works on the words alone). -/
def Obligations.RoundTripLaws : Prop :=
  (∀ (r : RawInstr) (rest : List Word), r.countMatches = true →
    (decodeRaw nextWord).run (encodeRaw r ++ rest) = .ok (r, rest) ∧ (encodeRaw r).length = r.length) ∧
  (∀ (ws rest : List Word) (r : RawInstr), (decodeRaw nextWord).run ws = .ok (r, rest) →
    r.countMatches = true ∧ ws = ws.take r.length ++ rest ∧ encodeRaw r = canonicalWords ws ∧
      (canonicalWords ws = ws.take r.length → encodeRaw r = ws.take r.length))

/-- R116, R117, for the instructions themselves: every instruction, with every operand and every conditional operand at
every value, is read back from its words, and they are as many as its length. -/
def Obligations.InstructionRoundTrip : Prop :=
  ∀ (i : Instr) (rest : List Word), decodeWords (encode i ++ rest) = .ok (i, rest) ∧ (encode i).length = i.length

/-- R120: the five checks hold of a decoded record exactly when it elaborates to an instruction, and the instruction is that
record's. -/
def Obligations.WellFormedIffInstruction : Prop :=
  ∀ r : RawInstr, r.countMatches = true →
    (r.wellFormed = true ↔ ∃ i, elaborate r = .ok i) ∧ ∀ i, elaborate r = .ok i → i.raw = r

/-- R100: 1 ≤ Length ≤ 21, and both bounds are reached. -/
def Obligations.LengthBounds : Prop :=
  (∀ r : RawInstr, r.countMatches = true → 1 ≤ r.length ∧ r.length ≤ 21) ∧
    (∃ i : Instr, i.length = 1) ∧ ∃ i : Instr, i.length = 21

/-- R122: the opcodes without a definition are 0x0E, 0x0F, 0x1A to 0x1F, 0x2B to 0x2F and 0x36 to 0xFF, and the table
(R121) has 41 rows. -/
def Obligations.UndefinedOpcodes : Prop :=
  (∀ op : BitVec 8, definition op = none ↔
    (op.toNat = 0x0E ∨ op.toNat = 0x0F ∨ (0x1A ≤ op.toNat ∧ op.toNat ≤ 0x1F) ∨ (0x2B ≤ op.toNat ∧ op.toNat ≤ 0x2F) ∨
      0x36 ≤ op.toNat)) ∧ opcodeTable.length = 41

/-! ## The Tick (40_execution.md) -/

/-- R150, R151: a Tick fetches and decodes at RIP; where that gives an instruction, the Tick is the instruction's, at the
state the fetch left, followed by delivery; it is the step of a Running processor with no host move pending. The fetch
changes no register. -/
def Obligations.StepRunsInstruction : Prop :=
  ∀ (s s1 : State) (r : RawInstr) (i : Instr), fetchDecode s = .ok (r, s1) → elaborate r = .ok i →
    tick s = withDelivery (exec i s1) ∧
    (s.runState = .running → s.hostMoves = [] → step s = withDelivery (exec i s1)) ∧
    ∀ x : Reg, s1.readReg x = s.readReg x

/-- R151, R74: whatever device holds them, the words of an instruction at RIP are fetched as that instruction, and the step
is the instruction's. R116: an instruction encoded at RIP over the bus, into a RAM, changes the words it takes and no
other, and is what the next step runs. -/
def Obligations.MemoryRunsInstruction : Prop :=
  ∀ (s : State) (i : Instr), s.runState = .running → s.hostMoves = [] → s.arrivals = .quiet →
    ((∀ (k : Nat) (h : k < (encode i).length), s.peek (s.rip + BitVec.ofNat 64 k) = some (encode i)[k]) →
      fetchDecode s = .ok (i.raw, s) ∧ step s = withDelivery (exec i s)) ∧
    (s.mem.wf → (∀ k, k < i.length → s.ramAt (s.rip + BitVec.ofNat 64 k)) →
      ∃ m, encodeAt i.raw s.rip s = .ok ((), { s with mem := m }) ∧
        (∀ a, (∀ k, k < i.length → a ≠ s.rip + BitVec.ofNat 64 k) → State.peek { s with mem := m } a = s.peek a) ∧
        step { s with mem := m } = withDelivery (exec i { s with mem := m }))

/-- R153: a malformed instruction is not executed: one InvalidInstruction record with the opcode and the address, no operand
resolved, RIP past it, then delivery; entered at once, the handler sees RSIP after it and RINT2 at it. -/
def Obligations.MalformedTick : Prop :=
  ∀ (s s1 : State) (r : RawInstr), s.runState = .running → s.hostMoves = [] → fetchDecode s = .ok (r, s1) →
    r.wellFormed = false → s1.arrivals = .quiet →
    (step s = withDelivery (.next { s1 with
        queue := s1.queue ++ [⟨0, r.opcode.setWidth 64, s.rip, s1.vectors.readWord 0⟩]
        rip := s.rip + BitVec.ofNat 64 r.length })) ∧
      (s1.ie = true → s1.inISR = false → s1.queue = [] →
        step s = .next { s1 with
          rsip := s.rip + BitVec.ofNat 64 r.length
          rip := s1.vectors.readWord 0
          rint1 := r.opcode.setWidth 64
          rint2 := s.rip
          inISR := true })

/-- R155: what the gate decides, and that a gated-off instruction of any kind only resolves its conditional operand and
advances. -/
def Obligations.ConditionalGate : Prop :=
  (∀ (g : Gate) (t t' : Tick) (v : Word) (o : Option Word), load g.operand t = .ok ((v, o), t') →
    evalGate (some g) t =
      .ok (match g.pred with | .whenZero => decide (v = 0) | .whenNotZero => decide (v ≠ 0), t')) ∧
  (∀ t : Tick, evalGate none t = .ok (true, t)) ∧
  (∀ (i : Instr) (s : State) (t : Tick), evalGate i.shape.gate ⟨s, false⟩ = .ok (false, t) →
    exec i s = .next { t.st with rip := s.rip + BitVec.ofNat 64 i.length } ∧
      SameWords s t.st ∧ ∀ r : Reg, r ≠ .rsp → t.st.readReg r = s.readReg r)

/-- R161, R107, R103: the value of a Register and of a Literal operand, and of an operand of any kind, Calculated among
them, direct and indirect, with each relative register, which is read after the kind is resolved. -/
def Obligations.OperandValue : Prop :=
  (∀ (t : Tick) (r : Reg) (rel : Rel),
    load ⟨.register r, rel, false⟩ t = .ok ((t.st.readReg r + relBase t.st rel, none), t)) ∧
  (∀ (t : Tick) (v : BitVec 4) (rel : Rel),
    load ⟨.literal (.embedded v), rel, false⟩ t = .ok ((BitVec.ofNat 64 v.toNat + relBase t.st rel, none), t)) ∧
  (∀ (t : Tick) (v : Word) (rel : Rel),
    load ⟨.literal (.trailing v), rel, false⟩ t = .ok ((v + relBase t.st rel, none), t)) ∧
  (∀ (t t1 : Tick) (kind : Kind) (rel : Rel) (v : Word), kindValue kind t = .ok (v, t1) →
    load ⟨kind, rel, false⟩ t = .ok ((v + relBase t1.st rel, none), t1)) ∧
  (∀ (t t1 : Tick) (kind : Kind) (rel : Rel) (v w : Word), kindValue kind t = .ok (v, t1) → t1.st.arrivals = .quiet →
    t1.st.peek (v + relBase t1.st rel) = some w →
    load ⟨kind, rel, true⟩ t = .ok ((w, some (v + relBase t1.st rel)), t1))

/-- R160, R161: a Stack operand pops, and the relative register is read after the pop; Push stores below RSP in a RAM and
moves RSP there; the Pop after it gives the word and the old RSP back. -/
def Obligations.StackDiscipline : Prop :=
  (∀ (t : Tick) (rel : Rel) (v : Word), t.st.arrivals = .quiet → t.st.peek t.st.rsp = some v →
    load ⟨.stack, rel, false⟩ t =
      .ok ((v + relBase { t.st with rsp := t.st.rsp + 1 } rel, none),
        ⟨{ t.st with rsp := t.st.rsp + 1 }, t.ipWritten⟩)) ∧
  ∀ (t : Tick) (v : Word), t.st.arrivals = .quiet → t.st.mem.wf → t.st.ramAt (t.st.rsp - 1) →
    push v t = .ok ((), ⟨{ t.st with
        rsp := t.st.rsp - 1
        mem := t.st.mem.writeWord (t.st.rsp - 1).toNat v }, t.ipWritten⟩) ∧
      pop ⟨{ t.st with rsp := t.st.rsp - 1, mem := t.st.mem.writeWord (t.st.rsp - 1).toNat v }, t.ipWritten⟩ =
        .ok (v, ⟨{ t.st with mem := t.st.mem.writeWord (t.st.rsp - 1).toNat v }, t.ipWritten⟩)

/-- R162: a Calculated operand is Base + Index * Scale + Offset, modulo 2^64, resolved in that order, an absent Index
0, an absent Scale 1, an absent Offset 0, and each term negated when its neg bit is set; a sub-operand, the Stack among
them, is read as an operand is (R161). -/
def Obligations.CalculatedValue : Prop :=
  (∀ (b : SignedSub) (i s o : Option SignedSub) (t t1 t2 t3 t4 : Tick) (vb vi vs vo : Word),
    termValue b t = .ok (vb, t1) →
    (match i with | none => vi = 0 ∧ t2 = t1 | some p => termValue p t1 = .ok (vi, t2)) →
    (match s with | none => vs = 1 ∧ t3 = t2 | some p => termValue p t2 = .ok (vs, t3)) →
    (match o with | none => vo = 0 ∧ t4 = t3 | some p => termValue p t3 = .ok (vo, t4)) →
    kindValue (.calculated b i s o) t =
      .ok (BitVec.ofNat 64 ((vb.toNat + vi.toNat * vs.toNat + vo.toNat) % 2 ^ 64), t4)) ∧
  (∀ (p : SubOperand) (t t' : Tick) (w : Word), subValue p t = .ok (w, t') →
    termValue ⟨p, false⟩ t = .ok (w, t') ∧ termValue ⟨p, true⟩ t = .ok (BitVec.ofInt 64 (-(w.toNat : Int)), t')) ∧
  (∀ (t : Tick) (r : Reg) (rel : Rel),
    subValue ⟨.register r, rel, false⟩ t = .ok (t.st.readReg r + relBase t.st rel, t)) ∧
  (∀ (t : Tick) (l : Literal) (rel : Rel), subValue ⟨.literal l, rel, false⟩ t = .ok (l.value + relBase t.st rel, t)) ∧
  (∀ (t : Tick) (rel : Rel) (v : Word), t.st.arrivals = .quiet → t.st.peek t.st.rsp = some v →
    subValue ⟨.stack, rel, false⟩ t =
      .ok (v + relBase { t.st with rsp := t.st.rsp + 1 } rel, ⟨{ t.st with rsp := t.st.rsp + 1 }, t.ipWritten⟩)) ∧
  (∀ (t t1 : Tick) (kind : SubKind) (rel : Rel) (v : Word), subKindValue kind t = .ok (v, t1) →
    subValue ⟨kind, rel, false⟩ t = .ok (v + relBase t1.st rel, t1)) ∧
  (∀ (t t1 : Tick) (kind : SubKind) (rel : Rel) (v w : Word), subKindValue kind t = .ok (v, t1) → t1.st.arrivals = .quiet →
    t1.st.peek (v + relBase t1.st rel) = some w → subValue ⟨kind, rel, true⟩ t = .ok (w, t1))

/-- R163, R164: a store writes a register, pushes, or is one bus write: at the address the load phase resolved, or at the
one it resolves now; with what that write leaves of a RAM (R62) and of the vector table (R64), and with its fault. -/
def Obligations.StoreForms : Prop :=
  (∀ (t : Tick) (r : Reg) (v : Word) (o : Option Word),
    storeDest (.register r) v o t = .ok ((), ⟨t.st.writeReg r v, t.ipWritten || decide (r = .rip)⟩)) ∧
  (∀ (t : Tick) (v : Word) (o : Option Word), storeDest .stack v o t = push v t) ∧
  (∀ (t : Tick) (kind : Kind) (rel : Rel) (a v : Word), t.st.arrivals = .quiet → t.st.ramAt a →
    storeDest (.indirect kind rel) v (some a) t =
      .ok ((), ⟨{ t.st with mem := t.st.mem.writeWord a.toNat v }, t.ipWritten⟩)) ∧
  (∀ (t t1 : Tick) (kind : Kind) (rel : Rel) (a v : Word), primary kind rel t = .ok (a, t1) → t1.st.arrivals = .quiet →
    t1.st.ramAt a →
    storeDest (.indirect kind rel) v none t =
      .ok ((), ⟨{ t1.st with mem := t1.st.mem.writeWord a.toNat v }, t1.ipWritten⟩)) ∧
  (∀ (t : Tick) (kind : Kind) (rel : Rel) (a v : Word),
    (∀ s, busWrite a v t.st = .ok ((), s) → storeDest (.indirect kind rel) v (some a) t = .ok ((), ⟨s, t.ipWritten⟩)) ∧
    (∀ f, busWrite a v t.st = .error f → storeDest (.indirect kind rel) v (some a) t = .error f)) ∧
  (∀ (t t1 : Tick) (kind : Kind) (rel : Rel) (a v : Word), primary kind rel t = .ok (a, t1) →
    (∀ s, busWrite a v t1.st = .ok ((), s) → storeDest (.indirect kind rel) v none t = .ok ((), ⟨s, t1.ipWritten⟩)) ∧
    (∀ f, busWrite a v t1.st = .error f → storeDest (.indirect kind rel) v none t = .error f)) ∧
  (∀ (t : Tick) (kind : Kind) (rel : Rel) (a v : Word) (d : Device), t.st.arrivals = .quiet → devId a ≠ 0xFFF →
    t.st.devices[devId a]? = some d → d.kind = .interruptController → (localAddr a).toNat < 4096 →
    storeDest (.indirect kind rel) v (some a) t =
      .ok ((), ⟨{ t.st with vectors := t.st.vectors.writeWord (localAddr a).toNat v }, t.ipWritten⟩))

/-- R22, R23, R159: the constant registers read 0, 1 and MAX and discard writes; every other register reads what was last
written to it, and a write changes no other; RIP becomes nextIP when no write of RIP happened during the Tick, and keeps
the last write's value otherwise. -/
def Obligations.RegisterReadWrite : Prop :=
  (∀ (t : Tick) (next : Word), t.ipWritten = false → t.advance next = { t.st with rip := next }) ∧
  (∀ (t : Tick) (next : Word), t.ipWritten = true → t.advance next = t.st) ∧
  (∀ s : State, s.readReg .rzero = 0 ∧ s.readReg .rone = 1 ∧ (s.readReg .rmax).toNat = 2 ^ 64 - 1) ∧
  (∀ (s : State) (v : Word), s.writeReg .rzero v = s ∧ s.writeReg .rone v = s ∧ s.writeReg .rmax v = s) ∧
  (∀ (s : State) (r : Reg) (v : Word), r ≠ .rzero → r ≠ .rone → r ≠ .rmax → (s.writeReg r v).readReg r = v) ∧
  (∀ (s : State) (r r' : Reg) (v : Word), r' ≠ r → (s.writeReg r v).readReg r' = s.readReg r') ∧
  (∀ (t : Tick) (r : Reg) (v : Word),
    setReg r v t = .ok ((), ⟨t.st.writeReg r v, if r = .rip then true else t.ipWritten⟩))

/-! ## The bus (20_memory.md) -/

/-- R56, R58, R62, R63, R64: the accesses that are fatal, each by its name; and where a write succeeds and what it leaves:
a word of a RAM, or an entry of the vector table, with the queue untouched. -/
def Obligations.BusAccessOutcomes : Prop :=
  (∀ (s : State) (a v : Word), s.arrivals = .quiet → s.ramAt a →
    busWrite a v s = .ok ((), { s with mem := s.mem.writeWord a.toNat v })) ∧
  (∀ (s : State) (a v : Word) (d : Device), s.arrivals = .quiet → devId a ≠ 0xFFF → s.devices[devId a]? = some d →
    d.kind = .interruptController → (localAddr a).toNat < 4096 →
    busWrite a v s = .ok ((), { s with vectors := s.vectors.writeWord (localAddr a).toNat v })) ∧
  ∀ (s : State) (a v : Word), s.arrivals = .quiet →
    (devId a ≠ 0xFFF → s.devices[devId a]? = none →
      busRead a s = .error .noDeviceAtId ∧ busWrite a v s = .error .noDeviceAtId) ∧
    (devId a = 0xFFF → busWrite a v s = .error .directoryWrite) ∧
    (∀ (d : Device) (n : Nat), devId a ≠ 0xFFF → s.devices[devId a]? = some d → d.kind = .ram n →
      n ≤ (localAddr a).toNat →
      busRead a s = .error .deviceOutOfRange ∧ busWrite a v s = .error .deviceOutOfRange) ∧
    (∀ (d : Device) (n : Nat), devId a ≠ 0xFFF → s.devices[devId a]? = some d → d.kind = .rom n →
      busWrite a v s = .error .readOnlyDevice ∧ (n ≤ (localAddr a).toNat → busRead a s = .error .deviceOutOfRange)) ∧
    (∀ d : Device, devId a ≠ 0xFFF → s.devices[devId a]? = some d → d.kind = .interruptController →
      4096 ≤ (localAddr a).toNat →
      busRead a s = .error .deviceOutOfRange ∧ busWrite a v s = .error .deviceOutOfRange)

/-- R54: the directory's contents for the devices attached when the bus last started or reset, the fatal read above them,
the fatal write, and that an AddDevice is not seen until the next start or reset. -/
def Obligations.DirectoryContents : Prop :=
  (∀ (s t : State), (s.busReset = .ok t ∨ s.busStart = .ok t) → t.arrivals = .quiet →
    ∀ (a : Word), devId a = 0xFFF →
      ((localAddr a).toNat = 0 → busRead a t = .ok (BitVec.ofNat 64 s.devices.length, t)) ∧
      (∀ (k : Nat) (d : Device), s.devices[k]? = some d →
        ((localAddr a).toNat = 1 + 4 * k → busRead a t = .ok (d.deviceType, t)) ∧
        ((localAddr a).toNat = 2 + 4 * k → busRead a t = .ok (d.vendorId, t)) ∧
        ((localAddr a).toNat = 3 + 4 * k → busRead a t = .ok (d.productId, t)) ∧
        ((localAddr a).toNat = 4 + 4 * k → busRead a t = .ok (BitVec.ofNat 64 k, t))) ∧
      (4 * s.devices.length < (localAddr a).toNat → busRead a t = .error .directoryOutOfRange) ∧
      (∀ v : Word, busWrite a v t = .error .directoryWrite)) ∧
  (∀ (s t : State) (d : Device), s.addDevice d = .next t → t.directory = s.directory)

/-- R59: a word access reaches the device its address names only: no other device, no word of another window and no word of
the directory changes; nor does the queue, where no other agent acts meanwhile. -/
def Obligations.BusIsolation : Prop :=
  ∀ (s t : State) (a v : Word), s.controllerCount ≤ 1 →
    (busWrite a v s = .ok ((), t) ∨ busRead a s = .ok (v, t)) →
    (∀ k, k ≠ devId a → t.devices[k]? = s.devices[k]?) ∧ t.directory = s.directory ∧
      (∀ b, devId b ≠ devId a → t.peek b = s.peek b) ∧ (s.arrivals = .quiet → t.queue = s.queue)

/-- R62, R64, R71: a word of a RAM or of the vector table reads what was last written to it, whatever word was written in
between, and the write changes no other word. -/
def Obligations.ReadAfterWrite : Prop :=
  ∀ (s t : State) (a v w : Word), s.mem.wf → s.vectors.wf → s.controllerCount ≤ 1 → s.arrivals = .quiet →
    s.peek a = some w → busWrite a v s = .ok ((), t) →
    busRead a t = .ok (v, t) ∧
      (∀ b, b ≠ a → t.peek b = s.peek b) ∧
      ∀ (b x : Word) (u : State), b ≠ a → busWrite b x t = .ok ((), u) → busRead a u = .ok (v, u)

/-- R60: BusCopy does nothing for length 0, is fatal where a range leaves its window or wraps, and otherwise copies as if
through a buffer, also between overlapping ranges, and changes no other word. -/
def Obligations.BusCopyThroughBuffer : Prop :=
  (∀ (s : State) (src dst : Word), busCopy src dst 0 s = .ok ((), s)) ∧
  (∀ (s : State) (src dst len : Word), len ≠ 0 →
    ((src + (len - 1)).toNat < src.toNat ∨ devId (src + (len - 1)) ≠ devId src ∨
      (dst + (len - 1)).toNat < dst.toNat ∨ devId (dst + (len - 1)) ≠ devId dst) →
    busCopy src dst len s = .error .copyCrossesDevice) ∧
  (∀ (s : State) (src dst len : Word) (f : Nat → Word), s.arrivals = .quiet → s.mem.wf → s.vectors.wf →
    s.controllerCount ≤ 1 → len ≠ 0 →
    ¬ (src + (len - 1)).toNat < src.toNat → devId (src + (len - 1)) = devId src →
    ¬ (dst + (len - 1)).toNat < dst.toNat → devId (dst + (len - 1)) = devId dst →
    (∀ k, k < len.toNat → s.peek (src + BitVec.ofNat 64 k) = some (f k)) →
    (∀ k, k < len.toNat → s.ramAt (dst + BitVec.ofNat 64 k)) →
    ∃ m, busCopy src dst len s = .ok ((), { s with mem := m }) ∧
      (∀ k, k < len.toNat → State.peek { s with mem := m } (dst + BitVec.ofNat 64 k) = some (f k)) ∧
      ∀ b, (∀ k, k < len.toNat → b ≠ dst + BitVec.ofNat 64 k) → State.peek { s with mem := m } b = s.peek b)

/-! ## Interrupts (60_exceptions.md) -/

/-- R403, R407: Enqueue appends a record with the handler its vector names at that moment; a type of 4096 or more is fatal;
a later write of the vector table changes no queued record. -/
def Obligations.EnqueueCapturesVector : Prop :=
  (∀ (s : State) (type d1 d2 : Word), s.arrivals = .quiet → type.toNat < 4096 →
    enqueue type d1 d2 s =
      .ok ((), { s with queue := s.queue ++ [⟨type, d1, d2, s.vectors.readWord type.toNat⟩] })) ∧
  (∀ (s : State) (type d1 d2 : Word), s.arrivals = .quiet → 4096 ≤ type.toNat →
    enqueue type d1 d2 s = .error .badInterruptType) ∧
  (∀ (s t : State) (a v : Word), s.arrivals = .quiet → busWrite a v s = .ok ((), t) → t.queue = s.queue)

/-- R420, R421, R423: delivery enters the record at the head of the queue exactly when IE is 1, inISR is 0 and a record is
pending, and changes nothing else. -/
def Obligations.Delivery : Prop :=
  (∀ (s : State) (r : InterruptRecord) (rest : List InterruptRecord), s.arrivals = .quiet → s.ie = true → s.inISR = false →
    s.queue = r :: rest →
    deliver s = .ok ((), { s with
      queue := rest
      rsip := s.rip
      rip := r.handler
      rint1 := r.data1
      rint2 := r.data2
      inISR := true })) ∧
  (∀ s : State, s.arrivals = .quiet → (s.ie = false ∨ s.inISR = true ∨ s.queue = []) → deliver s = .ok ((), s))

/-- R423, R403: inside a handler no step of the processor enters another: unless the instruction at RIP is EINT the
processor is still inside it, and every record that was pending is still pending, in its place. -/
def Obligations.NoNesting : Prop :=
  ∀ (s s1 t : State) (r : RawInstr), s.runState = .running → s.hostMoves = [] → s.inISR = true →
    fetchDecode s = .ok (r, s1) → r.opcode ≠ 0x03 → step s = .next t →
    t.inISR = true ∧ ∃ new, t.queue = s.queue ++ new

/-- R411, R414, R415: at an interleaving point the records the timer and the devices raise join the tail of the queue, each
with its vector captured then; the timer's record is SystemTimer with zero data; several join in their order; before the
start none does (log 6). The schedule, which is followed in order and then over and over, is the model's form of the
agents' freedom (log 5). -/
def Obligations.InterleavingPoint : Prop :=
  (∀ s : State, s.started = true → s.arrivals.now = [.timer] →
    poll s = .ok ((), { s with
      arrivals := s.arrivals.rest
      queue := s.queue ++ [⟨2, 0, 0, s.vectors.readWord 2⟩] })) ∧
  (∀ (s : State) (id : Nat) (d : Device) (type d1 d2 : Word), s.started = true →
    s.devices[id]? = some d → type ∈ d.irqTypes → type.toNat < 4096 →
    s.arrivals.now = [.device id type d1 d2] →
    poll s = .ok ((), { s with
      arrivals := s.arrivals.rest
      queue := s.queue ++ [⟨type, d1, d2, s.vectors.readWord type.toNat⟩] })) ∧
  (∀ (s : State) (x : Arrival) (xs : List Arrival), s.arrivals.now = x :: xs →
    poll s = (poll >>= fun _ => poll) { s with arrivals := ⟨[x] :: xs :: s.arrivals.rest.next, s.arrivals.again⟩ }) ∧
  (∀ s : State, s.started = false → poll s = .ok ((), { s with arrivals := s.arrivals.rest })) ∧
  (∀ s t : State, poll s = .ok ((), t) →
    ∃ new, t = { s with arrivals := s.arrivals.rest, queue := s.queue ++ new } ∧ ∀ r ∈ new, r.type.toNat < 4096) ∧
  (∀ (now : List Arrival) (later again : List (List Arrival)),
    (Schedule.mk (now :: later) again).now = now ∧ (Schedule.mk (now :: later) again).rest = ⟨later, again⟩ ∧
    (Schedule.mk [] (now :: later)).now = now ∧ (Schedule.mk [] (now :: later)).rest = ⟨later, now :: later⟩)

/-- R430: weak fairness: in every infinite Running run of a started machine whose schedule is fair, the timer fires infinitely
often: after every state there is a later Tick in which a SystemTimer record with zero data joins the queue, whatever
delivery then takes from it; and no step makes a schedule unfair. -/
def Obligations.TimerFairness : Prop :=
  (∀ run : Nat → State, RunningForever run → (run 0).started = true → (run 0).arrivals.fair →
    ∀ n, ∃ k r, n ≤ k ∧ EnqueuedInTick (run k) r ∧ r.type = 2 ∧ r.data1 = 0 ∧ r.data2 = 0) ∧
  ∀ s t : State, step s = .next t → s.arrivals.fair → t.arrivals.fair

/-! ## Reset and the host (70_reset_and_hazards.md) -/

/-- R466, of the state the model starts in: a bus Reset of the spec's example machine (log 3) leaves exactly it. -/
def Obligations.ResetState : Prop :=
  State.reset.busReset = .ok State.reset ∧
    (∀ n : Fin 16, State.reset.readReg (.gp n) = 0) ∧ State.reset.rip = State.reset.bootAddr ∧
    State.reset.rsp = 0 ∧ State.reset.rbp = 0 ∧ State.reset.rsip = 0 ∧ State.reset.rint1 = 0 ∧ State.reset.rint2 = 0 ∧
    State.reset.ie = false ∧ State.reset.inISR = false ∧ State.reset.runState = .stopped ∧ State.reset.queue = [] ∧
    (∀ k, k < 4096 → State.reset.vectors.readWord k = 0)

/-- R408, R409, R460, R461, R462, R465, R466: what a bus Reset, a bus Start and a bus Stop leave, on a machine whose interrupt
controller is attached: every register, the boot address of the lowest boot-capable device, the rebuilt directory, the controller's
queue and table, the run state; with no boot-capable device either is fatal. That a Start leaves the processor Running is the
model's reading of R465 and R466 against vector V-RST-1 (log 15); that Start sets `started`, and Reset and Stop keep it, is
the model's reading of R415 and R430 (log 6). -/
def Obligations.BusResetTable : Prop :=
  ∀ (s : State) (ic : Nat) (c : Device), s.devices[ic]? = some c → c.kind = .interruptController →
    ((∀ d ∈ s.devices, d.deviceType ≠ s.params.bootDeviceType) →
      s.busReset = .error .noBootDevice ∧ s.busStart = .error .noBootDevice) ∧
    (∀ (b : Nat) (d : Device), s.devices[b]? = some d → d.deviceType = s.params.bootDeviceType →
      (∀ (k : Nat) (e : Device), k < b → s.devices[k]? = some e → e.deviceType ≠ s.params.bootDeviceType) →
      ∃ ds,
        sameDevices s.devices ds ∧
        s.busReset = .ok { s with
          gpr := Vector.replicate 16 0
          rip := BitVec.ofNat 64 b <<< 52
          rsp := 0
          rbp := 0
          rsip := 0
          rint1 := 0
          rint2 := 0
          ie := false
          inISR := false
          runState := .stopped
          bootAddr := BitVec.ofNat 64 b <<< 52
          queue := []
          vectors := []
          directory := directoryTable s.devices
          devices := ds }) ∧
    (∀ (b : Nat) (d : Device), s.devices[b]? = some d → d.deviceType = s.params.bootDeviceType →
      (∀ (k : Nat) (e : Device), k < b → s.devices[k]? = some e → e.deviceType ≠ s.params.bootDeviceType) →
      ∃ ds,
        sameDevices s.devices ds ∧
        s.busStart = .ok { s with
          gpr := Vector.replicate 16 0
          rip := BitVec.ofNat 64 b <<< 52
          rsp := 0
          rbp := 0
          rsip := 0
          rint1 := 0
          rint2 := 0
          ie := false
          inISR := false
          runState := .running
          started := true
          bootAddr := BitVec.ofNat 64 b <<< 52
          directory := directoryTable s.devices
          devices := ds }) ∧
    ∃ ds,
      sameDevices s.devices ds ∧ s.busStop = { s with queue := [], vectors := [], runState := .stopped, devices := ds }

/-- R63, R65, R76: after the loader placed an image in a boot device, the device exposes the image's words at its local
addresses 0, 1, 2, … and nothing above; a leading boot magic is not one of them. -/
def Obligations.BootImageExposed : Prop :=
  ∀ (s : State) (id size : Nat) (d : Device) (ws : List Word), s.devices[id]? = some d → d.kind = .rom size →
    id < 0xFFF → s.mem.wf → ws.length ≤ 2 ^ 52 → ws.head? ≠ some Config.bootMagic →
    ∃ t, s.loadImage id (ws.flatMap wordBytes) = .next t ∧
      s.loadImage id ((Config.bootMagic :: ws).flatMap wordBytes) = .next t ∧
      (∀ (a : Word) (k : Nat), devId a = id → (localAddr a).toNat = k → t.peek a = ws[k]?) ∧
      (∀ a : Word, devId a ≠ id → t.peek a = s.peek a)

/-- R55: ids are given in sequence from 0; with 0xFFF devices attached the next AddDevice is fatal. The refusal of a second
interrupt controller is the model's choice (log 16). -/
def Obligations.AddDeviceIds : Prop :=
  ∀ (s : State) (d : Device),
    (s.devices.length < 0xFFF → ¬ (d.kind = .interruptController ∧ 0 < s.controllerCount) →
      ∃ t, s.addDevice d = .next t ∧ t.devices[s.devices.length]? = some d ∧
        (∀ k, k < s.devices.length → t.devices[k]? = s.devices[k]?) ∧ t = { s with devices := t.devices }) ∧
    (s.devices.length = 0xFFF → s.addDevice d = .fault .deviceIdsExhausted) ∧
    (s.devices.length < 0xFFF → d.kind = .interruptController → 0 < s.controllerCount →
      s.addDevice d = .refused .secondInterruptController)

/-- R435, R436, R39, R464, R62: what each host move does in a step, and when: Reset at any time, Break only when Running, every
other only when Stopped (the refusal of a move the spec does not give is the model's, log 7); `wait` leaves the turn to the
machine, so that any move may fall between two Ticks. That Continue sets `started` is log 6; that the loader's moves are
admitted whenever the processor is Stopped, and what loadRam leaves, is log 17, and that the RAM's other words read 0 is
log 2. -/
def Obligations.HostMoves : Prop :=
  ∀ (s : State) (m : HostMove) (rest : List HostMove), s.hostMoves = m :: rest → s.arrivals = .quiet →
    (m = .processorReset →
      step s = .next { s with
        hostMoves := rest
        gpr := Vector.replicate 16 0
        rip := s.bootAddr
        rsp := 0
        rbp := 0
        rsip := 0
        rint1 := 0
        rint2 := 0
        ie := false
        inISR := false
        runState := .stopped }) ∧
    (m = .suspend → s.runState = .running → step s = .next { s with hostMoves := rest, runState := .stopped }) ∧
    (m = .suspend → s.runState = .stopped → step s = .refused .hostMoveNotAllowed) ∧
    (m ≠ .processorReset → m ≠ .suspend → m ≠ .wait → s.runState = .running → step s = .refused .hostMoveNotAllowed) ∧
    (m = .wait → s.runState = .running → step s = tick { s with hostMoves := rest }) ∧
    (m = .wait → s.runState = .stopped → step s = .next { s with hostMoves := rest }) ∧
    (∀ (id : Nat) (image : List Byte), m = .loadImage id image → s.runState = .stopped →
      step s = { s with hostMoves := rest }.loadImage id image) ∧
    (∀ (id size : Nat) (d : Device) (ws : List Word), m = .loadRam id ws → s.runState = .stopped →
      s.devices[id]? = some d → d.kind = .ram size → id < 0xFFF → s.mem.wf → ws.length ≤ min size (2 ^ 52) →
      ∃ mm, step s = .next { s with hostMoves := rest, mem := mm } ∧
        (∀ a : Word, devId a = id → (localAddr a).toNat < size →
          State.peek { s with mem := mm } a = some (ws.getD (localAddr a).toNat 0)) ∧
        ∀ a : Word, devId a ≠ id → State.peek { s with mem := mm } a = s.peek a) ∧
    (∀ (id size : Nat) (d : Device) (ws : List Word), m = .loadRam id ws → s.runState = .stopped →
      s.devices[id]? = some d → d.kind = .ram size → size < ws.length → step s = .fault .deviceOutOfRange) ∧
    (m = .resume → s.runState = .stopped →
      step s = .next { s with hostMoves := rest, runState := .running, started := true }) ∧
    (∀ (r : Reg) (v : Word), m = .writeRegister r v → s.runState = .stopped →
      step s = .next ({ s with hostMoves := rest }.writeReg r v)) ∧
    (m = .busReset → s.runState = .stopped → step s = outcomeOf { s with hostMoves := rest }.busReset) ∧
    (m = .busStart → s.runState = .stopped → step s = outcomeOf { s with hostMoves := rest }.busStart) ∧
    (m = .busStop → s.runState = .stopped → step s = .next { s with hostMoves := rest }.busStop) ∧
    (∀ d : Device, m = .addDevice d → s.runState = .stopped → step s = { s with hostMoves := rest }.addDevice d) ∧
    (m = .stepOnce → s.runState = .stopped →
      step s = tick { s with hostMoves := rest } ∧
        ∀ t, step s = .next t → t.runState = .stopped ∧ t.hostMoves = rest)

/-- R478, R435, R200: with no host move, a Stopped machine changes only as other agents' records join the queue (the step of a
Stopped machine is the model's form, log 14), and so does a machine idling at a HLT, which stays idle; with no other agent
about to act neither changes at all. With IE = 1, no handler and an agent able to enqueue, a machine is not idle. -/
def Obligations.IdleAndStopped : Prop :=
  (∀ s t : State, s.stopped ∨ s.idle → s.hostMoves = [] → step s = .next t →
    ∃ new n, t = { s with queue := s.queue ++ new, arrivals := s.arrivals.after n }) ∧
  (∀ s t : State, s.stopped → s.hostMoves = [] → step s = .next t → t.stopped) ∧
  (∀ s t : State, s.idle → s.hostMoves = [] → step s = .next t → t.idle) ∧
  (∀ s : State, s.stopped ∨ s.idle → s.hostMoves = [] → s.arrivals = .quiet → step s = .next s) ∧
  (∀ s : State, s.started = true → s.ie = true → s.inISR = false → ¬ s.idle)

/-! ## What each instruction does (41_basic.md to 45_debug.md) -/

/-- R200, R201, R204, R205: HLT stays at its own address; NOP, INTE and INTD advance, INTE and INTD setting and clearing
IE; nothing else changes but what the gate did. -/
def Obligations.HltNopInteIntd : Prop :=
  ∀ (g : Option Gate) (s : State) (t : Tick), evalGate g ⟨s, false⟩ = .ok (true, t) →
    exec (.hlt g) s = .next { t.st with rip := s.rip } ∧
    exec (.nop g) s = .next { t.st with rip := s.rip + BitVec.ofNat 64 (Instr.nop g).length } ∧
    exec (.inte g) s = .next { t.st with ie := true, rip := s.rip + BitVec.ofNat 64 (Instr.inte g).length } ∧
    exec (.intd g) s = .next { t.st with ie := false, rip := s.rip + BitVec.ofNat 64 (Instr.intd g).length } ∧
    (Instr.hlt g).shape.opcode = 0x00 ∧ (Instr.nop g).shape.opcode = 0x01 ∧ (Instr.inte g).shape.opcode = 0x04 ∧
    (Instr.intd g).shape.opcode = 0x05

/-- R202: INT queues a record of its type with the vector captured now and enters nothing; a type of 4096 or more queues
InvalidInstruction instead. -/
def Obligations.SoftwareInterrupt : Prop :=
  ∀ (g : Option Gate) (a b c : Operand) (s : State) (x y z : Word) (t : Tick), Sources3 g a b c s x y z t →
    t.st.arrivals = .quiet → (Instr.int g a b c).shape.opcode = 0x02 ∧
    (x.toNat < 4096 →
      exec (.int g a b c) s = .next { t.st with
        queue := t.st.queue ++ [⟨x, y, z, t.st.vectors.readWord x.toNat⟩]
        rip := s.rip + BitVec.ofNat 64 (Instr.int g a b c).length }) ∧
    (4096 ≤ x.toNat →
      exec (.int g a b c) s = .next { t.st with
        queue := t.st.queue ++ [⟨0, 0x02, s.rip, t.st.vectors.readWord 0⟩]
        rip := s.rip + BitVec.ofNat 64 (Instr.int g a b c).length })

/-- R203, R424, R421: inside a handler EINT returns: RIP takes RSIP, RSIP, RINT1 and RINT2 become 0, inISR is cleared;
outside one it raises InvalidInstruction; entering a handler and executing EINT there resumes where the interrupted
program stood, with the three interrupt registers 0 and everything else as it was. -/
def Obligations.ReturnFromInterrupt : Prop :=
  (∀ (s : State) (r : InterruptRecord) (rest : List InterruptRecord), s.arrivals = .quiet → s.ie = true → s.inISR = false →
    s.queue = r :: rest →
    ∃ t, deliver s = .ok ((), t) ∧ t.rip = r.handler ∧
      exec (.eint none) t = .next { s with queue := rest, rsip := 0, rint1 := 0, rint2 := 0 }) ∧
  ∀ (g : Option Gate) (s : State) (t : Tick), evalGate g ⟨s, false⟩ = .ok (true, t) →
    (Instr.eint g).shape.opcode = 0x03 ∧
    (s.inISR = true →
      exec (.eint g) s = .next { t.st with rip := s.rsip, rsip := 0, rint1 := 0, rint2 := 0, inISR := false }) ∧
    (s.inISR = false → t.st.arrivals = .quiet →
      exec (.eint g) s = .next { t.st with
        queue := t.st.queue ++ [⟨0, 0x03, s.rip, t.st.vectors.readWord 0⟩]
        rip := s.rip + BitVec.ofNat 64 (Instr.eint g).length })

/-- R206: XCHG stores each operand's loaded value to the other, at the address it was loaded from, slot 0 first. -/
def Obligations.Exchange : Prop :=
  ∀ (g : Option Gate) (a b : Dest) (s : State) (t1 t2 t3 t4 t5 : Tick) (x y : Word) (oa ob : Option Word),
    evalGate g ⟨s, false⟩ = .ok (true, t1) → load a.operand t1 = .ok ((x, oa), t2) →
    load b.operand t2 = .ok ((y, ob), t3) → storeDest a y oa t3 = .ok ((), t4) → storeDest b x ob t4 = .ok ((), t5) →
    exec (.xchg g a b) s = .next (t5.advance (s.rip + BitVec.ofNat 64 (Instr.xchg g a b).length)) ∧
      (Instr.xchg g a b).shape.opcode = 0x06

/-- R207: CAS stores the new value to the target where it equals the expected value, and the target's value to the expected
operand where it does not; the other operand is not stored. -/
def Obligations.CompareAndSwap : Prop :=
  ∀ (g : Option Gate) (a b : Dest) (c : Operand) (s : State) (t1 t2 t3 t4 t5 : Tick) (x y z : Word)
    (oa ob oc : Option Word),
    evalGate g ⟨s, false⟩ = .ok (true, t1) → load a.operand t1 = .ok ((x, oa), t2) →
    load b.operand t2 = .ok ((y, ob), t3) → load c t3 = .ok ((z, oc), t4) → (Instr.cas g a b c).shape.opcode = 0x07 ∧
    (x = y → storeDest a z oa t4 = .ok ((), t5) →
      exec (.cas g a b c) s = .next (t5.advance (s.rip + BitVec.ofNat 64 (Instr.cas g a b c).length))) ∧
    (x ≠ y → storeDest b x ob t4 = .ok ((), t5) →
      exec (.cas g a b c) s = .next (t5.advance (s.rip + BitVec.ofNat 64 (Instr.cas g a b c).length)))

/-- R208: SET stores its source's value; R287: NOT stores its complement. -/
def Obligations.SetAndNot : Prop :=
  ∀ (g : Option Gate) (d : Dest) (a : Operand) (s : State) (x : Word) (t u : Tick), Sources1 g a s x t →
    (Instr.set g d a).shape.opcode = 0x08 ∧ (Instr.not g d a).shape.opcode = 0x2A ∧
    (storeDest d x none t = .ok ((), u) →
      exec (.set g d a) s = .next (u.advance (s.rip + BitVec.ofNat 64 (Instr.set g d a).length))) ∧
    (storeDest d (BitVec.ofNat 64 (2 ^ 64 - 1 - x.toNat)) none t = .ok ((), u) →
      exec (.not g d a) s = .next (u.advance (s.rip + BitVec.ofNat 64 (Instr.not g d a).length)))

/-- R209: CPY is the BusCopy of its third operand's words from its second operand's address to its first's; it writes no
register. -/
def Obligations.BlockCopy : Prop :=
  ∀ (g : Option Gate) (a b c : Operand) (s u : State) (dst src len : Word) (t : Tick),
    Sources3 g a b c s dst src len t → busCopy src dst len t.st = .ok ((), u) →
    exec (.cpy g a b c) s = .next { u with rip := s.rip + BitVec.ofNat 64 (Instr.cpy g a b c).length } ∧
      (∀ r : Reg, u.readReg r = t.st.readReg r) ∧ (Instr.cpy g a b c).shape.opcode = 0x09

/-- R210, R211: CALL pushes the address after it and goes to its target, which was read first; RET goes to the word it
pops. -/
def Obligations.CallAndReturn : Prop :=
  (∀ (g : Option Gate) (a : Operand) (s u : State) (x : Word) (t : Tick), Sources1 g a s x t →
    busWrite (t.st.rsp - 1) (s.rip + BitVec.ofNat 64 (Instr.call g a).length) { t.st with rsp := t.st.rsp - 1 } =
      .ok ((), u) →
    exec (.call g a) s = .next { u with rip := x } ∧ (Instr.call g a).shape.opcode = 0x0A) ∧
  (∀ (g : Option Gate) (s u : State) (v : Word) (t : Tick), evalGate g ⟨s, false⟩ = .ok (true, t) →
    busRead t.st.rsp t.st = .ok (v, u) →
    exec (.ret g) s = .next { u with rsp := t.st.rsp + 1, rip := v } ∧ (Instr.ret g).shape.opcode = 0x0B)

/-- R330, R331: DBG reports its three values to the hook, if one is installed, and changes nothing else; BRK stops the run
loop, calls the hook and advances. That a hook call is an event held in the state is the model's form (log 8). -/
def Obligations.DebugInstructions : Prop :=
  (∀ (g : Option Gate) (a b c : Operand) (s : State) (x y z : Word) (t : Tick), Sources3 g a b c s x y z t →
    exec (.dbg g a b c) s = .next { t.st with
      hooks := if s.params.debugHookInstalled = true then t.st.hooks ++ [.debug x y z] else t.st.hooks
      rip := s.rip + BitVec.ofNat 64 (Instr.dbg g a b c).length } ∧ (Instr.dbg g a b c).shape.opcode = 0x0C) ∧
  (∀ (g : Option Gate) (s : State) (t : Tick), evalGate g ⟨s, false⟩ = .ok (true, t) →
    exec (.brk g) s = .next { t.st with
      runState := .stopped
      hooks := t.st.hooks ++ [.brk]
      rip := s.rip + BitVec.ofNat 64 (Instr.brk g).length } ∧ (Instr.brk g).shape.opcode = 0x0D)

/-- R254, R255, R256: ADD, SUB and MUL compute modulo 2^64, src1 the minuend. -/
def Obligations.AddSubMul : Prop :=
  ∀ p ∈ ([(.add, 0x10, fun x y => BitVec.ofNat 64 ((x.toNat + y.toNat) % 2 ^ 64)),
      (.sub, 0x12, fun x y => BitVec.ofInt 64 ((x.toNat : Int) - (y.toNat : Int))),
      (.mul, 0x14, fun x y => BitVec.ofNat 64 (x.toNat * y.toNat % 2 ^ 64))] :
      List ((Option Gate → Dest → Operand → Operand → Instr) × BitVec 8 × (Word → Word → Word))),
    ∀ (g : Option Gate) (d : Dest) (a b : Operand) (s : State) (x y : Word) (t u : Tick), Sources2 g a b s x y t →
      storeDest d (p.2.2 x y) none t = .ok ((), u) →
      exec (p.1 g d a b) s = .next (u.advance (s.rip + BitVec.ofNat 64 (p.1 g d a b).length)) ∧
        (p.1 g d a b).shape.opcode = p.2.1

/-- R257, R258, R250: DIV and MOD by a divisor that is not zero, unsigned. -/
def Obligations.DivideAndRemainder : Prop :=
  ∀ p ∈ ([(.div, 0x16, fun x y => BitVec.ofNat 64 (x.toNat / y.toNat)),
      (.mod, 0x18, fun x y => BitVec.ofNat 64 (x.toNat - x.toNat / y.toNat * y.toNat))] :
      List ((Option Gate → Dest → Operand → Operand → Instr) × BitVec 8 × (Word → Word → Word))),
    ∀ (g : Option Gate) (d : Dest) (a b : Operand) (s : State) (x y : Word) (t u : Tick), Sources2 g a b s x y t →
      y ≠ 0 → storeDest d (p.2.2 x y) none t = .ok ((), u) →
      exec (p.1 g d a b) s = .next (u.advance (s.rip + BitVec.ofNat 64 (p.1 g d a b).length)) ∧
        (p.1 g d a b).shape.opcode = p.2.1

/-- R253, R413: DIV and MOD by 0, and DIVF and MODF by +0.0 or -0.0, store nothing and queue exactly one DivideByZero record
with the opcode and the instruction's address. -/
def Obligations.DivideByZero : Prop :=
  ∀ p ∈ ([(.div, 0x16, fun y => y = 0), (.mod, 0x18, fun y => y = 0),
      (.divf, 0x17, fun y => y = 0x0000_0000_0000_0000 ∨ y = 0x8000_0000_0000_0000),
      (.modf, 0x19, fun y => y = 0x0000_0000_0000_0000 ∨ y = 0x8000_0000_0000_0000)] :
      List ((Option Gate → Dest → Operand → Operand → Instr) × BitVec 8 × (Word → Prop))),
    ∀ (g : Option Gate) (d : Dest) (a b : Operand) (s : State) (x y : Word) (t : Tick), Sources2 g a b s x y t →
      p.2.2 y → t.st.arrivals = .quiet →
      exec (p.1 g d a b) s = .next { t.st with
        queue := t.st.queue ++ [⟨1, p.2.1.setWidth 64, s.rip, t.st.vectors.readWord 1⟩]
        rip := s.rip + BitVec.ofNat 64 (p.1 g d a b).length } ∧
      SameWords s t.st ∧ ∀ r : Reg, r ≠ .rsp → t.st.readReg r = s.readReg r

/-- R281 to R286: the bitwise operations, bit by bit. -/
def Obligations.BitwiseLogic : Prop :=
  ∀ p ∈ ([(.and, 0x25, fun x y => x && y), (.or, 0x27, fun x y => x || y), (.xor, 0x29, fun x y => x != y),
      (.nand, 0x24, fun x y => !(x && y)), (.nor, 0x26, fun x y => !(x || y)), (.nxor, 0x28, fun x y => x == y)] :
      List ((Option Gate → Dest → Operand → Operand → Instr) × BitVec 8 × (Bool → Bool → Bool))),
    ∀ (g : Option Gate) (d : Dest) (a b : Operand) (s : State) (x y v : Word) (t u : Tick), Sources2 g a b s x y t →
      (∀ k, k < 64 → v.getLsbD k = p.2.2 (x.getLsbD k) (y.getLsbD k)) → storeDest d v none t = .ok ((), u) →
      exec (p.1 g d a b) s = .next (u.advance (s.rip + BitVec.ofNat 64 (p.1 g d a b).length)) ∧
        (p.1 g d a b).shape.opcode = p.2.1

/-- R288, R289, R280: SR and SL, with the count taken modulo 64 under `mask`, and whole under `saturate`, where a shift by 64
or more gives 0. -/
def Obligations.Shifts : Prop :=
  ∀ p ∈ ([(.sr, 0x20, fun x n => x / 2 ^ n), (.sl, 0x21, fun x n => x * 2 ^ n % 2 ^ 64)] :
      List ((Option Gate → Dest → Operand → Operand → Instr) × BitVec 8 × (Nat → Nat → Nat))),
    ∀ (g : Option Gate) (d : Dest) (a b : Operand) (s : State) (x y : Word) (n : Nat) (t u : Tick),
      Sources2 g a b s x y t →
      n = (match s.params.shiftCountMode with | .mask => y.toNat % 64 | .saturate => y.toNat) →
      storeDest d (BitVec.ofNat 64 (if 64 ≤ n then 0 else p.2.2 x.toNat n)) none t = .ok ((), u) →
      exec (p.1 g d a b) s = .next (u.advance (s.rip + BitVec.ofNat 64 (p.1 g d a b).length)) ∧
        (p.1 g d a b).shape.opcode = p.2.1

/-- R290, R291: RR and RL move bit k to the bit the count modulo 64 below or above it, around the word, in both shift count
modes. -/
def Obligations.Rotations : Prop :=
  ∀ (g : Option Gate) (d : Dest) (a b : Operand) (s : State) (x y v : Word) (t u : Tick), Sources2 g a b s x y t →
    storeDest d v none t = .ok ((), u) → (Instr.rr g d a b).shape.opcode = 0x22 ∧ (Instr.rl g d a b).shape.opcode = 0x23 ∧
    ((∀ k, k < 64 → v.getLsbD k = x.getLsbD ((k + y.toNat % 64) % 64)) →
      exec (.rr g d a b) s = .next (u.advance (s.rip + BitVec.ofNat 64 (Instr.rr g d a b).length))) ∧
    ((∀ k, k < 64 → v.getLsbD ((k + y.toNat % 64) % 64) = x.getLsbD k) →
      exec (.rl g d a b) s = .next (u.advance (s.rip + BitVec.ofNat 64 (Instr.rl g d a b).length)))

/-- R310 to R316: the comparisons are unsigned, and write MAX where the relation holds and 0 where it does not. -/
def Obligations.Comparisons : Prop :=
  ∀ p ∈ ([(.gt, 0x30, fun x y => decide (x > y)), (.gte, 0x31, fun x y => decide (x ≥ y)),
      (.lt, 0x32, fun x y => decide (x < y)), (.lte, 0x33, fun x y => decide (x ≤ y)),
      (.eq, 0x34, fun x y => decide (x = y)), (.neq, 0x35, fun x y => decide (x ≠ y))] :
      List ((Option Gate → Dest → Operand → Operand → Instr) × BitVec 8 × (Nat → Nat → Bool))),
    ∀ (g : Option Gate) (d : Dest) (a b : Operand) (s : State) (x y : Word) (t u : Tick), Sources2 g a b s x y t →
      storeDest d (if p.2.2 x.toNat y.toNat then 0xFFFF_FFFF_FFFF_FFFF else 0) none t = .ok ((), u) →
      exec (p.1 g d a b) s = .next (u.advance (s.rip + BitVec.ofNat 64 (p.1 g d a b).length)) ∧
        (p.1 g d a b).shape.opcode = p.2.1

/-- R259 to R263, R251, R252: the floating-point instructions store the binary64 result, and where it is a NaN the next NaN
draw, whatever it is (log 9); DIVF and MODF for a divisor that is no zero. -/
def Obligations.FloatArithmetic : Prop :=
  ∀ p ∈ ([(.addf, 0x11, f64Add, false), (.subf, 0x13, f64Sub, false), (.mulf, 0x15, f64Mul, false),
      (.divf, 0x17, f64Div, true), (.modf, 0x19, f64Mod, true)] :
      List ((Option Gate → Dest → Operand → Operand → Instr) × BitVec 8 × (Word → Word → Option Word) × Bool)),
    ∀ (g : Option Gate) (d : Dest) (a b : Operand) (s : State) (x y : Word) (t u : Tick), Sources2 g a b s x y t →
      (p.2.2.2 = true → f64IsZero y = false) → (p.1 g d a b).shape.opcode = p.2.1 ∧
      (∀ w, p.2.2.1 x y = some w → storeDest d w none t = .ok ((), u) →
        exec (p.1 g d a b) s = .next (u.advance (s.rip + BitVec.ofNat 64 (p.1 g d a b).length))) ∧
      (p.2.2.1 x y = none →
        storeDest d (nanOf (Config.nanDraw t.st.draws)) none ⟨{ t.st with draws := t.st.draws + 1 }, t.ipWritten⟩ =
          .ok ((), u) →
        exec (p.1 g d a b) s = .next (u.advance (s.rip + BitVec.ofNat 64 (p.1 g d a b).length)))

/-- R252: which operations have a NaN result, that no other result is a NaN, and that a NaN draw may be any NaN and is
always one. -/
def Obligations.NaNResults : Prop :=
  (∀ b c : Word, f64Add b c = none ↔
    (f64IsNaN b = true ∨ f64IsNaN c = true ∨ (f64IsInf b = true ∧ f64IsInf c = true ∧ f64Sign b ≠ f64Sign c))) ∧
  (∀ b c : Word, f64Sub b c = none ↔
    (f64IsNaN b = true ∨ f64IsNaN c = true ∨ (f64IsInf b = true ∧ f64IsInf c = true ∧ f64Sign b = f64Sign c))) ∧
  (∀ b c : Word, f64Mul b c = none ↔
    (f64IsNaN b = true ∨ f64IsNaN c = true ∨ (f64IsInf b = true ∧ f64IsZero c = true) ∨
      (f64IsZero b = true ∧ f64IsInf c = true))) ∧
  (∀ b c : Word, f64IsZero c = false → (f64Div b c = none ↔
    (f64IsNaN b = true ∨ f64IsNaN c = true ∨ (f64IsInf b = true ∧ f64IsInf c = true)))) ∧
  (∀ b c : Word, f64IsZero c = false → (f64Mod b c = none ↔
    (f64IsNaN b = true ∨ f64IsNaN c = true ∨ f64IsInf b = true))) ∧
  (∀ op ∈ [f64Add, f64Sub, f64Mul, f64Div, f64Mod], ∀ b c w : Word, op b c = some w → f64IsNaN w = false) ∧
  (∀ draw : Word, f64IsNaN (nanOf draw) = true) ∧ (∀ w : Word, f64IsNaN w = true → ∃ draw, nanOf draw = w)

/-- R251: the rounding of `n / d` units of 2^-1074 is to a nearest finite binary64, to the even one of two nearest; and it is
an infinity exactly from half a unit of the last place above the largest finite value on. That threshold, which R251 does not
spell out, is IEEE 754's, presumed (log 12). -/
def Obligations.RoundsToNearestEven : Prop :=
  ∀ n d : Nat, 0 < d →
    (f64Round n d = f64InfBits ↔ d * ((2 ^ 54 - 1) * 2 ^ 2044) ≤ n) ∧
    (f64Round n d ≠ f64InfBits → f64Round n d < f64InfBits ∧
      ∀ r, r < f64InfBits →
        ((n : Int) - (d * f64Units (f64Pack false (f64Round n d)) : Nat)).natAbs ≤
          ((n : Int) - (d * f64Units (f64Pack false r) : Nat)).natAbs ∧
        (((n : Int) - (d * f64Units (f64Pack false (f64Round n d)) : Nat)).natAbs =
            ((n : Int) - (d * f64Units (f64Pack false r) : Nat)).natAbs → r ≠ f64Round n d → f64Round n d % 2 = 0))

/-- R259 to R263, R251: the floating-point results that are no NaN, from the exact result. For finite operands: the remainder is
exact, truncating, with the sign of the dividend; a sum, difference, product or quotient that is exactly a finite binary64
is that binary64, and in every case it is the exact one rounded once (`f64Round`, of `RoundsToNearestEven`) with its sign,
so that it overflows to an infinity where that does; x - x is +0 (R260); a zero product has the exclusive or of the signs
(R261). A sum or difference that is exactly zero, the signs of a zero quotient and of the infinities, and the sums,
products and quotients with infinities are IEEE 754's, presumed where the rules' corner cases do not name them (log 12). -/
def Obligations.ExactResults : Prop :=
  (∀ b c : Word, f64Finite b → f64Finite c → f64IsZero c = false →
    ∃ w, f64Mod b c = some w ∧ f64Int w = (f64Int b).tmod (f64Int c) ∧ f64Sign w = f64Sign b) ∧
  (∀ b c : Word, f64Finite b → f64IsInf c = true → f64Mod b c = some b) ∧
  (∀ b c w : Word, f64Finite b → f64Finite c → f64Finite w → f64Int w = f64Int b + f64Int c →
    ∃ v, f64Add b c = some v ∧ f64Int v = f64Int w) ∧
  (∀ b c w : Word, f64Finite b → f64Finite c → f64Finite w → f64Int w = f64Int b - f64Int c →
    ∃ v, f64Sub b c = some v ∧ f64Int v = f64Int w) ∧
  (∀ b c w : Word, f64Finite b → f64Finite c → f64Finite w → f64Int w * 2 ^ 1074 = f64Int b * f64Int c →
    ∃ v, f64Mul b c = some v ∧ f64Int v = f64Int w) ∧
  (∀ b c w : Word, f64Finite b → f64Finite c → f64Finite w → f64IsZero c = false →
    f64Int w * f64Int c = f64Int b * 2 ^ 1074 → ∃ v, f64Div b c = some v ∧ f64Int v = f64Int w) ∧
  (∀ b : Word, f64Finite b → f64Sub b b = some 0) ∧
  (∀ b c : Word, f64Finite b → f64Finite c → (f64IsZero b = true ∨ f64IsZero c = true) →
    f64Mul b c = some (if f64Sign b = f64Sign c then 0x0000_0000_0000_0000 else 0x8000_0000_0000_0000)) ∧
  -- the exact result rounded, where it is not zero
  (∀ b c : Word, f64Finite b → f64Finite c → f64Int b + f64Int c ≠ 0 →
    f64Add b c = some (f64Pack (decide (f64Int b + f64Int c < 0)) (f64Round (f64Int b + f64Int c).natAbs 1))) ∧
  (∀ b c : Word, f64Finite b → f64Finite c → f64Int b - f64Int c ≠ 0 →
    f64Sub b c = some (f64Pack (decide (f64Int b - f64Int c < 0)) (f64Round (f64Int b - f64Int c).natAbs 1))) ∧
  (∀ b c : Word, f64Finite b → f64Finite c → f64Int b * f64Int c ≠ 0 →
    f64Mul b c = some (f64Pack (decide (f64Int b * f64Int c < 0)) (f64Round (f64Int b * f64Int c).natAbs (2 ^ 1074)))) ∧
  (∀ b c : Word, f64Finite b → f64Finite c → f64Int b ≠ 0 → f64IsZero c = false →
    f64Div b c = some (f64Pack (f64Sign b != f64Sign c)
      (f64Round ((f64Int b).natAbs * 2 ^ 1074) (f64Int c).natAbs))) ∧
  -- zero sums, differences and quotients
  (∀ b c : Word, f64Finite b → f64Finite c → f64Int b + f64Int c = 0 →
    f64Add b c = some (if f64Sign b = true ∧ f64Sign c = true then 0x8000_0000_0000_0000 else 0)) ∧
  (∀ b c : Word, f64Finite b → f64Finite c → f64Int b - f64Int c = 0 →
    f64Sub b c = some (if f64Sign b = true ∧ f64Sign c = false then 0x8000_0000_0000_0000 else 0)) ∧
  (∀ b c : Word, f64Finite b → f64IsNaN c = false → f64IsZero c = false → (f64IsZero b = true ∨ f64IsInf c = true) →
    f64Div b c = some (if f64Sign b = f64Sign c then 0 else 0x8000_0000_0000_0000)) ∧
  -- infinities
  (∀ b c : Word, f64IsInf b = true → f64IsNaN c = false →
    (f64Finite c ∨ f64Sign b = f64Sign c → f64Add b c = some b ∧ f64Add c b = some b) ∧
    (f64Finite c ∨ f64Sign b ≠ f64Sign c → f64Sub b c = some b) ∧
    (f64Finite c → f64Sub c b = some (b ^^^ 0x8000_0000_0000_0000)) ∧
    (f64IsZero c = false → f64Mul b c = some (if f64Sign b = f64Sign c then 0x7FF0_0000_0000_0000 else 0xFFF0_0000_0000_0000) ∧
      f64Mul c b = f64Mul b c) ∧
    (f64Finite c → f64IsZero c = false →
      f64Div b c = some (if f64Sign b = f64Sign c then 0x7FF0_0000_0000_0000 else 0xFFF0_0000_0000_0000))) ∧
  f64Pack false f64InfBits = 0x7FF0_0000_0000_0000 ∧ f64Pack true f64InfBits = 0xFFF0_0000_0000_0000

/-- R254 to R256, R281 to R286, R290, R291, R311 to R316, in the form with registers and no conditional operand, of the
instructions with one destination and two sources that neither divide, shift nor compute on floats: no bus access, one
register written, RZERO, RONE and RMAX discarding it (R23), RIP the jump (R159). -/
def Obligations.RegisterForms : Prop :=
  ∀ p ∈ ([(.add, fun x y => x + y), (.sub, fun x y => x - y), (.mul, fun x y => x * y), (.and, fun x y => x &&& y),
      (.or, fun x y => x ||| y), (.xor, fun x y => x ^^^ y), (.nand, fun x y => ~~~(x &&& y)),
      (.nor, fun x y => ~~~(x ||| y)), (.nxor, fun x y => ~~~(x ^^^ y)), (.rr, fun x y => x.rotateRight y.toNat),
      (.rl, fun x y => x.rotateLeft y.toNat),
      (.gt, fun x y => if y.toNat < x.toNat then BitVec.allOnes 64 else 0),
      (.gte, fun x y => if y.toNat ≤ x.toNat then BitVec.allOnes 64 else 0),
      (.lt, fun x y => if x.toNat < y.toNat then BitVec.allOnes 64 else 0),
      (.lte, fun x y => if x.toNat ≤ y.toNat then BitVec.allOnes 64 else 0),
      (.eq, fun x y => if x = y then BitVec.allOnes 64 else 0),
      (.neq, fun x y => if x = y then 0 else BitVec.allOnes 64)] :
      List ((Option Gate → Dest → Operand → Operand → Instr) × (Word → Word → Word))),
    ∀ (rd ra rb : Reg) (s : State),
      exec (p.1 none (.register rd) ⟨.register ra, .none, false⟩ ⟨.register rb, .none, false⟩) s =
        .next { s.writeReg rd (p.2 (s.readReg ra) (s.readReg rb)) with
          rip := if rd = .rip then p.2 (s.readReg ra) (s.readReg rb) else s.rip + 1 }

/-! ## What each instruction leaves alone -/

/-- What SET, NOT, ADD to MODF, SR to XOR and GT to NEQ leave alone: the instructions whose first operand is written and the
rest read. Registers: all but RIP, the destination register, and RSP where an operand pops or the destination pushes.
Queue: other agents' records, and for a zero divisor one record. Memory: every word but the one the destination
resolves to. -/
def Obligations.FrameOneDestination : Prop :=
  ∀ (i : Instr) (d : Dest) (srcs : List Param) (s t : State), i.shape.params = .write d :: srcs → exec i s = .next t →
    SameFixed s t ∧ SameControl s t ∧
    (∀ r : Reg, r ≠ .rip → r ≠ .rsp → d ≠ .register r → t.readReg r = s.readReg r) ∧
    (usesStack i = false → d ≠ .register .rsp → t.rsp = s.rsp) ∧
    (i.shape.opcode ∉ [0x16, 0x17, 0x18, 0x19] → OnlyArrivals s t) ∧
    (s.arrivals = .quiet → t.queue = s.queue ∨
      t.queue = s.queue ++ [⟨1, i.shape.opcode.setWidth 64, s.rip, s.vectors.readWord 1⟩]) ∧
    (t.draws = s.draws ∨ (i.shape.opcode ∈ [0x11, 0x13, 0x15, 0x17, 0x19] ∧ t.draws = s.draws + 1)) ∧
    (∀ r : Reg, d = .register r → SameWords s t) ∧
    (∀ t1 : Tick, evalGate i.shape.gate ⟨s, false⟩ = .ok (false, t1) → SameWords s t) ∧
    (s.controllerCount ≤ 1 → ∀ (t1 t2 t3 : Tick) (xs : List Slot) (a : Word),
      evalGate i.shape.gate ⟨s, false⟩ = .ok (true, t1) → loadPhase i.shape.params t1 = .ok (xs, t2) →
      resolveDest d none ⟨{ t2.st with draws := t.draws }, t2.ipWritten⟩ = .ok (.word a, t3) → SameWordsBut a s t)

/-- What CAS and XCHG leave alone: CAS on success all but the target, on failure all but the expected operand; XCHG all but
its two operands. -/
def Obligations.FrameSwaps : Prop :=
  (∀ (g : Option Gate) (a b : Dest) (c : Operand) (s t : State), exec (.cas g a b c) s = .next t →
    SameFixed s t ∧ SameControl s t ∧ OnlyArrivals s t ∧ t.draws = s.draws ∧
    (∀ r : Reg, r ≠ .rip → r ≠ .rsp → a ≠ .register r → b ≠ .register r → t.readReg r = s.readReg r) ∧
    (usesStack (.cas g a b c) = false → a ≠ .register .rsp → b ≠ .register .rsp → t.rsp = s.rsp) ∧
    (∀ r q : Reg, a = .register r → b = .register q → SameWords s t) ∧
    (∀ t1 : Tick, evalGate g ⟨s, false⟩ = .ok (false, t1) → SameWords s t) ∧
    (∀ (t1 t2 t3 t4 t5 : Tick) (x y z : Word) (oa ob oc : Option Word) (p : Target),
      evalGate g ⟨s, false⟩ = .ok (true, t1) → load a.operand t1 = .ok ((x, oa), t2) →
      load b.operand t2 = .ok ((y, ob), t3) → load c t3 = .ok ((z, oc), t4) →
      resolveDest (if x = y then a else b) (if x = y then oa else ob) t4 = .ok (p, t5) →
      (∀ r : Reg, r ≠ .rip → r ≠ .rsp → p ≠ .register r → t.readReg r = s.readReg r) ∧
        (s.controllerCount ≤ 1 → ∀ w, p ≠ .word w → t.peek w = s.peek w))) ∧
  ∀ (g : Option Gate) (a b : Dest) (s t : State), exec (.xchg g a b) s = .next t →
    SameFixed s t ∧ SameControl s t ∧ OnlyArrivals s t ∧ t.draws = s.draws ∧
    (∀ r : Reg, r ≠ .rip → r ≠ .rsp → a ≠ .register r → b ≠ .register r → t.readReg r = s.readReg r) ∧
    (usesStack (.xchg g a b) = false → a ≠ .register .rsp → b ≠ .register .rsp → t.rsp = s.rsp) ∧
    (∀ r q : Reg, a = .register r → b = .register q → SameWords s t) ∧
    (∀ t1 : Tick, evalGate g ⟨s, false⟩ = .ok (false, t1) → SameWords s t) ∧
    (s.controllerCount ≤ 1 → ∀ (t1 t2 t3 t4 t5 t6 : Tick) (x y : Word) (oa ob : Option Word) (p q : Target),
      evalGate g ⟨s, false⟩ = .ok (true, t1) → load a.operand t1 = .ok ((x, oa), t2) →
      load b.operand t2 = .ok ((y, ob), t3) → resolveDest a oa t3 = .ok (p, t4) →
      writeTarget p y t4 = .ok ((), t5) → resolveDest b ob t5 = .ok (q, t6) →
      ∀ c, p ≠ .word c → q ≠ .word c → t.peek c = s.peek c)

/-- What HLT, NOP, INTE, INTD, INT, DBG, BRK and EINT leave alone: every word of memory, and every register but RIP, RSP
where an operand pops, and for EINT the three interrupt registers. -/
def Obligations.FrameNoDestination : Prop :=
  ∀ (i : Instr) (s t : State), i.shape.opcode ∈ [0x00, 0x01, 0x02, 0x03, 0x04, 0x05, 0x0C, 0x0D] → exec i s = .next t →
    SameFixed s t ∧ SameWords s t ∧ t.draws = s.draws ∧
    (∀ r : Reg, r ≠ .rip → r ≠ .rsp → (i.shape.opcode = 0x03 → r ≠ .rsip ∧ r ≠ .rint1 ∧ r ≠ .rint2) →
      t.readReg r = s.readReg r) ∧
    (usesStack i = false → t.rsp = s.rsp) ∧
    (i.shape.opcode ∉ [0x02, 0x03] → OnlyArrivals s t) ∧
    (s.arrivals = .quiet → t.queue = s.queue ∨ ∃ r, t.queue = s.queue ++ [r])

/-- What CALL, RET and CPY leave alone: CALL stores one word, below RSP as its target left it; RET stores nothing; CPY stores
to its destination range only, and none of them writes another register. -/
def Obligations.FrameCallRetCpy : Prop :=
  ∀ (i : Instr) (s t : State), i.shape.opcode ∈ [0x09, 0x0A, 0x0B] → exec i s = .next t →
    SameFixed s t ∧ SameControl s t ∧ OnlyArrivals s t ∧ t.draws = s.draws ∧
    (∀ r : Reg, r ≠ .rip → r ≠ .rsp → t.readReg r = s.readReg r) ∧
    (i.shape.opcode = 0x09 → usesStack i = false → t.rsp = s.rsp) ∧
    (i.shape.opcode = 0x0B → SameWords s t) ∧
    (∀ t1 : Tick, evalGate i.shape.gate ⟨s, false⟩ = .ok (false, t1) → SameWords s t) ∧
    (∀ (g : Option Gate) (a : Operand) (x : Word) (u : Tick), i = .call g a → Sources1 g a s x u →
      s.controllerCount ≤ 1 → SameWordsBut (u.st.rsp - 1) s t) ∧
    (∀ (g : Option Gate) (a b c : Operand) (dst src len : Word) (u : Tick), i = .cpy g a b c →
      Sources3 g a b c s dst src len u → s.controllerCount ≤ 1 →
      ∀ w, (∀ k, k < len.toNat → w ≠ dst + BitVec.ofNat 64 k) → t.peek w = s.peek w)

/-! ## The whole machine -/

/-- R30, R31, R32, R34: no instruction changes IE but INTE and INTD, none changes inISR but EINT, none changes the run state
but BRK, and none but DBG and BRK reaches a hook. -/
def Obligations.ControlBits : Prop :=
  ∀ (i : Instr) (s t : State), exec i s = .next t →
    (t.ie = s.ie ∨ (i.shape.opcode = 0x04 ∧ t.ie = true) ∨ (i.shape.opcode = 0x05 ∧ t.ie = false)) ∧
    (t.inISR = s.inISR ∨ (i.shape.opcode = 0x03 ∧ s.inISR = true ∧ t.inISR = false)) ∧
    (t.runState = s.runState ∨ (i.shape.opcode = 0x0D ∧ t.runState = .stopped)) ∧
    (t.hooks = s.hooks ∨ (i.shape.opcode = 0x0C ∧ s.params.debugHookInstalled = true ∧ ∃ a b c, t.hooks = s.hooks ++ [.debug a b c]) ∨
      (i.shape.opcode = 0x0D ∧ t.hooks = s.hooks ++ [.brk]))

/-- R170, R34: no step of the processor changes the device table or a device's identity, the directory, the boot address or
the parameters. -/
def Obligations.TickLeavesFixed : Prop :=
  ∀ s t : State, s.runState = .running → s.hostMoves = [] → step s = .next t → SameFixed s t

/-- The state after reset meets the invariant (Safety.lean). -/
def Obligations.ResetInvariant : Prop := State.reset.Inv

/-- Every step, the host's moves and the loader's included, keeps the invariant (Safety.lean): memory and vector table in
canonical form and within what exists (R62 to R64), queued types below 4096 (R36), ids assignable (R55), the directory a
table of attached devices (R54). -/
def Obligations.StepKeepsInvariant : Prop := ∀ s t : State, s.Inv → step s = .next t → t.Inv

end
end

