-- ==== Sys2Proof/Laws/Memory.lean ====
section
/-!
SUPPORT. Memory: a read after a write, and the canonical form that every memory operation keeps.
-/

namespace Sys2Proof.Machine

/-! ## Bytes -/

/-- An address below every listed one is unlisted. -/
theorem Memory.readByte_below (m : Memory) (a : Nat) (h : ∀ c ∈ m, a < c.1) : m.readByte a = Memory.unlistedByte := by
  induction m with
  | nil => rfl
  | cons c m ih =>
    obtain ⟨k, b⟩ := c
    have hk : a < k := h (k, b) (by simp)
    have hne : k ≠ a := by omega
    simp only [Memory.readByte, hne, if_false]
    exact ih fun d hd => h d (by simp [hd])

/-- Another address reads as before a byte write. -/
theorem Memory.readByte_writeByte_ne (m : Memory) {a x : Nat} (b : Byte) (h : x ≠ a) :
    (m.writeByte a b).readByte x = m.readByte x := by
  induction m with
  | nil => unfold Memory.writeByte; split <;> simp [Memory.readByte, Ne.symm h]
  | cons c m ih =>
    obtain ⟨k, c⟩ := c
    unfold Memory.writeByte
    split_ifs with h1 h2 h3 h4
    · rfl
    · simp [Memory.readByte, Ne.symm h]
    · subst h3; simp [Memory.readByte, Ne.symm h]
    · subst h3; simp [Memory.readByte, Ne.symm h]
    · simp [Memory.readByte, ih]

/-- The written address reads the written byte, in a memory in canonical form. -/
theorem Memory.readByte_writeByte_same (m : Memory) (a : Nat) (b : Byte) (hw : m.wf) :
    (m.writeByte a b).readByte a = b := by
  induction m with
  | nil => unfold Memory.writeByte; split <;> simp_all [Memory.readByte]
  | cons c m ih =>
    obtain ⟨k, c⟩ := c
    obtain ⟨hs, hv⟩ := hw
    rw [List.pairwise_cons] at hs
    have ih := ih ⟨hs.2, fun d hd => hv d (by simp [hd])⟩
    unfold Memory.writeByte
    split_ifs with h1 h2 h3 h4
    · rw [h2]
      apply Memory.readByte_below
      intro d hd
      rcases List.mem_cons.1 hd with rfl | hd
      · exact h1
      · exact lt_trans h1 (hs.1 d hd)
    · simp [Memory.readByte]
    · subst h3
      rw [h4]
      exact Memory.readByte_below _ _ fun d hd => hs.1 d hd
    · simp [Memory.readByte]
    · have : k ≠ a := fun e => h3 e.symm
      simp [Memory.readByte, this, ih]

/-- The cells of a byte write: old ones, or the new one. -/
theorem Memory.mem_writeByte {m : Memory} {a : Nat} {b : Byte} {c : Host.Cell} (h : c ∈ m.writeByte a b) :
    c ∈ m ∨ (c = (a, b) ∧ b ≠ Memory.unlistedByte) := by
  induction m with
  | nil => unfold Memory.writeByte at h; split at h <;> simp_all
  | cons d m ih =>
    obtain ⟨k, d⟩ := d
    unfold Memory.writeByte at h
    split_ifs at h with h1 h2 h3 h4
    · exact .inl h
    · rcases List.mem_cons.1 h with rfl | h
      · exact .inr ⟨rfl, h2⟩
      · exact .inl h
    · exact .inl (by simp [h])
    · rcases List.mem_cons.1 h with rfl | h
      · exact .inr ⟨rfl, h4⟩
      · exact .inl (by simp [h])
    · rcases List.mem_cons.1 h with rfl | h
      · exact .inl (by simp)
      · rcases ih h with h | h
        · exact .inl (by simp [h])
        · exact .inr h

/-- A byte write keeps the canonical form. -/
theorem Memory.wf_writeByte (m : Memory) (a : Nat) (b : Byte) (hw : m.wf) : (m.writeByte a b).wf := by
  refine ⟨?_, fun c hc => ?_⟩
  · obtain ⟨hs, -⟩ := hw
    induction m with
    | nil => unfold Memory.writeByte; split <;> simp
    | cons d m ih =>
      obtain ⟨k, d⟩ := d
      rw [List.pairwise_cons] at hs
      unfold Memory.writeByte
      split_ifs with h1 h2 h3 h4
      · exact List.pairwise_cons.2 hs
      · refine List.pairwise_cons.2 ⟨fun c hc => ?_, List.pairwise_cons.2 hs⟩
        rcases List.mem_cons.1 hc with rfl | hc
        · exact h1
        · exact lt_trans h1 (hs.1 c hc)
      · exact hs.2
      · subst h3; exact List.pairwise_cons.2 hs
      · refine List.pairwise_cons.2 ⟨fun c hc => ?_, ih hs.2⟩
        rcases Memory.mem_writeByte hc with hc | ⟨rfl, -⟩
        · exact hs.1 c hc
        · show k < a; omega
  · rcases Memory.mem_writeByte hc with hc | ⟨rfl, hb⟩
    · exact hw.2 c hc
    · exact hb

/-! ## Runs of bytes -/

theorem Memory.wf_writeBytes (bs : List Byte) : ∀ (m : Memory) (a : Nat), m.wf → (m.writeBytes a bs).wf := by
  induction bs with
  | nil => exact fun m a h => h
  | cons b bs ih => exact fun m a h => ih _ _ (Memory.wf_writeByte m a b h)

theorem Memory.readByte_writeBytes_below (bs : List Byte) :
    ∀ (m : Memory) (a x : Nat), x < a → (m.writeBytes a bs).readByte x = m.readByte x := by
  induction bs with
  | nil => exact fun m a x _ => rfl
  | cons b bs ih =>
    intro m a x h
    show ((m.writeByte a b).writeBytes (a + 1) bs).readByte x = m.readByte x
    rw [ih _ _ _ (by omega), Memory.readByte_writeByte_ne _ _ (by omega)]

theorem Memory.readByte_writeBytes_above (bs : List Byte) :
    ∀ (m : Memory) (a x : Nat), a + bs.length ≤ x → (m.writeBytes a bs).readByte x = m.readByte x := by
  induction bs with
  | nil => exact fun m a x _ => rfl
  | cons b bs ih =>
    intro m a x h
    rw [List.length_cons] at h
    show ((m.writeByte a b).writeBytes (a + 1) bs).readByte x = m.readByte x
    rw [ih _ _ _ (by omega), Memory.readByte_writeByte_ne _ _ (by omega)]

theorem Memory.readByte_writeBytes_at (bs : List Byte) :
    ∀ (m : Memory) (a k : Nat) (hk : k < bs.length), m.wf → (m.writeBytes a bs).readByte (a + k) = bs[k] := by
  induction bs with
  | nil => intro m a k hk; simp at hk
  | cons b bs ih =>
    intro m a k hk hw
    show ((m.writeByte a b).writeBytes (a + 1) bs).readByte (a + k) = (b :: bs)[k]
    cases k with
    | zero =>
      rw [Memory.readByte_writeBytes_below _ _ _ _ (by omega)]
      exact Memory.readByte_writeByte_same m a b hw
    | succ k =>
      have := ih (m.writeByte a b) (a + 1) k (by simpa using hk) (Memory.wf_writeByte m a b hw)
      rw [show a + (k + 1) = a + 1 + k by omega, this]
      rfl

/-- The cells after a run of byte writes: old ones, or cells in the run. -/
theorem Memory.mem_writeBytes (bs : List Byte) : ∀ {m : Memory} {a : Nat} {c : Host.Cell}, c ∈ m.writeBytes a bs →
    c ∈ m ∨ (a ≤ c.1 ∧ c.1 < a + bs.length) := by
  induction bs with
  | nil => exact fun h => .inl h
  | cons b bs ih =>
    intro m a c h
    rcases ih (show c ∈ (m.writeByte a b).writeBytes (a + 1) bs from h) with h | h
    · rcases Memory.mem_writeByte h with h | ⟨rfl, -⟩
      · exact .inl h
      · exact .inr (by simp)
    · rw [List.length_cons]; exact .inr (by omega)

/-! ## Words -/

/-- A word is its eight bytes, least significant first (R65). -/
theorem joinBytes_byteOf (w : Word) :
    joinBytes (byteOf w 0) (byteOf w 1) (byteOf w 2) (byteOf w 3) (byteOf w 4) (byteOf w 5) (byteOf w 6) (byteOf w 7)
      = w := by
  apply BitVec.eq_of_getLsbD_eq
  intro i hi
  simp only [joinBytes, byteOf, BitVec.getLsbD_append, BitVec.getLsbD_extractLsb']
  split_ifs <;> exact (congrArg₂ and (decide_eq_true (by omega)) (congrArg w.getLsbD (by omega))).trans (Bool.true_and _)

/-- A read of the written word gives the written value, in a memory in canonical form. -/
theorem Memory.readWord_writeWord_same (m : Memory) (a : Nat) (w : Word) (hw : m.wf) :
    (m.writeWord a w).readWord a = w := by
  have h (k : Nat) (hk : k < 8) := Memory.readByte_writeBytes_at (wordBytes w) m (8 * a) k hk hw
  unfold Memory.readWord Memory.writeWord
  have h0 := h 0 (by omega)
  rw [Nat.add_zero] at h0
  rw [h0, h 1 (by omega), h 2 (by omega), h 3 (by omega), h 4 (by omega), h 5 (by omega), h 6 (by omega),
    h 7 (by omega)]
  exact joinBytes_byteOf w

/-- A read of another word is as before the write. -/
theorem Memory.readWord_writeWord_ne (m : Memory) {a x : Nat} (w : Word) (h : x ≠ a) :
    (m.writeWord a w).readWord x = m.readWord x := by
  have hb (k : Nat) (hk : k < 8) : (m.writeWord a w).readByte (8 * x + k) = m.readByte (8 * x + k) := by
    unfold Memory.writeWord
    rcases Nat.lt_or_gt_of_ne h with h | h
    · exact Memory.readByte_writeBytes_below _ _ _ _ (by omega)
    · exact Memory.readByte_writeBytes_above _ _ _ _ (by simp only [wordBytes, List.length_cons, List.length_nil]; omega)
  unfold Memory.readWord
  have h0 := hb 0 (by omega)
  rw [Nat.add_zero] at h0
  rw [h0, hb 1 (by omega), hb 2 (by omega), hb 3 (by omega), hb 4 (by omega), hb 5 (by omega), hb 6 (by omega),
    hb 7 (by omega)]

/-- A word write keeps the canonical form. -/
theorem Memory.wf_writeWord (m : Memory) (a : Nat) (w : Word) (hw : m.wf) : (m.writeWord a w).wf :=
  Memory.wf_writeBytes _ _ _ hw

/-- The cells after a word write: old ones, or bytes of that word. -/
theorem Memory.mem_writeWord {m : Memory} {a : Nat} {w : Word} {c : Host.Cell} (h : c ∈ m.writeWord a w) :
    c ∈ m ∨ c.1 / 8 = a := by
  rcases Memory.mem_writeBytes _ h with h | h
  · exact .inl h
  · simp only [wordBytes, List.length_cons, List.length_nil] at h
    exact .inr (by omega)

/-- Memory with nothing listed is in canonical form. -/
theorem Memory.wf_nil : Memory.wf [] := ⟨.nil, by simp⟩

theorem Memory.wf_writeWords (ws : List Word) : ∀ (m : Memory) (a : Nat), m.wf → (m.writeWords a ws).wf := by
  induction ws with
  | nil => exact fun m a h => h
  | cons w ws ih => exact fun m a h => ih _ _ (Memory.wf_writeWord m a w h)

/-- The cells after a run of word writes: old ones, or bytes of the run's words. -/
theorem Memory.mem_writeWords (ws : List Word) : ∀ {m : Memory} {a : Nat} {c : Host.Cell}, c ∈ m.writeWords a ws →
    c ∈ m ∨ (a ≤ c.1 / 8 ∧ c.1 / 8 < a + ws.length) := by
  induction ws with
  | nil => exact fun h => .inl h
  | cons w ws ih =>
    intro m a c h
    rcases ih (show c ∈ (m.writeWord a w).writeWords (a + 1) ws from h) with h | h
    · rcases Memory.mem_writeWord h with h | h
      · exact .inl h
      · rw [List.length_cons]; exact .inr (by omega)
    · rw [List.length_cons]; exact .inr (by omega)

theorem Memory.wf_clearWindow (m : Memory) (id : Nat) (hw : m.wf) : (m.clearWindow id).wf :=
  ⟨hw.1.filter _, fun c hc => hw.2 c (List.mem_of_mem_filter hc)⟩

theorem Memory.mem_clearWindow {m : Memory} {id : Nat} {c : Host.Cell} (h : c ∈ m.clearWindow id) :
    c ∈ m ∧ (c.1 < 8 * windowBase id ∨ 8 * windowBase (id + 1) ≤ c.1) := by
  simpa [Memory.clearWindow] using h

/-- Cells chosen by their address: a byte reads as before where its address is chosen, and as unlisted elsewhere. -/
theorem Memory.readByte_filter (p : Nat → Bool) (m : Memory) (a : Nat) :
    Memory.readByte (m.filter fun c => p c.1) a = if p a then m.readByte a else Memory.unlistedByte := by
  induction m with
  | nil => simp [Memory.readByte]
  | cons c m ih =>
    obtain ⟨k, b⟩ := c
    by_cases hk : k = a
    · subst hk
      cases hp : p k with
      | true => simp [Memory.readByte, hp]
      | false => rw [List.filter_cons_of_neg (by simp [hp]), ih, hp]; simp
    · cases hp : p k with
      | true => rw [List.filter_cons_of_pos (by simpa using hp)]; simp only [Memory.readByte, if_neg hk, ih]
      | false => rw [List.filter_cons_of_neg (by simp [hp]), ih]; simp only [Memory.readByte, if_neg hk]

/-- A cleared window reads 0, and every other word as before. -/
theorem Memory.readWord_clearWindow (m : Memory) (id a : Nat) :
    (m.clearWindow id).readWord a = if a / 2 ^ 52 = id then 0 else m.readWord a := by
  have h (k : Nat) (hk : k < 8) : (m.clearWindow id).readByte (8 * a + k) =
      if a / 2 ^ 52 = id then Memory.unlistedByte else m.readByte (8 * a + k) := by
    unfold Memory.clearWindow
    rw [Memory.readByte_filter (fun x => decide (x < 8 * windowBase id) || decide (8 * windowBase (id + 1) ≤ x))]
    by_cases hw : a / 2 ^ 52 = id
    · rw [if_pos hw, if_neg]
      intro h
      rcases Bool.or_eq_true_iff.1 h with h | h <;> have h := of_decide_eq_true h <;> unfold windowBase at h <;> omega
    · rw [if_neg hw, if_pos]
      refine Bool.or_eq_true_iff.2 ?_
      by_cases hl : 8 * a + k < 8 * windowBase id
      · exact .inl (decide_eq_true hl)
      · exact .inr (decide_eq_true (by unfold windowBase at hl ⊢; omega))
  unfold Memory.readWord
  have h0 := h 0 (by omega)
  rw [Nat.add_zero] at h0
  rw [h0, h 1 (by omega), h 2 (by omega), h 3 (by omega), h 4 (by omega), h 5 (by omega), h 6 (by omega), h 7 (by omega)]
  split_ifs
  · decide
  · rfl

/-- A run of written words reads as written, and every other word as before. -/
theorem Memory.readWord_writeWords (ws : List Word) : ∀ (m : Memory) (a x : Nat), m.wf →
    (m.writeWords a ws).readWord x = if a ≤ x ∧ x < a + ws.length then ws.getD (x - a) 0 else m.readWord x := by
  induction ws with
  | nil => intro m a x _; rw [if_neg (by rw [List.length_nil]; omega)]; rfl
  | cons w ws ih =>
    intro m a x hm
    show ((m.writeWord a w).writeWords (a + 1) ws).readWord x = _
    rw [ih _ _ _ (Memory.wf_writeWord m a w hm), List.length_cons]
    by_cases hx : x = a
    · subst hx
      rw [if_neg (by omega), if_pos (by omega), Memory.readWord_writeWord_same _ _ _ hm]
      simp
    · rw [Memory.readWord_writeWord_ne _ _ hx]
      by_cases h : a + 1 ≤ x ∧ x < a + 1 + ws.length
      · rw [if_pos h, if_pos (by omega), show x - a = x - (a + 1) + 1 by omega]
        simp
      · rw [if_neg h, if_neg (by omega)]

end Sys2Proof.Machine
end

