-- ==== Sys2Proof/Laws/State.lean ====
section
/-!
SUPPORT. One lemma for each field of State under each named update of it, so that no later proof unfolds an update.
-/

namespace Sys2Proof.Machine

/-! ## A register write -/

@[simp] theorem State.writeReg_ie (s : State) (r : Reg) (v : Word) : (s.writeReg r v).ie = s.ie := by cases r <;> rfl
@[simp] theorem State.writeReg_inISR (s : State) (r : Reg) (v : Word) : (s.writeReg r v).inISR = s.inISR := by cases r <;> rfl
@[simp] theorem State.writeReg_runState (s : State) (r : Reg) (v : Word) : (s.writeReg r v).runState = s.runState := by cases r <;> rfl
@[simp] theorem State.writeReg_bootAddr (s : State) (r : Reg) (v : Word) : (s.writeReg r v).bootAddr = s.bootAddr := by cases r <;> rfl
@[simp] theorem State.writeReg_vectors (s : State) (r : Reg) (v : Word) : (s.writeReg r v).vectors = s.vectors := by cases r <;> rfl
@[simp] theorem State.writeReg_queue (s : State) (r : Reg) (v : Word) : (s.writeReg r v).queue = s.queue := by cases r <;> rfl
@[simp] theorem State.writeReg_devices (s : State) (r : Reg) (v : Word) : (s.writeReg r v).devices = s.devices := by cases r <;> rfl
@[simp] theorem State.writeReg_directory (s : State) (r : Reg) (v : Word) : (s.writeReg r v).directory = s.directory := by cases r <;> rfl
@[simp] theorem State.writeReg_mem (s : State) (r : Reg) (v : Word) : (s.writeReg r v).mem = s.mem := by cases r <;> rfl
@[simp] theorem State.writeReg_params (s : State) (r : Reg) (v : Word) : (s.writeReg r v).params = s.params := by cases r <;> rfl
@[simp] theorem State.writeReg_started (s : State) (r : Reg) (v : Word) : (s.writeReg r v).started = s.started := by cases r <;> rfl
@[simp] theorem State.writeReg_arrivals (s : State) (r : Reg) (v : Word) : (s.writeReg r v).arrivals = s.arrivals := by cases r <;> rfl
@[simp] theorem State.writeReg_hostMoves (s : State) (r : Reg) (v : Word) : (s.writeReg r v).hostMoves = s.hostMoves := by cases r <;> rfl
@[simp] theorem State.writeReg_hooks (s : State) (r : Reg) (v : Word) : (s.writeReg r v).hooks = s.hooks := by cases r <;> rfl
@[simp] theorem State.writeReg_draws (s : State) (r : Reg) (v : Word) : (s.writeReg r v).draws = s.draws := by cases r <;> rfl
@[simp] theorem State.writeReg_rip_gpr (s : State) (v : Word) : (s.writeReg .rip v).gpr = s.gpr := rfl
@[simp] theorem State.writeReg_rip_rip (s : State) (v : Word) : (s.writeReg .rip v).rip = v := rfl
@[simp] theorem State.writeReg_rip_rsp (s : State) (v : Word) : (s.writeReg .rip v).rsp = s.rsp := rfl
@[simp] theorem State.writeReg_rip_rbp (s : State) (v : Word) : (s.writeReg .rip v).rbp = s.rbp := rfl
@[simp] theorem State.writeReg_rip_rsip (s : State) (v : Word) : (s.writeReg .rip v).rsip = s.rsip := rfl
@[simp] theorem State.writeReg_rip_rint1 (s : State) (v : Word) : (s.writeReg .rip v).rint1 = s.rint1 := rfl
@[simp] theorem State.writeReg_rip_rint2 (s : State) (v : Word) : (s.writeReg .rip v).rint2 = s.rint2 := rfl
@[simp] theorem State.writeReg_rsp_gpr (s : State) (v : Word) : (s.writeReg .rsp v).gpr = s.gpr := rfl
@[simp] theorem State.writeReg_rsp_rip (s : State) (v : Word) : (s.writeReg .rsp v).rip = s.rip := rfl
@[simp] theorem State.writeReg_rsp_rsp (s : State) (v : Word) : (s.writeReg .rsp v).rsp = v := rfl
@[simp] theorem State.writeReg_rsp_rbp (s : State) (v : Word) : (s.writeReg .rsp v).rbp = s.rbp := rfl
@[simp] theorem State.writeReg_rsp_rsip (s : State) (v : Word) : (s.writeReg .rsp v).rsip = s.rsip := rfl
@[simp] theorem State.writeReg_rsp_rint1 (s : State) (v : Word) : (s.writeReg .rsp v).rint1 = s.rint1 := rfl
@[simp] theorem State.writeReg_rsp_rint2 (s : State) (v : Word) : (s.writeReg .rsp v).rint2 = s.rint2 := rfl
@[simp] theorem State.writeReg_rbp_gpr (s : State) (v : Word) : (s.writeReg .rbp v).gpr = s.gpr := rfl
@[simp] theorem State.writeReg_rbp_rip (s : State) (v : Word) : (s.writeReg .rbp v).rip = s.rip := rfl
@[simp] theorem State.writeReg_rbp_rsp (s : State) (v : Word) : (s.writeReg .rbp v).rsp = s.rsp := rfl
@[simp] theorem State.writeReg_rbp_rbp (s : State) (v : Word) : (s.writeReg .rbp v).rbp = v := rfl
@[simp] theorem State.writeReg_rbp_rsip (s : State) (v : Word) : (s.writeReg .rbp v).rsip = s.rsip := rfl
@[simp] theorem State.writeReg_rbp_rint1 (s : State) (v : Word) : (s.writeReg .rbp v).rint1 = s.rint1 := rfl
@[simp] theorem State.writeReg_rbp_rint2 (s : State) (v : Word) : (s.writeReg .rbp v).rint2 = s.rint2 := rfl
@[simp] theorem State.writeReg_rsip_gpr (s : State) (v : Word) : (s.writeReg .rsip v).gpr = s.gpr := rfl
@[simp] theorem State.writeReg_rsip_rip (s : State) (v : Word) : (s.writeReg .rsip v).rip = s.rip := rfl
@[simp] theorem State.writeReg_rsip_rsp (s : State) (v : Word) : (s.writeReg .rsip v).rsp = s.rsp := rfl
@[simp] theorem State.writeReg_rsip_rbp (s : State) (v : Word) : (s.writeReg .rsip v).rbp = s.rbp := rfl
@[simp] theorem State.writeReg_rsip_rsip (s : State) (v : Word) : (s.writeReg .rsip v).rsip = v := rfl
@[simp] theorem State.writeReg_rsip_rint1 (s : State) (v : Word) : (s.writeReg .rsip v).rint1 = s.rint1 := rfl
@[simp] theorem State.writeReg_rsip_rint2 (s : State) (v : Word) : (s.writeReg .rsip v).rint2 = s.rint2 := rfl
@[simp] theorem State.writeReg_rint1_gpr (s : State) (v : Word) : (s.writeReg .rint1 v).gpr = s.gpr := rfl
@[simp] theorem State.writeReg_rint1_rip (s : State) (v : Word) : (s.writeReg .rint1 v).rip = s.rip := rfl
@[simp] theorem State.writeReg_rint1_rsp (s : State) (v : Word) : (s.writeReg .rint1 v).rsp = s.rsp := rfl
@[simp] theorem State.writeReg_rint1_rbp (s : State) (v : Word) : (s.writeReg .rint1 v).rbp = s.rbp := rfl
@[simp] theorem State.writeReg_rint1_rsip (s : State) (v : Word) : (s.writeReg .rint1 v).rsip = s.rsip := rfl
@[simp] theorem State.writeReg_rint1_rint1 (s : State) (v : Word) : (s.writeReg .rint1 v).rint1 = v := rfl
@[simp] theorem State.writeReg_rint1_rint2 (s : State) (v : Word) : (s.writeReg .rint1 v).rint2 = s.rint2 := rfl
@[simp] theorem State.writeReg_rint2_gpr (s : State) (v : Word) : (s.writeReg .rint2 v).gpr = s.gpr := rfl
@[simp] theorem State.writeReg_rint2_rip (s : State) (v : Word) : (s.writeReg .rint2 v).rip = s.rip := rfl
@[simp] theorem State.writeReg_rint2_rsp (s : State) (v : Word) : (s.writeReg .rint2 v).rsp = s.rsp := rfl
@[simp] theorem State.writeReg_rint2_rbp (s : State) (v : Word) : (s.writeReg .rint2 v).rbp = s.rbp := rfl
@[simp] theorem State.writeReg_rint2_rsip (s : State) (v : Word) : (s.writeReg .rint2 v).rsip = s.rsip := rfl
@[simp] theorem State.writeReg_rint2_rint1 (s : State) (v : Word) : (s.writeReg .rint2 v).rint1 = s.rint1 := rfl
@[simp] theorem State.writeReg_rint2_rint2 (s : State) (v : Word) : (s.writeReg .rint2 v).rint2 = v := rfl
@[simp] theorem State.writeReg_gp_gpr (s : State) (n : Fin 16) (v : Word) : (s.writeReg (.gp n) v).gpr = s.gpr.set n v := rfl
@[simp] theorem State.writeReg_gp_rbp (s : State) (n : Fin 16) (v : Word) : (s.writeReg (.gp n) v).rbp = s.rbp := rfl
@[simp] theorem State.writeReg_gp_rint1 (s : State) (n : Fin 16) (v : Word) : (s.writeReg (.gp n) v).rint1 = s.rint1 := rfl
@[simp] theorem State.writeReg_gp_rint2 (s : State) (n : Fin 16) (v : Word) : (s.writeReg (.gp n) v).rint2 = s.rint2 := rfl
@[simp] theorem State.writeReg_gp_rip (s : State) (n : Fin 16) (v : Word) : (s.writeReg (.gp n) v).rip = s.rip := rfl
@[simp] theorem State.writeReg_gp_rsip (s : State) (n : Fin 16) (v : Word) : (s.writeReg (.gp n) v).rsip = s.rsip := rfl
@[simp] theorem State.writeReg_gp_rsp (s : State) (n : Fin 16) (v : Word) : (s.writeReg (.gp n) v).rsp = s.rsp := rfl
@[simp] theorem State.writeReg_rzero (s : State) (v : Word) : s.writeReg .rzero v = s := rfl
@[simp] theorem State.writeReg_rone (s : State) (v : Word) : s.writeReg .rone v = s := rfl
@[simp] theorem State.writeReg_rmax (s : State) (v : Word) : s.writeReg .rmax v = s := rfl

/-! ## `enterInterrupt` -/

@[simp] theorem State.enterInterrupt_gpr (s : State) (r : InterruptRecord) : (s.enterInterrupt r).gpr = s.gpr := rfl
@[simp] theorem State.enterInterrupt_rip (s : State) (r : InterruptRecord) : (s.enterInterrupt r).rip = r.handler := rfl
@[simp] theorem State.enterInterrupt_rsp (s : State) (r : InterruptRecord) : (s.enterInterrupt r).rsp = s.rsp := rfl
@[simp] theorem State.enterInterrupt_rbp (s : State) (r : InterruptRecord) : (s.enterInterrupt r).rbp = s.rbp := rfl
@[simp] theorem State.enterInterrupt_rsip (s : State) (r : InterruptRecord) : (s.enterInterrupt r).rsip = s.rip := rfl
@[simp] theorem State.enterInterrupt_rint1 (s : State) (r : InterruptRecord) : (s.enterInterrupt r).rint1 = r.data1 := rfl
@[simp] theorem State.enterInterrupt_rint2 (s : State) (r : InterruptRecord) : (s.enterInterrupt r).rint2 = r.data2 := rfl
@[simp] theorem State.enterInterrupt_ie (s : State) (r : InterruptRecord) : (s.enterInterrupt r).ie = s.ie := rfl
@[simp] theorem State.enterInterrupt_inISR (s : State) (r : InterruptRecord) : (s.enterInterrupt r).inISR = true := rfl
@[simp] theorem State.enterInterrupt_runState (s : State) (r : InterruptRecord) : (s.enterInterrupt r).runState = s.runState := rfl
@[simp] theorem State.enterInterrupt_bootAddr (s : State) (r : InterruptRecord) : (s.enterInterrupt r).bootAddr = s.bootAddr := rfl
@[simp] theorem State.enterInterrupt_vectors (s : State) (r : InterruptRecord) : (s.enterInterrupt r).vectors = s.vectors := rfl
@[simp] theorem State.enterInterrupt_queue (s : State) (r : InterruptRecord) : (s.enterInterrupt r).queue = s.queue := rfl
@[simp] theorem State.enterInterrupt_devices (s : State) (r : InterruptRecord) : (s.enterInterrupt r).devices = s.devices := rfl
@[simp] theorem State.enterInterrupt_directory (s : State) (r : InterruptRecord) : (s.enterInterrupt r).directory = s.directory := rfl
@[simp] theorem State.enterInterrupt_mem (s : State) (r : InterruptRecord) : (s.enterInterrupt r).mem = s.mem := rfl
@[simp] theorem State.enterInterrupt_params (s : State) (r : InterruptRecord) : (s.enterInterrupt r).params = s.params := rfl
@[simp] theorem State.enterInterrupt_started (s : State) (r : InterruptRecord) : (s.enterInterrupt r).started = s.started := rfl
@[simp] theorem State.enterInterrupt_arrivals (s : State) (r : InterruptRecord) : (s.enterInterrupt r).arrivals = s.arrivals := rfl
@[simp] theorem State.enterInterrupt_hostMoves (s : State) (r : InterruptRecord) : (s.enterInterrupt r).hostMoves = s.hostMoves := rfl
@[simp] theorem State.enterInterrupt_hooks (s : State) (r : InterruptRecord) : (s.enterInterrupt r).hooks = s.hooks := rfl
@[simp] theorem State.enterInterrupt_draws (s : State) (r : InterruptRecord) : (s.enterInterrupt r).draws = s.draws := rfl

/-! ## `returnFromInterrupt` -/

@[simp] theorem State.returnFromInterrupt_gpr (s : State) : (s.returnFromInterrupt).gpr = s.gpr := rfl
@[simp] theorem State.returnFromInterrupt_rip (s : State) : (s.returnFromInterrupt).rip = s.rsip := rfl
@[simp] theorem State.returnFromInterrupt_rsp (s : State) : (s.returnFromInterrupt).rsp = s.rsp := rfl
@[simp] theorem State.returnFromInterrupt_rbp (s : State) : (s.returnFromInterrupt).rbp = s.rbp := rfl
@[simp] theorem State.returnFromInterrupt_rsip (s : State) : (s.returnFromInterrupt).rsip = 0 := rfl
@[simp] theorem State.returnFromInterrupt_rint1 (s : State) : (s.returnFromInterrupt).rint1 = 0 := rfl
@[simp] theorem State.returnFromInterrupt_rint2 (s : State) : (s.returnFromInterrupt).rint2 = 0 := rfl
@[simp] theorem State.returnFromInterrupt_ie (s : State) : (s.returnFromInterrupt).ie = s.ie := rfl
@[simp] theorem State.returnFromInterrupt_inISR (s : State) : (s.returnFromInterrupt).inISR = false := rfl
@[simp] theorem State.returnFromInterrupt_runState (s : State) : (s.returnFromInterrupt).runState = s.runState := rfl
@[simp] theorem State.returnFromInterrupt_bootAddr (s : State) : (s.returnFromInterrupt).bootAddr = s.bootAddr := rfl
@[simp] theorem State.returnFromInterrupt_vectors (s : State) : (s.returnFromInterrupt).vectors = s.vectors := rfl
@[simp] theorem State.returnFromInterrupt_queue (s : State) : (s.returnFromInterrupt).queue = s.queue := rfl
@[simp] theorem State.returnFromInterrupt_devices (s : State) : (s.returnFromInterrupt).devices = s.devices := rfl
@[simp] theorem State.returnFromInterrupt_directory (s : State) : (s.returnFromInterrupt).directory = s.directory := rfl
@[simp] theorem State.returnFromInterrupt_mem (s : State) : (s.returnFromInterrupt).mem = s.mem := rfl
@[simp] theorem State.returnFromInterrupt_params (s : State) : (s.returnFromInterrupt).params = s.params := rfl
@[simp] theorem State.returnFromInterrupt_started (s : State) : (s.returnFromInterrupt).started = s.started := rfl
@[simp] theorem State.returnFromInterrupt_arrivals (s : State) : (s.returnFromInterrupt).arrivals = s.arrivals := rfl
@[simp] theorem State.returnFromInterrupt_hostMoves (s : State) : (s.returnFromInterrupt).hostMoves = s.hostMoves := rfl
@[simp] theorem State.returnFromInterrupt_hooks (s : State) : (s.returnFromInterrupt).hooks = s.hooks := rfl
@[simp] theorem State.returnFromInterrupt_draws (s : State) : (s.returnFromInterrupt).draws = s.draws := rfl

/-! ## `setDeviceState` -/

@[simp] theorem State.setDeviceState_gpr (s : State) (id : Nat) (d : Device) (b n : Nat) : (s.setDeviceState id d b n).gpr = s.gpr := rfl
@[simp] theorem State.setDeviceState_rip (s : State) (id : Nat) (d : Device) (b n : Nat) : (s.setDeviceState id d b n).rip = s.rip := rfl
@[simp] theorem State.setDeviceState_rsp (s : State) (id : Nat) (d : Device) (b n : Nat) : (s.setDeviceState id d b n).rsp = s.rsp := rfl
@[simp] theorem State.setDeviceState_rbp (s : State) (id : Nat) (d : Device) (b n : Nat) : (s.setDeviceState id d b n).rbp = s.rbp := rfl
@[simp] theorem State.setDeviceState_rsip (s : State) (id : Nat) (d : Device) (b n : Nat) : (s.setDeviceState id d b n).rsip = s.rsip := rfl
@[simp] theorem State.setDeviceState_rint1 (s : State) (id : Nat) (d : Device) (b n : Nat) : (s.setDeviceState id d b n).rint1 = s.rint1 := rfl
@[simp] theorem State.setDeviceState_rint2 (s : State) (id : Nat) (d : Device) (b n : Nat) : (s.setDeviceState id d b n).rint2 = s.rint2 := rfl
@[simp] theorem State.setDeviceState_ie (s : State) (id : Nat) (d : Device) (b n : Nat) : (s.setDeviceState id d b n).ie = s.ie := rfl
@[simp] theorem State.setDeviceState_inISR (s : State) (id : Nat) (d : Device) (b n : Nat) : (s.setDeviceState id d b n).inISR = s.inISR := rfl
@[simp] theorem State.setDeviceState_runState (s : State) (id : Nat) (d : Device) (b n : Nat) : (s.setDeviceState id d b n).runState = s.runState := rfl
@[simp] theorem State.setDeviceState_bootAddr (s : State) (id : Nat) (d : Device) (b n : Nat) : (s.setDeviceState id d b n).bootAddr = s.bootAddr := rfl
@[simp] theorem State.setDeviceState_vectors (s : State) (id : Nat) (d : Device) (b n : Nat) : (s.setDeviceState id d b n).vectors = s.vectors := rfl
@[simp] theorem State.setDeviceState_queue (s : State) (id : Nat) (d : Device) (b n : Nat) : (s.setDeviceState id d b n).queue = s.queue := rfl
@[simp] theorem State.setDeviceState_devices (s : State) (id : Nat) (d : Device) (b n : Nat) : (s.setDeviceState id d b n).devices = s.devices.set id { d with kind := .external b n } := rfl
@[simp] theorem State.setDeviceState_directory (s : State) (id : Nat) (d : Device) (b n : Nat) : (s.setDeviceState id d b n).directory = s.directory := rfl
@[simp] theorem State.setDeviceState_mem (s : State) (id : Nat) (d : Device) (b n : Nat) : (s.setDeviceState id d b n).mem = s.mem := rfl
@[simp] theorem State.setDeviceState_params (s : State) (id : Nat) (d : Device) (b n : Nat) : (s.setDeviceState id d b n).params = s.params := rfl
@[simp] theorem State.setDeviceState_started (s : State) (id : Nat) (d : Device) (b n : Nat) : (s.setDeviceState id d b n).started = s.started := rfl
@[simp] theorem State.setDeviceState_arrivals (s : State) (id : Nat) (d : Device) (b n : Nat) : (s.setDeviceState id d b n).arrivals = s.arrivals := rfl
@[simp] theorem State.setDeviceState_hostMoves (s : State) (id : Nat) (d : Device) (b n : Nat) : (s.setDeviceState id d b n).hostMoves = s.hostMoves := rfl
@[simp] theorem State.setDeviceState_hooks (s : State) (id : Nat) (d : Device) (b n : Nat) : (s.setDeviceState id d b n).hooks = s.hooks := rfl
@[simp] theorem State.setDeviceState_draws (s : State) (id : Nat) (d : Device) (b n : Nat) : (s.setDeviceState id d b n).draws = s.draws := rfl

/-! ## `processorReset` -/

@[simp] theorem State.processorReset_gpr (s : State) : (s.processorReset).gpr = Vector.replicate 16 0#64 := rfl
@[simp] theorem State.processorReset_rip (s : State) : (s.processorReset).rip = s.bootAddr := rfl
@[simp] theorem State.processorReset_rsp (s : State) : (s.processorReset).rsp = 0 := rfl
@[simp] theorem State.processorReset_rbp (s : State) : (s.processorReset).rbp = 0 := rfl
@[simp] theorem State.processorReset_rsip (s : State) : (s.processorReset).rsip = 0 := rfl
@[simp] theorem State.processorReset_rint1 (s : State) : (s.processorReset).rint1 = 0 := rfl
@[simp] theorem State.processorReset_rint2 (s : State) : (s.processorReset).rint2 = 0 := rfl
@[simp] theorem State.processorReset_ie (s : State) : (s.processorReset).ie = false := rfl
@[simp] theorem State.processorReset_inISR (s : State) : (s.processorReset).inISR = false := rfl
@[simp] theorem State.processorReset_runState (s : State) : (s.processorReset).runState = .stopped := rfl
@[simp] theorem State.processorReset_bootAddr (s : State) : (s.processorReset).bootAddr = s.bootAddr := rfl
@[simp] theorem State.processorReset_vectors (s : State) : (s.processorReset).vectors = s.vectors := rfl
@[simp] theorem State.processorReset_queue (s : State) : (s.processorReset).queue = s.queue := rfl
@[simp] theorem State.processorReset_devices (s : State) : (s.processorReset).devices = s.devices := rfl
@[simp] theorem State.processorReset_directory (s : State) : (s.processorReset).directory = s.directory := rfl
@[simp] theorem State.processorReset_mem (s : State) : (s.processorReset).mem = s.mem := rfl
@[simp] theorem State.processorReset_params (s : State) : (s.processorReset).params = s.params := rfl
@[simp] theorem State.processorReset_started (s : State) : (s.processorReset).started = s.started := rfl
@[simp] theorem State.processorReset_arrivals (s : State) : (s.processorReset).arrivals = s.arrivals := rfl
@[simp] theorem State.processorReset_hostMoves (s : State) : (s.processorReset).hostMoves = s.hostMoves := rfl
@[simp] theorem State.processorReset_hooks (s : State) : (s.processorReset).hooks = s.hooks := rfl
@[simp] theorem State.processorReset_draws (s : State) : (s.processorReset).draws = s.draws := rfl

/-! ## `resume` -/

@[simp] theorem State.resume_gpr (s : State) : (s.resume).gpr = s.gpr := rfl
@[simp] theorem State.resume_rip (s : State) : (s.resume).rip = s.rip := rfl
@[simp] theorem State.resume_rsp (s : State) : (s.resume).rsp = s.rsp := rfl
@[simp] theorem State.resume_rbp (s : State) : (s.resume).rbp = s.rbp := rfl
@[simp] theorem State.resume_rsip (s : State) : (s.resume).rsip = s.rsip := rfl
@[simp] theorem State.resume_rint1 (s : State) : (s.resume).rint1 = s.rint1 := rfl
@[simp] theorem State.resume_rint2 (s : State) : (s.resume).rint2 = s.rint2 := rfl
@[simp] theorem State.resume_ie (s : State) : (s.resume).ie = s.ie := rfl
@[simp] theorem State.resume_inISR (s : State) : (s.resume).inISR = s.inISR := rfl
@[simp] theorem State.resume_runState (s : State) : (s.resume).runState = .running := rfl
@[simp] theorem State.resume_bootAddr (s : State) : (s.resume).bootAddr = s.bootAddr := rfl
@[simp] theorem State.resume_vectors (s : State) : (s.resume).vectors = s.vectors := rfl
@[simp] theorem State.resume_queue (s : State) : (s.resume).queue = s.queue := rfl
@[simp] theorem State.resume_devices (s : State) : (s.resume).devices = s.devices := rfl
@[simp] theorem State.resume_directory (s : State) : (s.resume).directory = s.directory := rfl
@[simp] theorem State.resume_mem (s : State) : (s.resume).mem = s.mem := rfl
@[simp] theorem State.resume_params (s : State) : (s.resume).params = s.params := rfl
@[simp] theorem State.resume_started (s : State) : (s.resume).started = true := rfl
@[simp] theorem State.resume_arrivals (s : State) : (s.resume).arrivals = s.arrivals := rfl
@[simp] theorem State.resume_hostMoves (s : State) : (s.resume).hostMoves = s.hostMoves := rfl
@[simp] theorem State.resume_hooks (s : State) : (s.resume).hooks = s.hooks := rfl
@[simp] theorem State.resume_draws (s : State) : (s.resume).draws = s.draws := rfl

/-! ## `suspend` -/

@[simp] theorem State.suspend_gpr (s : State) : (s.suspend).gpr = s.gpr := rfl
@[simp] theorem State.suspend_rip (s : State) : (s.suspend).rip = s.rip := rfl
@[simp] theorem State.suspend_rsp (s : State) : (s.suspend).rsp = s.rsp := rfl
@[simp] theorem State.suspend_rbp (s : State) : (s.suspend).rbp = s.rbp := rfl
@[simp] theorem State.suspend_rsip (s : State) : (s.suspend).rsip = s.rsip := rfl
@[simp] theorem State.suspend_rint1 (s : State) : (s.suspend).rint1 = s.rint1 := rfl
@[simp] theorem State.suspend_rint2 (s : State) : (s.suspend).rint2 = s.rint2 := rfl
@[simp] theorem State.suspend_ie (s : State) : (s.suspend).ie = s.ie := rfl
@[simp] theorem State.suspend_inISR (s : State) : (s.suspend).inISR = s.inISR := rfl
@[simp] theorem State.suspend_runState (s : State) : (s.suspend).runState = .stopped := rfl
@[simp] theorem State.suspend_bootAddr (s : State) : (s.suspend).bootAddr = s.bootAddr := rfl
@[simp] theorem State.suspend_vectors (s : State) : (s.suspend).vectors = s.vectors := rfl
@[simp] theorem State.suspend_queue (s : State) : (s.suspend).queue = s.queue := rfl
@[simp] theorem State.suspend_devices (s : State) : (s.suspend).devices = s.devices := rfl
@[simp] theorem State.suspend_directory (s : State) : (s.suspend).directory = s.directory := rfl
@[simp] theorem State.suspend_mem (s : State) : (s.suspend).mem = s.mem := rfl
@[simp] theorem State.suspend_params (s : State) : (s.suspend).params = s.params := rfl
@[simp] theorem State.suspend_started (s : State) : (s.suspend).started = s.started := rfl
@[simp] theorem State.suspend_arrivals (s : State) : (s.suspend).arrivals = s.arrivals := rfl
@[simp] theorem State.suspend_hostMoves (s : State) : (s.suspend).hostMoves = s.hostMoves := rfl
@[simp] theorem State.suspend_hooks (s : State) : (s.suspend).hooks = s.hooks := rfl
@[simp] theorem State.suspend_draws (s : State) : (s.suspend).draws = s.draws := rfl

/-! ## `rebuildDirectory` -/

@[simp] theorem State.rebuildDirectory_gpr (s : State) : (s.rebuildDirectory).gpr = s.gpr := rfl
@[simp] theorem State.rebuildDirectory_rip (s : State) : (s.rebuildDirectory).rip = s.rip := rfl
@[simp] theorem State.rebuildDirectory_rsp (s : State) : (s.rebuildDirectory).rsp = s.rsp := rfl
@[simp] theorem State.rebuildDirectory_rbp (s : State) : (s.rebuildDirectory).rbp = s.rbp := rfl
@[simp] theorem State.rebuildDirectory_rsip (s : State) : (s.rebuildDirectory).rsip = s.rsip := rfl
@[simp] theorem State.rebuildDirectory_rint1 (s : State) : (s.rebuildDirectory).rint1 = s.rint1 := rfl
@[simp] theorem State.rebuildDirectory_rint2 (s : State) : (s.rebuildDirectory).rint2 = s.rint2 := rfl
@[simp] theorem State.rebuildDirectory_ie (s : State) : (s.rebuildDirectory).ie = s.ie := rfl
@[simp] theorem State.rebuildDirectory_inISR (s : State) : (s.rebuildDirectory).inISR = s.inISR := rfl
@[simp] theorem State.rebuildDirectory_runState (s : State) : (s.rebuildDirectory).runState = s.runState := rfl
@[simp] theorem State.rebuildDirectory_bootAddr (s : State) : (s.rebuildDirectory).bootAddr = s.bootAddr := rfl
@[simp] theorem State.rebuildDirectory_vectors (s : State) : (s.rebuildDirectory).vectors = s.vectors := rfl
@[simp] theorem State.rebuildDirectory_queue (s : State) : (s.rebuildDirectory).queue = s.queue := rfl
@[simp] theorem State.rebuildDirectory_devices (s : State) : (s.rebuildDirectory).devices = s.devices := rfl
@[simp] theorem State.rebuildDirectory_directory (s : State) : (s.rebuildDirectory).directory = directoryTable s.devices := rfl
@[simp] theorem State.rebuildDirectory_mem (s : State) : (s.rebuildDirectory).mem = s.mem := rfl
@[simp] theorem State.rebuildDirectory_params (s : State) : (s.rebuildDirectory).params = s.params := rfl
@[simp] theorem State.rebuildDirectory_started (s : State) : (s.rebuildDirectory).started = s.started := rfl
@[simp] theorem State.rebuildDirectory_arrivals (s : State) : (s.rebuildDirectory).arrivals = s.arrivals := rfl
@[simp] theorem State.rebuildDirectory_hostMoves (s : State) : (s.rebuildDirectory).hostMoves = s.hostMoves := rfl
@[simp] theorem State.rebuildDirectory_hooks (s : State) : (s.rebuildDirectory).hooks = s.hooks := rfl
@[simp] theorem State.rebuildDirectory_draws (s : State) : (s.rebuildDirectory).draws = s.draws := rfl

/-! ## The IP advance -/

@[simp] theorem Tick.advance_gpr (t : Tick) (next : Word) : (t.advance next).gpr = t.st.gpr := by unfold Tick.advance; split <;> rfl
@[simp] theorem Tick.advance_rsp (t : Tick) (next : Word) : (t.advance next).rsp = t.st.rsp := by unfold Tick.advance; split <;> rfl
@[simp] theorem Tick.advance_rbp (t : Tick) (next : Word) : (t.advance next).rbp = t.st.rbp := by unfold Tick.advance; split <;> rfl
@[simp] theorem Tick.advance_rsip (t : Tick) (next : Word) : (t.advance next).rsip = t.st.rsip := by unfold Tick.advance; split <;> rfl
@[simp] theorem Tick.advance_rint1 (t : Tick) (next : Word) : (t.advance next).rint1 = t.st.rint1 := by unfold Tick.advance; split <;> rfl
@[simp] theorem Tick.advance_rint2 (t : Tick) (next : Word) : (t.advance next).rint2 = t.st.rint2 := by unfold Tick.advance; split <;> rfl
@[simp] theorem Tick.advance_ie (t : Tick) (next : Word) : (t.advance next).ie = t.st.ie := by unfold Tick.advance; split <;> rfl
@[simp] theorem Tick.advance_inISR (t : Tick) (next : Word) : (t.advance next).inISR = t.st.inISR := by unfold Tick.advance; split <;> rfl
@[simp] theorem Tick.advance_runState (t : Tick) (next : Word) : (t.advance next).runState = t.st.runState := by unfold Tick.advance; split <;> rfl
@[simp] theorem Tick.advance_bootAddr (t : Tick) (next : Word) : (t.advance next).bootAddr = t.st.bootAddr := by unfold Tick.advance; split <;> rfl
@[simp] theorem Tick.advance_vectors (t : Tick) (next : Word) : (t.advance next).vectors = t.st.vectors := by unfold Tick.advance; split <;> rfl
@[simp] theorem Tick.advance_queue (t : Tick) (next : Word) : (t.advance next).queue = t.st.queue := by unfold Tick.advance; split <;> rfl
@[simp] theorem Tick.advance_devices (t : Tick) (next : Word) : (t.advance next).devices = t.st.devices := by unfold Tick.advance; split <;> rfl
@[simp] theorem Tick.advance_directory (t : Tick) (next : Word) : (t.advance next).directory = t.st.directory := by unfold Tick.advance; split <;> rfl
@[simp] theorem Tick.advance_mem (t : Tick) (next : Word) : (t.advance next).mem = t.st.mem := by unfold Tick.advance; split <;> rfl
@[simp] theorem Tick.advance_params (t : Tick) (next : Word) : (t.advance next).params = t.st.params := by unfold Tick.advance; split <;> rfl
@[simp] theorem Tick.advance_started (t : Tick) (next : Word) : (t.advance next).started = t.st.started := by unfold Tick.advance; split <;> rfl
@[simp] theorem Tick.advance_arrivals (t : Tick) (next : Word) : (t.advance next).arrivals = t.st.arrivals := by unfold Tick.advance; split <;> rfl
@[simp] theorem Tick.advance_hostMoves (t : Tick) (next : Word) : (t.advance next).hostMoves = t.st.hostMoves := by unfold Tick.advance; split <;> rfl
@[simp] theorem Tick.advance_hooks (t : Tick) (next : Word) : (t.advance next).hooks = t.st.hooks := by unfold Tick.advance; split <;> rfl
@[simp] theorem Tick.advance_draws (t : Tick) (next : Word) : (t.advance next).draws = t.st.draws := by unfold Tick.advance; split <;> rfl

theorem Tick.advance_rip (t : Tick) (next : Word) :
    (t.advance next).rip = if t.ipWritten then t.st.rip else next := by unfold Tick.advance; split <;> rfl

/-! ## Reading registers -/

@[simp] theorem State.readReg_gp (s : State) (n : Fin 16) : s.readReg (.gp n) = s.gpr[n] := rfl
@[simp] theorem State.readReg_rzero (s : State) : s.readReg .rzero = 0 := rfl
@[simp] theorem State.readReg_rone (s : State) : s.readReg .rone = 1 := rfl
@[simp] theorem State.readReg_rmax (s : State) : s.readReg .rmax = Word.maxValue := rfl
@[simp] theorem State.readReg_rip (s : State) : s.readReg .rip = s.rip := rfl
@[simp] theorem State.readReg_rsp (s : State) : s.readReg .rsp = s.rsp := rfl
@[simp] theorem State.readReg_rbp (s : State) : s.readReg .rbp = s.rbp := rfl
@[simp] theorem State.readReg_rsip (s : State) : s.readReg .rsip = s.rsip := rfl
@[simp] theorem State.readReg_rint1 (s : State) : s.readReg .rint1 = s.rint1 := rfl
@[simp] theorem State.readReg_rint2 (s : State) : s.readReg .rint2 = s.rint2 := rfl

/-- A written register reads the written value, unless it is a constant register (R22, R23). -/
theorem State.readReg_writeReg_same (s : State) (r : Reg) (v : Word) (h : constantReg r = false) :
    (s.writeReg r v).readReg r = v := by
  cases r <;> simp_all [constantReg, State.writeReg, State.readReg]

/-- A register write leaves every other register alone (R21: no register aliases another). -/
theorem State.readReg_writeReg_ne (s : State) (r q : Reg) (v : Word) (h : q ≠ r) :
    (s.writeReg r v).readReg q = s.readReg q := by
  cases r <;> cases q <;> simp_all [State.writeReg, State.readReg]
  rename_i n m
  exact Vector.getElem_set_ne _ _ (fun e => h (Fin.ext e.symm))

/-- A write to a constant register changes nothing (R23). -/
theorem State.writeReg_constant (s : State) (r : Reg) (v : Word) (h : constantReg r = true) : s.writeReg r v = s := by
  cases r <;> simp_all [constantReg, State.writeReg]

end Sys2Proof.Machine
end

