-- ==== Sys2Proof/Laws/Ops.lean ====
section
/-!
SUPPORT. What each shared operation over the state can do, said once: the interrupt controller, the bus, BusCopy.
-/

namespace Sys2Proof.Machine

/-! ## Sequences of operations -/

/-- A sequence answers when its first part answers and the rest answers from there. -/
theorem bind_ok {σ ε α β : Type} {x : StateT σ (Except ε) α} {f : α → StateT σ (Except ε) β} {s : σ} {r : β × σ} :
    (x >>= f) s = .ok r ↔ ∃ a s1, x s = .ok (a, s1) ∧ f a s1 = .ok r := by
  constructor
  · intro h
    cases hx : x s with
    | error e => simp [bind, StateT.bind, Except.bind, hx] at h
    | ok p => exact ⟨p.1, p.2, rfl, by simpa [bind, StateT.bind, Except.bind, hx] using h⟩
  · rintro ⟨a, s1, hx, hf⟩
    simp [bind, StateT.bind, Except.bind, hx, hf]

/-- The same, to compute a sequence forwards. -/
theorem bind_of_ok {σ ε α β : Type} {x : StateT σ (Except ε) α} {f : α → StateT σ (Except ε) β} {s : σ} {a : α} {s1 : σ}
    (hx : x s = .ok (a, s1)) : (x >>= f) s = f a s1 := by
  simp [bind, StateT.bind, Except.bind, hx]

/-- A sequence whose first part is fatal is fatal. -/
theorem bind_of_error {σ ε α β : Type} {x : StateT σ (Except ε) α} {f : α → StateT σ (Except ε) β} {s : σ} {e : ε}
    (hx : x s = .error e) : (x >>= f) s = .error e := by
  simp [bind, StateT.bind, Except.bind, hx]

theorem pure_ok {σ ε α : Type} {a : α} {s : σ} {r : α × σ} :
    (pure a : StateT σ (Except ε) α) s = .ok r ↔ r = (a, s) := by
  simp [pure, StateT.pure, Except.pure, eq_comm]

/-- Reading the state hands it on. -/
theorem get_bind {σ ε β : Type} {f : σ → StateT σ (Except ε) β} {s : σ} :
    ((get : StateT σ (Except ε) σ) >>= f) s = f s s := rfl

theorem pure_apply {σ ε α : Type} (a : α) (s : σ) : (pure a : StateT σ (Except ε) α) s = .ok (a, s) := rfl

/-! ## Devices -/

theorem Device.same_refl (d : Device) : Device.same d d := ⟨rfl, rfl, rfl, rfl, .inl rfl⟩

theorem Device.same_trans {d e f : Device} (h : Device.same d e) (k : Device.same e f) : Device.same d f := by
  obtain ⟨h1, h2, h3, h4, h5⟩ := h
  obtain ⟨k1, k2, k3, k4, k5⟩ := k
  refine ⟨k1.trans h1, k2.trans h2, k3.trans h3, k4.trans h4, ?_⟩
  rcases h5 with h5 | ⟨b, m, n, hd, he⟩
  · rw [h5] at k5; exact k5
  · rcases k5 with k5 | ⟨b', m', n', he', hf⟩
    · exact .inr ⟨b, m, n, hd, by rw [k5, he]⟩
    · rw [he] at he'
      injection he' with hb _
      exact .inr ⟨b, m, n', hd, by rw [hf, hb]⟩

theorem sameDevices_refl (ds : List Device) : sameDevices ds ds := by
  induction ds with
  | nil => exact .nil
  | cons d ds ih => exact .cons (Device.same_refl d) ih

theorem sameDevices_trans {ds es fs : List Device} (h : sameDevices ds es) (k : sameDevices es fs) : sameDevices ds fs := by
  induction h generalizing fs with
  | nil => cases k; exact .nil
  | cons hd _ ih => cases k with
    | cons kd kt => exact .cons (Device.same_trans hd kd) (ih kt)

theorem sameDevices_length {ds es : List Device} (h : sameDevices ds es) : es.length = ds.length := h.length_eq.symm

/-- An access changes at most the own state of one device of the DEVICES parameter. -/
theorem sameDevices_set {ds : List Device} {id : Nat} {d : Device} {b m n : Nat} (hd : ds[id]? = some d)
    (hk : d.kind = .external b m) : sameDevices ds (ds.set id { d with kind := .external b n }) := by
  induction ds generalizing id with
  | nil => exact .nil
  | cons e ds ih =>
    cases id with
    | zero =>
      simp only [List.getElem?_cons_zero, Option.some.injEq] at hd
      subst hd
      exact .cons ⟨rfl, rfl, rfl, rfl, .inr ⟨b, m, n, hk, rfl⟩⟩ (sameDevices_refl ds)
    | succ id => exact .cons (Device.same_refl e) (ih (by simpa using hd))

theorem sameDevices_getElem? {ds es : List Device} (h : sameDevices ds es) (k : Nat) :
    (ds[k]? = none ∧ es[k]? = none) ∨ ∃ d e, ds[k]? = some d ∧ es[k]? = some e ∧ Device.same d e := by
  induction h generalizing k with
  | nil => exact .inl ⟨rfl, rfl⟩
  | cons hd _ ih =>
    cases k with
    | zero => exact .inr ⟨_, _, rfl, rfl, hd⟩
    | succ k => simpa using ih k

/-- What `peek` sees does not depend on the own states of devices of the DEVICES parameter. -/
theorem State.peek_congr {s t : State} (hd : sameDevices s.devices t.devices) (hdir : t.directory = s.directory)
    (hm : t.mem = s.mem) (hv : t.vectors = s.vectors) (a : Word) : t.peek a = s.peek a := by
  unfold State.peek
  rw [hdir, hm, hv]
  rcases sameDevices_getElem? hd (devId a) with ⟨h1, h2⟩ | ⟨d, e, h1, h2, -, -, -, -, hk⟩
  · rw [h1, h2]
  · rw [h1, h2]
    rcases hk with hk | ⟨b, m, n, hk, hk'⟩
    · simp only [hk]
    · simp only [hk, hk']

/-! ## The schedule -/

@[simp] theorem Schedule.after_zero (c : Schedule) : c.after 0 = c := rfl

theorem Schedule.after_succ (c : Schedule) (n : Nat) : c.after (n + 1) = c.rest.after n := rfl

theorem Schedule.after_after (c : Schedule) (m n : Nat) : (c.after m).after n = c.after (m + n) := by
  induction m generalizing c with
  | zero => simp
  | succ m ih => rw [Nat.succ_add]; exact ih c.rest

@[simp] theorem Schedule.quiet_now : Schedule.quiet.now = [] := rfl

@[simp] theorem Schedule.quiet_rest : Schedule.quiet.rest = .quiet := rfl

@[simp] theorem Schedule.quiet_after (n : Nat) : Schedule.quiet.after n = .quiet := by
  induction n with
  | zero => rfl
  | succ n ih => exact ih

@[simp] theorem Schedule.rest_again (c : Schedule) : c.rest.again = c.again := by
  unfold Schedule.rest
  split <;> simp_all

@[simp] theorem Schedule.after_again (c : Schedule) (n : Nat) : (c.after n).again = c.again := by
  induction n generalizing c with
  | zero => rfl
  | succ n ih => rw [Schedule.after_succ, ih, Schedule.rest_again]

/-! ## The interrupt controller -/

/-- What an append does (R403): the record with the vector's present handler, at the tail. -/
theorem appendRecord_ok {type d1 d2 : Word} {s t : State} (h : appendRecord type d1 d2 s = .ok t) :
    type.toNat < vectorCount ∧ t = { s with queue := s.queue ++ [⟨type, d1, d2, s.vector type⟩] } := by
  unfold appendRecord at h
  split at h
  · cases h
  · injection h with h
    exact ⟨by omega, h.symm⟩

/-- Before the start nothing is admitted (R415, R430; log 6). -/
theorem Arrival.record_unstarted {x : Arrival} {s : State} (h : s.started = false) : x.record s = none := by
  cases x with
  | timer => simp [Arrival.record, h]
  | device id type d1 d2 => simp only [Arrival.record, h]; split <;> simp

/-- What joins the queue at one interleaving point (R411, R414): nothing where nothing is due or the machine has not started,
the timer's record where the timer is due in a started machine. -/
theorem takeArrivals_ok {xs : List Arrival} {s t : State} (h : takeArrivals xs s = .ok t) :
    ∃ new, t = { s with queue := s.queue ++ new } ∧ (∀ r ∈ new, r.type.toNat < vectorCount) ∧
      (xs = [] ∨ s.started = false → new = []) ∧
      (s.started = true → .timer ∈ xs → ∃ r ∈ new, r.type = 2 ∧ r.data1 = 0 ∧ r.data2 = 0) := by
  induction xs generalizing s with
  | nil => injection h with h; exact ⟨[], by simp [← h], by simp, by simp, by simp⟩
  | cons x xs ih =>
    unfold takeArrivals at h
    split at h
    · rename_i hx
      obtain ⟨new, ht, hn, h0, htm⟩ := ih h
      refine ⟨new, ht, hn, fun e => h0 (.inr (e.resolve_left (by simp))), fun hs hm => htm hs ((List.mem_cons.1 hm).resolve_left ?_)⟩
      rintro rfl
      simp [Arrival.record, hs] at hx
    · rename_i ty e1 e2 hx
      split at h
      · rename_i s' hs'
        obtain ⟨hty, hs'⟩ := appendRecord_ok hs'
        obtain ⟨new, ht, hn, -, htm⟩ := ih h
        refine ⟨⟨ty, e1, e2, s.vector ty⟩ :: new, by rw [ht, hs']; simp, ?_, fun e => ?_, fun hs hm => ?_⟩
        · intro r hr
          rcases List.mem_cons.1 hr with rfl | hr
          · exact hty
          · exact hn r hr
        · rw [Arrival.record_unstarted (e.resolve_left (by simp))] at hx
          cases hx
        · rcases List.mem_cons.1 hm with rfl | hm
          · simp only [Arrival.record, hs, if_true, Option.some.injEq, Prod.mk.injEq] at hx
            exact ⟨_, List.mem_cons_self, hx.1.symm, hx.2.1.symm, hx.2.2.symm⟩
          · obtain ⟨r, hr, hr'⟩ := htm (by rw [hs']; exact hs) hm
            exact ⟨r, List.mem_cons_of_mem _ hr, hr'⟩
      · cases h

/-- The records `new` joined the queue at `n` interleaving points that followed `s` (R411): of types below 4096, none where no
other agent acts or the machine has not started, and the timer's among them for each point at which it is due in a started
machine. -/
structure State.Joined (s : State) (n : Nat) (new : List InterruptRecord) : Prop where
  types : ∀ r ∈ new, r.type.toNat < vectorCount
  quiet : s.arrivals = .quiet → new = []
  unstarted : s.started = false → new = []
  timer : s.started = true → ∀ k < n, .timer ∈ (s.arrivals.after k).now →
    ∃ r ∈ new, r.type = 2 ∧ r.data1 = 0 ∧ r.data2 = 0

theorem State.Joined.nil (s : State) : s.Joined 0 [] := ⟨by simp, by simp, by simp, by simp⟩

/-- Records that join after others. -/
theorem State.Joined.append {s t : State} {n m : Nat} {new new' : List InterruptRecord} (h : s.Joined n new)
    (k : t.Joined m new') (ha : t.arrivals = s.arrivals.after n) (hs : t.started = s.started) :
    s.Joined (n + m) (new ++ new') where
  types r hr := (List.mem_append.1 hr).elim (h.types r) (k.types r)
  quiet e := by rw [h.quiet e, k.quiet (by rw [ha, e, Schedule.quiet_after])]; rfl
  unstarted e := by rw [h.unstarted e, k.unstarted (hs.trans e)]; rfl
  timer e j hj hm := by
    by_cases hjn : j < n
    · obtain ⟨r, hr, hr'⟩ := h.timer e j hjn hm
      exact ⟨r, List.mem_append_left _ hr, hr'⟩
    · obtain ⟨r, hr, hr'⟩ := k.timer (hs.trans e) (j - n) (by omega)
        (by rw [ha, Schedule.after_after, Nat.add_sub_cancel' (by omega)]; exact hm)
      exact ⟨r, List.mem_append_right _ hr, hr'⟩

/-- What reading operands and the bus can change of a state: RSP, the queue and the schedule at the interleaving points
passed, and the own states of devices of the DEVICES parameter; nothing else. -/
def State.ReadsTo (s t : State) : Prop :=
  ∃ sp new n ds, t = { s with rsp := sp, queue := s.queue ++ new, arrivals := s.arrivals.after n, devices := ds } ∧
    sameDevices s.devices ds ∧ s.Joined n new

theorem State.ReadsTo.refl (s : State) : s.ReadsTo s :=
  ⟨s.rsp, [], 0, s.devices, by simp, sameDevices_refl _, .nil s⟩

theorem State.ReadsTo.trans {s t u : State} (h : s.ReadsTo t) (k : t.ReadsTo u) : s.ReadsTo u := by
  obtain ⟨sp, new, n, ds, rfl, hd, hj⟩ := h
  obtain ⟨sp', new', n', ds', rfl, hd', hj'⟩ := k
  exact ⟨sp', new ++ new', n + n', ds', by simp [Schedule.after_after], sameDevices_trans hd hd', hj.append hj' rfl rfl⟩

theorem State.ReadsTo.setRsp (s : State) (v : Word) : s.ReadsTo (s.writeReg .rsp v) :=
  ⟨v, [], 0, s.devices, by simp [State.writeReg], sameDevices_refl _, .nil s⟩

theorem State.ReadsTo.peek {s t : State} (h : s.ReadsTo t) (a : Word) : t.peek a = s.peek a := by
  obtain ⟨sp, new, n, ds, rfl, hd, -⟩ := h
  apply State.peek_congr
  · exact hd
  all_goals rfl

/-- What an interleaving point can do (R411): other agents' records join the queue. -/
theorem poll_ok {s t : State} (h : poll s = .ok ((), t)) :
    ∃ new, t = { s with queue := s.queue ++ new, arrivals := s.arrivals.after 1 } ∧ s.Joined 1 new := by
  unfold poll at h
  split at h
  · rename_i s' hs'
    injection h with h; injection h with _ h
    obtain ⟨new, ht, hn, h0, htm⟩ := takeArrivals_ok hs'
    refine ⟨new, by rw [← h, ht]; rfl, hn, fun e => h0 (.inl (by rw [e]; rfl)), fun e => h0 (.inr e), fun hs k hk hm => htm hs ?_⟩
    obtain rfl : k = 0 := by omega
    exact hm
  · cases h

/-- With no other agent about to act, an interleaving point does nothing. -/
theorem poll_quiet {s : State} (h : s.arrivals = .quiet) : poll s = .ok ((), s) := by
  unfold poll
  rw [h]
  show Except.ok ((), { s with arrivals := .quiet }) = _
  rw [← h]

theorem poll_readsTo {s t : State} (h : poll s = .ok ((), t)) : s.ReadsTo t := by
  obtain ⟨new, rfl, hj⟩ := poll_ok h
  exact ⟨s.rsp, new, 1, s.devices, rfl, sameDevices_refl _, hj⟩

/-- What an enqueue by the processor does (R403), after the interleaving point before it. -/
theorem enqueue_ok {type d1 d2 : Word} {s t : State} :
    enqueue type d1 d2 s = .ok ((), t) ↔ ∃ s1, poll s = .ok ((), s1) ∧ type.toNat < vectorCount ∧
      t = { s1 with queue := s1.queue ++ [⟨type, d1, d2, s1.vector type⟩] } := by
  unfold enqueue
  rw [bind_ok]
  constructor
  · rintro ⟨⟨⟩, s1, h1, h2⟩
    have h4 := (get_bind (s := s1)).symm.trans h2
    cases hs : appendRecord type d1 d2 s1 with
    | ok s' =>
      simp only [hs] at h4
      injection h4 with h4; injection h4 with _ h4
      obtain ⟨hty, hs'⟩ := appendRecord_ok hs
      exact ⟨s1, h1, hty, by rw [← h4, hs']⟩
    | error f => simp only [hs] at h4; cases h4
  · rintro ⟨s1, h1, hty, rfl⟩
    refine ⟨(), s1, h1, get_bind.trans ?_⟩
    have : appendRecord type d1 d2 s1 = .ok { s1 with queue := s1.queue ++ [⟨type, d1, d2, s1.vector type⟩] } := by
      unfold appendRecord
      rw [if_neg (by omega)]
    rw [this]
    rfl

/-- What the delivery step does (R420): after its interleaving point it enters the head of the queue, or nothing. -/
theorem deliver_ok {s t : State} :
    deliver s = .ok ((), t) ↔ ∃ s1, poll s = .ok ((), s1) ∧
      ((s1.deliverable = false ∧ t = s1) ∨
        (s1.deliverable = true ∧ ∃ r rest, s1.queue = r :: rest ∧
          t = State.enterInterrupt { s1 with queue := rest } r)) := by
  unfold deliver
  rw [bind_ok]
  constructor
  · rintro ⟨⟨⟩, s1, h1, h2⟩
    have h4 := (get_bind (s := s1)).symm.trans h2
    refine ⟨s1, h1, ?_⟩
    cases hd : s1.deliverable with
    | false =>
      rw [hd] at h4
      injection h4 with h4; injection h4 with _ h4
      exact .inl ⟨rfl, h4.symm⟩
    | true =>
      rw [hd, if_pos rfl] at h4
      obtain ⟨r, s4, h5, h6⟩ := bind_ok.1 h4
      unfold dequeue at h5
      split at h5
      · cases h5
      · rename_i r' rest hq
        injection h5 with h5; injection h5 with h5 h5'
        injection h6 with h6; injection h6 with _ h6
        subst h5; subst h5'
        exact .inr ⟨rfl, r', rest, hq, h6.symm⟩
  · rintro ⟨s1, h1, h⟩
    refine ⟨(), s1, h1, get_bind.trans ?_⟩
    rcases h with ⟨hd, rfl⟩ | ⟨hd, r, rest, hq, rfl⟩
    · rw [hd]; rfl
    · rw [hd, if_pos rfl]
      refine bind_ok.2 ⟨r, { s1 with queue := rest }, ?_, rfl⟩
      unfold dequeue
      rw [hq]

/-! ## The bus -/

/-- What a bus read can do (R57): it answers what `peek` sees, where `peek` sees something, and changes at most the own
state of a device of the DEVICES parameter, after the interleaving point before it. -/
theorem State.readAt_ok {s t : State} {a v : Word} (h : s.readAt a = .ok (v, t)) :
    (s.peek a = some v ∧ t = s) ∨
      (s.peek a = none ∧ ∃ ds, t = { s with devices := ds } ∧ sameDevices s.devices ds) := by
  unfold State.readAt at h
  unfold State.peek
  split_ifs at h ⊢ with hdir
  · split at h
    · rename_i w hw
      injection h with h; injection h with h h'
      exact .inl ⟨by rw [hw, h], h'.symm⟩
    · cases h
  · split at h
    · rename_i d hd
      unfold State.deviceReadWord at h
      rw [hd]
      cases hk : d.kind with
      | ram n =>
        simp only [hk] at h ⊢
        split_ifs at h ⊢ with hl
        injection h with h; injection h with h h'
        exact .inl ⟨by rw [h], h'.symm⟩
      | rom n =>
        simp only [hk] at h ⊢
        split_ifs at h ⊢ with hl
        injection h with h; injection h with h h'
        exact .inl ⟨by rw [h], h'.symm⟩
      | interruptController =>
        simp only [hk] at h ⊢
        split_ifs at h ⊢ with hl
        injection h with h; injection h with h h'
        exact .inl ⟨by rw [h], h'.symm⟩
      | external b m =>
        simp only [hk] at h ⊢
        split at h
        · injection h with h; injection h with h h'
          exact .inr ⟨trivial, _, h'.symm, sameDevices_set hd hk⟩
        · cases h
    · cases h

/-- A bus read of a word that `peek` sees answers it and changes nothing (R57, R68). -/
theorem State.readAt_peek {s : State} {a v : Word} (h : s.peek a = some v) : s.readAt a = .ok (v, s) := by
  unfold State.peek at h
  unfold State.readAt
  split_ifs at h ⊢ with hdir
  · rw [h]
  · split at h
    · cases h
    · rename_i d hd
      rw [hd]
      unfold State.deviceReadWord
      cases hk : d.kind <;> simp only [hk] at h ⊢ <;> first | cases h | (split_ifs at h ⊢; injection h with h; rw [h])

theorem busRead_ok {s t : State} {a v : Word} :
    busRead a s = .ok (v, t) ↔ ∃ s1, poll s = .ok ((), s1) ∧ s1.readAt a = .ok (v, t) := by
  unfold busRead
  rw [bind_ok]
  constructor
  · rintro ⟨⟨⟩, s1, h1, h2⟩
    have h4 := (get_bind (s := s1)).symm.trans h2
    refine ⟨s1, h1, ?_⟩
    cases hr : s1.readAt a with
    | ok p =>
      simp only [hr] at h4
      obtain ⟨⟨⟩, s4, h5, h6⟩ := bind_ok.1 h4
      cases h5
      cases h6
      rfl
    | error f => simp only [hr] at h4; cases h4
  · rintro ⟨s1, h1, hr⟩
    refine ⟨(), s1, h1, get_bind.trans ?_⟩
    rw [hr]
    rfl

/-- A bus read changes only what reading can change. -/
theorem busRead_readsTo {s t : State} {a v : Word} (h : busRead a s = .ok (v, t)) : s.ReadsTo t := by
  obtain ⟨s1, h1, h2⟩ := busRead_ok.1 h
  refine (poll_readsTo h1).trans ?_
  rcases State.readAt_ok h2 with ⟨-, rfl⟩ | ⟨-, ds, rfl, hd⟩
  · exact .refl _
  · exact ⟨s1.rsp, [], 0, ds, by simp, hd, .nil s1⟩

/-- A bus read leaves RSP alone. -/
theorem busRead_rsp {s t : State} {a v : Word} (h : busRead a s = .ok (v, t)) : t.rsp = s.rsp := by
  obtain ⟨s1, h1, h2⟩ := busRead_ok.1 h
  obtain ⟨new, rfl, -⟩ := poll_ok h1
  rcases State.readAt_ok h2 with ⟨-, rfl⟩ | ⟨-, ds, rfl, -⟩ <;> rfl

/-- A bus read of a word that `peek` sees answers that word. -/
theorem busRead_value {s t : State} {a v w : Word} (h : busRead a s = .ok (v, t)) (hp : s.peek a = some w) : v = w := by
  obtain ⟨s1, h1, h2⟩ := busRead_ok.1 h
  have hp1 := (poll_readsTo h1).peek a
  rcases State.readAt_ok h2 with ⟨h3, -⟩ | ⟨h3, -⟩
  · rw [hp1, hp] at h3; exact (Option.some.inj h3).symm
  · rw [hp1, hp] at h3; cases h3

/-- With no other agent about to act, a bus read of a word that `peek` sees answers it and changes nothing. -/
theorem busRead_quiet {s : State} {a v : Word} (hq : s.arrivals = .quiet) (h : s.peek a = some v) :
    busRead a s = .ok (v, s) :=
  busRead_ok.2 ⟨s, poll_quiet hq, State.readAt_peek h⟩

/-- What a bus write can do (R58): a word of a RAM, a word of the vector table, or a device of the DEVICES parameter. -/
theorem State.writeAt_ok {s t : State} {a v : Word} (h : s.writeAt a v = .ok t) :
    devId a ≠ directoryId ∧ ∃ d, s.devices[devId a]? = some d ∧
      ((∃ n, d.kind = .ram n ∧ (localAddr a).toNat < n ∧ t = { s with mem := s.mem.writeWord a.toNat v }) ∨
        (d.kind = .interruptController ∧ (localAddr a).toNat < vectorCount ∧
          t = { s with vectors := s.vectors.writeWord (localAddr a).toNat v }) ∨
        (∃ b m ds, d.kind = .external b m ∧ t = { s with devices := ds } ∧ sameDevices s.devices ds)) := by
  unfold State.writeAt at h
  split_ifs at h with hdir
  refine ⟨hdir, ?_⟩
  split at h
  · rename_i d hd
    refine ⟨d, hd, ?_⟩
    unfold State.deviceWriteWord at h
    cases hk : d.kind with
    | ram n =>
      simp only [hk] at h
      split_ifs at h with hl
      injection h with h
      exact .inl ⟨n, rfl, hl, h.symm⟩
    | rom n => simp only [hk] at h; cases h
    | interruptController =>
      simp only [hk] at h
      split_ifs at h with hl
      injection h with h
      exact .inr (.inl ⟨rfl, hl, h.symm⟩)
    | external b m =>
      simp only [hk] at h
      split at h
      · injection h with h
        exact .inr (.inr ⟨b, m, _, rfl, h.symm, sameDevices_set hd hk⟩)
      · cases h
  · cases h

theorem busWrite_ok {s t : State} {a v : Word} :
    busWrite a v s = .ok ((), t) ↔ ∃ s1, poll s = .ok ((), s1) ∧ s1.writeAt a v = .ok t := by
  unfold busWrite
  rw [bind_ok]
  constructor
  · rintro ⟨⟨⟩, s1, h1, h2⟩
    have h4 := (get_bind (s := s1)).symm.trans h2
    refine ⟨s1, h1, ?_⟩
    cases hr : s1.writeAt a v with
    | ok s' =>
      simp only [hr] at h4
      injection h4 with h4; injection h4 with _ h4
      rw [h4]
    | error f => simp only [hr] at h4; cases h4
  · rintro ⟨s1, h1, hr⟩
    refine ⟨(), s1, h1, get_bind.trans ?_⟩
    rw [hr]
    rfl

/-- An address is its device id and its local address (R51). -/
theorem devId_localAddr (a : Word) : a.toNat = devId a * 2 ^ 52 + (localAddr a).toNat := by
  have := a.isLt
  simp only [devId, localAddr, BitVec.extractLsb'_toNat, Nat.shiftRight_eq_div_pow]
  omega

/-- Two addresses with the same device id and local address are the same (R51). -/
theorem eq_of_devId_localAddr {a b : Word} (h1 : devId a = devId b) (h2 : (localAddr a).toNat = (localAddr b).toNat) :
    a = b :=
  BitVec.eq_of_toNat_eq (by rw [devId_localAddr a, devId_localAddr b, h1, h2])

/-- A boot address is the first address of its device's window (R51, R462). -/
theorem localAddr_bootAddress (b : Nat) : localAddr (bootAddress b) = 0 := by
  apply BitVec.eq_of_getLsbD_eq
  intro i hi
  simp [localAddr, bootAddress, hi]

/-- With one interrupt controller, its window is at one id. -/
theorem controller_unique {s : State} (h : s.controllerCount ≤ 1) {i j : Nat} {d e : Device}
    (hi : s.devices[i]? = some d) (hj : s.devices[j]? = some e) (hd : d.kind = .interruptController)
    (he : e.kind = .interruptController) : i = j := by
  unfold State.controllerCount at h
  generalize s.devices = ds at h hi hj
  induction ds generalizing i j with
  | nil => simp at hi
  | cons x ds ih =>
    rw [List.countP_cons] at h
    have tail {k : Nat} {y : Device} (hk : ds[k]? = some y) (hy : y.kind = .interruptController) :
        0 < ds.countP fun d => d.kind == .interruptController :=
      List.countP_pos_iff.2 ⟨y, List.mem_of_getElem? hk, by simp [hy]⟩
    cases i with
    | zero =>
      simp only [List.getElem?_cons_zero, Option.some.injEq] at hi
      subst hi
      cases j with
      | zero => rfl
      | succ j =>
        have := tail (by simpa using hj) he
        rw [if_pos (by simp [hd])] at h
        omega
    | succ i =>
      cases j with
      | zero =>
        simp only [List.getElem?_cons_zero, Option.some.injEq] at hj
        subst hj
        have := tail (by simpa using hi) hd
        rw [if_pos (by simp [he])] at h
        omega
      | succ j => exact congrArg (· + 1) (ih (by omega) (by simpa using hi) (by simpa using hj))

/-- A write leaves every other word alone (R59: it reaches one word of one device). -/
theorem State.writeAt_sameWordsBut {s t : State} {a v : Word} (h : s.writeAt a v = .ok t) (h1 : s.controllerCount ≤ 1) :
    SameWordsBut a s t := by
  intro b hb
  obtain ⟨hdir, d, hd, h⟩ := State.writeAt_ok h
  rcases h with ⟨n, hk, hl, rfl⟩ | ⟨hk, hl, rfl⟩ | ⟨_, _, ds, hk, rfl, hds⟩
  · have hne : b.toNat ≠ a.toNat := fun e => hb (BitVec.eq_of_toNat_eq e)
    simp only [State.peek, Memory.readWord_writeWord_ne _ _ hne]
  · unfold State.peek
    split_ifs with hbd
    · rfl
    · cases he : s.devices[devId b]? with
      | none => rfl
      | some e =>
        dsimp only
        cases hke : e.kind with
        | interruptController =>
          have hid := controller_unique h1 hd he hk hke
          have hne : (localAddr b).toNat ≠ (localAddr a).toNat := fun e' => hb (eq_of_devId_localAddr hid.symm e')
          simp only [Memory.readWord_writeWord_ne _ _ hne]
        | _ => rfl
  · apply State.peek_congr
    · exact hds
    all_goals rfl

/-- The written word of a RAM or of the vector table reads the written value (R62, R64). -/
theorem State.writeAt_peek {s t : State} {a v w : Word} (h : s.writeAt a v = .ok t) (hp : s.peek a = some w)
    (hm : s.mem.wf) (hv : s.vectors.wf) : t.peek a = some v := by
  obtain ⟨hdir, d, hd, h⟩ := State.writeAt_ok h
  unfold State.peek at hp ⊢
  rw [if_neg hdir] at hp ⊢
  rcases h with ⟨n, hk, hl, rfl⟩ | ⟨hk, hl, rfl⟩ | ⟨_, _, ds, hk, rfl, hds⟩
  · simp only [hd, hk, if_pos hl, Memory.readWord_writeWord_same _ _ _ hm]
  · simp only [hd, hk, if_pos hl, Memory.readWord_writeWord_same _ _ _ hv]
  · simp only [hd, hk] at hp; cases hp

/-- What a bus write changes: the queue and the schedule at its interleaving point, memory, the vector table, or the own
state of a device of the DEVICES parameter; nothing else. -/
theorem busWrite_frame {s t : State} {a v : Word} (h : busWrite a v s = .ok ((), t)) :
    ∃ new ds m vs, t = { s with
        queue := s.queue ++ new, arrivals := s.arrivals.after 1, devices := ds, mem := m, vectors := vs } ∧
      sameDevices s.devices ds ∧ s.Joined 1 new := by
  obtain ⟨s1, h1, h2⟩ := busWrite_ok.1 h
  obtain ⟨new, rfl, hj⟩ := poll_ok h1
  obtain ⟨-, d, hd, h3⟩ := State.writeAt_ok h2
  rcases h3 with ⟨n, -, -, rfl⟩ | ⟨-, -, rfl⟩ | ⟨_, _, ds, -, rfl, hds⟩
  · exact ⟨new, _, _, _, rfl, sameDevices_refl _, hj⟩
  · exact ⟨new, _, _, _, rfl, sameDevices_refl _, hj⟩
  · exact ⟨new, ds, _, _, rfl, hds, hj⟩

/-- A bus write leaves every other word alone. -/
theorem busWrite_sameWordsBut {s t : State} {a v : Word} (h : busWrite a v s = .ok ((), t))
    (h1 : s.controllerCount ≤ 1) : SameWordsBut a s t := by
  obtain ⟨s1, hp, h2⟩ := busWrite_ok.1 h
  have hr := poll_readsTo hp
  obtain ⟨new, rfl, -⟩ := poll_ok hp
  intro b hb
  rw [State.writeAt_sameWordsBut h2 h1 b hb, hr.peek]

/-- The keys of a write's value after it, where `peek` sees the word. -/
theorem busWrite_peek {s t : State} {a v w : Word} (h : busWrite a v s = .ok ((), t)) (hp : s.peek a = some w)
    (hm : s.mem.wf) (hv : s.vectors.wf) : t.peek a = some v := by
  obtain ⟨s1, h1, h2⟩ := busWrite_ok.1 h
  have hr := (poll_readsTo h1).peek a
  obtain ⟨new, rfl, -⟩ := poll_ok h1
  exact State.writeAt_peek h2 (hr.trans hp) hm hv

end Sys2Proof.Machine
end

