-- ==== Sys2Proof/Laws/Codec.lean ====
section
/-!
SUPPORT. The lemmas of the codec: the fields of a packed word, what Decode reads back of each encoded part from any word
stream, and which decoded record each part of an instruction elaborates from.
-/

namespace Sys2Proof

/-! ## Fields -/

/-- The low part of a concatenation. -/
theorem extract_append_low {m n : Nat} (x : BitVec m) (y : BitVec n) : (x ++ y).extractLsb' 0 n = y := by
  apply BitVec.eq_of_getLsbD_eq
  intro i hi
  simp [BitVec.getLsbD_append, hi]

/-- A field of the high part of a concatenation. -/
theorem extract_append_high {m n : Nat} (x : BitVec m) (y : BitVec n) (s k l : Nat) (h : s = n + k) :
    (x ++ y).extractLsb' s l = x.extractLsb' k l := by
  subst h
  apply BitVec.eq_of_getLsbD_eq
  intro i hi
  simp only [BitVec.getLsbD_append, BitVec.getLsbD_extractLsb']
  rw [if_neg (by omega), show n + k + i - n = k + i by omega]

theorem extract_all {m : Nat} (x : BitVec m) : x.extractLsb' 0 m = x := by
  apply BitVec.eq_of_getLsbD_eq
  intro i hi
  simp [hi]

theorem OperandField.unpack_pack (o : OperandField) : OperandField.unpack o.pack = o := by
  obtain ⟨rel, ind, type, sel⟩ := o
  simp only [OperandField.unpack, OperandField.pack, OperandField.mk.injEq]
  refine ⟨extract_append_low _ _, ?_, ?_, ?_⟩
  · rw [extract_append_high _ _ 2 0 1 rfl, extract_append_low]
  · rw [extract_append_high _ _ 3 1 2 rfl, extract_append_high _ _ 1 0 2 rfl, extract_append_low]
  · rw [extract_append_high _ _ 5 3 5 rfl, extract_append_high _ _ 3 2 5 rfl, extract_append_high _ _ 2 0 5 rfl, extract_all]

theorem ControlWord.unpack_pack (c : ControlWord) : ControlWord.unpack c.pack = c := by
  obtain ⟨op, f0, f1, f2, cp, cd, fc⟩ := c
  simp only [ControlWord.unpack, ControlWord.pack, ControlWord.mk.injEq]
  refine ⟨extract_append_low _ _, ?_, ?_, ?_, ?_, ?_, ?_⟩
  · rw [extract_append_high _ _ 8 0 10 rfl, extract_append_low]
  · rw [extract_append_high _ _ 18 10 10 rfl, extract_append_high _ _ 10 0 10 rfl, extract_append_low]
  · rw [extract_append_high _ _ 28 20 10 rfl, extract_append_high _ _ 20 10 10 rfl, extract_append_high _ _ 10 0 10 rfl, extract_append_low]
  · rw [extract_append_high _ _ 38 30 1 rfl, extract_append_high _ _ 30 20 1 rfl, extract_append_high _ _ 20 10 1 rfl, extract_append_high _ _ 10 0 1 rfl, extract_append_low]
  · rw [extract_append_high _ _ 39 31 1 rfl, extract_append_high _ _ 31 21 1 rfl, extract_append_high _ _ 21 11 1 rfl, extract_append_high _ _ 11 1 1 rfl, extract_append_high _ _ 1 0 1 rfl, extract_append_low]
  · rw [extract_append_high _ _ 40 32 10 rfl, extract_append_high _ _ 32 22 10 rfl, extract_append_high _ _ 22 12 10 rfl, extract_append_high _ _ 12 2 10 rfl, extract_append_high _ _ 2 1 10 rfl, extract_append_high _ _ 1 0 10 rfl, extract_append_low]

theorem SubGroup.unpack_pack (g : SubGroup) : SubGroup.unpack g.pack = g := by
  obtain ⟨p, n, f⟩ := g
  simp only [SubGroup.unpack, SubGroup.pack, SubGroup.mk.injEq]
  refine ⟨extract_append_low _ _, ?_, ?_⟩
  · rw [extract_append_high _ _ 1 0 1 rfl, extract_append_low]
  · rw [extract_append_high _ _ 2 1 10 rfl, extract_append_high _ _ 1 0 10 rfl, extract_all]

theorem NestedWord.unpack_pack (n : NestedWord) : NestedWord.unpack n.pack = n := by
  obtain ⟨a, b, c, d⟩ := n
  simp only [NestedWord.unpack, NestedWord.pack, NestedWord.mk.injEq]
  refine ⟨extract_append_low _ _, ?_, ?_, ?_⟩
  · rw [extract_append_high _ _ 12 0 12 rfl, extract_append_low]
  · rw [extract_append_high _ _ 24 12 12 rfl, extract_append_high _ _ 12 0 12 rfl, extract_append_low]
  · rw [extract_append_high _ _ 36 24 12 rfl, extract_append_high _ _ 24 12 12 rfl, extract_append_high _ _ 12 0 12 rfl, extract_append_low]

@[simp] theorem Rel.ofCode_code (r : Rel) : Rel.ofCode r.code = r := by cases r <;> rfl
@[simp] theorem Pred.ofCode_code (p : Pred) : Pred.ofCode p.code = p := by cases p <;> rfl
@[simp] theorem bitOf_eq (b : Bool) : decide (bitOf b = 1#1) = b := by cases b <;> rfl

/-! ## Decode of an encoded part -/

open Machine (bind_of_ok)

/-- A word stream that answers these words, in order, from one state to another. -/
inductive Feeds {σ ε : Type} (rd : StateT σ (Except ε) Word) : List Word → σ → σ → Prop
  | nil (x : σ) : Feeds rd [] x x
  | cons {w : Word} {ws : List Word} {x y z : σ} (h : rd x = .ok (w, y)) (t : Feeds rd ws y z) : Feeds rd (w :: ws) x z

theorem Feeds.split {σ ε : Type} {rd : StateT σ (Except ε) Word} {us vs : List Word} {x z : σ}
    (h : Feeds rd (us ++ vs) x z) : ∃ y, Feeds rd us x y ∧ Feeds rd vs y z := by
  induction us generalizing x with
  | nil => exact ⟨x, .nil x, h⟩
  | cons u us ih =>
    cases h with
    | cons h t =>
      obtain ⟨y, h1, h2⟩ := ih t
      exact ⟨y, .cons h h1, h2⟩

theorem Feeds.list (ws rest : List Word) : Feeds nextWord ws (ws ++ rest) rest := by
  induction ws with
  | nil => exact .nil _
  | cons w ws ih => exact .cons rfl ih

theorem Feeds.one {σ ε : Type} {rd : StateT σ (Except ε) Word} {w : Word} {ws : List Word} {x z : σ}
    (h : Feeds rd (w :: ws) x z) : ∃ y, rd x = .ok (w, y) ∧ Feeds rd ws y z := by
  cases h with
  | cons h t => exact ⟨_, h, t⟩

theorem Feeds.none {σ ε : Type} {rd : StateT σ (Except ε) Word} {x z : σ} (h : Feeds rd [] x z) : z = x := by
  cases h; rfl

section
variable {σ ε : Type} {rd : StateT σ (Except ε) Word} {x y : σ}

/-- Each part is read back from its words. -/
theorem decodeLiteral_encode {l : Literal} (h : Feeds rd (encodeLiteral l).2 x y) :
    decodeLiteral rd (encodeLiteral l).1 x = .ok (l, y) := by
  cases l with
  | embedded v =>
    obtain rfl := h.none
    have h1 : (encodeLiteral (.embedded v)).1.extractLsb' 0 1 = 1#1 := extract_append_low v 1#1
    have h2 : (encodeLiteral (.embedded v)).1.extractLsb' 1 4 = v :=
      (extract_append_high v 1#1 1 0 4 rfl).trans (extract_all v)
    unfold decodeLiteral
    rw [if_pos h1, h2]
    rfl
  | trailing v =>
    obtain ⟨z, h, t⟩ := h.one
    obtain rfl := t.none
    have h1 : ¬ (encodeLiteral (.trailing v)).1.extractLsb' 0 1 = 1#1 := by
      show ¬ (0#5).extractLsb' 0 1 = 1#1
      decide
    unfold decodeLiteral
    rw [if_neg h1, bind_of_ok h]
    rfl

/-- The fields of an encoded operand, with its relative register and indirection. -/
theorem unpack_field (rel : Rel) (ind : Bool) (type : BitVec 2) (sel : BitVec 5) :
    OperandField.unpack (OperandField.pack ⟨rel.code, bitOf ind, type, sel⟩) = ⟨rel.code, bitOf ind, type, sel⟩ :=
  OperandField.unpack_pack _

theorem decodeSubOperand_encode {p : RawSubOperand} (h : Feeds rd (encodeSubOperand p).2 x y) :
    decodeSubOperand rd (encodeSubOperand p).1 x = .ok (p, y) := by
  obtain ⟨kind, rel, ind⟩ := p
  unfold decodeSubOperand
  cases kind with
  | register r =>
    obtain rfl := h.none
    simp only [encodeSubOperand, unpack_field]
    simp [bitOf_eq]
    rfl
  | stack =>
    obtain rfl := h.none
    simp only [encodeSubOperand, unpack_field]
    simp [bitOf_eq]
    rfl
  | literal l =>
    have := decodeLiteral_encode (show Feeds rd (encodeLiteral l).2 x y from h)
    simp only [encodeSubOperand, unpack_field]
    show (decodeLiteral rd _ >>= fun _ => _) x = _
    refine (bind_of_ok this).trans ?_
    simp [bitOf_eq]
    rfl
  | nestedCalculated s =>
    obtain rfl := h.none
    simp only [encodeSubOperand, unpack_field]
    simp [bitOf_eq]
    rfl

theorem decodeSub_encode {p : Option RawSub} (h : Feeds rd (encodeSub p).2 x y) :
    decodeSub rd (encodeSub p).1 x = .ok (p, y) := by
  cases p with
  | none =>
    obtain rfl := h.none
    unfold decodeSub
    have h1 : ¬ (SubGroup.unpack (encodeSub none).1).present = 1#1 := by
      show ¬ (SubGroup.unpack 0#12).present = 1#1
      decide
    simp only [if_neg h1]
    rfl
  | some p =>
    have hg : SubGroup.unpack (encodeSub (some p)).1 = ⟨1#1, bitOf p.neg, (encodeSubOperand p.op).1⟩ :=
      SubGroup.unpack_pack _
    unfold decodeSub
    simp only [hg, if_true]
    have := decodeSubOperand_encode (show Feeds rd (encodeSubOperand p.op).2 x y from h)
    refine (bind_of_ok this).trans ?_
    simp [bitOf_eq]
    rfl

theorem decodeOperand_encode {p : RawOperand} (h : Feeds rd (encodeOperand p).2 x y) :
    decodeOperand rd (encodeOperand p).1 x = .ok (p, y) := by
  obtain ⟨kind, rel, ind⟩ := p
  unfold decodeOperand
  cases kind with
  | register r =>
    obtain rfl := h.none
    simp only [encodeOperand, unpack_field]
    simp [bitOf_eq]
    rfl
  | stack =>
    obtain rfl := h.none
    simp only [encodeOperand, unpack_field]
    simp [bitOf_eq]
    rfl
  | literal l =>
    have := decodeLiteral_encode (show Feeds rd (encodeLiteral l).2 x y from h)
    simp only [encodeOperand, unpack_field]
    show (decodeLiteral rd _ >>= fun _ => _) x = _
    refine (bind_of_ok this).trans ?_
    simp [bitOf_eq]
    rfl
  | calculated b i s t =>
    simp only [encodeOperand] at h
    obtain ⟨x1, h0, h⟩ := h.one
    obtain ⟨x4, h, h4⟩ := h.split
    obtain ⟨x3, h, h3⟩ := h.split
    obtain ⟨x2, h1, h2⟩ := h.split
    simp only [encodeOperand, unpack_field]
    show (rd >>= fun _ => _) x = _
    refine (bind_of_ok h0).trans ?_
    simp only [NestedWord.unpack_pack]
    refine (bind_of_ok (decodeSub_encode h1)).trans ?_
    refine (bind_of_ok (decodeSub_encode h2)).trans ?_
    refine (bind_of_ok (decodeSub_encode h3)).trans ?_
    refine (bind_of_ok (decodeSub_encode h4)).trans ?_
    simp [bitOf_eq]
    rfl

theorem decodeOperands_encode {ps : List RawOperand} (h : Feeds rd ((ps.map fun p => (encodeOperand p).2).flatten) x y) :
    decodeOperands rd (ps.map fun p => (encodeOperand p).1) x = .ok (ps, y) := by
  induction ps generalizing x with
  | nil => obtain rfl := h.none; rfl
  | cons p ps ih =>
    simp only [List.map_cons, List.flatten_cons] at h
    obtain ⟨z, h1, h2⟩ := h.split
    refine (bind_of_ok (decodeOperand_encode h1)).trans ?_
    refine (bind_of_ok (ih h2)).trans ?_
    rfl

/-- The slot fields of a control word, cut to the number of operands, are the operands' fields. -/
theorem slotFields (ps : List RawOperand) (h : ps.length ≤ 3) :
    [slotField ps 0, slotField ps 1, slotField ps 2].take ps.length = ps.map fun p => (encodeOperand p).1 := by
  match ps, h with
  | [], _ => rfl
  | [a], _ => rfl
  | [a, b], _ => rfl
  | [a, b, c], _ => rfl
  | a :: b :: c :: d :: ps, h => simp at h; omega

theorem declaredCount_le (op : BitVec 8) : declaredCount op ≤ 3 := by
  unfold declaredCount definition
  cases h : opcodeTable.find? fun d => d.opcode == op with
  | none => simp
  | some d =>
    have := List.mem_of_find?_eq_some h
    have hall : ∀ d ∈ opcodeTable, d.dirs.length ≤ 3 := by decide
    exact hall d this

end

/-! ## Elaboration -/

theorem Reg.ofNumber_number (r : Reg) : Reg.ofNumber r.number = some r := by
  cases r with
  | gp n => revert n; decide
  | _ => rfl

theorem Reg.number_ofNumber {x : BitVec 5} {r : Reg} (h : Reg.ofNumber x = some r) : r.number = x := by
  revert x; revert r
  have : ∀ x : BitVec 5, ∀ r, Reg.ofNumber x = some r → r.number = x := by
    intro x r h
    have hd : ∀ x : BitVec 5, (Reg.ofNumber x).all (fun r => r.number == x) = true := by decide
    have := hd x
    rw [h] at this
    simpa using this
  exact fun {r x} h => this x r h

theorem Reg.ofNumber_isSome (x : BitVec 5) : (Reg.ofNumber x).isSome = RegisterNumber.inRange x := by
  revert x; decide

theorem elabReg_number (r : Reg) : elabReg r.number = .ok r := by simp [elabReg, Reg.ofNumber_number]

theorem elabReg_ok {x : BitVec 5} {r : Reg} : elabReg x = .ok r ↔ x = r.number := by
  constructor
  · intro h
    unfold elabReg at h
    split at h
    · rename_i y hy
      cases h
      exact (Reg.number_ofNumber hy).symm
    · cases h
  · rintro rfl; exact elabReg_number r

/-- A sequence of checks answers when each of its parts does. -/
theorem except_bind_ok {ε α β : Type} {x : Except ε α} {f : α → Except ε β} {b : β} :
    (x >>= f) = .ok b ↔ ∃ a, x = .ok a ∧ f a = .ok b := by
  cases x with
  | ok a => exact ⟨fun h => ⟨a, rfl, h⟩, fun ⟨_, h, k⟩ => by cases h; exact k⟩
  | error e => exact ⟨fun h => (by cases h), fun ⟨_, h, _⟩ => (by cases h)⟩

theorem elabSub_ok {p : RawSub} {q : SignedSub} : elabSub p = .ok q ↔ p = q.raw := by
  obtain ⟨⟨k, rel, ind⟩, neg⟩ := p
  obtain ⟨⟨k', rel', ind'⟩, neg'⟩ := q
  cases k with
  | register x =>
    simp only [elabSub]
    rw [except_bind_ok]
    constructor
    · rintro ⟨r, h, k⟩
      cases k
      rw [elabReg_ok] at h
      subst h; rfl
    · intro h
      cases k' <;> simp [SignedSub.raw] at h
      obtain ⟨⟨rfl, rfl, rfl⟩, rfl⟩ := h
      exact ⟨_, elabReg_number _, rfl⟩
  | stack => cases k' <;> simp [elabSub, SignedSub.raw]
  | literal l => cases k' <;> simp [elabSub, SignedSub.raw]
  | nestedCalculated s => cases k' <;> simp [elabSub, SignedSub.raw]

theorem elabOptSub_ok {p : Option RawSub} {q : Option SignedSub} : elabOptSub p = .ok q ↔ p = q.map SignedSub.raw := by
  cases p with
  | none => cases q <;> simp [elabOptSub]
  | some p =>
    simp only [elabOptSub]
    rw [except_bind_ok]
    constructor
    · rintro ⟨r, h, k⟩
      cases k
      rw [elabSub_ok] at h
      subst h; rfl
    · intro h
      cases q with
      | none => cases h
      | some q =>
        simp only [Option.map_some, Option.some.injEq] at h
        exact ⟨q, elabSub_ok.2 h, rfl⟩

theorem elabKind_ok {k : RawKind} {q : Kind} : elabKind k = .ok q ↔ k = q.raw := by
  cases k with
  | register x =>
    simp only [elabKind]
    rw [except_bind_ok]
    constructor
    · rintro ⟨r, h, k⟩
      cases k
      rw [elabReg_ok] at h
      subst h; rfl
    · intro h
      cases q <;> simp [Kind.raw] at h
      subst h
      exact ⟨_, elabReg_number _, rfl⟩
  | stack => cases q <;> simp [elabKind, Kind.raw]
  | literal l => cases q <;> simp [elabKind, Kind.raw]
  | calculated b i s o =>
    cases b with
    | none => cases q <;> simp [elabKind, Kind.raw]
    | some b =>
      simp only [elabKind]
      constructor
      · intro h
        obtain ⟨b', h1, h⟩ := except_bind_ok.1 h
        obtain ⟨i', h2, h⟩ := except_bind_ok.1 h
        obtain ⟨s', h3, h⟩ := except_bind_ok.1 h
        obtain ⟨o', h4, h⟩ := except_bind_ok.1 h
        cases h
        rw [elabSub_ok] at h1
        rw [elabOptSub_ok] at h2 h3 h4
        subst h1 h2 h3 h4
        rfl
      · intro h
        cases q <;> simp [Kind.raw] at h
        obtain ⟨rfl, rfl, rfl, rfl⟩ := h
        refine except_bind_ok.2 ⟨_, elabSub_ok.2 rfl, except_bind_ok.2 ⟨_, elabOptSub_ok.2 rfl,
          except_bind_ok.2 ⟨_, elabOptSub_ok.2 rfl, except_bind_ok.2 ⟨_, elabOptSub_ok.2 rfl, rfl⟩⟩⟩⟩

theorem elabOperand_ok {p : RawOperand} {q : Operand} : elabOperand p = .ok q ↔ p = q.raw := by
  obtain ⟨k, rel, ind⟩ := p
  obtain ⟨k', rel', ind'⟩ := q
  simp only [elabOperand]
  rw [except_bind_ok]
  constructor
  · rintro ⟨r, h, k⟩
    cases k
    rw [elabKind_ok] at h
    subst h; rfl
  · intro h
    simp only [Operand.raw, RawOperand.mk.injEq] at h
    obtain ⟨rfl, rfl, rfl⟩ := h
    exact ⟨_, elabKind_ok.2 rfl, rfl⟩

theorem elabDest_ok {p : RawOperand} {q : Dest} : elabDest p = .ok q ↔ p = q.operand.raw := by
  obtain ⟨k, rel, ind⟩ := p
  simp only [elabDest]
  rw [except_bind_ok]
  constructor
  · rintro ⟨r, h, k⟩
    rw [elabKind_ok] at h
    subst h
    cases ind with
    | true => cases k; rfl
    | false =>
      simp only [Bool.false_eq_true, if_false] at k
      cases r <;> cases rel <;> cases k <;> rfl
  · intro h
    cases q with
    | register r => cases h; exact ⟨_, elabKind_ok.2 rfl, rfl⟩
    | stack => cases h; exact ⟨_, elabKind_ok.2 rfl, rfl⟩
    | indirect k rel => cases h; exact ⟨_, elabKind_ok.2 rfl, rfl⟩

theorem elabGate_ok {c : Option (RawOperand × Pred)} {g : Option Gate} :
    elabGate c = .ok g ↔ c = g.map fun g => (g.operand.raw, g.pred) := by
  cases c with
  | none => cases g <;> simp [elabGate]
  | some c =>
    obtain ⟨p, pred⟩ := c
    simp only [elabGate]
    rw [except_bind_ok]
    constructor
    · rintro ⟨x, h, k⟩
      cases k
      rw [elabOperand_ok] at h
      subst h; rfl
    · intro h
      cases g with
      | none => cases h
      | some g =>
        simp only [Option.map_some, Option.some.injEq, Prod.mk.injEq] at h
        obtain ⟨rfl, rfl⟩ := h
        exact ⟨_, elabOperand_ok.2 rfl, rfl⟩

end Sys2Proof
end

