-- ==== Sys2Proof/Laws/Operands.lean ====
section
/-!
SUPPORT. What each part of the Tick's engine can do, said once: the stack, reading and writing an operand, the gate, the
load and store phases, the run of one instruction.
-/

namespace Sys2Proof.Machine

/-! ## Operations inside a Tick -/

/-- An operation of the machine inside a Tick leaves the Tick's record alone. -/
theorem onState_ok {α : Type} {m : SM α} {t t' : Tick} {a : α} :
    onState m t = .ok (a, t') ↔ ∃ s, m t.st = .ok (a, s) ∧ t' = { t with st := s } := by
  unfold onState
  cases h : m t.st with
  | error f => simp
  | ok p =>
    obtain ⟨x, s⟩ := p
    simp only [Except.ok.injEq, Prod.mk.injEq]
    constructor
    · rintro ⟨rfl, rfl⟩; exact ⟨s, ⟨rfl, rfl⟩, rfl⟩
    · rintro ⟨_, ⟨rfl, rfl⟩, rfl⟩; exact ⟨rfl, rfl⟩

theorem onState_of_ok {α : Type} {m : SM α} {t : Tick} {a : α} {s : State} (h : m t.st = .ok (a, s)) :
    onState m t = .ok (a, { t with st := s }) := onState_ok.2 ⟨s, h, rfl⟩

theorem getReg_apply (r : Reg) (t : Tick) : getReg r t = .ok (t.st.readReg r, t) := rfl

theorem setReg_apply (r : Reg) (v : Word) (t : Tick) :
    setReg r v t = .ok ((), ⟨t.st.writeReg r v, t.ipWritten || decide (r = .rip)⟩) := rfl

theorem jump_apply (v : Word) (t : Tick) : jump v t = .ok ((), ⟨{ t.st with rip := v }, true⟩) := by
  simp [jump, setReg_apply, State.writeReg]

/-! ## What reading may change -/

/-- What reading operands can change of a Tick: what `State.ReadsTo` allows, and not the Tick's record. -/
def Tick.Reads (t t' : Tick) : Prop := t.st.ReadsTo t'.st ∧ t'.ipWritten = t.ipWritten

theorem Tick.Reads.refl (t : Tick) : t.Reads t := ⟨.refl _, rfl⟩

theorem Tick.Reads.trans {t u v : Tick} (h : t.Reads u) (k : u.Reads v) : t.Reads v :=
  ⟨h.1.trans k.1, k.2.trans h.2⟩

theorem Tick.Reads.setRsp (t : Tick) (v : Word) : t.Reads ⟨{ t.st with rsp := v }, t.ipWritten⟩ :=
  ⟨State.ReadsTo.setRsp t.st v, rfl⟩

/-- A register other than RSP is as before after reading operands. -/
theorem State.ReadsTo.readReg {s t : State} (h : s.ReadsTo t) {r : Reg} (hr : r ≠ .rsp) : t.readReg r = s.readReg r := by
  obtain ⟨sp, new, n, ds, rfl, -⟩ := h
  cases r <;> first | rfl | exact absurd rfl hr

/-- After reading operands only records of other agents have joined the queue. -/
theorem State.ReadsTo.onlyArrivals {s t : State} (h : s.ReadsTo t) : OnlyArrivals s t := by
  obtain ⟨sp, new, n, ds, rfl, -, hj⟩ := h
  exact ⟨new, rfl, fun e => ⟨hj.quiet e, by simp [e]⟩⟩

theorem State.ReadsTo.sameFixed {s t : State} (h : s.ReadsTo t) : SameFixed s t := by
  obtain ⟨sp, new, n, ds, rfl, hd, -⟩ := h
  exact ⟨rfl, rfl, rfl, rfl, rfl, hd⟩

theorem State.ReadsTo.sameControl {s t : State} (h : s.ReadsTo t) : SameControl s t := by
  obtain ⟨sp, new, n, ds, rfl, -⟩ := h
  exact ⟨rfl, rfl, rfl, rfl⟩

theorem State.ReadsTo.sameWords {s t : State} (h : s.ReadsTo t) : SameWords s t := h.peek

theorem State.ReadsTo.draws {s t : State} (h : s.ReadsTo t) : t.draws = s.draws := by
  obtain ⟨sp, new, n, ds, rfl, -⟩ := h; rfl

theorem State.ReadsTo.rip {s t : State} (h : s.ReadsTo t) : t.rip = s.rip := h.readReg (r := .rip) (by decide)

theorem State.ReadsTo.mem {s t : State} (h : s.ReadsTo t) : t.mem = s.mem := by
  obtain ⟨sp, new, n, ds, rfl, -⟩ := h; rfl

theorem State.ReadsTo.vectors {s t : State} (h : s.ReadsTo t) : t.vectors = s.vectors := by
  obtain ⟨sp, new, n, ds, rfl, -⟩ := h; rfl

/-! ## The stack -/

theorem pushAddress_apply (t : Tick) :
    pushAddress t = .ok (t.st.rsp - 1, ⟨{ t.st with rsp := t.st.rsp - 1 }, t.ipWritten⟩) := by
  unfold pushAddress
  rw [bind_of_ok (getReg_apply _ _), bind_of_ok (setReg_apply _ _ _), pure_apply]
  simp [State.readReg, State.writeReg]

/-- What `Push` does (R160): RSP is one lower, and the word goes to its new value. -/
theorem push_ok {v : Word} {t t' : Tick} :
    push v t = .ok ((), t') ↔
      ∃ s, busWrite (t.st.rsp - 1) v { t.st with rsp := t.st.rsp - 1 } = .ok ((), s) ∧ t' = ⟨s, t.ipWritten⟩ := by
  unfold push
  rw [bind_of_ok (pushAddress_apply t), onState_ok]

/-- What `Pop` does (R160): the word at RSP, and RSP one higher. -/
theorem pop_ok {v : Word} {t t' : Tick} :
    pop t = .ok (v, t') ↔
      ∃ s, busRead t.st.rsp t.st = .ok (v, s) ∧ t' = ⟨{ s with rsp := t.st.rsp + 1 }, t.ipWritten⟩ := by
  unfold pop
  rw [bind_of_ok (getReg_apply _ _), bind_ok]
  constructor
  · rintro ⟨w, t1, h1, h2⟩
    obtain ⟨s, h3, rfl⟩ := onState_ok.1 h1
    rw [bind_of_ok (setReg_apply _ _ _), pure_apply] at h2
    simp only [Except.ok.injEq, Prod.mk.injEq] at h2
    obtain ⟨rfl, rfl⟩ := h2
    exact ⟨s, h3, by simp [State.writeReg, State.readReg]⟩
  · rintro ⟨s, h, rfl⟩
    refine ⟨v, _, onState_of_ok h, ?_⟩
    rw [bind_of_ok (setReg_apply _ _ _), pure_apply]
    simp [State.writeReg, State.readReg]

theorem pop_reads {v : Word} {t t' : Tick} (h : pop t = .ok (v, t')) : t.Reads t' := by
  obtain ⟨s, k, rfl⟩ := pop_ok.1 h
  exact ⟨(busRead_readsTo k).trans (State.ReadsTo.setRsp s _), rfl⟩

/-! ## Reading an operand -/

theorem addRel_apply (rel : Rel) (v : Word) (t : Tick) : addRel rel v t = .ok (v + relBase t.st rel, t) := by
  cases rel <;> simp [addRel, relBase, pure_apply, bind_of_ok (getReg_apply _ _), State.readReg]

/-- What the indirection does (R161). -/
theorem deref_ok {ind : Bool} {v : Word} {w : Word × Option Word} {t t' : Tick} :
    deref ind v t = .ok (w, t') ↔
      (ind = false ∧ w = (v, none) ∧ t' = t) ∨
        (ind = true ∧ w.2 = some v ∧ ∃ s, busRead v t.st = .ok (w.1, s) ∧ t' = { t with st := s }) := by
  unfold deref
  cases ind with
  | false => simp [pure_ok]
  | true =>
    simp only [if_true, Bool.true_eq_false, false_and, true_and, false_or]
    rw [bind_ok]
    constructor
    · rintro ⟨x, t1, h1, h2⟩
      rw [pure_ok] at h2
      cases h2
      exact ⟨rfl, onState_ok.1 h1⟩
    · rintro ⟨hw, s, h, rfl⟩
      obtain ⟨x, y⟩ := w
      cases hw
      exact ⟨x, _, onState_of_ok h, rfl⟩

theorem deref_reads {ind : Bool} {v : Word} {w : Word × Option Word} {t t' : Tick} (h : deref ind v t = .ok (w, t')) :
    t.Reads t' := by
  rcases deref_ok.1 h with ⟨-, -, rfl⟩ | ⟨-, -, s, k, rfl⟩
  · exact .refl _
  · exact ⟨busRead_readsTo k, rfl⟩

theorem deref_rsp {ind : Bool} {v : Word} {w : Word × Option Word} {t t' : Tick} (h : deref ind v t = .ok (w, t')) :
    t'.st.rsp = t.st.rsp := by
  rcases deref_ok.1 h with ⟨-, -, rfl⟩ | ⟨-, -, s, k, rfl⟩
  · rfl
  · exact busRead_rsp k

theorem subKindValue_reads {k : SubKind} {v : Word} {t t' : Tick} (h : subKindValue k t = .ok (v, t')) : t.Reads t' := by
  cases k with
  | register r => cases h; exact .refl _
  | stack => exact pop_reads h
  | literal l => cases h; exact .refl _

theorem subKindValue_rsp {k : SubKind} {v : Word} {t t' : Tick} (h : subKindValue k t = .ok (v, t')) (hk : k ≠ .stack) :
    t'.st.rsp = t.st.rsp := by
  cases k with
  | register r => cases h; rfl
  | stack => exact absurd rfl hk
  | literal l => cases h; rfl

/-- What reading a sub-operand does (R161, R162). -/
theorem subValue_ok {p : SubOperand} {v : Word} {t t' : Tick} (h : subValue p t = .ok (v, t')) :
    ∃ x t1 y, subKindValue p.kind t = .ok (x, t1) ∧ deref p.ind (x + relBase t1.st p.rel) t1 = .ok ((v, y), t') := by
  unfold subValue at h
  obtain ⟨x, t1, h1, h⟩ := bind_ok.1 h
  rw [bind_of_ok (addRel_apply _ _ _)] at h
  obtain ⟨⟨w, y⟩, t2, h2, h⟩ := bind_ok.1 h
  cases h
  exact ⟨x, t1, y, h1, h2⟩

theorem termValue_ok {p : SignedSub} {v : Word} {t t' : Tick} (h : termValue p t = .ok (v, t')) :
    ∃ w, subValue p.op t = .ok (w, t') ∧ v = if p.neg then -w else w := by
  unfold termValue at h
  obtain ⟨w, t1, h1, h⟩ := bind_ok.1 h
  cases h
  exact ⟨w, h1, rfl⟩

theorem termValue_reads {p : SignedSub} {v : Word} {t t' : Tick} (h : termValue p t = .ok (v, t')) : t.Reads t' := by
  obtain ⟨w, h, -⟩ := termValue_ok h
  obtain ⟨x, t1, y, h1, h2⟩ := subValue_ok h
  exact (subKindValue_reads h1).trans (deref_reads h2)

theorem termValue_rsp {p : SignedSub} {v : Word} {t t' : Tick} (h : termValue p t = .ok (v, t'))
    (hp : subPops p = false) : t'.st.rsp = t.st.rsp := by
  obtain ⟨w, h, -⟩ := termValue_ok h
  obtain ⟨x, t1, y, h1, h2⟩ := subValue_ok h
  exact (deref_rsp h2).trans (subKindValue_rsp h1 (by simpa [subPops] using hp))

theorem optTermValue_reads {dflt v : Word} {p : Option SignedSub} {t t' : Tick}
    (h : optTermValue dflt p t = .ok (v, t')) : t.Reads t' := by
  cases p with
  | none => cases h; exact .refl _
  | some p => exact termValue_reads h

theorem optTermValue_rsp {dflt v : Word} {p : Option SignedSub} {t t' : Tick}
    (h : optTermValue dflt p t = .ok (v, t')) (hp : p.any subPops = false) : t'.st.rsp = t.st.rsp := by
  cases p with
  | none => cases h; rfl
  | some p => exact termValue_rsp h hp

/-- What resolving a Calculated kind does (R162). -/
theorem calculated_ok {b : SignedSub} {i s o : Option SignedSub} {v : Word} {t t' : Tick} :
    kindValue (.calculated b i s o) t = .ok (v, t') ↔
      ∃ vb vi vs vo t1 t2 t3, termValue b t = .ok (vb, t1) ∧ optTermValue 0 i t1 = .ok (vi, t2) ∧
        optTermValue 1 s t2 = .ok (vs, t3) ∧ optTermValue 0 o t3 = .ok (vo, t') ∧ v = vb + vi * vs + vo := by
  show (termValue b >>= fun vb => _) t = _ ↔ _
  constructor
  · intro h
    obtain ⟨vb, t1, h1, h⟩ := bind_ok.1 h
    obtain ⟨vi, t2, h2, h⟩ := bind_ok.1 h
    obtain ⟨vs, t3, h3, h⟩ := bind_ok.1 h
    obtain ⟨vo, t4, h4, h⟩ := bind_ok.1 h
    cases h
    exact ⟨vb, vi, vs, vo, t1, t2, t3, h1, h2, h3, h4, rfl⟩
  · rintro ⟨vb, vi, vs, vo, t1, t2, t3, h1, h2, h3, h4, rfl⟩
    rw [bind_of_ok h1, bind_of_ok h2, bind_of_ok h3, bind_of_ok h4]
    rfl

theorem kindValue_reads {k : Kind} {v : Word} {t t' : Tick} (h : kindValue k t = .ok (v, t')) : t.Reads t' := by
  cases k with
  | register r => cases h; exact .refl _
  | stack => exact pop_reads h
  | literal l => cases h; exact .refl _
  | calculated b i s o =>
    obtain ⟨vb, vi, vs, vo, t1, t2, t3, h1, h2, h3, h4, -⟩ := calculated_ok.1 h
    exact (termValue_reads h1).trans ((optTermValue_reads h2).trans ((optTermValue_reads h3).trans (optTermValue_reads h4)))

theorem kindValue_rsp {k : Kind} {v : Word} {t t' : Tick} (h : kindValue k t = .ok (v, t')) (hk : popsKind k = false) :
    t'.st.rsp = t.st.rsp := by
  cases k with
  | register r => cases h; rfl
  | stack => cases hk
  | literal l => cases h; rfl
  | calculated b i s o =>
    obtain ⟨vb, vi, vs, vo, t1, t2, t3, h1, h2, h3, h4, -⟩ := calculated_ok.1 h
    simp only [popsKind, Bool.or_eq_false_iff] at hk
    rw [optTermValue_rsp h4 hk.2, optTermValue_rsp h3 hk.1.2, optTermValue_rsp h2 hk.1.1.2, termValue_rsp h1 hk.1.1.1]

/-- What primary resolution does (R161). -/
theorem primary_ok {k : Kind} {rel : Rel} {v : Word} {t t' : Tick} :
    primary k rel t = .ok (v, t') ↔ ∃ x, kindValue k t = .ok (x, t') ∧ v = x + relBase t'.st rel := by
  unfold primary
  rw [bind_ok]
  constructor
  · rintro ⟨x, t1, h1, h2⟩
    rw [addRel_apply] at h2
    cases h2
    exact ⟨x, h1, rfl⟩
  · rintro ⟨x, h, rfl⟩
    exact ⟨x, t', h, addRel_apply _ _ _⟩

/-- What reading an operand does (R161): its kind's value, the relative register, the indirection. -/
theorem load_ok {p : Operand} {w : Word × Option Word} {t t' : Tick} :
    load p t = .ok (w, t') ↔
      ∃ x t1, kindValue p.kind t = .ok (x, t1) ∧ deref p.ind (x + relBase t1.st p.rel) t1 = .ok (w, t') := by
  unfold load
  rw [bind_ok]
  constructor
  · rintro ⟨v, t1, h1, h2⟩
    obtain ⟨x, h3, rfl⟩ := primary_ok.1 h1
    exact ⟨x, t1, h3, h2⟩
  · rintro ⟨x, t1, h1, h2⟩
    exact ⟨_, t1, primary_ok.2 ⟨x, h1, rfl⟩, h2⟩

theorem load_reads {p : Operand} {w : Word × Option Word} {t t' : Tick} (h : load p t = .ok (w, t')) : t.Reads t' := by
  obtain ⟨x, t1, h1, h2⟩ := load_ok.1 h
  exact (kindValue_reads h1).trans (deref_reads h2)

/-- Reading an operand that does not pop leaves RSP alone. -/
theorem load_rsp {p : Operand} {w : Word × Option Word} {t t' : Tick} (h : load p t = .ok (w, t'))
    (hp : popsKind p.kind = false) : t'.st.rsp = t.st.rsp := by
  obtain ⟨x, t1, h1, h2⟩ := load_ok.1 h
  exact (deref_rsp h2).trans (kindValue_rsp h1 hp)

/-- A direct register operand reads the register and changes nothing. -/
theorem load_register (r : Reg) (t : Tick) : load ⟨.register r, .none, false⟩ t = .ok ((t.st.readReg r, none), t) := by
  refine load_ok.2 ⟨t.st.readReg r, t, rfl, ?_⟩
  simp [deref, relBase, pure_apply]

/-- A direct literal operand reads the literal and changes nothing. -/
theorem load_literal (l : Literal) (t : Tick) : load ⟨.literal l, .none, false⟩ t = .ok ((l.value, none), t) := by
  refine load_ok.2 ⟨l.value, t, rfl, ?_⟩
  simp [deref, relBase, pure_apply]

/-! ## Writing an operand -/

theorem resolveDest_reads {d : Dest} {addr : Option Word} {x : Target} {t t' : Tick}
    (h : resolveDest d addr t = .ok (x, t')) : t.Reads t' := by
  cases d with
  | register r => cases h; exact .refl _
  | stack =>
    simp only [resolveDest, bind_of_ok (pushAddress_apply t)] at h
    cases h
    exact .setRsp _ _
  | indirect k rel =>
    cases addr with
    | some a => cases h; exact .refl _
    | none =>
      obtain ⟨a, t1, h1, h2⟩ := bind_ok.1 h
      cases h2
      obtain ⟨x, h1, -⟩ := primary_ok.1 h1
      exact kindValue_reads h1

theorem resolveDest_rsp {d : Dest} {addr : Option Word} {x : Target} {t t' : Tick}
    (h : resolveDest d addr t = .ok (x, t')) (hd : popsKind d.operand.kind = false) : t'.st.rsp = t.st.rsp := by
  cases d with
  | register r => cases h; rfl
  | stack => cases hd
  | indirect k rel =>
    cases addr with
    | some a => cases h; rfl
    | none =>
      obtain ⟨a, t1, h1, h2⟩ := bind_ok.1 h
      cases h2
      obtain ⟨x, h1, -⟩ := primary_ok.1 h1
      exact kindValue_rsp h1 hd

/-- A register destination, and no other, resolves to a register. -/
theorem resolveDest_register {d : Dest} {addr : Option Word} {r : Reg} {t t' : Tick}
    (h : resolveDest d addr t = .ok (.register r, t')) : d = .register r ∧ t' = t := by
  cases d with
  | register r' => cases h; exact ⟨rfl, rfl⟩
  | stack =>
    simp only [resolveDest, bind_of_ok (pushAddress_apply t)] at h
    cases h
  | indirect k rel =>
    cases addr with
    | some a => cases h
    | none =>
      obtain ⟨a, t1, h1, h2⟩ := bind_ok.1 h
      cases h2

/-- What a store does (R163): it finds its place, then writes there. -/
theorem storeDest_ok {d : Dest} {v : Word} {addr : Option Word} {t t' : Tick} :
    storeDest d v addr t = .ok ((), t') ↔
      ∃ x t1, resolveDest d addr t = .ok (x, t1) ∧ writeTarget x v t1 = .ok ((), t') := by
  unfold storeDest
  rw [bind_ok]

/-- The write of a store: one register, or one word. -/
theorem writeTarget_ok {x : Target} {v : Word} {t t' : Tick} :
    writeTarget x v t = .ok ((), t') ↔
      (∃ r, x = .register r ∧ t' = ⟨t.st.writeReg r v, t.ipWritten || decide (r = .rip)⟩) ∨
        (∃ a s, x = .word a ∧ busWrite a v t.st = .ok ((), s) ∧ t' = { t with st := s }) := by
  cases x with
  | register r =>
    simp only [writeTarget, setReg_apply, Except.ok.injEq, Prod.mk.injEq, true_and, Target.register.injEq]
    constructor
    · rintro rfl; exact .inl ⟨r, rfl, rfl⟩
    · rintro (⟨_, rfl, rfl⟩ | ⟨_, _, h, -⟩)
      · rfl
      · cases h
  | word a =>
    simp only [writeTarget, onState_ok]
    constructor
    · rintro ⟨s, h, rfl⟩; exact .inr ⟨a, s, rfl, h, rfl⟩
    · rintro (⟨_, h, -⟩ | ⟨_, s, h, h', rfl⟩)
      · cases h
      · cases h; exact ⟨s, h', rfl⟩

/-- A store to a register destination. -/
theorem storeDest_register (r : Reg) (v : Word) (addr : Option Word) (t : Tick) :
    storeDest (.register r) v addr t = .ok ((), ⟨t.st.writeReg r v, t.ipWritten || decide (r = .rip)⟩) :=
  storeDest_ok.2 ⟨.register r, t, rfl, rfl⟩

/-! ## The gate -/

/-- What the gate does (R155). -/
theorem evalGate_some_ok {g : Gate} {b : Bool} {t t' : Tick} :
    evalGate (some g) t = .ok (b, t') ↔ ∃ w, load g.operand t = .ok (w, t') ∧ b = gatePasses g.pred w.1 := by
  unfold evalGate getValue
  rw [bind_ok]
  constructor
  · rintro ⟨v, t1, h1, h2⟩
    obtain ⟨w, t2, h3, h4⟩ := bind_ok.1 h1
    cases h4; cases h2
    exact ⟨w, h3, rfl⟩
  · rintro ⟨w, h, rfl⟩
    exact ⟨w.1, t', bind_ok.2 ⟨w, t', h, rfl⟩, rfl⟩

theorem evalGate_none (t : Tick) : evalGate none t = .ok (true, t) := rfl

theorem evalGate_reads {g : Option Gate} {b : Bool} {t t' : Tick} (h : evalGate g t = .ok (b, t')) : t.Reads t' := by
  cases g with
  | none => cases h; exact .refl _
  | some g =>
    obtain ⟨w, h, -⟩ := evalGate_some_ok.1 h
    exact load_reads h

/-! ## The load phase -/

theorem loadParam_read_ok {p : Operand} {x : Slot} {t t' : Tick} :
    loadParam (.read p) t = .ok (x, t') ↔ ∃ w, load p t = .ok (w, t') ∧ x = ⟨w.1, w.2, false⟩ := by
  unfold loadParam
  rw [bind_ok]
  constructor
  · rintro ⟨w, t1, h1, h2⟩; cases h2; exact ⟨w, h1, rfl⟩
  · rintro ⟨w, h, rfl⟩; exact ⟨w, t', h, rfl⟩

theorem loadParam_readWrite_ok {d : Dest} {x : Slot} {t t' : Tick} :
    loadParam (.readWrite d) t = .ok (x, t') ↔ ∃ w, load d.operand t = .ok (w, t') ∧ x = ⟨w.1, w.2, false⟩ := by
  unfold loadParam
  rw [bind_ok]
  constructor
  · rintro ⟨w, t1, h1, h2⟩; cases h2; exact ⟨w, h1, rfl⟩
  · rintro ⟨w, h, rfl⟩; exact ⟨w, t', h, rfl⟩

theorem loadParam_reads {p : Param} {x : Slot} {t t' : Tick} (h : loadParam p t = .ok (x, t')) : t.Reads t' := by
  cases p with
  | read p => obtain ⟨w, h, -⟩ := loadParam_read_ok.1 h; exact load_reads h
  | write d => cases h; exact .refl _
  | readWrite d => obtain ⟨w, h, -⟩ := loadParam_readWrite_ok.1 h; exact load_reads h

theorem loadPhase_cons_ok {p : Param} {ps : List Param} {xs : List Slot} {t t' : Tick} :
    loadPhase (p :: ps) t = .ok (xs, t') ↔
      ∃ x t1 ys, loadParam p t = .ok (x, t1) ∧ loadPhase ps t1 = .ok (ys, t') ∧ xs = x :: ys := by
  show (loadParam p >>= fun x => _) t = _ ↔ _
  constructor
  · intro h
    obtain ⟨x, t1, h1, h⟩ := bind_ok.1 h
    obtain ⟨ys, t2, h2, h⟩ := bind_ok.1 h
    cases h
    exact ⟨x, t1, ys, h1, h2, rfl⟩
  · rintro ⟨x, t1, ys, h1, h2, rfl⟩
    rw [bind_of_ok h1, bind_of_ok h2]
    rfl

theorem loadPhase_nil (t : Tick) : loadPhase [] t = .ok ([], t) := rfl

/-- The load phase changes only what reading may change, and gives one slot for each operand (R156). -/
theorem loadPhase_reads {ps : List Param} {xs : List Slot} {t t' : Tick} (h : loadPhase ps t = .ok (xs, t')) :
    t.Reads t' ∧ xs.length = ps.length := by
  induction ps generalizing t xs with
  | nil => cases h; exact ⟨.refl _, rfl⟩
  | cons p ps ih =>
    obtain ⟨x, t1, ys, h1, h2, rfl⟩ := loadPhase_cons_ok.1 h
    obtain ⟨h3, h4⟩ := ih h2
    exact ⟨(loadParam_reads h1).trans h3, by simp [h4]⟩

/-- The load phase of a written operand and two read ones. -/
theorem loadPhase_wrr_ok {d : Dest} {a b : Operand} {xs : List Slot} {t t' : Tick} :
    loadPhase [.write d, .read a, .read b] t = .ok (xs, t') ↔
      ∃ wa wb t1, load a t = .ok (wa, t1) ∧ load b t1 = .ok (wb, t') ∧
        xs = [⟨0, none, false⟩, ⟨wa.1, wa.2, false⟩, ⟨wb.1, wb.2, false⟩] := by
  simp only [loadPhase_cons_ok, loadParam_read_ok]
  constructor
  · rintro ⟨x, t1, ys, h1, ⟨y, t2, zs, ⟨wa, h2, rfl⟩, ⟨z, t3, us, ⟨wb, h3, rfl⟩, h4, rfl⟩, rfl⟩, rfl⟩
    cases h1; cases h4
    exact ⟨wa, wb, t2, h2, h3, rfl⟩
  · rintro ⟨wa, wb, t1, h1, h2, rfl⟩
    exact ⟨_, t, _, rfl, ⟨_, t1, _, ⟨wa, h1, rfl⟩, ⟨_, t', _, ⟨wb, h2, rfl⟩, rfl, rfl⟩, rfl⟩, rfl⟩

/-- The load phase of a written operand and a read one. -/
theorem loadPhase_wr_ok {d : Dest} {a : Operand} {xs : List Slot} {t t' : Tick} :
    loadPhase [.write d, .read a] t = .ok (xs, t') ↔
      ∃ wa, load a t = .ok (wa, t') ∧ xs = [⟨0, none, false⟩, ⟨wa.1, wa.2, false⟩] := by
  simp only [loadPhase_cons_ok, loadParam_read_ok]
  constructor
  · rintro ⟨x, t1, ys, h1, ⟨y, t2, zs, ⟨wa, h2, rfl⟩, h4, rfl⟩, rfl⟩
    cases h1; cases h4
    exact ⟨wa, h2, rfl⟩
  · rintro ⟨wa, h1, rfl⟩
    exact ⟨_, t, _, rfl, ⟨_, t', _, ⟨wa, h1, rfl⟩, rfl, rfl⟩, rfl⟩

/-- The load phase of three read operands. -/
theorem loadPhase_rrr_ok {a b c : Operand} {xs : List Slot} {t t' : Tick} :
    loadPhase [.read a, .read b, .read c] t = .ok (xs, t') ↔
      ∃ wa wb wc t1 t2, load a t = .ok (wa, t1) ∧ load b t1 = .ok (wb, t2) ∧ load c t2 = .ok (wc, t') ∧
        xs = [⟨wa.1, wa.2, false⟩, ⟨wb.1, wb.2, false⟩, ⟨wc.1, wc.2, false⟩] := by
  simp only [loadPhase_cons_ok, loadParam_read_ok]
  constructor
  · rintro ⟨x, t1, ys, ⟨wa, h1, rfl⟩, ⟨y, t2, zs, ⟨wb, h2, rfl⟩, ⟨z, t3, us, ⟨wc, h3, rfl⟩, h4, rfl⟩, rfl⟩, rfl⟩
    cases h4
    exact ⟨wa, wb, wc, t1, t2, h1, h2, h3, rfl⟩
  · rintro ⟨wa, wb, wc, t1, t2, h1, h2, h3, rfl⟩
    exact ⟨_, t1, _, ⟨wa, h1, rfl⟩, ⟨_, t2, _, ⟨wb, h2, rfl⟩, ⟨_, t', _, ⟨wc, h3, rfl⟩, rfl, rfl⟩, rfl⟩, rfl⟩

/-- The load phase of one read operand. -/
theorem loadPhase_r_ok {a : Operand} {xs : List Slot} {t t' : Tick} :
    loadPhase [.read a] t = .ok (xs, t') ↔ ∃ wa, load a t = .ok (wa, t') ∧ xs = [⟨wa.1, wa.2, false⟩] := by
  simp only [loadPhase_cons_ok, loadParam_read_ok]
  constructor
  · rintro ⟨x, t1, ys, ⟨wa, h1, rfl⟩, h4, rfl⟩
    cases h4
    exact ⟨wa, h1, rfl⟩
  · rintro ⟨wa, h1, rfl⟩
    exact ⟨_, t', _, ⟨wa, h1, rfl⟩, rfl, rfl⟩

/-- The load phase of two operands read and written. -/
theorem loadPhase_ww_ok {a b : Dest} {xs : List Slot} {t t' : Tick} :
    loadPhase [.readWrite a, .readWrite b] t = .ok (xs, t') ↔
      ∃ wa wb t1, load a.operand t = .ok (wa, t1) ∧ load b.operand t1 = .ok (wb, t') ∧
        xs = [⟨wa.1, wa.2, false⟩, ⟨wb.1, wb.2, false⟩] := by
  simp only [loadPhase_cons_ok, loadParam_readWrite_ok]
  constructor
  · rintro ⟨x, t1, ys, ⟨wa, h1, rfl⟩, ⟨y, t2, zs, ⟨wb, h2, rfl⟩, h4, rfl⟩, rfl⟩
    cases h4
    exact ⟨wa, wb, t1, h1, h2, rfl⟩
  · rintro ⟨wa, wb, t1, h1, h2, rfl⟩
    exact ⟨_, t1, _, ⟨wa, h1, rfl⟩, ⟨_, t', _, ⟨wb, h2, rfl⟩, rfl, rfl⟩, rfl⟩

/-- The load phase of two operands read and written and one read. -/
theorem loadPhase_wwr_ok {a b : Dest} {c : Operand} {xs : List Slot} {t t' : Tick} :
    loadPhase [.readWrite a, .readWrite b, .read c] t = .ok (xs, t') ↔
      ∃ wa wb wc t1 t2, load a.operand t = .ok (wa, t1) ∧ load b.operand t1 = .ok (wb, t2) ∧ load c t2 = .ok (wc, t') ∧
        xs = [⟨wa.1, wa.2, false⟩, ⟨wb.1, wb.2, false⟩, ⟨wc.1, wc.2, false⟩] := by
  simp only [loadPhase_cons_ok, loadParam_readWrite_ok, loadParam_read_ok]
  constructor
  · rintro ⟨x, t1, ys, ⟨wa, h1, rfl⟩, ⟨y, t2, zs, ⟨wb, h2, rfl⟩, ⟨z, t3, us, ⟨wc, h3, rfl⟩, h4, rfl⟩, rfl⟩, rfl⟩
    cases h4
    exact ⟨wa, wb, wc, t1, t2, h1, h2, h3, rfl⟩
  · rintro ⟨wa, wb, wc, t1, t2, h1, h2, h3, rfl⟩
    exact ⟨_, t1, _, ⟨wa, h1, rfl⟩, ⟨_, t2, _, ⟨wb, h2, rfl⟩, ⟨_, t', _, ⟨wc, h3, rfl⟩, rfl, rfl⟩, rfl⟩, rfl⟩

/-! ## The run of one instruction -/

/-- What the body of a Tick does (R150): the gate; when it is on, the load phase, the handler, the store phase. -/
theorem tickBody_ok {i : Instr} {h : Handler} {a : Word} {t t' : Tick} :
    tickBody i h a t = .ok ((), t') ↔
      evalGate i.shape.gate t = .ok (false, t') ∨
        ∃ t1 t2 t3 xs ys, evalGate i.shape.gate t = .ok (true, t1) ∧ loadPhase i.shape.params t1 = .ok (xs, t2) ∧
          h (envOf i a) xs t2 = .ok (ys, t3) ∧ storePhase i.shape.params ys t3 = .ok ((), t') := by
  unfold tickBody
  rw [bind_ok]
  constructor
  · rintro ⟨on, t1, h1, h2⟩
    cases on with
    | false => cases h2; exact .inl h1
    | true =>
      simp only [if_true] at h2
      obtain ⟨xs, t2, h3, h2⟩ := bind_ok.1 h2
      obtain ⟨ys, t3, h4, h2⟩ := bind_ok.1 h2
      exact .inr ⟨t1, t2, t3, xs, ys, h1, h3, h4, h2⟩
  · rintro (h1 | ⟨t1, t2, t3, xs, ys, h1, h2, h3, h4⟩)
    · exact ⟨false, t', h1, rfl⟩
    · refine ⟨true, t1, h1, ?_⟩
      simp only [if_true]
      rw [bind_of_ok h2, bind_of_ok h3]
      exact h4

/-- When the run of an instruction answers a next state, and which (R150, R159). -/
theorem runInstr_next {i : Instr} {h : Handler} {s t : State} :
    runInstr i h s = .next t ↔
      ∃ u, tickBody i h s.rip ⟨s, false⟩ = .ok ((), u) ∧ t = u.advance (nextIP s.rip i.length) := by
  unfold runInstr
  show (match tickBody i h s.rip ⟨s, false⟩ with
    | .ok (_, t) => Host.Outcome.next (t.advance (nextIP s.rip i.length))
    | .error f => .fault f) = _ ↔ _
  cases tickBody i h s.rip ⟨s, false⟩ with
  | error f => simp
  | ok p =>
    obtain ⟨⟨⟩, u⟩ := p
    simp only [Host.Outcome.next.injEq, Except.ok.injEq, Prod.mk.injEq, true_and]
    exact ⟨fun e => ⟨u, rfl, e.symm⟩, fun ⟨_, e, h⟩ => by rw [h, e]⟩

/-- An instruction whose gate is off ends there (R155). -/
theorem runInstr_gate_off {i : Instr} {h : Handler} {s : State} {t : Tick}
    (hg : evalGate i.shape.gate ⟨s, false⟩ = .ok (false, t)) :
    runInstr i h s = .next (t.advance (nextIP s.rip i.length)) :=
  runInstr_next.2 ⟨t, tickBody_ok.2 (.inl hg), rfl⟩

/-- An instruction whose gate is on: its load phase, handler and store phase in order (R150). -/
theorem runInstr_gate_on {i : Instr} {h : Handler} {s : State} {t1 t2 t3 t4 : Tick} {xs ys : List Slot}
    (hg : evalGate i.shape.gate ⟨s, false⟩ = .ok (true, t1)) (hl : loadPhase i.shape.params t1 = .ok (xs, t2))
    (hh : h (envOf i s.rip) xs t2 = .ok (ys, t3)) (hs : storePhase i.shape.params ys t3 = .ok ((), t4)) :
    runInstr i h s = .next (t4.advance (nextIP s.rip i.length)) :=
  runInstr_next.2 ⟨t4, tickBody_ok.2 (.inr ⟨t1, t2, t3, xs, ys, hg, hl, hh, hs⟩), rfl⟩

/-- The IP advance changes RIP alone. -/
theorem Tick.advance_eq (t : Tick) (next : Word) :
    t.advance next = { t.st with rip := if t.ipWritten then t.st.rip else next } := by
  unfold Tick.advance
  split <;> rfl

end Sys2Proof.Machine
end

