-- ==== Sys2Proof/Laws/Fetch.lean ====
section
/-!
SUPPORT. What the fetch can do, said once: any relation that the word stream keeps, Decode keeps; the fetch changes only
what reading can change; the decoded record has the declared number of operands.
-/

namespace Sys2Proof

open Machine (bind_ok)

section
variable {σ ε : Type} {rd : StateT σ (Except ε) Word} {R : σ → σ → Prop}

/-- An action of the codec keeps a relation. -/
def Keeps {α : Type} (R : σ → σ → Prop) (m : StateT σ (Except ε) α) : Prop := ∀ x a y, m x = .ok (a, y) → R x y

theorem Keeps.pure {α : Type} (hr : ∀ x, R x x) (a : α) : Keeps R (Pure.pure a : StateT σ (Except ε) α) :=
  fun x b y h => by cases h; exact hr x

theorem Keeps.bind {α β : Type} (ht : ∀ x y z, R x y → R y z → R x z) {m : StateT σ (Except ε) α}
    {f : α → StateT σ (Except ε) β} (hm : Keeps R m) (hf : ∀ a, Keeps R (f a)) : Keeps R (m >>= f) := by
  intro x b z h
  obtain ⟨a, y, h1, h2⟩ := bind_ok.1 h
  exact ht x y z (hm x a y h1) (hf a y b z h2)

variable (hr : ∀ x, R x x) (ht : ∀ x y z, R x y → R y z → R x z) (hk : Keeps R rd)
include hr ht hk

theorem decodeLiteral_keeps (sel : BitVec 5) : Keeps R (decodeLiteral rd sel) := by
  unfold decodeLiteral
  split
  · exact .pure hr _
  · exact .bind ht hk fun v => .pure hr _

theorem decodeSubOperand_keeps (f : BitVec 10) : Keeps R (decodeSubOperand rd f) := by
  unfold decodeSubOperand
  dsimp only
  split <;> first
    | exact .bind ht (decodeLiteral_keeps hr ht hk _) fun l => .bind ht (.pure hr _) fun k => .pure hr _
    | exact .bind ht (.pure hr _) fun k => .pure hr _

theorem decodeSub_keeps (q : BitVec 12) : Keeps R (decodeSub rd q) := by
  unfold decodeSub
  dsimp only
  split
  · exact .bind ht (decodeSubOperand_keeps hr ht hk _) fun s => .pure hr _
  · exact .pure hr _

theorem decodeOperand_keeps (f : BitVec 10) : Keeps R (decodeOperand rd f) := by
  unfold decodeOperand
  dsimp only
  split <;> first
    | exact .bind ht (decodeLiteral_keeps hr ht hk _) fun l => .bind ht (.pure hr _) fun k => .pure hr _
    | exact .bind ht (.pure hr _) fun k => .pure hr _
    | exact .bind ht hk fun w => .bind ht (decodeSub_keeps hr ht hk _) fun b =>
        .bind ht (decodeSub_keeps hr ht hk _) fun i => .bind ht (decodeSub_keeps hr ht hk _) fun s =>
          .bind ht (decodeSub_keeps hr ht hk _) fun t => .bind ht (.pure hr _) fun k => .pure hr _

theorem decodeOperands_keeps (fs : List (BitVec 10)) : Keeps R (decodeOperands rd fs) := by
  induction fs with
  | nil => exact .pure hr _
  | cons f fs ih => exact .bind ht (decodeOperand_keeps hr ht hk f) fun p => .bind ht ih fun ps => .pure hr _

/-- A relation that the word stream keeps, Decode keeps (R114). -/
theorem decodeRaw_keeps : Keeps R (decodeRaw rd) := by
  unfold decodeRaw
  refine .bind ht hk fun w => .bind ht (decodeOperands_keeps hr ht hk _) fun ps => .bind ht ?_ fun c => .pure hr _
  unfold decodeCond
  split
  · exact .bind ht (decodeOperand_keeps hr ht hk _) fun p => .pure hr _
  · exact .pure hr _

end

/-- Decode reads one operand for each field it is given (R110). -/
theorem decodeOperands_length {σ ε : Type} {rd : StateT σ (Except ε) Word} {fs : List (BitVec 10)} {x y : σ}
    {ps : List RawOperand} (h : decodeOperands rd fs x = .ok (ps, y)) : ps.length = fs.length := by
  induction fs generalizing x ps with
  | nil => cases h; rfl
  | cons f fs ih =>
    obtain ⟨p, x1, -, h2⟩ := bind_ok.1 h
    obtain ⟨qs, x2, h3, h4⟩ := bind_ok.1 h2
    cases h4
    simp [ih h3]

/-- A decoded record has the number of operands that its opcode declares (R110, R114). -/
theorem decodeRaw_count {σ ε : Type} {rd : StateT σ (Except ε) Word} {x y : σ} {r : RawInstr}
    (h : decodeRaw rd x = .ok (r, y)) : r.countMatches = true := by
  unfold decodeRaw at h
  obtain ⟨w, x1, -, h⟩ := bind_ok.1 h
  obtain ⟨ps, x2, h2, h⟩ := bind_ok.1 h
  obtain ⟨c, x3, -, h⟩ := bind_ok.1 h
  cases h
  have hl := decodeOperands_length h2
  have h3 := declaredCount_le (ControlWord.unpack w).opcode
  simp only [RawInstr.countMatches, hl, List.length_take, List.length_cons, List.length_nil]
  simp only [decide_eq_true_eq]
  omega

end Sys2Proof

namespace Sys2Proof.Machine

theorem busStream_ok {x y : State × Word} {w : Word} :
    busStream x = .ok (w, y) ↔ busRead x.2 x.1 = .ok (w, y.1) ∧ y.2 = x.2 + 1 := by
  unfold busStream
  cases h : busRead x.2 x.1 with
  | error f => simp
  | ok p =>
    obtain ⟨v, s⟩ := p
    obtain ⟨t, a⟩ := y
    simp only [Except.ok.injEq, Prod.mk.injEq]
    constructor
    · rintro ⟨rfl, rfl, rfl⟩; exact ⟨⟨rfl, rfl⟩, rfl⟩
    · rintro ⟨⟨rfl, rfl⟩, rfl⟩; exact ⟨rfl, rfl, rfl⟩

theorem fetchDecode_ok {s t : State} {r : RawInstr} :
    fetchDecode s = .ok (r, t) ↔ ∃ a, decodeRaw busStream (s, s.rip) = .ok (r, (t, a)) := by
  unfold fetchDecode
  show (match decodeRaw busStream (s, s.rip) with
    | .ok (r, x) => Except.ok (r, x.1)
    | .error f => .error f) = _ ↔ _
  cases decodeRaw busStream (s, s.rip) with
  | error f => simp
  | ok p =>
    obtain ⟨q, u, b⟩ := p
    simp only [Except.ok.injEq, Prod.mk.injEq]
    constructor
    · rintro ⟨rfl, rfl⟩; exact ⟨b, rfl, rfl, rfl⟩
    · rintro ⟨_, rfl, rfl, -⟩; exact ⟨rfl, rfl⟩

/-- The fetch changes only what reading can change, and not RSP (R151, R68). -/
theorem fetchDecode_reads {s t : State} {r : RawInstr} (h : fetchDecode s = .ok (r, t)) : s.ReadsTo t ∧ t.rsp = s.rsp := by
  obtain ⟨a, h⟩ := fetchDecode_ok.1 h
  refine decodeRaw_keeps (R := fun x y : State × Word => x.1.ReadsTo y.1 ∧ y.1.rsp = x.1.rsp) (fun x => ⟨.refl _, rfl⟩)
    (fun x y z h k => ⟨h.1.trans k.1, k.2.trans h.2⟩) (fun x w y h => ?_) _ _ _ h
  have h := (busStream_ok.1 h).1
  exact ⟨busRead_readsTo h, busRead_rsp h⟩

/-- The fetch changes no register. -/
theorem fetchDecode_readReg {s t : State} {r : RawInstr} (h : fetchDecode s = .ok (r, t)) (x : Reg) :
    t.readReg x = s.readReg x := by
  obtain ⟨h1, h2⟩ := fetchDecode_reads h
  by_cases hx : x = .rsp
  · subst hx; exact h2
  · exact h1.readReg hx

theorem fetchDecode_count {s t : State} {r : RawInstr} (h : fetchDecode s = .ok (r, t)) : r.countMatches = true := by
  obtain ⟨a, h⟩ := fetchDecode_ok.1 h
  exact decodeRaw_count h

/-- Words seen at rising addresses feed the fetch, with no other agent about to act. -/
theorem Feeds.bus {s : State} (hq : s.arrivals = .quiet) : ∀ (ws : List Word) (a : Word),
    (∀ (k : Nat) (h : k < ws.length), s.peek (a + BitVec.ofNat 64 k) = some ws[k]) →
    Feeds busStream ws (s, a) (s, a + BitVec.ofNat 64 ws.length)
  | [], a, _ => by simpa using Feeds.nil (s, a)
  | w :: ws, a, h => by
    have h0 := h 0 (by simp)
    have z : a + BitVec.ofNat 64 0 = a := by simp
    rw [z] at h0
    have e (k : Nat) : a + 1 + BitVec.ofNat 64 k = a + BitVec.ofNat 64 (k + 1) := by
      rw [BitVec.add_assoc]
      congr 1
      apply BitVec.eq_of_toNat_eq
      simp [Nat.add_comm]
    refine .cons (y := (s, a + 1)) (busStream_ok.2 ⟨busRead_quiet hq h0, rfl⟩) ?_
    have ih := Feeds.bus hq ws (a + 1) fun k hk => by
      rw [e]
      exact h (k + 1) (Nat.succ_lt_succ hk)
    rw [e] at ih
    exact ih

end Sys2Proof.Machine
end

