-- ==== Sys2Proof/Laws/Apart.lean ====
section
/-!
SUPPORT. Reading does not look at the queue or the schedule: what a fetch, a gate or an operand read gives while other agents
act, it gives without them, whatever is in the queue (20_memory.md R71: the agents act only through the queue).
-/

namespace Sys2Proof

open Machine (bind_ok bind_of_ok)

section
variable {σ ε : Type} {f : σ → σ}

/-- An action answers the same from `f x` as from `x`, and leaves `f` of what it left. -/
def Commutes {α : Type} (f : σ → σ) (m : StateT σ (Except ε) α) : Prop :=
  ∀ x a y, m x = .ok (a, y) → m (f x) = .ok (a, f y)

theorem Commutes.pure {α : Type} (a : α) : Commutes f (Pure.pure a : StateT σ (Except ε) α) := fun x b y h => by
  cases h; rfl

theorem Commutes.bind {α β : Type} {m : StateT σ (Except ε) α} {g : α → StateT σ (Except ε) β} (hm : Commutes f m)
    (hg : ∀ a, Commutes f (g a)) : Commutes f (m >>= g) := by
  intro x b z h
  obtain ⟨a, y, h1, h2⟩ := bind_ok.1 h
  rw [bind_of_ok (hm x a y h1)]
  exact hg a y b z h2

variable {rd : StateT σ (Except ε) Word} (hk : Commutes f rd)
include hk

theorem decodeLiteral_commutes (sel : BitVec 5) : Commutes f (decodeLiteral rd sel) := by
  unfold decodeLiteral
  split
  · exact .pure _
  · exact .bind hk fun v => .pure _

theorem decodeSubOperand_commutes (q : BitVec 10) : Commutes f (decodeSubOperand rd q) := by
  unfold decodeSubOperand
  dsimp only
  split <;> first
    | exact .bind (decodeLiteral_commutes hk _) fun l => .bind (.pure _) fun k => .pure _
    | exact .bind (.pure _) fun k => .pure _

theorem decodeSub_commutes (q : BitVec 12) : Commutes f (decodeSub rd q) := by
  unfold decodeSub
  dsimp only
  split
  · exact .bind (decodeSubOperand_commutes hk _) fun s => .pure _
  · exact .pure _

theorem decodeOperand_commutes (q : BitVec 10) : Commutes f (decodeOperand rd q) := by
  unfold decodeOperand
  dsimp only
  split <;> first
    | exact .bind (decodeLiteral_commutes hk _) fun l => .bind (.pure _) fun k => .pure _
    | exact .bind (.pure _) fun k => .pure _
    | exact .bind hk fun w => .bind (decodeSub_commutes hk _) fun b => .bind (decodeSub_commutes hk _) fun i =>
        .bind (decodeSub_commutes hk _) fun s => .bind (decodeSub_commutes hk _) fun t => .bind (.pure _) fun k => .pure _

theorem decodeOperands_commutes (fs : List (BitVec 10)) : Commutes f (decodeOperands rd fs) := by
  induction fs with
  | nil => exact .pure _
  | cons q fs ih => exact .bind (decodeOperand_commutes hk q) fun p => .bind ih fun ps => .pure _

/-- Decode gives the same from two word streams that give the same (R114). -/
theorem decodeRaw_commutes : Commutes f (decodeRaw rd) := by
  unfold decodeRaw
  refine .bind hk fun w => .bind (decodeOperands_commutes hk _) fun ps => .bind ?_ fun c => .pure _
  unfold decodeCond
  split
  · exact .bind (decodeOperand_commutes hk _) fun p => .pure _
  · exact .pure _

end

end Sys2Proof

namespace Sys2Proof.Machine

/-- The state with another queue, and no other agent about to act. -/
def State.apart (q : List InterruptRecord) (s : State) : State := { s with queue := q, arrivals := .quiet }

/-- The Tick's state with another queue, and no other agent about to act. -/
def Tick.apart (q : List InterruptRecord) (t : Tick) : Tick := ⟨t.st.apart q, t.ipWritten⟩

variable {q : List InterruptRecord}

theorem State.deviceReadWord_apart {s t : State} {id : Nat} {d : Device} {a v : Word}
    (h : s.deviceReadWord id d a = .ok (v, t)) : (s.apart q).deviceReadWord id d a = .ok (v, t.apart q) := by
  unfold State.deviceReadWord at h ⊢
  cases hk : d.kind with
  | external b m =>
    simp only [hk] at h ⊢
    cases hr : Config.deviceRead b m (localAddr a) with
    | none => simp only [hr] at h; cases h
    | some p => simp only [hr] at h; cases h; rfl
  | _ =>
    simp only [hk] at h ⊢
    split_ifs at h ⊢
    cases h; rfl

theorem State.readAt_apart {s t : State} {a v : Word} (h : s.readAt a = .ok (v, t)) :
    (s.apart q).readAt a = .ok (v, t.apart q) := by
  unfold State.readAt at h ⊢
  by_cases hdir : devId a = directoryId
  · rw [if_pos hdir] at h ⊢
    have e : (s.apart q).directory = s.directory := rfl
    rw [e]
    cases hw : s.directory[(localAddr a).toNat]? with
    | none => rw [hw] at h; cases h
    | some w => rw [hw] at h; cases h; rfl
  · rw [if_neg hdir] at h ⊢
    have e : (s.apart q).devices = s.devices := rfl
    rw [e]
    cases hd : s.devices[devId a]? with
    | none => rw [hd] at h; cases h
    | some d =>
      rw [hd] at h
      exact State.deviceReadWord_apart h

/-- A bus read does not look at the queue or the schedule. -/
theorem busRead_apart (a : Word) : Commutes (State.apart q) (busRead a) := by
  intro s v t h
  obtain ⟨s1, h1, h2⟩ := busRead_ok.1 h
  obtain ⟨new, hs, -⟩ := poll_ok h1
  have h3 := State.readAt_apart (q := q) h2
  rw [hs] at h3
  exact busRead_ok.2 ⟨_, poll_quiet rfl, h3⟩

theorem readReg_apart (s : State) (r : Reg) : (s.apart q).readReg r = s.readReg r := by cases r <;> rfl

theorem onState_apart {α : Type} {m : SM α} (hm : Commutes (State.apart q) m) : Commutes (Tick.apart q) (onState m) := by
  intro t a u h
  obtain ⟨s, h1, rfl⟩ := onState_ok.1 h
  exact onState_of_ok (t := t.apart q) (hm _ _ _ h1)

theorem getReg_apart (r : Reg) : Commutes (Tick.apart q) (getReg r) := by
  intro t v u h
  cases h
  exact congrArg (fun x => Except.ok (x, t.apart q)) (readReg_apart t.st r)

theorem setReg_apart (r : Reg) (v : Word) : Commutes (Tick.apart q) (setReg r v) := by
  intro t _ u h
  cases h
  cases r <;> rfl

theorem pop_apart : Commutes (Tick.apart q) pop :=
  .bind (getReg_apart _) fun _ => .bind (onState_apart (busRead_apart _)) fun _ => .bind (setReg_apart _ _) fun _ => .pure _

theorem addRel_apart (rel : Rel) (v : Word) : Commutes (Tick.apart q) (addRel rel v) := by
  cases rel <;> first | exact .pure _ | exact .bind (getReg_apart _) fun _ => .pure _

theorem deref_apart (ind : Bool) (v : Word) : Commutes (Tick.apart q) (deref ind v) := by
  cases ind
  · exact .pure _
  · exact .bind (onState_apart (busRead_apart _)) fun _ => .pure _

theorem termValue_apart (p : SignedSub) : Commutes (Tick.apart q) (termValue p) := by
  have hk (k : SubKind) : Commutes (Tick.apart q) (subKindValue k) := by
    cases k
    · exact getReg_apart _
    · exact pop_apart
    · exact .pure _
  exact .bind (.bind (hk _) fun _ => .bind (addRel_apart _ _) fun _ => .bind (deref_apart _ _) fun _ => .pure _)
    fun _ => .pure _

theorem kindValue_apart (k : Kind) : Commutes (Tick.apart q) (kindValue k) := by
  have ho (v : Word) (p : Option SignedSub) : Commutes (Tick.apart q) (optTermValue v p) := by
    cases p
    · exact .pure _
    · exact termValue_apart _
  cases k
  · exact getReg_apart _
  · exact pop_apart
  · exact .pure _
  · exact .bind (termValue_apart _) fun _ => .bind (ho _ _) fun _ => .bind (ho _ _) fun _ => .bind (ho _ _) fun _ => .pure _

/-- Reading an operand does not look at the queue or the schedule. -/
theorem load_apart (p : Operand) : Commutes (Tick.apart q) (load p) :=
  .bind (.bind (kindValue_apart _) fun _ => addRel_apart _ _) fun _ => deref_apart _ _

/-- The gate does not look at the queue or the schedule. -/
theorem evalGate_apart (g : Option Gate) : Commutes (Tick.apart q) (evalGate g) := by
  cases g
  · exact .pure _
  · exact .bind (.bind (load_apart _) fun _ => .pure _) fun _ => .pure _

/-- The fetch does not look at the queue or the schedule. -/
theorem fetchDecode_apart {s t : State} {r : RawInstr} (h : fetchDecode s = .ok (r, t)) :
    fetchDecode (s.apart q) = .ok (r, t.apart q) := by
  obtain ⟨a, h⟩ := fetchDecode_ok.1 h
  refine fetchDecode_ok.2 ⟨a, decodeRaw_commutes (f := fun x : State × Word => (x.1.apart q, x.2)) ?_ _ _ _ h⟩
  intro x w y h
  obtain ⟨h1, h2⟩ := busStream_ok.1 h
  exact busStream_ok.2 ⟨busRead_apart _ _ _ _ h1, h2⟩

end Sys2Proof.Machine
end

