-- ==== Sys2Proof/Laws/Instr.lean ====
section
/-!
SUPPORT. What the store phase, each handler and the run of an instruction can do, said once.
-/

namespace Sys2Proof.Machine

/-! ## The handler of each instruction -/

/-- The handler that each instruction's meaning runs (R157, R167). -/
def handlerOf : Instr → Handler
  | .hlt _ => hltHandler
  | .nop _ => fun _ slots => pure slots
  | .int _ _ _ _ => intHandler
  | .eint _ => eintHandler
  | .inte _ => enableHandler true
  | .intd _ => enableHandler false
  | .xchg _ _ _ => xchgHandler
  | .cas _ _ _ _ => casHandler
  | .set _ _ _ => unaryHandler id
  | .cpy _ _ _ _ => cpyHandler
  | .call _ _ => callHandler
  | .ret _ => retHandler
  | .dbg _ _ _ _ => dbgHandler
  | .brk _ => brkHandler
  | .add _ _ _ _ => binaryHandler fun b c => b + c
  | .addf _ _ _ _ => floatHandler f64Add
  | .sub _ _ _ _ => binaryHandler fun b c => b - c
  | .subf _ _ _ _ => floatHandler f64Sub
  | .mul _ _ _ _ => binaryHandler fun b c => b * c
  | .mulf _ _ _ _ => floatHandler f64Mul
  | .div _ _ _ _ => divideHandler intIsZero fun b c => pure (BitVec.udiv b c)
  | .divf _ _ _ _ => divideHandler f64IsZero fun b c => floatResult (f64Div b c)
  | .mod _ _ _ _ => divideHandler intIsZero fun b c => pure (BitVec.umod b c)
  | .modf _ _ _ _ => divideHandler f64IsZero fun b c => floatResult (f64Mod b c)
  | .sr _ _ _ _ => shiftHandler shiftRight
  | .sl _ _ _ _ => shiftHandler shiftLeft
  | .rr _ _ _ _ => binaryHandler rotateRight
  | .rl _ _ _ _ => binaryHandler rotateLeft
  | .nand _ _ _ _ => binaryHandler fun b c => ~~~(b &&& c)
  | .and _ _ _ _ => binaryHandler fun b c => b &&& c
  | .nor _ _ _ _ => binaryHandler fun b c => ~~~(b ||| c)
  | .or _ _ _ _ => binaryHandler fun b c => b ||| c
  | .nxor _ _ _ _ => binaryHandler fun b c => ~~~(b ^^^ c)
  | .xor _ _ _ _ => binaryHandler fun b c => b ^^^ c
  | .not _ _ _ => unaryHandler fun b => ~~~b
  | .gt _ _ _ _ => binaryHandler fun b c => boolWord (decide (c.toNat < b.toNat))
  | .gte _ _ _ _ => binaryHandler fun b c => boolWord (decide (c.toNat ≤ b.toNat))
  | .lt _ _ _ _ => binaryHandler fun b c => boolWord (decide (b.toNat < c.toNat))
  | .lte _ _ _ _ => binaryHandler fun b c => boolWord (decide (b.toNat ≤ c.toNat))
  | .eq _ _ _ _ => binaryHandler fun b c => boolWord (decide (b = c))
  | .neq _ _ _ _ => binaryHandler fun b c => boolWord (decide (b ≠ c))

/-- Each instruction's meaning is the run of its handler. -/
theorem exec_eq (i : Instr) (s : State) : exec i s = runInstr i (handlerOf i) s := by cases i <;> rfl

/-- When an instruction answers a next state, and which. -/
theorem exec_next {i : Instr} {s t : State} :
    exec i s = .next t ↔
      ∃ u, tickBody i (handlerOf i) s.rip ⟨s, false⟩ = .ok ((), u) ∧ t = u.advance (nextIP s.rip i.length) := by
  rw [exec_eq]
  exact runInstr_next

/-- An instruction never refuses. -/
theorem exec_not_refused (i : Instr) (s : State) (r : Refusal) : exec i s ≠ .refused r := by
  rw [exec_eq]
  unfold runInstr
  split <;> simp

/-! ## What a handler can do to a Tick's slots -/

/-- A binary handler writes slot 0 and changes nothing else. -/
theorem binaryHandler_ok {f : Word → Word → Word} {env : Env} {xs ys : List Slot} {t t' : Tick} :
    binaryHandler f env xs t = .ok (ys, t') ↔ ys = setSlot xs 0 (f (slotValue xs 1) (slotValue xs 2)) ∧ t' = t := by
  unfold binaryHandler
  rw [pure_ok, Prod.mk.injEq]

theorem unaryHandler_ok {f : Word → Word} {env : Env} {xs ys : List Slot} {t t' : Tick} :
    unaryHandler f env xs t = .ok (ys, t') ↔ ys = setSlot xs 0 (f (slotValue xs 1)) ∧ t' = t := by
  unfold unaryHandler
  rw [pure_ok, Prod.mk.injEq]

theorem shiftHandler_ok {f : ShiftCountMode → Word → Word → Word} {env : Env} {xs ys : List Slot} {t t' : Tick} :
    shiftHandler f env xs t = .ok (ys, t') ↔
      ys = setSlot xs 0 (f t.st.params.shiftCountMode (slotValue xs 1) (slotValue xs 2)) ∧ t' = t := by
  unfold shiftHandler
  rw [get_bind, pure_ok, Prod.mk.injEq]

/-- The word a floating-point result writes: itself, or a NaN draw (R252). -/
theorem floatResult_ok {r : Option Word} {w : Word} {t t' : Tick} :
    floatResult r t = .ok (w, t') ↔
      (r = some w ∧ t' = t) ∨
        (r = none ∧ w = nanOf (Config.nanDraw t.st.draws) ∧ t' = { t with st := { t.st with draws := t.st.draws + 1 } }) := by
  cases r with
  | some x =>
    show (pure x : TickM Word) t = _ ↔ _
    rw [pure_ok]
    simp [eq_comm]
  | none => simp [floatResult, drawNaN, eq_comm]

theorem floatHandler_ok {f : Word → Word → Option Word} {env : Env} {xs ys : List Slot} {t t' : Tick} :
    floatHandler f env xs t = .ok (ys, t') ↔
      ∃ w, floatResult (f (slotValue xs 1) (slotValue xs 2)) t = .ok (w, t') ∧ ys = setSlot xs 0 w := by
  unfold floatHandler
  rw [bind_ok]
  constructor
  · rintro ⟨w, t1, h, k⟩
    rw [pure_ok, Prod.mk.injEq] at k
    obtain ⟨rfl, rfl⟩ := k
    exact ⟨w, h, rfl⟩
  · rintro ⟨w, h, rfl⟩
    exact ⟨w, t', h, rfl⟩

/-- A division (R253): a zero divisor queues one record and writes no slot, another writes slot 0. -/
theorem divideHandler_ok {isZero : Word → Bool} {f : Word → Word → TickM Word} {env : Env} {xs ys : List Slot}
    {t t' : Tick} :
    divideHandler isZero f env xs t = .ok (ys, t') ↔
      (isZero (slotValue xs 2) = true ∧ ys = xs ∧
        ∃ s, enqueue typeDivideByZero env.opcode env.a t.st = .ok ((), s) ∧ t' = { t with st := s }) ∨
      (isZero (slotValue xs 2) = false ∧
        ∃ w, f (slotValue xs 1) (slotValue xs 2) t = .ok (w, t') ∧ ys = setSlot xs 0 w) := by
  unfold divideHandler
  cases h : isZero (slotValue xs 2) with
  | true =>
    simp only [if_true, true_and, Bool.true_eq_false, false_and, or_false]
    rw [bind_ok]
    constructor
    · rintro ⟨⟨⟩, t1, h1, h2⟩
      rw [pure_ok, Prod.mk.injEq] at h2
      obtain ⟨rfl, rfl⟩ := h2
      exact ⟨rfl, onState_ok.1 h1⟩
    · rintro ⟨rfl, h1⟩
      exact ⟨(), t', onState_ok.2 h1, rfl⟩
  | false =>
    simp only [Bool.false_eq_true, if_false, false_and, true_and, false_or]
    rw [bind_ok]
    constructor
    · rintro ⟨w, t1, h1, h2⟩
      rw [pure_ok, Prod.mk.injEq] at h2
      obtain ⟨rfl, rfl⟩ := h2
      exact ⟨w, h1, rfl⟩
    · rintro ⟨w, h1, rfl⟩
      exact ⟨w, t', h1, rfl⟩

/-- XCHG writes both slots, each with the other's value (R206). -/
theorem xchgHandler_ok {env : Env} {xs ys : List Slot} {t t' : Tick} :
    xchgHandler env xs t = .ok (ys, t') ↔
      ys = setSlot (setSlot xs 0 (slotValue xs 1)) 1 (slotValue xs 0) ∧ t' = t := by
  unfold xchgHandler
  rw [pure_ok, Prod.mk.injEq]

/-- CAS writes one slot (R207). -/
theorem casHandler_ok {env : Env} {xs ys : List Slot} {t t' : Tick} :
    casHandler env xs t = .ok (ys, t') ↔
      t' = t ∧ ys =
        if slotValue xs 0 = slotValue xs 1 then setSlot xs 0 (slotValue xs 2) else setSlot xs 1 (slotValue xs 0) := by
  unfold casHandler
  split <;> rw [pure_ok, Prod.mk.injEq, and_comm]

/-- HLT writes RIP with its own address (R200). -/
theorem hltHandler_ok {env : Env} {xs ys : List Slot} {t t' : Tick} :
    hltHandler env xs t = .ok (ys, t') ↔ ys = xs ∧ t' = ⟨{ t.st with rip := env.a }, true⟩ := by
  unfold hltHandler
  rw [bind_of_ok (jump_apply _ _), pure_ok, Prod.mk.injEq]

/-- INT queues one record, of its type or of `InvalidInstruction` (R202). -/
theorem intHandler_ok {env : Env} {xs ys : List Slot} {t t' : Tick} :
    intHandler env xs t = .ok (ys, t') ↔
      ys = xs ∧ ∃ s, t' = { t with st := s } ∧
        ((4096 ≤ (slotValue xs 0).toNat ∧ enqueue typeInvalidInstruction env.opcode env.a t.st = .ok ((), s)) ∨
          ((slotValue xs 0).toNat < 4096 ∧
            enqueue (slotValue xs 0) (slotValue xs 1) (slotValue xs 2) t.st = .ok ((), s))) := by
  unfold intHandler
  by_cases h : vectorCount ≤ (slotValue xs 0).toNat
  · rw [if_pos h, bind_ok]
    have h' : ¬ (slotValue xs 0).toNat < 4096 := Nat.not_lt.2 h
    constructor
    · rintro ⟨⟨⟩, t1, h1, h2⟩
      cases h2
      obtain ⟨s, h3, rfl⟩ := onState_ok.1 h1
      exact ⟨rfl, s, rfl, .inl ⟨h, h3⟩⟩
    · rintro ⟨rfl, s, rfl, ⟨-, h1⟩ | ⟨h1, -⟩⟩
      · exact ⟨(), _, onState_of_ok h1, rfl⟩
      · exact absurd h1 h'
  · rw [if_neg h, bind_ok]
    constructor
    · rintro ⟨⟨⟩, t1, h1, h2⟩
      cases h2
      obtain ⟨s, h3, rfl⟩ := onState_ok.1 h1
      exact ⟨rfl, s, rfl, .inr ⟨Nat.not_le.1 h, h3⟩⟩
    · rintro ⟨rfl, s, rfl, ⟨h1, -⟩ | ⟨-, h1⟩⟩
      · exact absurd h1 h
      · exact ⟨(), _, onState_of_ok h1, rfl⟩

/-- EINT returns inside a handler and queues one record outside (R203). -/
theorem eintHandler_ok {env : Env} {xs ys : List Slot} {t t' : Tick} :
    eintHandler env xs t = .ok (ys, t') ↔
      ys = xs ∧ ((t.st.inISR = true ∧ t' = ⟨t.st.returnFromInterrupt, true⟩) ∨
        (t.st.inISR = false ∧
          ∃ s, enqueue typeInvalidInstruction env.opcode env.a t.st = .ok ((), s) ∧ t' = { t with st := s })) := by
  unfold eintHandler
  rw [get_bind]
  cases h : t.st.inISR with
  | true =>
    rw [if_pos rfl, bind_ok]
    constructor
    · rintro ⟨⟨⟩, t1, h1, h2⟩
      cases h1; cases h2
      exact ⟨rfl, .inl ⟨rfl, rfl⟩⟩
    · rintro ⟨rfl, ⟨-, rfl⟩ | ⟨h1, -⟩⟩
      · exact ⟨(), _, rfl, rfl⟩
      · cases h1
  | false =>
    rw [if_neg (by simp), bind_ok]
    constructor
    · rintro ⟨⟨⟩, t1, h1, h2⟩
      cases h2
      exact ⟨rfl, .inr ⟨rfl, onState_ok.1 h1⟩⟩
    · rintro ⟨rfl, ⟨h1, -⟩ | ⟨-, h1⟩⟩
      · cases h1
      · exact ⟨(), _, onState_ok.2 h1, rfl⟩

/-- INTE and INTD set `IE` (R204, R205). -/
theorem enableHandler_ok {on : Bool} {env : Env} {xs ys : List Slot} {t t' : Tick} :
    enableHandler on env xs t = .ok (ys, t') ↔ ys = xs ∧ t' = ⟨{ t.st with ie := on }, t.ipWritten⟩ := by
  unfold enableHandler
  rw [bind_of_ok (onState_of_ok (s := { t.st with ie := on }) rfl), pure_ok, Prod.mk.injEq]

/-- CPY is one BusCopy (R209). -/
theorem cpyHandler_ok {env : Env} {xs ys : List Slot} {t t' : Tick} :
    cpyHandler env xs t = .ok (ys, t') ↔
      ys = xs ∧ ∃ s, busCopy (slotValue xs 1) (slotValue xs 0) (slotValue xs 2) t.st = .ok ((), s) ∧
        t' = { t with st := s } := by
  unfold cpyHandler
  rw [bind_ok]
  constructor
  · rintro ⟨⟨⟩, t1, h1, h2⟩
    cases h2
    exact ⟨rfl, onState_ok.1 h1⟩
  · rintro ⟨rfl, h1⟩
    exact ⟨(), _, onState_ok.2 h1, rfl⟩

/-- CALL pushes the address after it and jumps (R210). -/
theorem callHandler_ok {env : Env} {xs ys : List Slot} {t t' : Tick} :
    callHandler env xs t = .ok (ys, t') ↔
      ys = xs ∧ ∃ u, push env.nextIP t = .ok ((), u) ∧ t' = ⟨{ u.st with rip := slotValue xs 0 }, true⟩ := by
  unfold callHandler
  rw [bind_ok]
  constructor
  · rintro ⟨⟨⟩, t1, h1, h2⟩
    rw [bind_of_ok (jump_apply _ _)] at h2
    cases h2
    exact ⟨rfl, t1, h1, rfl⟩
  · rintro ⟨rfl, u, h1, rfl⟩
    exact ⟨(), u, h1, by rw [bind_of_ok (jump_apply _ _)]; rfl⟩

/-- RET pops and jumps there (R211). -/
theorem retHandler_ok {env : Env} {xs ys : List Slot} {t t' : Tick} :
    retHandler env xs t = .ok (ys, t') ↔
      ys = xs ∧ ∃ v u, pop t = .ok (v, u) ∧ t' = ⟨{ u.st with rip := v }, true⟩ := by
  unfold retHandler
  rw [bind_ok]
  constructor
  · rintro ⟨v, t1, h1, h2⟩
    rw [bind_of_ok (jump_apply _ _)] at h2
    cases h2
    exact ⟨rfl, v, t1, h1, rfl⟩
  · rintro ⟨rfl, v, u, h1, rfl⟩
    exact ⟨v, u, h1, by rw [bind_of_ok (jump_apply _ _)]; rfl⟩

/-- A call of the DebugHook records an event exactly when a hook is installed (R330). -/
theorem callDebugHook_apply (a b c : Word) (s : State) :
    callDebugHook a b c s = .ok ((), { s with
      hooks := if s.params.debugHookInstalled = true then s.hooks ++ [.debug a b c] else s.hooks }) := by
  unfold callDebugHook
  show (if s.params.debugHookInstalled then recordHook (.debug a b c) else pure ()) s = _
  split <;> rfl

/-- DBG reports its three values to the hook, if one is installed (R330). -/
theorem dbgHandler_ok {env : Env} {xs ys : List Slot} {t t' : Tick} :
    dbgHandler env xs t = .ok (ys, t') ↔
      ys = xs ∧
        t' = ⟨{ t.st with hooks := if t.st.params.debugHookInstalled = true then
            t.st.hooks ++ [.debug (slotValue xs 0) (slotValue xs 1) (slotValue xs 2)] else t.st.hooks },
          t.ipWritten⟩ := by
  unfold dbgHandler
  rw [bind_of_ok (onState_of_ok (callDebugHook_apply _ _ _ _)), pure_ok, Prod.mk.injEq]

/-- BRK suspends the run loop and records the break (R331). -/
theorem brkHandler_ok {env : Env} {xs ys : List Slot} {t t' : Tick} :
    brkHandler env xs t = .ok (ys, t') ↔
      ys = xs ∧ t' = ⟨{ t.st with runState := .stopped, hooks := t.st.hooks ++ [.brk] }, t.ipWritten⟩ := by
  unfold brkHandler recordHook
  rw [bind_of_ok (onState_of_ok rfl), bind_of_ok (onState_of_ok rfl), pure_ok, Prod.mk.injEq]

/-! ## The store phase -/

theorem storePhase_nil (xs : List Slot) (t : Tick) : storePhase [] xs t = .ok ((), t) := rfl

theorem storePhase_cons {p : Param} {ps : List Param} {x : Slot} {xs : List Slot} {t t' : Tick} :
    storePhase (p :: ps) (x :: xs) t = .ok ((), t') ↔
      ∃ t1, storeParam p x t = .ok ((), t1) ∧ storePhase ps xs t1 = .ok ((), t') := by
  show (storeParam p x >>= fun _ => storePhase ps xs) t = _ ↔ _
  rw [bind_ok]
  exact ⟨fun ⟨⟨⟩, t1, h⟩ => ⟨t1, h⟩, fun ⟨t1, h⟩ => ⟨(), t1, h⟩⟩

theorem storeParam_read (p : Operand) (x : Slot) (t : Tick) : storeParam (.read p) x t = .ok ((), t) := rfl

theorem storeParam_clean (p : Param) (x : Slot) (h : x.dirty = false) (t : Tick) : storeParam p x t = .ok ((), t) := by
  cases p <;> simp [storeParam, h, pure_apply]

theorem storeParam_write_dirty {d : Dest} {x : Slot} (h : x.dirty = true) (t : Tick) :
    storeParam (.write d) x t = storeDest d x.v x.addr t := by
  simp [storeParam, h]

theorem storeParam_readWrite_dirty {d : Dest} {x : Slot} (h : x.dirty = true) (t : Tick) :
    storeParam (.readWrite d) x t = storeDest d x.v x.addr t := by
  simp [storeParam, h]

/-- The store phase of slots of which none is dirty does nothing (R158). -/
theorem storePhase_clean (ps : List Param) (xs : List Slot) (h : ∀ x ∈ xs, x.dirty = false) (t : Tick) :
    storePhase ps xs t = .ok ((), t) := by
  induction ps generalizing xs with
  | nil => rfl
  | cons p ps ih =>
    cases xs with
    | nil => rfl
    | cons x xs =>
      exact storePhase_cons.2 ⟨t, storeParam_clean p x (h x (by simp)) t, ih xs fun y hy => h y (by simp [hy])⟩

/-- The load phase leaves every slot clean (R154). -/
theorem loadPhase_clean {ps : List Param} {xs : List Slot} {t t' : Tick} (h : loadPhase ps t = .ok (xs, t')) :
    ∀ x ∈ xs, x.dirty = false := by
  induction ps generalizing t xs with
  | nil => cases h; simp
  | cons p ps ih =>
    obtain ⟨x, t1, ys, h1, h2, rfl⟩ := loadPhase_cons_ok.1 h
    intro y hy
    rcases List.mem_cons.1 hy with rfl | hy
    · cases p with
      | read p => obtain ⟨w, -, rfl⟩ := loadParam_read_ok.1 h1; rfl
      | write d => cases h1; rfl
      | readWrite d => obtain ⟨w, -, rfl⟩ := loadParam_readWrite_ok.1 h1; rfl
    · exact ih h2 y hy

/-! ## What a store can change -/

/-- What a store changes: what resolving its place changes, and then one register, or what one bus write changes. -/
theorem storeDest_frame {d : Dest} {v : Word} {addr : Option Word} {t t' : Tick}
    (h : storeDest d v addr t = .ok ((), t')) :
    (∃ r, d = .register r ∧ t' = ⟨t.st.writeReg r v, t.ipWritten || decide (r = .rip)⟩) ∨
      (∃ a t1 s, resolveDest d addr t = .ok (.word a, t1) ∧ t.Reads t1 ∧ busWrite a v t1.st = .ok ((), s) ∧
        t' = ⟨s, t.ipWritten⟩) := by
  obtain ⟨x, t1, h1, h2⟩ := storeDest_ok.1 h
  have hr := resolveDest_reads h1
  rcases writeTarget_ok.1 h2 with ⟨r, rfl, rfl⟩ | ⟨a, s, rfl, h3, rfl⟩
  · obtain ⟨rfl, rfl⟩ := resolveDest_register h1
    exact .inl ⟨r, rfl, rfl⟩
  · exact .inr ⟨a, t1, s, h1, hr, h3, by rw [hr.2]⟩

end Sys2Proof.Machine
end

