-- ==== Sys2Proof/Laws/Frame.lean ====
section
/-!
SUPPORT. What the bus and the queue can change of a state in all, and with it what a whole instruction can change.
-/

namespace Sys2Proof.Machine

/-- What bus accesses, the stack and other agents' records can change: RSP, the queue's tail and the schedule, the own
states of devices of the DEVICES parameter, memory, the vector table; nothing else. -/
def State.BusTo (s t : State) : Prop :=
  ∃ sp new n ds m vs, t = { s with
      rsp := sp, queue := s.queue ++ new, arrivals := s.arrivals.after n, devices := ds, mem := m, vectors := vs } ∧
    sameDevices s.devices ds ∧ s.Joined n new

theorem State.BusTo.refl (s : State) : s.BusTo s :=
  ⟨s.rsp, [], 0, s.devices, s.mem, s.vectors, by simp, sameDevices_refl _, .nil s⟩

theorem State.BusTo.trans {s t u : State} (h : s.BusTo t) (k : t.BusTo u) : s.BusTo u := by
  obtain ⟨sp, new, n, ds, m, vs, rfl, hd, hj⟩ := h
  obtain ⟨sp', new', n', ds', m', vs', rfl, hd', hj'⟩ := k
  exact ⟨sp', new ++ new', n + n', ds', m', vs', by simp [Schedule.after_after], sameDevices_trans hd hd',
    hj.append hj' rfl rfl⟩

theorem State.ReadsTo.busTo {s t : State} (h : s.ReadsTo t) : s.BusTo t := by
  obtain ⟨sp, new, n, ds, rfl, hd, hj⟩ := h
  exact ⟨sp, new, n, ds, s.mem, s.vectors, rfl, hd, hj⟩

theorem busWrite_busTo {s t : State} {a v : Word} (h : busWrite a v s = .ok ((), t)) : s.BusTo t := by
  obtain ⟨new, ds, m, vs, rfl, hd, hj⟩ := busWrite_frame h
  exact ⟨s.rsp, new, 1, ds, m, vs, rfl, hd, hj⟩

theorem State.BusTo.sameFixed {s t : State} (h : s.BusTo t) : SameFixed s t := by
  obtain ⟨sp, new, n, ds, m, vs, rfl, hd, -⟩ := h
  exact ⟨rfl, rfl, rfl, rfl, rfl, hd⟩

theorem State.BusTo.sameControl {s t : State} (h : s.BusTo t) : SameControl s t := by
  obtain ⟨sp, new, n, ds, m, vs, rfl, -⟩ := h
  exact ⟨rfl, rfl, rfl, rfl⟩

theorem State.BusTo.onlyArrivals {s t : State} (h : s.BusTo t) : OnlyArrivals s t := by
  obtain ⟨sp, new, n, ds, m, vs, rfl, -, hj⟩ := h
  exact ⟨new, rfl, fun e => ⟨hj.quiet e, by simp [e]⟩⟩

theorem State.BusTo.draws {s t : State} (h : s.BusTo t) : t.draws = s.draws := by
  obtain ⟨sp, new, n, ds, m, vs, rfl, -⟩ := h
  rfl

theorem State.BusTo.readReg {s t : State} (h : s.BusTo t) {r : Reg} (hr : r ≠ .rsp) : t.readReg r = s.readReg r := by
  obtain ⟨sp, new, n, ds, m, vs, rfl, -⟩ := h
  cases r <;> first | rfl | exact absurd rfl hr

theorem SameFixed.trans {s t u : State} (h : SameFixed s t) (k : SameFixed t u) : SameFixed s u :=
  ⟨k.bootAddr.trans h.bootAddr, k.params.trans h.params, k.directory.trans h.directory, k.started.trans h.started,
    k.hostMoves.trans h.hostMoves, sameDevices_trans h.devices k.devices⟩

theorem SameFixed.refl (s : State) : SameFixed s s := ⟨rfl, rfl, rfl, rfl, rfl, sameDevices_refl _⟩

theorem SameControl.trans {s t u : State} (h : SameControl s t) (k : SameControl t u) : SameControl s u :=
  ⟨k.ie.trans h.ie, k.inISR.trans h.inISR, k.runState.trans h.runState, k.hooks.trans h.hooks⟩

theorem OnlyArrivals.trans {s t u : State} (h : OnlyArrivals s t) (k : OnlyArrivals t u) : OnlyArrivals s u := by
  obtain ⟨new, h1, h2⟩ := h
  obtain ⟨new', k1, k2⟩ := k
  refine ⟨new ++ new', by rw [k1, h1, List.append_assoc], fun e => ?_⟩
  obtain ⟨rfl, e'⟩ := h2 e
  obtain ⟨rfl, e''⟩ := k2 e'
  exact ⟨rfl, e''⟩

/-- The number of interrupt controllers depends on the devices' kinds alone. -/
theorem controllerCount_same {s t : State} (h : sameDevices s.devices t.devices) :
    t.controllerCount = s.controllerCount := by
  unfold State.controllerCount
  generalize s.devices = ds at h
  generalize t.devices = es at h
  induction h with
  | nil => rfl
  | cons h _ ih =>
    rw [List.countP_cons, List.countP_cons, ih]
    rcases h.2.2.2.2 with e | ⟨b, m, n, e, e'⟩
    · rw [e]
    · rw [e, e']; rfl

/-! ## BusCopy -/

theorem busReadRange_reads {a : Word} {n : Nat} {s t : State} {vs : List Word}
    (h : busReadRange a n s = .ok (vs, t)) : s.ReadsTo t ∧ t.rsp = s.rsp ∧ vs.length = n := by
  induction n generalizing a s vs with
  | zero => cases h; exact ⟨.refl _, rfl, rfl⟩
  | succ n ih =>
    obtain ⟨v, s1, h1, h⟩ := bind_ok.1 h
    obtain ⟨ws, s2, h2, h⟩ := bind_ok.1 h
    cases h
    obtain ⟨h3, h4, h5⟩ := ih h2
    exact ⟨(busRead_readsTo h1).trans h3, h4.trans (busRead_rsp h1), by simp [h5]⟩

theorem busWrite_rsp {s t : State} {a v : Word} (h : busWrite a v s = .ok ((), t)) : t.rsp = s.rsp := by
  obtain ⟨new, ds, m, vs, rfl, -⟩ := busWrite_frame h
  rfl

/-- What a range of bus writes can do. -/
theorem busWriteRange_frame {a : Word} {vs : List Word} {s t : State} (h : busWriteRange a vs s = .ok ((), t)) :
    s.BusTo t ∧ t.rsp = s.rsp ∧ (s.controllerCount ≤ 1 →
      ∀ w, (∀ k, k < vs.length → w ≠ a + BitVec.ofNat 64 k) → t.peek w = s.peek w) := by
  induction vs generalizing a s with
  | nil => cases h; exact ⟨.refl _, rfl, fun _ _ _ => rfl⟩
  | cons v vs ih =>
    obtain ⟨⟨⟩, s1, h1, h2⟩ := bind_ok.1 h
    obtain ⟨h3, h4, h5⟩ := ih h2
    have hb := busWrite_busTo h1
    refine ⟨hb.trans h3, h4.trans (busWrite_rsp h1), fun hc w hw => ?_⟩
    have hc1 : s1.controllerCount ≤ 1 := by rw [controllerCount_same hb.sameFixed.devices]; exact hc
    rw [h5 hc1 w fun k hk => ?_]
    · refine busWrite_sameWordsBut h1 hc w ?_
      have := hw 0 (by simp)
      simpa using this
    · have := hw (k + 1) (by simpa using hk)
      have e : a + 1 + BitVec.ofNat 64 k = a + BitVec.ofNat 64 (k + 1) := by
        rw [BitVec.add_assoc]
        congr 1
        apply BitVec.eq_of_toNat_eq
        simp [Nat.add_comm]
      rwa [e]

/-- A range crosses when its last address is below its first or in another device window (R60). -/
theorem rangeCrosses_iff {a len : Word} :
    rangeCrosses a len = true ↔ (a + (len - 1)).toNat < a.toNat ∨ devId (a + (len - 1)) ≠ devId a := by
  unfold rangeCrosses
  rw [Bool.or_eq_true, decide_eq_true_iff, decide_eq_true_iff]

/-- What a BusCopy that answers did (R60). -/
theorem busCopy_ok {src dst len : Word} {s t : State} :
    busCopy src dst len s = .ok ((), t) ↔
      (len = 0 ∧ t = s) ∨
        (len ≠ 0 ∧ rangeCrosses src len = false ∧ rangeCrosses dst len = false ∧
          ∃ vs s1, busReadRange src len.toNat s = .ok (vs, s1) ∧ busWriteRange dst vs s1 = .ok ((), t)) := by
  unfold busCopy
  by_cases h0 : len = 0
  · rw [if_pos h0, pure_ok]; simp [h0]
  · rw [if_neg h0]
    cases h1 : rangeCrosses src len with
    | true =>
      rw [if_pos rfl]
      constructor
      · intro h; cases h
      · rintro (⟨h, -⟩ | ⟨-, h, -⟩)
        · exact absurd h h0
        · cases h
    | false =>
      cases h2 : rangeCrosses dst len with
      | true =>
        rw [if_neg (by simp), if_pos rfl]
        constructor
        · intro h; cases h
        · rintro (⟨h, -⟩ | ⟨-, -, h, -⟩)
          · exact absurd h h0
          · cases h
      | false =>
        rw [if_neg (by simp), if_neg (by simp), bind_ok]
        constructor
        · exact fun h => .inr ⟨h0, rfl, rfl, h⟩
        · rintro (⟨h, -⟩ | ⟨-, -, -, h⟩)
          · exact absurd h h0
          · exact h

/-- What a BusCopy can change. -/
theorem busCopy_frame {src dst len : Word} {s t : State} (h : busCopy src dst len s = .ok ((), t)) :
    s.BusTo t ∧ t.rsp = s.rsp ∧ (s.controllerCount ≤ 1 →
      ∀ w, (∀ k, k < len.toNat → w ≠ dst + BitVec.ofNat 64 k) → t.peek w = s.peek w) := by
  rcases busCopy_ok.1 h with ⟨-, rfl⟩ | ⟨-, -, -, vs, s1, h1, h2⟩
  · exact ⟨.refl _, rfl, fun _ _ _ => rfl⟩
  · obtain ⟨h3, h4, h5⟩ := busReadRange_reads h1
    obtain ⟨h6, h7, h8⟩ := busWriteRange_frame h2
    refine ⟨h3.busTo.trans h6, h7.trans h4, fun hc w hw => ?_⟩
    have hc1 : s1.controllerCount ≤ 1 := by rw [controllerCount_same h3.sameFixed.devices]; exact hc
    rw [h8 hc1 w (by rwa [h5]), h3.peek]

/-! ## What an instruction with one destination does -/

/-- The load phase of a written operand and others is the load phase of the others. -/
theorem loadPhase_write_ok {d : Dest} {ps : List Param} {xs : List Slot} {t t' : Tick} :
    loadPhase (.write d :: ps) t = .ok (xs, t') ↔
      ∃ ys, loadPhase ps t = .ok (ys, t') ∧ xs = ⟨0, none, false⟩ :: ys := by
  rw [loadPhase_cons_ok]
  constructor
  · rintro ⟨x, t1, ys, h1, h2, rfl⟩
    cases h1
    exact ⟨ys, h2, rfl⟩
  · rintro ⟨ys, h, rfl⟩
    exact ⟨_, t, ys, rfl, h, rfl⟩

/-- A store phase of read operands does nothing. -/
theorem storePhase_reads {ps : List Param} (h : ∀ p ∈ ps, ∃ q, p = .read q) (xs : List Slot) (t : Tick) :
    storePhase ps xs t = .ok ((), t) := by
  induction ps generalizing xs with
  | nil => rfl
  | cons p ps ih =>
    cases xs with
    | nil => rfl
    | cons x xs =>
      obtain ⟨q, rfl⟩ := h p (by simp)
      exact storePhase_cons.2 ⟨t, rfl, ih (fun r hr => h r (by simp [hr])) xs⟩

/-- What the handler of an instruction with one destination does: it writes slot 0 and perhaps draws a NaN, or, for a zero
divisor, queues one record and writes no slot. -/
def WritesSlot0 (i : Instr) (h : Handler) : Prop :=
  ∀ env xs ys t t', env.opcode = i.shape.opcode.setWidth 64 → h env xs t = .ok (ys, t') →
    (∃ v n, ys = setSlot xs 0 v ∧ (n = 0 ∨ (n = 1 ∧ i.shape.opcode ∈ [0x11, 0x13, 0x15, 0x17, 0x19])) ∧
      t' = ⟨{ t.st with draws := t.st.draws + n }, t.ipWritten⟩) ∨
    (i.shape.opcode ∈ [0x16, 0x17, 0x18, 0x19] ∧ ys = xs ∧
      ∃ s, enqueue 1 (i.shape.opcode.setWidth 64) env.a t.st = .ok ((), s) ∧ t' = { t with st := s })

theorem binaryHandler_writes (i : Instr) (f : Word → Word → Word) : WritesSlot0 i (binaryHandler f) := by
  intro env xs ys t t' _ h
  obtain ⟨rfl, rfl⟩ := binaryHandler_ok.1 h
  exact .inl ⟨_, 0, rfl, .inl rfl, rfl⟩

theorem unaryHandler_writes (i : Instr) (f : Word → Word) : WritesSlot0 i (unaryHandler f) := by
  intro env xs ys t t' _ h
  obtain ⟨rfl, rfl⟩ := unaryHandler_ok.1 h
  exact .inl ⟨_, 0, rfl, .inl rfl, rfl⟩

theorem shiftHandler_writes (i : Instr) (f : ShiftCountMode → Word → Word → Word) : WritesSlot0 i (shiftHandler f) := by
  intro env xs ys t t' _ h
  obtain ⟨rfl, rfl⟩ := shiftHandler_ok.1 h
  exact .inl ⟨_, 0, rfl, .inl rfl, rfl⟩

theorem floatHandler_writes (i : Instr) (f : Word → Word → Option Word)
    (hi : i.shape.opcode ∈ [0x11, 0x13, 0x15, 0x17, 0x19]) : WritesSlot0 i (floatHandler f) := by
  intro env xs ys t t' _ h
  obtain ⟨w, h2, rfl⟩ := floatHandler_ok.1 h
  rcases floatResult_ok.1 h2 with ⟨-, rfl⟩ | ⟨-, -, rfl⟩
  · exact .inl ⟨_, 0, rfl, .inl rfl, rfl⟩
  · exact .inl ⟨_, 1, rfl, .inr ⟨rfl, hi⟩, rfl⟩

theorem divideHandler_writes (i : Instr) (z : Word → Bool) (f : Word → Word → TickM Word)
    (hi : i.shape.opcode ∈ [0x16, 0x17, 0x18, 0x19])
    (hf : ∀ x y t w t', f x y t = .ok (w, t') → ∃ n, (n = 0 ∨ (n = 1 ∧ i.shape.opcode ∈ [0x11, 0x13, 0x15, 0x17, 0x19])) ∧
      t' = ⟨{ t.st with draws := t.st.draws + n }, t.ipWritten⟩) : WritesSlot0 i (divideHandler z f) := by
  intro env xs ys t t' he h
  rcases divideHandler_ok.1 h with ⟨-, rfl, s, h2, rfl⟩ | ⟨-, w, h2, rfl⟩
  · rw [he] at h2
    exact .inr ⟨hi, rfl, s, h2, rfl⟩
  · obtain ⟨n, hn, rfl⟩ := hf _ _ _ _ _ h2
    exact .inl ⟨w, n, rfl, hn, rfl⟩

/-- Every instruction whose first operand is written reads its other operands, and its handler writes slot 0 at most. -/
theorem oneDestination {i : Instr} {d : Dest} {srcs : List Param} (hp : i.shape.params = .write d :: srcs) :
    (∀ p ∈ srcs, ∃ q, p = .read q) ∧ WritesSlot0 i (handlerOf i) := by
  have hpure (v : Word → Word → Word) : ∀ x y (t : Tick) w t', (pure (v x y) : TickM Word) t = .ok (w, t') →
      ∃ n, (n = 0 ∨ (n = 1 ∧ i.shape.opcode ∈ [0x11, 0x13, 0x15, 0x17, 0x19])) ∧
        t' = ⟨{ t.st with draws := t.st.draws + n }, t.ipWritten⟩ := by
    intro x y t w t' h
    cases h
    exact ⟨0, .inl rfl, rfl⟩
  have hfloat (v : Word → Word → Option Word) (hi : i.shape.opcode ∈ [0x11, 0x13, 0x15, 0x17, 0x19]) :
      ∀ x y (t : Tick) w t', floatResult (v x y) t = .ok (w, t') →
      ∃ n, (n = 0 ∨ (n = 1 ∧ i.shape.opcode ∈ [0x11, 0x13, 0x15, 0x17, 0x19])) ∧
        t' = ⟨{ t.st with draws := t.st.draws + n }, t.ipWritten⟩ := by
    intro x y t w t' h
    rcases floatResult_ok.1 h with ⟨-, rfl⟩ | ⟨-, -, rfl⟩
    · exact ⟨0, .inl rfl, rfl⟩
    · exact ⟨1, .inr ⟨rfl, hi⟩, rfl⟩
  cases i <;> first
    | (cases hp; done)
    | (simp only [Instr.shape] at hp
       cases hp
       refine ⟨by simp, ?_⟩
       dsimp only [handlerOf]
       first
         | exact binaryHandler_writes _ _
         | exact unaryHandler_writes _ _
         | exact shiftHandler_writes _ _
         | exact floatHandler_writes _ _ (by simp [Instr.shape])
         | exact divideHandler_writes _ _ _ (by simp [Instr.shape]) (hpure _)
         | exact divideHandler_writes _ _ _ (by simp [Instr.shape]) (hfloat _ (by simp [Instr.shape])))

/-- What an instruction with one destination that completes did: its gate was off; or its sources were read, and then its
destination was stored to, or one DivideByZero record was queued. -/
theorem oneDestination_next {i : Instr} {d : Dest} {srcs : List Param} {s t : State}
    (hp : i.shape.params = .write d :: srcs) (h : exec i s = .next t) :
    (∃ t1, evalGate i.shape.gate ⟨s, false⟩ = .ok (false, t1) ∧ t = t1.advance (nextIP s.rip i.length)) ∨
    ∃ t1 t2 xs, evalGate i.shape.gate ⟨s, false⟩ = .ok (true, t1) ∧ loadPhase i.shape.params t1 = .ok (xs, t2) ∧
      ((∃ v n t4, (n = 0 ∨ (n = 1 ∧ i.shape.opcode ∈ [0x11, 0x13, 0x15, 0x17, 0x19])) ∧
          storeDest d v none ⟨{ t2.st with draws := t2.st.draws + n }, t2.ipWritten⟩ = .ok ((), t4) ∧
          t = t4.advance (nextIP s.rip i.length)) ∨
        (i.shape.opcode ∈ [0x16, 0x17, 0x18, 0x19] ∧
          ∃ s3, enqueue 1 (i.shape.opcode.setWidth 64) s.rip t2.st = .ok ((), s3) ∧
            t = Tick.advance ⟨s3, t2.ipWritten⟩ (nextIP s.rip i.length))) := by
  obtain ⟨hr, hw⟩ := oneDestination hp
  obtain ⟨u, h0, rfl⟩ := exec_next.1 h
  rcases tickBody_ok.1 h0 with h1 | ⟨t1, t2, t3, xs, ys, h1, h2, h3, h4⟩
  · exact .inl ⟨u, h1, rfl⟩
  · refine .inr ⟨t1, t2, xs, h1, h2, ?_⟩
    rw [hp] at h2 h4
    obtain ⟨zs, h8, rfl⟩ := loadPhase_write_ok.1 h2
    rcases hw _ _ _ _ _ rfl h3 with ⟨v, n, rfl, hn, rfl⟩ | ⟨ho, rfl, s3, h9, rfl⟩
    · obtain ⟨t4, h5, h6⟩ := storePhase_cons.1 (show storePhase _ (⟨v, none, true⟩ :: zs) _ = _ from h4)
      rw [storePhase_reads hr] at h6
      cases h6
      exact .inl ⟨v, n, u, hn, (storeParam_write_dirty (d := d) (x := ⟨v, none, true⟩) rfl _).symm.trans h5, rfl⟩
    · refine .inr ⟨ho, s3, h9, ?_⟩
      obtain ⟨t4, h5, h6⟩ := storePhase_cons.1 h4
      rw [storePhase_reads hr] at h6
      cases h6; cases h5
      rfl

/-! ## RSP, when no operand pops -/

theorem loadPhase_rsp {ps : List Param} {xs : List Slot} {t t' : Tick} (h : loadPhase ps t = .ok (xs, t'))
    (hp : (ps.any fun p => popsKind (paramKind p)) = false) : t'.st.rsp = t.st.rsp := by
  induction ps generalizing t xs with
  | nil => cases h; rfl
  | cons p ps ih =>
    obtain ⟨x, t1, ys, h1, h2, rfl⟩ := loadPhase_cons_ok.1 h
    simp only [List.any_cons, Bool.or_eq_false_iff] at hp
    rw [ih h2 hp.2]
    cases p with
    | read p => obtain ⟨w, h3, -⟩ := loadParam_read_ok.1 h1; exact load_rsp h3 hp.1
    | write d => cases h1; rfl
    | readWrite d => obtain ⟨w, h3, -⟩ := loadParam_readWrite_ok.1 h1; exact load_rsp h3 hp.1

theorem evalGate_rsp {g : Option Gate} {b : Bool} {t t' : Tick}
    (hp : (match g with
      | some g => popsKind g.operand.kind
      | none => false) = false) (h : evalGate g t = .ok (b, t')) : t'.st.rsp = t.st.rsp := by
  cases g with
  | none => cases h; rfl
  | some g =>
    obtain ⟨w, h1, -⟩ := evalGate_some_ok.1 h
    exact load_rsp h1 hp

theorem usesStack_false {i : Instr} (h : usesStack i = false) :
    (match i.shape.gate with
      | some g => popsKind g.operand.kind
      | none => false) = false ∧ (i.shape.params.any fun p => popsKind (paramKind p)) = false := by
  unfold usesStack at h
  exact Bool.or_eq_false_iff.1 h

/-! ## The IP advance -/

theorem advance_fixed {s : State} {t : Tick} (h : SameFixed s t.st) (n : Word) : SameFixed s (t.advance n) := by
  rw [Tick.advance_eq]
  exact ⟨h.1, h.2, h.3, h.4, h.5, h.6⟩

theorem advance_control {s : State} {t : Tick} (h : SameControl s t.st) (n : Word) : SameControl s (t.advance n) := by
  rw [Tick.advance_eq]
  exact ⟨h.1, h.2, h.3, h.4⟩

theorem advance_readReg (t : Tick) (n : Word) {r : Reg} (hr : r ≠ .rip) : (t.advance n).readReg r = t.st.readReg r := by
  rw [Tick.advance_eq]
  cases r <;> first | rfl | exact absurd rfl hr

theorem advance_peek (t : Tick) (n a : Word) : (t.advance n).peek a = t.st.peek a := by
  rw [Tick.advance_eq]
  rfl

@[simp] theorem advance_queue (t : Tick) (n : Word) : (t.advance n).queue = t.st.queue := by rw [Tick.advance_eq]
@[simp] theorem advance_arrivals (t : Tick) (n : Word) : (t.advance n).arrivals = t.st.arrivals := by rw [Tick.advance_eq]
@[simp] theorem advance_draws (t : Tick) (n : Word) : (t.advance n).draws = t.st.draws := by rw [Tick.advance_eq]
@[simp] theorem advance_rsp (t : Tick) (n : Word) : (t.advance n).rsp = t.st.rsp := by rw [Tick.advance_eq]

theorem advance_onlyArrivals {s : State} {t : Tick} (h : OnlyArrivals s t.st) (n : Word) : OnlyArrivals s (t.advance n) := by
  obtain ⟨new, e, k⟩ := h
  exact ⟨new, by simpa using e, fun q => by simpa using k q⟩

/-! ## What one store and one enqueue change -/

/-- A register write changes no other register (R23). -/
theorem readReg_writeReg_ne (s : State) {r r' : Reg} (v : Word) (h : r' ≠ r) : (s.writeReg r v).readReg r' = s.readReg r' := by
  cases r <;> cases r' <;> first | rfl | exact absurd rfl h | skip
  rename_i n m
  show (s.gpr.set n v)[m] = s.gpr[m]
  apply Vector.getElem_set_ne
  exact fun e => h (congrArg Reg.gp (Fin.ext e.symm))

/-- What a store leaves alone: every register but its destination and RSP, RSP where nothing pops or pushes, and every
word but the one its destination resolves to. -/
theorem storeDest_changes {d : Dest} {v : Word} {o : Option Word} {t u : Tick} (h : storeDest d v o t = .ok ((), u)) :
    SameFixed t.st u.st ∧ SameControl t.st u.st ∧ OnlyArrivals t.st u.st ∧ u.st.draws = t.st.draws ∧
    (∀ r, r ≠ .rip → r ≠ .rsp → d ≠ .register r → u.st.readReg r = t.st.readReg r) ∧
    (popsKind d.operand.kind = false → d ≠ .register .rsp → u.st.rsp = t.st.rsp) ∧
    (∀ r, d = .register r → SameWords t.st u.st) ∧
    (t.st.controllerCount ≤ 1 → ∀ x t1, resolveDest d o t = .ok (x, t1) →
      ∀ w, x ≠ .word w → u.st.peek w = t.st.peek w) := by
  rcases storeDest_frame h with ⟨r, rfl, rfl⟩ | ⟨a, t1, s, h1, h2, h3, rfl⟩
  · refine ⟨⟨by simp, by simp, by simp, by simp, by simp, by simp [sameDevices_refl]⟩,
      ⟨by simp, by simp, by simp, by simp⟩, ⟨[], by simp, by simp⟩, by simp, fun r' _ _ h => ?_, fun _ h => ?_,
      fun _ _ _ => ?_, fun _ _ _ _ _ _ => ?_⟩
    · exact readReg_writeReg_ne _ _ fun e => h (by rw [e])
    · exact readReg_writeReg_ne (r' := .rsp) _ _ fun e => h (by rw [e])
    · apply State.peek_congr <;> simp [sameDevices_refl]
    · apply State.peek_congr <;> simp [sameDevices_refl]
  · have hb := h2.1.busTo.trans (busWrite_busTo h3)
    refine ⟨hb.sameFixed, hb.sameControl, hb.onlyArrivals, hb.draws, fun r _ h _ => hb.readReg h, fun hp _ => ?_,
      fun r e => ?_, fun hc x t2 hx w hw => ?_⟩
    · exact (busWrite_rsp h3).trans (resolveDest_rsp h1 hp)
    · subst e; cases h1
    · rw [h1] at hx
      cases hx
      have hc1 : t1.st.controllerCount ≤ 1 := by rw [controllerCount_same h2.1.sameFixed.devices]; exact hc
      show s.peek w = _
      rw [busWrite_sameWordsBut h3 hc1 w (fun e => hw (by rw [e])), h2.1.peek]

/-- What an enqueue leaves alone: everything but the queue and the schedule. -/
theorem enqueue_changes {s t : State} {ty a b : Word} (h : enqueue ty a b s = .ok ((), t)) :
    SameFixed s t ∧ SameControl s t ∧ SameWords s t ∧ t.draws = s.draws ∧ (∀ r, t.readReg r = s.readReg r) ∧
      (s.arrivals = .quiet → t = { s with queue := s.queue ++ [⟨ty, a, b, s.vectors.readWord ty.toNat⟩] }) ∧
      ∃ new, t.queue = s.queue ++ new := by
  obtain ⟨s1, h1, h2, rfl⟩ := enqueue_ok.1 h
  obtain ⟨new, rfl, -⟩ := poll_ok h1
  refine ⟨⟨rfl, rfl, rfl, rfl, rfl, sameDevices_refl _⟩, ⟨rfl, rfl, rfl, rfl⟩, fun a => rfl, rfl,
    fun r => by cases r <;> rfl, fun hq => ?_, new ++ _, List.append_assoc _ _ _⟩
  rw [poll_quiet hq] at h1
  injection h1 with h1
  injection h1 with _ h1
  obtain rfl : new = [] := by
    have := congrArg State.queue h1
    simpa using this
  simp [State.vector, hq]

/-! ## What the other instructions do -/

/-- What a CAS that completes did (R207). -/
theorem cas_next {g : Option Gate} {a b : Dest} {c : Operand} {s t : State} (h : exec (.cas g a b c) s = .next t) :
    (∃ t1, evalGate g ⟨s, false⟩ = .ok (false, t1) ∧ t = t1.advance (nextIP s.rip (Instr.cas g a b c).length)) ∨
    ∃ t1 t2 t3 t4 t5 x y z oa ob oc, evalGate g ⟨s, false⟩ = .ok (true, t1) ∧ load a.operand t1 = .ok ((x, oa), t2) ∧
      load b.operand t2 = .ok ((y, ob), t3) ∧ load c t3 = .ok ((z, oc), t4) ∧
      storeDest (if x = y then a else b) (if x = y then z else x) (if x = y then oa else ob) t4 = .ok ((), t5) ∧
      t = t5.advance (nextIP s.rip (Instr.cas g a b c).length) := by
  obtain ⟨u, h0, rfl⟩ := exec_next.1 h
  rcases tickBody_ok.1 h0 with h1 | ⟨t1, t2, t3, xs, ys, h1, h2, h3, h4⟩
  · exact .inl ⟨u, h1, rfl⟩
  · obtain ⟨⟨x, oa⟩, ⟨y, ob⟩, ⟨z, oc⟩, v1, v2, l1, l2, l3, rfl⟩ :=
      loadPhase_wwr_ok.1 (show loadPhase [.readWrite a, .readWrite b, .read c] t1 = _ from h2)
    have h3' := casHandler_ok.1 (show casHandler (envOf (.cas g a b c) s.rip) _ t2 = _ from h3)
    obtain ⟨rfl, rfl⟩ := h3'
    refine .inr ⟨t1, v1, v2, t3, u, x, y, z, oa, ob, oc, h1, l1, l2, l3, ?_, rfl⟩
    have h4 : storePhase [.readWrite a, .readWrite b, .read c] (if x = y then _ else _) t3 = _ := h4
    by_cases e : x = y
    · rw [if_pos e] at h4
      obtain ⟨w1, k1, h5⟩ :=
        storePhase_cons.1 (show storePhase _ [⟨z, oa, true⟩, ⟨y, ob, false⟩, ⟨z, oc, false⟩] _ = _ from h4)
      obtain ⟨w2, k2, h6⟩ := storePhase_cons.1 h5
      obtain ⟨w3, k3, h7⟩ := storePhase_cons.1 h6
      cases k2; cases k3; cases h7
      simp only [if_pos e]
      exact k1
    · rw [if_neg e] at h4
      obtain ⟨w1, k1, h5⟩ :=
        storePhase_cons.1 (show storePhase _ [⟨x, oa, false⟩, ⟨x, ob, true⟩, ⟨z, oc, false⟩] _ = _ from h4)
      obtain ⟨w2, k2, h6⟩ := storePhase_cons.1 h5
      obtain ⟨w3, k3, h7⟩ := storePhase_cons.1 h6
      cases k1; cases k3; cases h7
      simp only [if_neg e]
      exact k2

/-- What an XCHG that completes did (R206). -/
theorem xchg_next {g : Option Gate} {a b : Dest} {s t : State} (h : exec (.xchg g a b) s = .next t) :
    (∃ t1, evalGate g ⟨s, false⟩ = .ok (false, t1) ∧ t = t1.advance (nextIP s.rip (Instr.xchg g a b).length)) ∨
    ∃ t1 t2 t3 t4 t5 x y oa ob, evalGate g ⟨s, false⟩ = .ok (true, t1) ∧ load a.operand t1 = .ok ((x, oa), t2) ∧
      load b.operand t2 = .ok ((y, ob), t3) ∧ storeDest a y oa t3 = .ok ((), t4) ∧
      storeDest b x ob t4 = .ok ((), t5) ∧ t = t5.advance (nextIP s.rip (Instr.xchg g a b).length) := by
  obtain ⟨u, h0, rfl⟩ := exec_next.1 h
  rcases tickBody_ok.1 h0 with h1 | ⟨t1, t2, t3, xs, ys, h1, h2, h3, h4⟩
  · exact .inl ⟨u, h1, rfl⟩
  · obtain ⟨⟨x, oa⟩, ⟨y, ob⟩, v1, l1, l2, rfl⟩ :=
      loadPhase_ww_ok.1 (show loadPhase [.readWrite a, .readWrite b] t1 = _ from h2)
    have h3' := xchgHandler_ok.1 (show xchgHandler (envOf (.xchg g a b) s.rip) _ t2 = _ from h3)
    obtain ⟨rfl, rfl⟩ := h3'
    obtain ⟨w1, k1, h5⟩ :=
      storePhase_cons.1 (show storePhase [.readWrite a, .readWrite b] [⟨y, oa, true⟩, ⟨x, ob, true⟩] _ = _ from h4)
    obtain ⟨w2, k2, h6⟩ := storePhase_cons.1 h5
    cases h6
    exact .inr ⟨t1, v1, t3, w1, u, x, y, oa, ob, h1, l1, l2, k1, k2, rfl⟩

/-- What an instruction that only reads operands did, when it completes: its gate was off, or its operands were read and
its handler run. -/
theorem noDestination_next {i : Instr} {s t : State} (hp : ∀ p ∈ i.shape.params, ∃ q, p = .read q)
    (h : exec i s = .next t) :
    (∃ t1, evalGate i.shape.gate ⟨s, false⟩ = .ok (false, t1) ∧ t = t1.advance (nextIP s.rip i.length)) ∨
    ∃ t1 t2 t3 xs ys, evalGate i.shape.gate ⟨s, false⟩ = .ok (true, t1) ∧ loadPhase i.shape.params t1 = .ok (xs, t2) ∧
      handlerOf i (envOf i s.rip) xs t2 = .ok (ys, t3) ∧ t = t3.advance (nextIP s.rip i.length) := by
  obtain ⟨u, h0, rfl⟩ := exec_next.1 h
  rcases tickBody_ok.1 h0 with h1 | ⟨t1, t2, t3, xs, ys, h1, h2, h3, h4⟩
  · exact .inl ⟨u, h1, rfl⟩
  · rw [storePhase_reads hp] at h4
    cases h4
    exact .inr ⟨t1, t2, u, xs, ys, h1, h2, h3, rfl⟩

/-! ## The Tick -/

theorem outcomeOfUnit_next {r : Except Fault (Unit × State)} {t : State} :
    outcomeOfUnit r = .next t ↔ r = .ok ((), t) := by
  unfold outcomeOfUnit
  cases r with
  | error f => simp
  | ok p => obtain ⟨⟨⟩, s⟩ := p; simp

theorem withDelivery_next {o : Host.Outcome State Fault Refusal} {t : State} :
    withDelivery o = .next t ↔ ∃ s, o = .next s ∧ deliver s = .ok ((), t) := by
  cases o with
  | next s =>
    show outcomeOfUnit (deliver s) = _ ↔ _
    rw [outcomeOfUnit_next]
    simp
  | fault f => simp [withDelivery]
  | refused f => simp [withDelivery]

/-- What a Tick that completes did (R150): it fetched, ran the instruction or reported a malformed one, and delivered. -/
theorem tick_next {s t : State} :
    tick s = .next t ↔ ∃ r s1 s2, fetchDecode s = .ok (r, s1) ∧
      ((∃ i, elaborate r = .ok i ∧ exec i s1 = .next s2) ∨
        (∃ e, elaborate r = .error e ∧ invalidTick r s1 = .ok ((), s2))) ∧ deliver s2 = .ok ((), t) := by
  unfold tick
  cases hf : fetchDecode s with
  | error f => simp
  | ok p =>
    obtain ⟨r, s1⟩ := p
    simp only [withDelivery_next, execute, Except.ok.injEq, Prod.mk.injEq]
    cases he : elaborate r with
    | ok i =>
      constructor
      · rintro ⟨s2, h1, h2⟩; exact ⟨r, s1, s2, ⟨rfl, rfl⟩, .inl ⟨i, he, h1⟩, h2⟩
      · rintro ⟨_, _, s2, ⟨rfl, rfl⟩, ⟨j, h1, h2⟩ | ⟨e, h1, -⟩, h3⟩
        · rw [he] at h1; cases h1; exact ⟨s2, h2, h3⟩
        · rw [he] at h1; cases h1
    | error e =>
      constructor
      · rintro ⟨s2, h1, h2⟩; exact ⟨r, s1, s2, ⟨rfl, rfl⟩, .inr ⟨e, he, outcomeOfUnit_next.1 h1⟩, h2⟩
      · rintro ⟨_, _, s2, ⟨rfl, rfl⟩, ⟨j, h1, -⟩ | ⟨e', h1, h2⟩, h3⟩
        · rw [he] at h1; cases h1
        · exact ⟨s2, outcomeOfUnit_next.2 h2, h3⟩

/-! ## Who moves -/

/-- With no host move pending the machine moves by itself (R435). -/
theorem cycle_self {s : State} (h : s.hostMoves = []) : cycle s = selfStep s := by
  unfold cycle
  rw [h]

/-- A Running machine that moves by itself ticks (R435). -/
theorem selfStep_running {s : State} (h : s.runState = .running) : selfStep s = tick s := by
  unfold selfStep
  rw [h]

/-- In a Stopped machine that moves by itself only other agents act (R430, R478). -/
theorem selfStep_stopped {s : State} (h : s.runState = .stopped) : selfStep s = outcomeOfUnit (poll s) := by
  unfold selfStep
  rw [h]
  rfl

/-- A host move other than Step and `wait`, with no other agent about to act, has its effect (R435, R436). -/
theorem hostStep_quiet {m : HostMove} {s : State} (hm : m.allowed s = true) (hs : m ≠ .stepOnce) (hq : s.arrivals = .quiet) :
    hostStep m s = s.hostEffect m := by
  unfold hostStep
  rw [if_pos hm, poll_quiet hq]
  cases m <;> first | rfl | exact absurd rfl hs

/-! ## What every instruction keeps -/

/-- Two states that agree on all but registers, control bits, hook events and the count of draws. -/
structure SameData (s t : State) : Prop where
  bootAddr : t.bootAddr = s.bootAddr
  vectors : t.vectors = s.vectors
  queue : t.queue = s.queue
  devices : t.devices = s.devices
  directory : t.directory = s.directory
  mem : t.mem = s.mem
  params : t.params = s.params
  started : t.started = s.started
  arrivals : t.arrivals = s.arrivals
  hostMoves : t.hostMoves = s.hostMoves

theorem SameData.writeReg (s : State) (r : Reg) (v : Word) : SameData s (s.writeReg r v) := by
  constructor <;> simp

/-- A relation that reading, a bus write, an enqueue, and any change of registers and control bits keep. -/
structure Closed (R : State → State → Prop) : Prop where
  trans : ∀ s t u, R s t → R t u → R s u
  reads : ∀ s t, s.ReadsTo t → R s t
  write : ∀ s t a v, busWrite a v s = .ok ((), t) → R s t
  enqueue : ∀ s t ty a b, enqueue ty a b s = .ok ((), t) → R s t
  data : ∀ s t, SameData s t → R s t

section
variable {R : State → State → Prop} (hR : Closed R)
include hR

theorem storeDest_closed {d : Dest} {v : Word} {o : Option Word} {t u : Tick} (h : storeDest d v o t = .ok ((), u)) :
    R t.st u.st := by
  rcases storeDest_frame h with ⟨r, -, rfl⟩ | ⟨a, t1, s, -, h2, h3, rfl⟩
  · exact hR.data _ _ (.writeReg _ _ _)
  · exact hR.trans _ _ _ (hR.reads _ _ h2.1) (hR.write _ _ _ _ h3)

theorem storePhase_closed {ps : List Param} {xs : List Slot} {t u : Tick} (h : storePhase ps xs t = .ok ((), u)) :
    R t.st u.st := by
  induction ps generalizing xs t with
  | nil => cases h; exact hR.reads _ _ (.refl _)
  | cons p ps ih =>
    cases xs with
    | nil => cases h; exact hR.reads _ _ (.refl _)
    | cons x xs =>
      obtain ⟨t1, h1, h2⟩ := storePhase_cons.1 h
      refine hR.trans _ _ _ ?_ (ih h2)
      cases hd : x.dirty with
      | false =>
        rw [storeParam_clean p x hd] at h1
        cases h1
        exact hR.reads _ _ (.refl _)
      | true =>
        cases p with
        | read p => cases h1; exact hR.reads _ _ (.refl _)
        | write d => rw [storeParam_write_dirty hd] at h1; exact storeDest_closed hR h1
        | readWrite d => rw [storeParam_readWrite_dirty hd] at h1; exact storeDest_closed hR h1

theorem busWriteRange_closed {a : Word} {vs : List Word} {s t : State} (h : busWriteRange a vs s = .ok ((), t)) : R s t := by
  induction vs generalizing a s with
  | nil => cases h; exact hR.reads _ _ (.refl _)
  | cons v vs ih =>
    obtain ⟨⟨⟩, s1, h1, h2⟩ := bind_ok.1 h
    exact hR.trans _ _ _ (hR.write _ _ _ _ h1) (ih h2)

theorem busCopy_closed {src dst len : Word} {s t : State} (h : busCopy src dst len s = .ok ((), t)) : R s t := by
  rcases busCopy_ok.1 h with ⟨-, rfl⟩ | ⟨-, -, -, vs, s1, h1, h2⟩
  · exact hR.reads _ _ (.refl _)
  · exact hR.trans _ _ _ (hR.reads _ _ (busReadRange_reads h1).1) (busWriteRange_closed hR h2)

/-- Every handler keeps such a relation. -/
theorem handler_closed {i : Instr} {env : Env} {xs ys : List Slot} {t u : Tick} (he : env.opcode = i.shape.opcode.setWidth 64)
    (h : handlerOf i env xs t = .ok (ys, u)) : R t.st u.st := by
  have hw : WritesSlot0 i (handlerOf i) → R t.st u.st := by
    intro hw
    rcases hw env xs ys t u he h with ⟨v, n, -, -, rfl⟩ | ⟨-, -, s, h5, rfl⟩
    · exact hR.data _ _ ⟨rfl, rfl, rfl, rfl, rfl, rfl, rfl, rfl, rfl, rfl⟩
    · exact hR.enqueue _ _ _ _ _ h5
  cases i with
  | hlt g =>
    obtain ⟨-, rfl⟩ := (hltHandler_ok (env := env)).1 h
    exact hR.data _ _ ⟨rfl, rfl, rfl, rfl, rfl, rfl, rfl, rfl, rfl, rfl⟩
  | nop g => cases h; exact hR.reads _ _ (.refl _)
  | int g a b c =>
    obtain ⟨-, s, rfl, ⟨-, h5⟩ | ⟨-, h5⟩⟩ := (intHandler_ok (env := env)).1 h
    · exact hR.enqueue _ _ _ _ _ h5
    · exact hR.enqueue _ _ _ _ _ h5
  | eint g =>
    obtain ⟨-, ⟨-, rfl⟩ | ⟨-, s, h5, rfl⟩⟩ := (eintHandler_ok (env := env)).1 h
    · exact hR.data _ _ ⟨rfl, rfl, rfl, rfl, rfl, rfl, rfl, rfl, rfl, rfl⟩
    · exact hR.enqueue _ _ _ _ _ h5
  | inte g =>
    obtain ⟨-, rfl⟩ := (enableHandler_ok (env := env)).1 h
    exact hR.data _ _ ⟨rfl, rfl, rfl, rfl, rfl, rfl, rfl, rfl, rfl, rfl⟩
  | intd g =>
    obtain ⟨-, rfl⟩ := (enableHandler_ok (env := env)).1 h
    exact hR.data _ _ ⟨rfl, rfl, rfl, rfl, rfl, rfl, rfl, rfl, rfl, rfl⟩
  | xchg g a b =>
    obtain ⟨-, rfl⟩ := (xchgHandler_ok (env := env)).1 h
    exact hR.reads _ _ (.refl _)
  | cas g a b c =>
    obtain ⟨rfl, -⟩ := (casHandler_ok (env := env)).1 h
    exact hR.reads _ _ (.refl _)
  | cpy g a b c =>
    obtain ⟨-, s, h5, rfl⟩ := (cpyHandler_ok (env := env)).1 h
    exact busCopy_closed hR h5
  | call g a =>
    obtain ⟨-, v, h5, rfl⟩ := (callHandler_ok (env := env)).1 h
    obtain ⟨s, h6, rfl⟩ := push_ok.1 h5
    exact hR.trans _ _ _ (hR.reads _ _ (.setRsp t.st _)) (hR.trans _ _ _ (hR.write _ _ _ _ h6)
      (hR.data _ _ ⟨rfl, rfl, rfl, rfl, rfl, rfl, rfl, rfl, rfl, rfl⟩))
  | ret g =>
    obtain ⟨-, v, w, h5, rfl⟩ := (retHandler_ok (env := env)).1 h
    exact hR.trans _ _ _ (hR.reads _ _ (pop_reads h5).1) (hR.data _ _ ⟨rfl, rfl, rfl, rfl, rfl, rfl, rfl, rfl, rfl, rfl⟩)
  | dbg g a b c =>
    obtain ⟨-, rfl⟩ := (dbgHandler_ok (env := env)).1 h
    exact hR.data _ _ ⟨rfl, rfl, rfl, rfl, rfl, rfl, rfl, rfl, rfl, rfl⟩
  | brk g =>
    obtain ⟨-, rfl⟩ := (brkHandler_ok (env := env)).1 h
    exact hR.data _ _ ⟨rfl, rfl, rfl, rfl, rfl, rfl, rfl, rfl, rfl, rfl⟩
  | _ => exact hw (oneDestination rfl).2

/-- Every instruction that completes keeps such a relation. -/
theorem exec_closed {i : Instr} {s t : State} (h : exec i s = .next t) : R s t := by
  obtain ⟨u, h0, rfl⟩ := exec_next.1 h
  have ha : R u.st (u.advance (nextIP s.rip i.length)) := by
    rw [Tick.advance_eq]
    exact hR.data _ _ ⟨rfl, rfl, rfl, rfl, rfl, rfl, rfl, rfl, rfl, rfl⟩
  rcases tickBody_ok.1 h0 with h1 | ⟨t1, t2, t3, xs, ys, h1, h2, h3, h4⟩
  · exact hR.trans _ _ _ (hR.reads _ _ (evalGate_reads h1).1) ha
  · have hr := ((evalGate_reads h1).trans (loadPhase_reads h2).1).1
    exact hR.trans _ _ _ (hR.reads _ _ hr) (hR.trans _ _ _ (handler_closed hR rfl h3)
      (hR.trans _ _ _ (storePhase_closed hR h4) ha))

/-- Every Tick that completes keeps such a relation, where delivery does. -/
theorem tick_closed (hd : ∀ s t, deliver s = .ok ((), t) → R s t) {s t : State} (h : tick s = .next t) : R s t := by
  obtain ⟨r, s1, s2, hf, hx, hq⟩ := tick_next.1 h
  refine hR.trans _ _ _ (hR.reads _ _ (fetchDecode_reads hf).1) (hR.trans _ _ _ ?_ (hd _ _ hq))
  rcases hx with ⟨i, -, hx⟩ | ⟨e, -, hx⟩
  · exact exec_closed hR hx
  · unfold invalidTick at hx
    rw [get_bind] at hx
    obtain ⟨⟨⟩, s3, h3, h4⟩ := bind_ok.1 hx
    cases h4
    exact hR.trans _ _ _ (hR.enqueue _ _ _ _ _ h3) (hR.data _ _ ⟨rfl, rfl, rfl, rfl, rfl, rfl, rfl, rfl, rfl, rfl⟩)

end

end Sys2Proof.Machine
end

