-- ==== Sys2Proof/Laws/Invariant.lean ====
section
/-!
SUPPORT. When the invariant passes from one state to another, and what delivery, a bus lifecycle call and the loader can
do, said once.
-/

namespace Sys2Proof.Machine

/-! ## The invariant -/

theorem backs_same {s t : State} (h : sameDevices s.devices t.devices) {a : Nat} (k : s.backs a) : t.backs a := by
  obtain ⟨d, hd, hk⟩ := k
  rcases sameDevices_getElem? h (a / 2 ^ 52) with ⟨h1, -⟩ | ⟨d', e, h1, h2, -, -, -, -, hk'⟩
  · rw [h1] at hd; cases hd
  · rw [h1] at hd
    cases hd
    refine ⟨e, h2, ?_⟩
    rcases hk' with e' | ⟨b, m, n, e1, e2⟩
    · rw [e']; exact hk
    · rw [e1] at hk
      rcases hk with ⟨n, hk, -⟩ | ⟨n, hk, -⟩ <;> cases hk

/-- The directory shows of a device only what no access changes (R54, R61). -/
theorem directoryTable_same {ds es : List Device} (h : sameDevices ds es) (n : Nat) :
    directoryTable (es.take n) = directoryTable (ds.take n) := by
  have key : ∀ k n, directoryGroups k (es.take n) = directoryGroups k (ds.take n) := by
    induction h with
    | nil => simp
    | cons h _ ih =>
      intro k n
      cases n with
      | zero => rfl
      | succ n =>
        obtain ⟨e1, e2, e3, -⟩ := h
        simp [directoryGroups, ih, e1, e2, e3]
  unfold directoryTable
  rw [key, List.length_take, List.length_take, sameDevices_length h]

/-- The invariant of a state with the same devices, given what it says of the parts that may differ. -/
theorem State.Inv.of_same {s t : State} (h : s.Inv) (hd : sameDevices s.devices t.devices)
    (hb : localAddr t.bootAddr = 0)
    (hdir : t.directory = s.directory ∨ t.directory = Sys2Proof.Machine.directoryTable t.devices)
    (hm : t.mem.wf) (hv : t.vectors.wf) (hv2 : ∀ c ∈ t.vectors, c.1 < 8 * vectorCount)
    (hm2 : ∀ c ∈ t.mem, s.backs (c.1 / 8)) (hq : ∀ r ∈ t.queue, r.type.toNat < vectorCount) : t.Inv := by
  refine ⟨hm, hv, hv2, fun c hc => backs_same hd (hm2 c hc), hq, ?_, ?_, hb, ?_⟩
  · rw [sameDevices_length hd]; exact h.idsAssignable
  · rw [controllerCount_same hd]; exact h.oneController
  · rcases hdir with hdir | hdir
    · obtain ⟨n, hn, e⟩ := h.directoryTable
      exact ⟨n, by rw [sameDevices_length hd]; exact hn, by rw [hdir, e, directoryTable_same hd]⟩
    · exact ⟨t.devices.length, le_refl _, by rw [hdir, List.take_length]⟩

/-! ## Delivery -/

/-- What delivery did (R420): other agents' records, and then at most one entry, outside a handler. -/
theorem deliver_next {s t : State} (h : deliver s = .ok ((), t)) :
    ∃ s1, s.ReadsTo s1 ∧ (t = s1 ∨ ∃ r rest, s1.inISR = false ∧ s1.queue = r :: rest ∧
      t = State.enterInterrupt { s1 with queue := rest } r) := by
  obtain ⟨s1, h1, ⟨-, rfl⟩ | ⟨hd, r, rest, hq, rfl⟩⟩ := deliver_ok.1 h
  · exact ⟨t, poll_readsTo h1, .inl rfl⟩
  · refine ⟨s1, poll_readsTo h1, .inr ⟨r, rest, ?_, hq, rfl⟩⟩
    simp only [State.deliverable, Bool.and_eq_true, Bool.not_eq_true'] at hd
    exact hd.1.2

/-! ## Lifecycle calls -/

/-- One device's lifecycle call: at most its own state, or the interrupt controller's queue and table (R408, R409). -/
theorem deviceLifecycle_changes (s : State) (c : Lifecycle) (k : Nat) (d d' : Device) (hd' : s.devices[k]? = some d')
    (hsame : Device.same d d') :
    ∃ es q v, s.deviceLifecycle c k d = { s with devices := es, queue := q, vectors := v } ∧
      sameDevices s.devices es ∧ ((q = s.queue ∧ v = s.vectors) ∨ (q = [] ∧ v = [])) ∧
      (c = .start → q = s.queue ∧ v = s.vectors) ∧ (c ≠ .start → d.kind = .interruptController → q = [] ∧ v = []) := by
  unfold State.deviceLifecycle
  cases hk : d.kind with
  | ram n =>
    exact ⟨s.devices, s.queue, s.vectors, rfl, sameDevices_refl _, .inl ⟨rfl, rfl⟩, fun _ => ⟨rfl, rfl⟩,
      fun _ h => nomatch h⟩
  | rom n =>
    exact ⟨s.devices, s.queue, s.vectors, rfl, sameDevices_refl _, .inl ⟨rfl, rfl⟩, fun _ => ⟨rfl, rfl⟩,
      fun _ h => nomatch h⟩
  | interruptController =>
    cases c with
    | start =>
      exact ⟨s.devices, s.queue, s.vectors, rfl, sameDevices_refl _, .inl ⟨rfl, rfl⟩, fun _ => ⟨rfl, rfl⟩,
        fun h => absurd rfl h⟩
    | reset =>
      exact ⟨s.devices, [], [], rfl, sameDevices_refl _, .inr ⟨rfl, rfl⟩, fun h => (nomatch h), fun _ _ => ⟨rfl, rfl⟩⟩
    | stop =>
      exact ⟨s.devices, [], [], rfl, sameDevices_refl _, .inr ⟨rfl, rfl⟩, fun h => (nomatch h), fun _ _ => ⟨rfl, rfl⟩⟩
  | external b m =>
    refine ⟨_, s.queue, s.vectors, rfl, ?_, .inl ⟨rfl, rfl⟩, fun _ => ⟨rfl, rfl⟩, fun _ h => nomatch h⟩
    obtain ⟨e1, e2, e3, e4, hk'⟩ := hsame
    obtain ⟨m', hm'⟩ : ∃ m', d'.kind = .external b m' := by
      rcases hk' with e | ⟨b', m', n', e, e'⟩
      · exact ⟨m, by rw [e, hk]⟩
      · rw [hk] at e; cases e; exact ⟨n', e'⟩
    have key := sameDevices_set (m := m') (n := Config.deviceLifecycle b m c) hd' hm'
    have e : ({ d with kind := .external b (Config.deviceLifecycle b m c) } : Device) =
        { d' with kind := .external b (Config.deviceLifecycle b m c) } := by
      obtain ⟨a1, a2, a3, a4, a5⟩ := d
      obtain ⟨b1, b2, b3, b4, b5⟩ := d'
      simp_all
    show sameDevices s.devices (s.devices.set k _)
    rw [e]
    exact key

/-- The lifecycle calls of devices from id `k` on (R463): own states of devices, and with an interrupt controller among
them the queue and the table, which a Start leaves and a Reset or Stop empties. -/
theorem callDevices_changes (c : Lifecycle) : ∀ (ds : List Device) (k : Nat) (s : State),
    (∀ j d, ds[j]? = some d → ∃ d', s.devices[k + j]? = some d' ∧ Device.same d d') →
    ∃ es q v, State.callDevices c k ds s = { s with devices := es, queue := q, vectors := v } ∧
      sameDevices s.devices es ∧ ((q = s.queue ∧ v = s.vectors) ∨ (q = [] ∧ v = [])) ∧
      (c = .start → q = s.queue ∧ v = s.vectors) ∧
      (c ≠ .start → (∃ d ∈ ds, d.kind = .interruptController) → q = [] ∧ v = [])
  | [], k, s, _ =>
    ⟨s.devices, s.queue, s.vectors, rfl, sameDevices_refl _, .inl ⟨rfl, rfl⟩, fun _ => ⟨rfl, rfl⟩,
      fun _ ⟨d, h, _⟩ => by simp at h⟩
  | d :: ds, k, s, hs => by
    obtain ⟨d', hd', hsame⟩ := hs 0 d (by simp)
    obtain ⟨es, q, v, e1, he, e2, e3, e4⟩ := deviceLifecycle_changes s c k d d' hd' hsame
    have ih := callDevices_changes c ds (k + 1) { s with devices := es, queue := q, vectors := v } fun j x hx => by
      obtain ⟨x', h1, h2⟩ := hs (j + 1) x (by simpa using hx)
      rcases sameDevices_getElem? he (k + (j + 1)) with ⟨h3, -⟩ | ⟨y, z, h3, h4, h5⟩
      · rw [h3] at h1; cases h1
      · rw [h3] at h1
        cases h1
        exact ⟨z, by rw [show k + 1 + j = k + (j + 1) by omega]; exact h4, Device.same_trans h2 h5⟩
    obtain ⟨es', q', v', f1, he', f2, f3, f4⟩ := ih
    refine ⟨es', q', v', ?_, sameDevices_trans he he', ?_, fun h => ?_, fun h ⟨x, hx, hx'⟩ => ?_⟩
    · rw [State.callDevices, e1, f1]
    · rcases f2 with ⟨rfl, rfl⟩ | f2
      · exact e2
      · exact .inr f2
    · obtain ⟨rfl, rfl⟩ := f3 h
      exact e3 h
    · rcases List.mem_cons.1 hx with rfl | hx
      · obtain ⟨rfl, rfl⟩ := e4 h hx'
        rcases f2 with ⟨rfl, rfl⟩ | f2
        · exact ⟨rfl, rfl⟩
        · exact f2
      · exact f4 h ⟨x, hx, hx'⟩

/-! ## The loader -/

/-- The cells after a window was filled: those of other windows, and those of the new words (R63). -/
theorem mem_window {m : Memory} {id : Nat} {c : Host.Cell} {ws : List Word}
    (h : c ∈ (m.clearWindow id).writeWords (windowBase id) ws) :
    (c ∈ m ∧ c.1 / 8 / 2 ^ 52 ≠ id) ∨ ∃ k < ws.length, c.1 / 8 = id * 2 ^ 52 + k := by
  rcases Memory.mem_writeWords ws h with h | h
  · have h2 := Memory.mem_clearWindow h
    unfold windowBase at h2
    refine .inl ⟨h2.1, ?_⟩
    rcases h2.2 with h3 | h3 <;> omega
  · unfold windowBase at h
    exact .inr ⟨c.1 / 8 - id * 2 ^ 52, by omega, by omega⟩

end Sys2Proof.Machine
end

