-- ==== Sys2Proof/Laws/PerInstr.lean ====
section
/-!
SUPPORT. Statements for all instructions, made per instruction: each constructor's opcode and operand directions are a row
of the opcode table (30_encoding.md R121).
-/

namespace Sys2Proof.Laws

/-- The instruction's opcode has a row of the table, and the row gives its operands' directions in slot order (R121). -/
def TableShape.Statement (i : Instr) : Prop :=
  ∃ d, definition i.shape.opcode = some d ∧ d.dirs = i.shape.params.map Param.dir

theorem TableShape.hlt (g : Option Gate) : TableShape.Statement (.hlt g) :=
  ⟨_, rfl, rfl⟩

theorem TableShape.nop (g : Option Gate) : TableShape.Statement (.nop g) :=
  ⟨_, rfl, rfl⟩

theorem TableShape.int (g : Option Gate) (type data1 data2 : Operand) :
    TableShape.Statement (.int g type data1 data2) :=
  ⟨_, rfl, rfl⟩

theorem TableShape.eint (g : Option Gate) : TableShape.Statement (.eint g) :=
  ⟨_, rfl, rfl⟩

theorem TableShape.inte (g : Option Gate) : TableShape.Statement (.inte g) :=
  ⟨_, rfl, rfl⟩

theorem TableShape.intd (g : Option Gate) : TableShape.Statement (.intd g) :=
  ⟨_, rfl, rfl⟩

theorem TableShape.xchg (g : Option Gate) (a b : Dest) : TableShape.Statement (.xchg g a b) :=
  ⟨_, rfl, rfl⟩

theorem TableShape.cas (g : Option Gate) (target expected : Dest) (new : Operand) :
    TableShape.Statement (.cas g target expected new) :=
  ⟨_, rfl, rfl⟩

theorem TableShape.set (g : Option Gate) (dest : Dest) (src : Operand) :
    TableShape.Statement (.set g dest src) :=
  ⟨_, rfl, rfl⟩

theorem TableShape.cpy (g : Option Gate) (dest src len : Operand) :
    TableShape.Statement (.cpy g dest src len) :=
  ⟨_, rfl, rfl⟩

theorem TableShape.call (g : Option Gate) (target : Operand) : TableShape.Statement (.call g target) :=
  ⟨_, rfl, rfl⟩

theorem TableShape.ret (g : Option Gate) : TableShape.Statement (.ret g) :=
  ⟨_, rfl, rfl⟩

theorem TableShape.dbg (g : Option Gate) (a b c : Operand) : TableShape.Statement (.dbg g a b c) :=
  ⟨_, rfl, rfl⟩

theorem TableShape.brk (g : Option Gate) : TableShape.Statement (.brk g) :=
  ⟨_, rfl, rfl⟩

theorem TableShape.add (g : Option Gate) (dest : Dest) (src1 src2 : Operand) :
    TableShape.Statement (.add g dest src1 src2) :=
  ⟨_, rfl, rfl⟩

theorem TableShape.addf (g : Option Gate) (dest : Dest) (src1 src2 : Operand) :
    TableShape.Statement (.addf g dest src1 src2) :=
  ⟨_, rfl, rfl⟩

theorem TableShape.sub (g : Option Gate) (dest : Dest) (src1 src2 : Operand) :
    TableShape.Statement (.sub g dest src1 src2) :=
  ⟨_, rfl, rfl⟩

theorem TableShape.subf (g : Option Gate) (dest : Dest) (src1 src2 : Operand) :
    TableShape.Statement (.subf g dest src1 src2) :=
  ⟨_, rfl, rfl⟩

theorem TableShape.mul (g : Option Gate) (dest : Dest) (src1 src2 : Operand) :
    TableShape.Statement (.mul g dest src1 src2) :=
  ⟨_, rfl, rfl⟩

theorem TableShape.mulf (g : Option Gate) (dest : Dest) (src1 src2 : Operand) :
    TableShape.Statement (.mulf g dest src1 src2) :=
  ⟨_, rfl, rfl⟩

theorem TableShape.div (g : Option Gate) (dest : Dest) (src1 src2 : Operand) :
    TableShape.Statement (.div g dest src1 src2) :=
  ⟨_, rfl, rfl⟩

theorem TableShape.divf (g : Option Gate) (dest : Dest) (src1 src2 : Operand) :
    TableShape.Statement (.divf g dest src1 src2) :=
  ⟨_, rfl, rfl⟩

theorem TableShape.mod (g : Option Gate) (dest : Dest) (src1 src2 : Operand) :
    TableShape.Statement (.mod g dest src1 src2) :=
  ⟨_, rfl, rfl⟩

theorem TableShape.modf (g : Option Gate) (dest : Dest) (src1 src2 : Operand) :
    TableShape.Statement (.modf g dest src1 src2) :=
  ⟨_, rfl, rfl⟩

theorem TableShape.sr (g : Option Gate) (dest : Dest) (src count : Operand) :
    TableShape.Statement (.sr g dest src count) :=
  ⟨_, rfl, rfl⟩

theorem TableShape.sl (g : Option Gate) (dest : Dest) (src count : Operand) :
    TableShape.Statement (.sl g dest src count) :=
  ⟨_, rfl, rfl⟩

theorem TableShape.rr (g : Option Gate) (dest : Dest) (src count : Operand) :
    TableShape.Statement (.rr g dest src count) :=
  ⟨_, rfl, rfl⟩

theorem TableShape.rl (g : Option Gate) (dest : Dest) (src count : Operand) :
    TableShape.Statement (.rl g dest src count) :=
  ⟨_, rfl, rfl⟩

theorem TableShape.nand (g : Option Gate) (dest : Dest) (src1 src2 : Operand) :
    TableShape.Statement (.nand g dest src1 src2) :=
  ⟨_, rfl, rfl⟩

theorem TableShape.and (g : Option Gate) (dest : Dest) (src1 src2 : Operand) :
    TableShape.Statement (.and g dest src1 src2) :=
  ⟨_, rfl, rfl⟩

theorem TableShape.nor (g : Option Gate) (dest : Dest) (src1 src2 : Operand) :
    TableShape.Statement (.nor g dest src1 src2) :=
  ⟨_, rfl, rfl⟩

theorem TableShape.or (g : Option Gate) (dest : Dest) (src1 src2 : Operand) :
    TableShape.Statement (.or g dest src1 src2) :=
  ⟨_, rfl, rfl⟩

theorem TableShape.nxor (g : Option Gate) (dest : Dest) (src1 src2 : Operand) :
    TableShape.Statement (.nxor g dest src1 src2) :=
  ⟨_, rfl, rfl⟩

theorem TableShape.xor (g : Option Gate) (dest : Dest) (src1 src2 : Operand) :
    TableShape.Statement (.xor g dest src1 src2) :=
  ⟨_, rfl, rfl⟩

theorem TableShape.not (g : Option Gate) (dest : Dest) (src : Operand) :
    TableShape.Statement (.not g dest src) :=
  ⟨_, rfl, rfl⟩

theorem TableShape.gt (g : Option Gate) (dest : Dest) (src1 src2 : Operand) :
    TableShape.Statement (.gt g dest src1 src2) :=
  ⟨_, rfl, rfl⟩

theorem TableShape.gte (g : Option Gate) (dest : Dest) (src1 src2 : Operand) :
    TableShape.Statement (.gte g dest src1 src2) :=
  ⟨_, rfl, rfl⟩

theorem TableShape.lt (g : Option Gate) (dest : Dest) (src1 src2 : Operand) :
    TableShape.Statement (.lt g dest src1 src2) :=
  ⟨_, rfl, rfl⟩

theorem TableShape.lte (g : Option Gate) (dest : Dest) (src1 src2 : Operand) :
    TableShape.Statement (.lte g dest src1 src2) :=
  ⟨_, rfl, rfl⟩

theorem TableShape.eq (g : Option Gate) (dest : Dest) (src1 src2 : Operand) :
    TableShape.Statement (.eq g dest src1 src2) :=
  ⟨_, rfl, rfl⟩

theorem TableShape.neq (g : Option Gate) (dest : Dest) (src1 src2 : Operand) :
    TableShape.Statement (.neq g dest src1 src2) :=
  ⟨_, rfl, rfl⟩

end Sys2Proof.Laws
end

