-- ==== Sys2Proof/Tests/Slice0.lean ====
section
/-!
SUPPORT. The model's own tests. Words and expected results are those of 95_test_vectors.md (its V-… vectors and R125's
table); each `witness_<Name>` shows a state and operands that meet the hypotheses of the statement of that name.
-/

namespace Sys2Proof.Tests

open Sys2Proof Sys2Proof.Machine

-- One test after another: each is a kernel evaluation, and all of them at once need much memory.
set_option Elab.async false

/-! ## Operands and states of the tests -/

/-- Register `n` as a source. -/
def reg (n : Fin 16) : Operand := ⟨.register (.gp n), .none, false⟩

/-- A named register as a source. -/
def src (r : Reg) : Operand := ⟨.register r, .none, false⟩

/-- An embedded literal. -/
def lit (v : BitVec 4) : Operand := ⟨.literal (.embedded v), .none, false⟩

/-- A literal in a trailing word. -/
def wide (v : Word) : Operand := ⟨.literal (.trailing v), .none, false⟩

/-- The stack as a source. -/
def stk : Operand := ⟨.stack, .none, false⟩

/-- Register `n` as a destination. -/
def dst (n : Fin 16) : Dest := .register (.gp n)

/-- Word `k` of the example machine's RAM. -/
def ram (k : Word) : Word := 0x0010_0000_0000_0000 + k

/-- The example machine, Running, with these registers R0, R1, R2, ... and with RAM words from word 0x10 on, where RSP
points. -/
def machine (rs : List Word) (ws : List Word) : State :=
  { State.reset with
    runState := .running
    gpr := Vector.ofFn fun k => rs.getD k.val 0
    rsp := ram 0x10
    mem := State.reset.mem.writeWords (ram 0x10).toNat ws }

/-- The instruction words placed at RIP. -/
def State.withCode (s : State) (ws : List Word) : State := s.placeWords s.rip ws

/-- What one step leaves, looked at through `f`. -/
def after {α : Type} (s : State) (f : State → α) : Option α :=
  match step s with
  | .next t => some (f t)
  | _ => none

/-- The fault one step ends in. -/
def faultOf (s : State) : Option Fault :=
  match step s with
  | .fault f => some f
  | _ => none

/-- R2 and RIP after one step of a word that computes on R0 and R1, R2 being 0x99 before; the form of the vectors
V-ARI, V-BIT and V-CMP. -/
def r2After (w a b : Word) : Option (Word × Word) :=
  after (State.withCode (machine [a, b, 0x99] []) [w]) fun t => (t.readReg (.gp 2), t.rip)

/-- The same under SHIFT_COUNT_MODE = saturate. -/
def r2Saturated (w a b : Word) : Option (Word × Word) :=
  after (State.withCode { machine [a, b, 0x99] [] with params := ⟨.saturate, 2, true⟩ } [w]) fun t => (t.readReg (.gp 2), t.rip)

/-! ## Decoding: one word of the spec for each constructor -/

theorem test_decode_basic : ∀ p ∈ ([([0x0], .hlt none), ([0x1], .nop none),
    ([0x0000_000B_01C1_7002], .int none (lit 5) (lit 1) (lit 2)), ([0x3], .eint none), ([0x4], .inte none),
    ([0x5], .intd none), ([0x0000_0000_0290_0806], .xchg none .stack (.indirect (.register (.gp 5)) .none)),
    ([0x0000_001F_0100_2407], .cas none (.indirect (.register (.gp 1)) .none) (dst 2) (lit 7)),
    ([0x0000_0000_05C0_0008], .set none (dst 0) (lit 5)), ([0x0000_000F_0080_0009], .cpy none (reg 0) (reg 1) (lit 3)),
    ([0x0000_0000_0000_100A, 0x40], .call none (wide 0x40)), ([0xB], .ret none),
    ([0x0000_000F_02C0_000C], .dbg none (reg 0) (lit 2) (lit 3)), ([0xD], .brk none)] : List (List Word × Instr)),
    decodeWords p.1 = .ok (p.2, []) := by decide +kernel

theorem test_decode_arith : ∀ p ∈ ([(0x10, .add), (0x11, .addf), (0x12, .sub), (0x13, .subf), (0x14, .mul), (0x15, .mulf),
    (0x16, .div), (0x17, .divf), (0x18, .mod), (0x19, .modf)] :
    List (Word × (Option Gate → Dest → Operand → Operand → Instr))),
    decodeWords [0x0000_0002_0000_4000 + p.1] = .ok (p.2 none (dst 2) (reg 0) (reg 1), []) := by decide +kernel

theorem test_decode_bitwise : ∀ p ∈ ([(0x20, .sr), (0x21, .sl), (0x22, .rr), (0x23, .rl), (0x24, .nand), (0x25, .and),
    (0x26, .nor), (0x27, .or), (0x28, .nxor), (0x29, .xor)] :
    List (Word × (Option Gate → Dest → Operand → Operand → Instr))),
    decodeWords [0x0000_0002_0000_4000 + p.1] = .ok (p.2 none (dst 2) (reg 0) (reg 1), []) := by decide +kernel

theorem test_decode_not : decodeWords [0x0000_0000_0000_402A] = .ok (.not none (dst 2) (reg 0), []) := by decide +kernel

theorem test_decode_compare : ∀ p ∈ ([(0x30, .gt), (0x31, .gte), (0x32, .lt), (0x33, .lte), (0x34, .eq), (0x35, .neq)] :
    List (Word × (Option Gate → Dest → Operand → Operand → Instr))),
    decodeWords [0x0000_0002_0000_4000 + p.1] = .ok (p.2 none (dst 2) (reg 0) (reg 1), []) := by decide +kernel

/-- R125: relative registers, nested words with neg bits, a conditional operand. -/
theorem test_decode_calculated :
    decodeWords [0x0000_60C0_0066_6008, 0x0000_0413_C310_3081, 0x1234] =
      .ok (.set (some ⟨reg 3, .whenNotZero⟩) (.register .rip)
        ⟨.calculated ⟨⟨.register (.gp 1), .none, false⟩, false⟩ (some ⟨⟨.register (.gp 2), .none, false⟩, true⟩)
          (some ⟨⟨.literal (.embedded 3), .none, false⟩, true⟩)
          (some ⟨⟨.literal (.trailing 0x1234), .none, false⟩, false⟩), .ip, false⟩, []) := by decide +kernel

/-- V-ENC-9: bits 63 and 37..28, which SET does not use, are ignored. -/
theorem test_decode_ignored_bits :
    decodeWords [0x8000_003F_F5C0_0008] = .ok (.set none (dst 0) (lit 5), []) := by decide +kernel

/-- V-ENC-10: HLT ignores its slot bits. -/
theorem test_decode_ignored_slots : decodeWords [0x0000_003F_FFFF_FF00] = .ok (.hlt none, []) := by decide +kernel

/-! ## Each check of R120 refuses an ill-formed record (V-ENC-1 to V-ENC-11) -/

/-- V-ENC-1: WF1. -/
theorem test_wf1_refuses : RawInstr.knownOpcode ⟨0xFF, [], none⟩ = false := by decide +kernel

/-- V-ENC-4: WF2. -/
theorem test_wf2_refuses : RawInstr.registerInRange
    ⟨0x08, [⟨.register 0, .none, false⟩, ⟨.register 25, .none, false⟩], none⟩ = false := by decide +kernel

/-- V-ENC-5: WF3. -/
theorem test_wf3_refuses : RawInstr.basePresent
    ⟨0x08, [⟨.register 0, .none, false⟩, ⟨.calculated none (some ⟨⟨.register 0, .none, false⟩, false⟩) none none, .none,
      false⟩], none⟩ = false := by decide +kernel

/-- V-ENC-6: WF4. -/
theorem test_wf4_refuses : RawInstr.noNestedCalculated
    ⟨0x08, [⟨.register 0, .none, false⟩, ⟨.calculated (some ⟨⟨.nestedCalculated 0, .none, false⟩, false⟩) none none none,
      .none, false⟩], none⟩ = false := by decide +kernel

/-- V-ENC-7 and V-ENC-8: WF5. -/
theorem test_wf5_refuses :
    RawInstr.writableDestination ⟨0x08, [⟨.literal (.embedded 5), .none, false⟩, ⟨.register 0, .none, false⟩], none⟩ = false ∧
    RawInstr.writableDestination ⟨0x08, [⟨.register 0, .ip, false⟩, ⟨.register 1, .none, false⟩], none⟩ = false := by
  decide +kernel

/-- The decoder rejects the words of V-ENC-1 to V-ENC-8 by the name of the check, with the lengths of the vectors. -/
theorem test_decode_rejects : ∀ p ∈ ([([0xFF], .malformed .knownOpcode 0xFF 1), ([0x0E], .malformed .knownOpcode 0x0E 1),
    ([0x0000_1040_0000_002B, 0x1234], .malformed .knownOpcode 0x2B 2),
    ([0x0C80_0008], .malformed .registerInRange 0x08 1), ([0x0060_0008, 0x1000], .malformed .basePresent 0x08 2),
    ([0x0060_0008, 0x61], .malformed .noNestedCalculated 0x08 2),
    ([0x0001_7008], .malformed .writableDestination 0x08 1), ([0x0080_0108], .malformed .writableDestination 0x08 1),
    ([0x0060_0008], .endOfWords)] : List (List Word × DecodeReject)), decodeWords p.1 = .error p.2 := by decide +kernel

/-- V-ENC-3: a malformed instruction is reported with its opcode and address, and RIP passes its trailing word. -/
theorem test_malformed_tick : after (State.withCode (machine [] []) [0x0000_1040_0000_002B, 0x1234])
    (fun t => (t.rip, t.queue)) = some (2, [⟨0, 0x2B, 0, 0⟩]) := by decide +kernel

/-- V-ENC-11: the checks come before the gate. -/
theorem test_malformed_before_gate : after (State.withCode (machine [1] []) [0x0000_0040_0000_00FF])
    (fun t => (t.rip, t.queue)) = some (1, [⟨0, 0xFF, 0, 0⟩]) := by decide +kernel

/-! ## The host's two functions -/

theorem test_table_word : decodeTableWord 64 0x0000_0002_0000_4010 = some (.add none (dst 2) (reg 0) (reg 1)) := by
  decide +kernel

theorem test_fetch_word :
    after (State.reset.withFetchWord 128 (0x1_0000_0000_0000_0000 * 5 + 0x0040_0008)) (fun t => (t.rip, t.readReg (.gp 0))) =
      some (2, 5) := by decide +kernel

/-! ## Operands (V-EXE) -/

/-- V-EXE-4: the SP added is the one after the pop. -/
theorem test_relative_after_pop : after (State.withCode (machine [] [5]) [0x0028_0008])
    (fun t => (t.readReg (.gp 0), t.rsp, t.rip)) = some (ram 0x16, ram 0x11, 1) := by decide +kernel

/-- V-EXE-7: base, negated scaled index and offset. -/
theorem test_calculated : after (State.withCode (machine [0, 0, 0x100, 3] []) [0x0060_2008, 0x0000_1C14_C118_3101])
    (fun t => (t.readReg (.gp 1), t.rip)) = some (0xF5, 2) := by decide +kernel

/-- V-EXE-9: an indirect base inside an indirect calculated operand. -/
theorem test_calculated_indirect :
    after (State.withCode (machine [0, 0, ram 0x10, 2, 3] [ram 0x10, 0, 0, 0, 0, 0, 0, 0, 0x5A])
      [0x0070_2008, 0x0000_2C12_0118_1111]) (fun t => t.readReg (.gp 1)) = some 0x5A := by decide +kernel

/-- V-EXE-12: a gated-off instruction has still popped its conditional operand. -/
theorem test_gate_pops : after (State.withCode (machine [] [0]) [0x0000_08C0_09C0_2008])
    (fun t => (t.readReg (.gp 1), t.rsp, t.rip)) = some (0, ram 0x11, 1) := by decide +kernel

/-- V-EXE-15: the source pops before the destination's address does. -/
theorem test_pop_order : after (State.withCode (machine [] [0x99, ram 0x20]) [0x0020_0C08])
    (fun t => (t.peek (ram 0x20), t.rsp, t.rip)) = some (some 0x99, ram 0x12, 1) := by decide +kernel

/-- V-EXE-13, V-EXE-19: a write of RIP jumps, a write of RONE is discarded. -/
theorem test_special_destinations :
    after (State.withCode (machine [] []) [0x0042_6008, 0x40]) State.rip = some 0x40 ∧
    after (State.withCode (machine [] []) [0x0000_0022_0882_2010]) (fun t => (t.readReg .rone, t.rip)) = some (1, 1) := by
  decide +kernel

/-! ## The bus (V-BUS) -/

/-- V-BUS-1 to V-BUS-3: the directory. -/
theorem test_directory :
    after (State.withCode (machine [] []) [0x0050_0008, 0xFFF0_0000_0000_0000]) (fun t => t.readReg (.gp 0)) = some 3 ∧
    after (State.withCode (machine [] []) [0x0050_0008, 0xFFF0_0000_0000_0005]) (fun t => t.readReg (.gp 0)) = some 1 ∧
    after (State.withCode (machine [] []) [0x0050_0008, 0xFFF0_0000_0000_000C]) (fun t => t.readReg (.gp 0)) = some 2 := by
  decide +kernel

/-- V-BUS-4 to V-BUS-9: the fatal accesses. -/
theorem test_fatal_accesses : ∀ p ∈ ([([0x0050_0008, 0xFFF0_0000_0000_000D], .directoryOutOfRange),
    ([0x01C0_1408, 0xFFF0_0000_0000_0000], .directoryWrite), ([0x0050_0008, 0x0030_0000_0000_0000], .noDeviceAtId),
    ([0x01C1_7408], .readOnlyDevice), ([0x0050_0008, 0x0010_0000_0000_1000], .deviceOutOfRange),
    ([0x0050_0008, 0x0020_0000_0000_1000], .deviceOutOfRange)] : List (List Word × Fault)),
    faultOf (State.withCode (machine [] []) p.1) = some p.2 := by decide +kernel

/-- V-BUS-10: a vector is written. -/
theorem test_vector_write :
    after (State.withCode (machine [] []) [0x0040_1408, 0x0020_0000_0000_0007, 0x55]) (fun t => (t.vector 7, t.mem == [])) =
      some (0x55, false) := by decide +kernel

/-! ## Instructions (V-BAS, V-ARI, V-BIT, V-CMP, V-DBG) -/

/-- V-BAS-1: HLT stays. -/
theorem test_hlt : after (State.withCode { machine [] [] with rip := 3 } [0x0]) State.rip = some 3 := by decide +kernel

/-- V-BAS-2: the record a HLT waits for is entered with the HLT's address saved. -/
theorem test_hlt_wakes :
    after (State.withCode { machine [] [] with rip := 3, ie := true, queue := [⟨7, 1, 2, 0x50⟩] } [0x0])
      (fun t => ([t.rip, t.rsip, t.rint1, t.rint2], t.queue, t.inISR)) = some ([0x50, 3, 1, 2], [], true) := by decide +kernel

/-- V-BAS-3. -/
theorem test_nop : after (State.withCode { machine [] [] with rip := 0x10 } [0x1]) State.rip = some 0x11 := by decide +kernel

/-- V-BAS-5: the record carries the vector of its moment. -/
theorem test_int :
    after (State.withCode { machine [] [] with vectors := Memory.writeWord [] 5 0x200 } [0x0000_000B_01C1_7002])
      (fun t => (t.rip, t.queue)) = some (1, [⟨5, 1, 2, 0x200⟩]) := by decide +kernel

/-- V-BAS-6: type 4096. -/
theorem test_int_invalid : after (State.withCode (machine [] []) [0x0000_000B_01C0_1002, 0x1000])
    (fun t => (t.rip, t.queue)) = some (2, [⟨0, 2, 0, 0⟩]) := by decide +kernel

/-- V-BAS-9: EINT outside a handler. -/
theorem test_eint_invalid : after (State.withCode { machine [] [] with rip := 0x40 } [0x3])
    (fun t => (t.rip, t.queue)) = some (0x41, [⟨0, 3, 0x40, 0⟩]) := by decide +kernel

/-- V-BAS-10: EINT returns, and delivery enters the next record at once. -/
theorem test_eint :
    after (State.withCode { machine [] [] with
        rip := 0x40
        inISR := true
        ie := true
        rsip := 0x41
        rint1 := 7
        queue := [⟨2, 0, 0, 0x90⟩] } [0x3])
      (fun t => ([t.rip, t.rsip, t.rint1, t.rint2], t.queue, t.inISR)) = some ([0x90, 0x41, 0, 0], [], true) := by decide +kernel

/-- V-BAS-11: INTE delivers in its own Tick. -/
theorem test_inte : after (State.withCode { machine [] [] with rip := 0x20, queue := [⟨9, 1, 1, 0x500⟩] } [0x4])
    (fun t => (t.rip, t.rsip, t.ie, t.inISR, t.queue)) = some (0x500, 0x21, true, true, []) := by decide +kernel

/-- V-BAS-13: INTD keeps the record pending. -/
theorem test_intd : after (State.withCode { machine [] [] with ie := true, queue := [⟨9, 1, 1, 0x500⟩] } [0x5])
    (fun t => (t.rip, t.ie, t.queue.length)) = some (1, false, 1) := by decide +kernel

/-- V-BAS-15: exchanging two stack operands leaves the stack as it was. -/
theorem test_xchg_stack : after (State.withCode (machine [] [1, 2]) [0x0020_0806])
    (fun t => (t.rsp, t.peek (ram 0x10), t.peek (ram 0x11))) = some (ram 0x10, some 1, some 2) := by decide +kernel

/-- V-BAS-17: exchanging RIP jumps. -/
theorem test_xchg_rip : after (State.withCode { machine [0, 0x30] [] with rip := 4 } [0x0082_6006])
    (fun t => (t.readReg (.gp 1), t.rip)) = some (4, 0x30) := by decide +kernel

/-- V-BAS-18. -/
theorem test_cas_succeeds : after (State.withCode (machine [0, ram 0x10, 3] [3]) [0x0000_001F_0100_2407])
    (fun t => (t.peek (ram 0x10), t.readReg (.gp 2), t.rip)) = some (some 7, 3, 1) := by decide +kernel

/-- V-BAS-19. -/
theorem test_cas_fails : after (State.withCode (machine [0, ram 0x10, 4] [3]) [0x0000_001F_0100_2407])
    (fun t => (t.peek (ram 0x10), t.readReg (.gp 2), t.rip)) = some (some 3, 3, 1) := by decide +kernel

/-- V-BAS-21. -/
theorem test_set : after (State.withCode (machine [0, 0, 0x10, 2] []) [0x0060_2008, 0x0000_0004_C118_1101])
    (fun t => (t.readReg (.gp 1), t.rip)) = some (0x18, 2) := by decide +kernel

/-- V-BAS-22: an overlapping copy, upwards. -/
theorem test_cpy : after (State.withCode (machine [ram 0x11, ram 0x10] [1, 2, 3]) [0x0000_000F_0080_0009])
    (fun t => (t.peek (ram 0x10), t.peek (ram 0x11), t.peek (ram 0x12), t.peek (ram 0x13))) =
      some (some 1, some 1, some 2, some 3) := by decide +kernel

/-- V-BAS-25: a source range across two devices. -/
theorem test_cpy_crosses :
    faultOf (State.withCode (machine [ram 0, 0x000F_FFFF_FFFF_FFFF] []) [0x0000_000B_0080_0009]) =
      some .copyCrossesDevice := by decide +kernel

/-- V-BAS-27: the target is popped before the return address is pushed in its place. -/
theorem test_call : after (State.withCode { machine [] [0x80] with rip := 0x10 } [0x080A])
    (fun t => (t.rip, t.rsp, t.peek (ram 0x10))) = some (0x80, ram 0x10, some 0x11) := by decide +kernel

/-- V-BAS-30: with RSP = 0 the first push reaches the directory. -/
theorem test_call_reset_stack : faultOf (State.withCode { machine [] [] with rsp := 0 } [0x100A, 0x40]) =
    some .directoryWrite := by decide +kernel

/-- V-BAS-29. -/
theorem test_ret : after (State.withCode (machine [] [0x12]) [0xB]) (fun t => (t.rip, t.rsp)) = some (0x12, ram 0x11) := by
  decide +kernel

/-- V-DBG-2: the operands are popped in slot order. -/
theorem test_dbg : after (State.withCode (machine [] [4, 5, 6]) [0x8020_080C])
    (fun t => (t.hooks, t.rsp, t.rip)) = some ([.debug 4 5 6], ram 0x13, 1) := by decide +kernel

/-- R330: with no hook installed DBG only pops and advances. -/
theorem test_dbg_no_hook :
    after (State.withCode { machine [] [4, 5, 6] with params := ⟨.mask, 2, false⟩ } [0x8020_080C])
      (fun t => (t.hooks, t.rsp, t.rip)) = some ([], ram 0x13, 1) := by decide +kernel

/-- V-DBG-3. -/
theorem test_brk : after (State.withCode { machine [] [] with rip := 0x30 } [0xD]) (fun t => (t.rip, t.runState)) =
    some (0x31, .stopped) := by decide +kernel

/-- V-ARI-1. -/
theorem test_add : r2After 0x0000_0002_0000_4010 0xFFFF_FFFF_FFFF_FFFF 1 = some (0, 1) := by decide +kernel

/-- V-ARI-3. -/
theorem test_sub : r2After 0x0000_0002_0000_4012 3 5 = some (0xFFFF_FFFF_FFFF_FFFE, 1) := by decide +kernel

/-- V-ARI-5. -/
theorem test_mul : r2After 0x0000_0002_0000_4014 0x0000_0001_0000_0001 0x0000_0001_0000_0001 =
    some (0x0000_0002_0000_0001, 1) := by decide +kernel

/-- V-ARI-7: unsigned. -/
theorem test_div : r2After 0x0000_0002_0000_4016 0xFFFF_FFFF_FFFF_FFFF 2 = some (0x7FFF_FFFF_FFFF_FFFF, 1) := by
  decide +kernel

/-- V-ARI-8: R2 stays, one record. -/
theorem test_div_by_zero : after (State.withCode (machine [7, 0, 0x99] []) [0x0000_0002_0000_4016])
    (fun t => (t.readReg (.gp 2), t.rip, t.queue)) = some (0x99, 1, [⟨1, 0x16, 0, 0⟩]) := by decide +kernel

/-- V-ARI-12, V-ARI-11. -/
theorem test_mod : r2After 0x0000_0002_0000_4018 0xFFFF_FFFF_FFFF_FFFF 0xA = some (5, 1) ∧
    r2After 0x0000_0002_0000_4018 0x11 0 = some (0x99, 1) := by decide +kernel

/-- V-ARI-13, V-ARI-22 (ties and rounding), V-ARI-23 (infinity), V-ARI-26 (subnormals). -/
theorem test_addf :
    r2After 0x0000_0002_0000_4011 0x3FF8_0000_0000_0000 0x4002_0000_0000_0000 = some (0x400E_0000_0000_0000, 1) ∧
    r2After 0x0000_0002_0000_4011 0x3FB9_9999_9999_999A 0x3FC9_9999_9999_999A = some (0x3FD3_3333_3333_3334, 1) ∧
    r2After 0x0000_0002_0000_4011 0x7FF0_0000_0000_0000 0x3FF0_0000_0000_0000 = some (0x7FF0_0000_0000_0000, 1) ∧
    r2After 0x0000_0002_0000_4011 1 1 = some (2, 1) := by decide +kernel

/-- V-ARI-14. -/
theorem test_subf : r2After 0x0000_0002_0000_4013 0x3FF8_0000_0000_0000 0x4002_0000_0000_0000 =
    some (0xBFE8_0000_0000_0000, 1) := by decide +kernel

/-- V-ARI-15, V-ARI-25 (a tie that rounds to even, 0). -/
theorem test_mulf :
    r2After 0x0000_0002_0000_4015 0x3FF8_0000_0000_0000 0x4002_0000_0000_0000 = some (0x400B_0000_0000_0000, 1) ∧
    r2After 0x0000_0002_0000_4015 1 0x3FE0_0000_0000_0000 = some (0, 1) := by decide +kernel

/-- V-ARI-16, V-ARI-24, V-ARI-18 (a divisor of -0.0 leaves R2). -/
theorem test_divf :
    r2After 0x0000_0002_0000_4017 0x3FF8_0000_0000_0000 0x4002_0000_0000_0000 = some (0x3FE5_5555_5555_5555, 1) ∧
    r2After 0x0000_0002_0000_4017 0x3FF0_0000_0000_0000 0x7FF0_0000_0000_0000 = some (0, 1) ∧
    r2After 0x0000_0002_0000_4017 0x3FF0_0000_0000_0000 0x8000_0000_0000_0000 = some (0x99, 1) := by decide +kernel

/-- V-ARI-20: the sign of the dividend; V-ARI-21. -/
theorem test_modf :
    r2After 0x0000_0002_0000_4019 0xC01E_0000_0000_0000 0x4000_0000_0000_0000 = some (0xBFF8_0000_0000_0000, 1) ∧
    r2After 0x0000_0002_0000_4019 0x3FF0_0000_0000_0000 0 = some (0x99, 1) := by decide +kernel

/-- R252 (V-ARI's last note): infinity less infinity takes one NaN draw, and R2 is a NaN whatever the draw is. -/
theorem test_nan_draw :
    after (State.withCode (machine [0x7FF0_0000_0000_0000, 0x7FF0_0000_0000_0000] []) [0x0000_0002_0000_4013])
      (fun t => t.draws) = some 1 := by decide +kernel

/-- V-BIT-1 to V-BIT-6. -/
theorem test_logic :
    r2After 0x0000_0002_0000_4025 0xF0F0 0xFF00 = some (0xF000, 1) ∧
    r2After 0x0000_0002_0000_4027 0xF0F0 0xFF00 = some (0xFFF0, 1) ∧
    r2After 0x0000_0002_0000_4029 0xF0F0 0xFF00 = some (0xFF0, 1) ∧
    r2After 0x0000_0002_0000_4024 0xF0F0 0xFF00 = some (0xFFFF_FFFF_FFFF_0FFF, 1) ∧
    r2After 0x0000_0002_0000_4026 0xF0F0 0xFF00 = some (0xFFFF_FFFF_FFFF_000F, 1) ∧
    r2After 0x0000_0002_0000_4028 0xF0F0 0xFF00 = some (0xFFFF_FFFF_FFFF_F00F, 1) := by decide +kernel

/-- V-BIT-23. -/
theorem test_not : after (State.withCode (machine [0xF] []) [0x402A]) (fun t => (t.readReg (.gp 2), t.rip)) =
    some (0xFFFF_FFFF_FFFF_FFF0, 1) := by decide +kernel

/-- V-BIT-10, V-BIT-12; V-BIT-27 under `saturate`. -/
theorem test_sr : r2After 0x0000_0002_0000_4020 0x8000_0000_0000_0000 0x3F = some (1, 1) ∧
    r2After 0x0000_0002_0000_4020 0xF0 0x41 = some (0x78, 1) ∧
    r2Saturated 0x0000_0002_0000_4020 0xF0 0x41 = some (0, 1) := by decide +kernel

/-- V-BIT-15, V-BIT-16; V-BIT-26 under `saturate`. -/
theorem test_sl : r2After 0x0000_0002_0000_4021 3 0x3F = some (0x8000_0000_0000_0000, 1) ∧
    r2After 0x0000_0002_0000_4021 0xF0 0x40 = some (0xF0, 1) ∧
    r2Saturated 0x0000_0002_0000_4021 0xF0 0x40 = some (0, 1) := by decide +kernel

/-- V-BIT-17; V-BIT-28: a rotation is modulo 64 in both modes. -/
theorem test_rr : r2After 0x0000_0002_0000_4022 0x1234 8 = some (0x3400_0000_0000_0012, 1) ∧
    r2Saturated 0x0000_0002_0000_4022 0x1234 0x40 = some (0x1234, 1) := by decide +kernel

/-- V-BIT-20, V-BIT-21. -/
theorem test_rl : r2After 0x0000_0002_0000_4023 0x3400_0000_0000_0012 8 = some (0x1234, 1) ∧
    r2After 0x0000_0002_0000_4023 0x8000_0000_0000_0000 1 = some (1, 1) := by decide +kernel

/-- V-CMP-3 (unsigned), V-CMP-2. -/
theorem test_gt : r2After 0x0000_0002_0000_4030 0xFFFF_FFFF_FFFF_FFFF 1 = some (0xFFFF_FFFF_FFFF_FFFF, 1) ∧
    r2After 0x0000_0002_0000_4030 3 5 = some (0, 1) := by decide +kernel

/-- V-CMP-4, V-CMP-5. -/
theorem test_gte : r2After 0x0000_0002_0000_4031 3 3 = some (0xFFFF_FFFF_FFFF_FFFF, 1) ∧
    r2After 0x0000_0002_0000_4031 2 3 = some (0, 1) := by decide +kernel

/-- V-CMP-6, V-CMP-7, V-CMP-14. -/
theorem test_lt : r2After 0x0000_0002_0000_4032 3 5 = some (0xFFFF_FFFF_FFFF_FFFF, 1) ∧
    r2After 0x0000_0002_0000_4032 5 5 = some (0, 1) ∧
    r2After 0x0000_0002_0000_4032 0x8000_0000_0000_0000 1 = some (0, 1) := by decide +kernel

/-- V-CMP-8, V-CMP-9. -/
theorem test_lte : r2After 0x0000_0002_0000_4033 5 3 = some (0, 1) ∧
    r2After 0x0000_0002_0000_4033 0 0 = some (0xFFFF_FFFF_FFFF_FFFF, 1) := by decide +kernel

/-- V-CMP-10, V-CMP-15. -/
theorem test_eq : r2After 0x0000_0002_0000_4034 7 7 = some (0xFFFF_FFFF_FFFF_FFFF, 1) ∧
    r2After 0x0000_0002_0000_4034 0 0x8000_0000_0000_0000 = some (0, 1) := by decide +kernel

/-- V-CMP-12, V-CMP-13. -/
theorem test_neq : r2After 0x0000_0002_0000_4035 7 8 = some (0xFFFF_FFFF_FFFF_FFFF, 1) ∧
    r2After 0x0000_0002_0000_4035 0 0 = some (0, 1) := by decide +kernel

/-! ## Interrupts, reset and the host (V-INT, V-RST) -/

/-- V-INT-4: a timer record that arrives before the Tick's first access is entered at its end. -/
theorem test_timer :
    after (State.withCode { machine [] [] with
        ie := true
        started := true
        vectors := Memory.writeWord [] 2 0x40
        arrivals := ⟨[[.timer]], []⟩ } [0x1])
      (fun t => ([t.rip, t.rsip, t.rint1, t.rint2], t.queue, t.inISR)) = some ([0x40, 1, 0, 0], [], true) := by decide +kernel

/-- V-INT-5: a malformed instruction inside a handler waits for EINT. -/
theorem test_fault_in_handler :
    after (State.withCode { machine [] [] with ie := true, inISR := true, vectors := Memory.writeWord [] 0 0x10 } [0xFF])
      (fun t => (t.rip, t.queue)) = some (1, [⟨0, 0xFF, 0, 0x10⟩]) := by decide +kernel

/-- V-RST-6: BRK stops a running loop at 0x30, Continue resumes at 0x31, and a Break falls between two later Ticks. -/
theorem test_brk_continue_break :
    (State.steps 5 { State.withCode { machine [] [] with rip := 0x30 } [0xD, 0x1, 0x1, 0x1] with
        hostMoves := [.wait, .resume, .wait, .suspend, .wait] }).map (fun t => (t.rip, t.runState, t.hostMoves)) =
      some (0x32, .stopped, []) := by decide +kernel

/-- R430: a recurring timer fires at every second interleaving point, however many have passed. -/
theorem test_timer_recurs :
    (State.steps 3 { State.withCode (machine [] []) [0x1, 0x1, 0x1] with
        started := true
        arrivals := ⟨[], [[], [.timer]]⟩ }).map (fun t => t.queue.map InterruptRecord.type) = some [2, 2, 2] := by
  decide +kernel

/-- R116: the words of a SET encoded over the bus, the control word at the address given. -/
theorem test_encode_at :
    (match encodeAt (Instr.raw (.set none (dst 0) (wide 5))) (ram 0x20) (machine [] []) with
      | .ok (_, t) => [t.peek (ram 0x20), t.peek (ram 0x21)]
      | .error _ => []) = [some 0x0040_0008, some 5] := by decide +kernel

/-- V-RST-2, with R465's run state (log 15): a bus Start with the boot device at id 1. -/
theorem test_bus_start :
    after { State.reset with
        hostMoves := [.busStart]
        devices := [⟨1, 0, 0, .ram 0x1000, []⟩, ⟨2, 0, 0, .rom 0, []⟩, ⟨3, 0, 0, .interruptController, []⟩] }
      (fun t => (t.rip, t.runState, t.directory.head?)) = some (0x0010_0000_0000_0000, .running, some 3) := by decide +kernel

/-- V-RST-3. -/
theorem test_no_boot_device :
    faultOf { State.reset with
        hostMoves := [.busStart]
        devices := [⟨1, 0, 0, .ram 0x1000, []⟩, ⟨3, 0, 0, .interruptController, []⟩] } = some .noBootDevice := by
  decide +kernel

/-- V-RST-4: the processor's own Reset keeps the queue and the vector table. -/
theorem test_processor_reset :
    after { machine [0, 0, 0, 7] [] with
        hostMoves := [.processorReset]
        rip := 0x40
        ie := true
        inISR := true
        queue := [⟨5, 1, 2, 0x100⟩]
        vectors := Memory.writeWord [] 5 0x100 }
      (fun t => ([t.readReg (.gp 3), t.rip, t.vector 5], [t.ie, t.inISR], t.runState, t.queue.length)) =
      some ([0, 0, 0x100], [false, false], .stopped, 1) := by decide +kernel

/-- V-RST-5: a bus Reset clears them, and RAM keeps its contents. -/
theorem test_bus_reset :
    after { machine [0, 0, 0, 7] [0x77] with
        hostMoves := [.busReset]
        runState := .stopped
        queue := [⟨5, 1, 2, 0x100⟩]
        vectors := Memory.writeWord [] 5 0x100 }
      (fun t => (t.readReg (.gp 3), t.queue.length, t.vector 5, t.peek (ram 0x10))) = some (0, 0, 0, some 0x77) := by
  decide +kernel

/-! ## The hypotheses of the statements are met -/

/-- The next state of an outcome, for evaluation. -/
def nextOf (o : Host.Outcome State Fault Refusal) : Option State :=
  match o with
  | .next t => some t
  | _ => none

theorem next_of {o : Host.Outcome State Fault Refusal} {t : State} (h : nextOf o = some t) : o = .next t := by
  cases o <;> simp_all [nextOf]

/-- Two register sources under no gate: what they read. -/
theorem witness_sources2 (s : State) (a b : Fin 16) :
    Sources2 none (reg a) (reg b) s (s.readReg (.gp a)) (s.readReg (.gp b)) ⟨s, false⟩ :=
  ⟨⟨s, false⟩, ⟨s, false⟩, none, none, rfl, rfl, rfl⟩

/-- A register destination under a Tick that has read its sources. -/
theorem witness_store (s : State) (n : Fin 16) (v : Word) :
    storeDest (dst n) v none ⟨s, false⟩ = .ok ((), ⟨s.writeReg (.gp n) v, false⟩) := rfl

/-- The record of a SET whose source is Calculated, and one that is malformed. -/
def calcRecord : RawInstr :=
  ⟨0x08, [⟨.register 0, .none, false⟩, ⟨.calculated (some ⟨⟨.stack, .sp, true⟩, true⟩) none none
    (some ⟨⟨.literal (.trailing 7), .none, false⟩, false⟩), .bp, true⟩], some (⟨.register 31, .none, false⟩, .whenZero)⟩

theorem witness_RoundTripLaws : calcRecord.countMatches = true ∧
    (decodeRaw nextWord).run [0x8000_003F_F5C0_0008] =
      .ok ((⟨0x08, [⟨.register 0, .none, false⟩, ⟨.literal (.embedded 5), .none, false⟩], none⟩ : RawInstr), []) ∧
    canonicalWords [0x05C0_0008] = [0x05C0_0008] ∧ canonicalWords [0x8000_003F_F5C0_0008] = [0x05C0_0008] := by
  decide +kernel

theorem witness_WellFormedIffInstruction : calcRecord.countMatches = true ∧ calcRecord.wellFormed = false ∧
    (Instr.raw (.set none (dst 0) (lit 5))).countMatches = true ∧
    (Instr.raw (.set none (dst 0) (lit 5))).wellFormed = true := by decide +kernel

/-- A literal operand with four trailing words of its own: the longest one (R100). -/
def longest : RawOperand :=
  let sub : Option RawSub := some ⟨⟨.literal (.trailing 0), .none, false⟩, false⟩
  ⟨.calculated sub sub sub sub, .none, true⟩

theorem witness_LengthBounds : (RawInstr.mk 0x02 [longest, longest, longest] (some (longest, .whenZero))).countMatches = true ∧
    (RawInstr.mk 0x02 [longest, longest, longest] (some (longest, .whenZero))).length = 21 ∧
    (RawInstr.mk 0x00 [] none).countMatches = true ∧ (RawInstr.mk 0x00 [] none).length = 1 := by decide +kernel

theorem witness_StepRunsInstruction :
    let s := State.withCode (machine [] []) [0x05C0_0008]
    s.runState = .running ∧ s.hostMoves = [] ∧ fetchDecode s = .ok (Instr.raw (.set none (dst 0) (lit 5)), s) ∧
      elaborate (Instr.raw (.set none (dst 0) (lit 5))) = .ok (.set none (dst 0) (lit 5)) := by decide +kernel

/-- A word of the example machine's RAM. -/
theorem ramAt_machine (rs ws : List Word) (a : Word) (h : (localAddr a).toNat < 0x1000) (k : devId a = 1) :
    (machine rs ws).ramAt a :=
  ⟨by rw [k]; decide, ⟨1, 0, 0, .ram 0x1000, []⟩, 0x1000, by rw [k]; rfl, rfl, h⟩

/-- An instruction of three words in RAM, at the top of it. -/
def topInstr : Instr :=
  .set none (dst 0) ⟨.calculated ⟨⟨.literal (.trailing 7), .none, false⟩, false⟩ none none none, .none, false⟩

/-- The machine whose RIP stands at it. -/
def topState : State :=
  { machine [] [] with rip := ram 0xFFD, mem := (machine [] []).mem.writeWords (ram 0xFFD).toNat (encode topInstr) }

theorem witness_MemoryRunsInstruction :
    (topState.runState = .running ∧ topState.hostMoves = [] ∧ topState.arrivals = .quiet ∧ topState.mem.wf ∧
      topInstr.length = 3 ∧ ∀ (k : Nat) (h : k < (encode topInstr).length),
        topState.peek (topState.rip + BitVec.ofNat 64 k) = some (encode topInstr)[k]) ∧
    ∀ k, k < topInstr.length → topState.ramAt (topState.rip + BitVec.ofNat 64 k) := by
  refine ⟨by decide +kernel, ?_⟩
  have h : ∀ k, k < topInstr.length → (localAddr (topState.rip + BitVec.ofNat 64 k)).toNat < 0x1000 ∧
      devId (topState.rip + BitVec.ofNat 64 k) = 1 := by decide +kernel
  exact fun k hk => ramAt_machine [] [] _ (h k hk).1 (h k hk).2

theorem witness_MalformedTick :
    let s := State.withCode { machine [] [] with ie := true } [0x0060_0008, 0x61]
    ∃ r, s.runState = .running ∧ s.hostMoves = [] ∧ fetchDecode s = .ok (r, s) ∧ r.wellFormed = false ∧ s.arrivals = .quiet ∧
      s.ie = true ∧ s.inISR = false ∧ s.queue = [] :=
  ⟨⟨0x08, [⟨.register 0, .none, false⟩, ⟨.calculated (some ⟨⟨.nestedCalculated 0, .none, false⟩, false⟩) none none none,
    .none, false⟩], none⟩, by decide +kernel⟩

/-- A gate on the stack: the popped word is 0, so `whenNotZero` is off and `whenZero` on. -/
theorem witness_ConditionalGate :
    let s := machine [] [0]
    let t : Tick := ⟨{ s with rsp := ram 0x11 }, false⟩
    load stk ⟨s, false⟩ = .ok ((0, none), t) ∧
      evalGate (Instr.set (some ⟨stk, .whenNotZero⟩) (dst 1) (lit 9)).shape.gate ⟨s, false⟩ = .ok (false, t) := by
  decide +kernel

theorem witness_OperandValue :
    let s := machine [2] [1, 2, 3]
    let t : Tick := ⟨s, false⟩
    kindValue (.register (.gp 0)) t = .ok (2, t) ∧ s.arrivals = .quiet ∧ s.peek (2 + relBase s .sp) = some 3 ∧
      kindValue (.calculated ⟨⟨.register (.gp 0), .none, false⟩, true⟩ none none none) t = .ok (-2, t) ∧
      kindValue .stack t = .ok (1, ⟨{ s with rsp := ram 0x11 }, false⟩) := by decide +kernel

/-- The highest word of the RAM, popped and pushed to. -/
theorem witness_StackDiscipline :
    let s := { machine [] [] with rsp := ram 0xFFF }
    let u := { machine [] [] with rsp := ram 0x1000 }
    s.arrivals = .quiet ∧ s.peek s.rsp = some 0 ∧ u.arrivals = .quiet ∧ u.mem.wf ∧ u.ramAt (u.rsp - 1) :=
  ⟨by decide +kernel, by decide +kernel, by decide +kernel, by decide +kernel, by decide +kernel,
    ⟨1, 0, 0, .ram 0x1000, []⟩, 0x1000, by decide +kernel, rfl, by decide +kernel⟩

/-- Every term present, the Index popped and negated; and a term at the stack's word. -/
theorem witness_CalculatedValue :
    let s := machine [5, 6] [3]
    let t : Tick := ⟨s, false⟩
    let u : Tick := ⟨{ s with rsp := ram 0x11 }, false⟩
    termValue ⟨⟨.register (.gp 0), .none, false⟩, false⟩ t = .ok (5, t) ∧
      termValue ⟨⟨.stack, .none, false⟩, true⟩ t = .ok (-3, u) ∧
      termValue ⟨⟨.literal (.embedded 4), .none, false⟩, false⟩ u = .ok (4, u) ∧
      termValue ⟨⟨.register (.gp 1), .none, false⟩, true⟩ u = .ok (-6, u) ∧
      subValue ⟨.stack, .none, false⟩ t = .ok (3, u) ∧ subKindValue (.literal (.embedded 0)) t = .ok (0, t) ∧
      s.peek (0 + relBase s .sp) = some 3 ∧ s.arrivals = .quiet ∧ s.peek s.rsp = some 3 := by decide +kernel

/-- Both ends of the RAM. -/
theorem witness_ramAt : (machine [] []).ramAt (ram 0) ∧ (machine [] []).ramAt (ram 0xFFF) :=
  ⟨⟨by decide +kernel, ⟨1, 0, 0, .ram 0x1000, []⟩, 0x1000, by decide +kernel, rfl, by decide +kernel⟩,
    by decide +kernel, ⟨1, 0, 0, .ram 0x1000, []⟩, 0x1000, by decide +kernel, rfl, by decide +kernel⟩

/-- A word of the RAM, the last vector table entry, and a write that is fatal. -/
theorem witness_StoreForms :
    let s := machine [] []
    s.ramAt (ram 0xFFF) ∧ s.arrivals = .quiet ∧
    primary (.literal (.trailing (ram 0xFFF))) .none ⟨s, false⟩ = .ok (ram 0xFFF, ⟨s, false⟩) ∧
    busWrite (ram 0xFFF) 7 s = .ok ((), { s with mem := s.mem.writeWord (ram 0xFFF).toNat 7 }) ∧
    busWrite 0xFFF0_0000_0000_0000 7 s = .error .directoryWrite ∧ devId 0x0020_0000_0000_0FFF ≠ 0xFFF ∧
    s.devices[devId 0x0020_0000_0000_0FFF]? = some ⟨3, 0, 0, .interruptController, []⟩ ∧
    (localAddr 0x0020_0000_0000_0FFF).toNat < 4096 :=
  ⟨witness_ramAt.2, by decide +kernel⟩

theorem witness_RegisterReadWrite : (Tick.mk (machine [] []) false).ipWritten = false ∧
    (Tick.mk (machine [] []) true).ipWritten = true ∧
    Reg.gp 15 ≠ .rzero ∧ Reg.gp 15 ≠ .rone ∧ Reg.gp 15 ≠ .rmax ∧ Reg.rint2 ≠ Reg.gp 15 := by decide +kernel

/-- Each clause at the first or last address of its range. -/
theorem witness_BusAccessOutcomes :
    let s := machine [] []
    s.arrivals = .quiet ∧ s.ramAt (ram 0xFFF) ∧
    (devId 0x0020_0000_0000_0FFF ≠ 0xFFF ∧ s.devices[devId 0x0020_0000_0000_0FFF]? = some ⟨3, 0, 0, .interruptController, []⟩ ∧
      (localAddr 0x0020_0000_0000_0FFF).toNat < 4096) ∧
    (devId 0x0030_0000_0000_0000 ≠ 0xFFF ∧ s.devices[devId 0x0030_0000_0000_0000]? = none) ∧
    (devId 0xFFEF_FFFF_FFFF_FFFF ≠ 0xFFF ∧ s.devices[devId 0xFFEF_FFFF_FFFF_FFFF]? = none) ∧
    devId 0xFFF0_0000_0000_0000 = 0xFFF ∧
    (devId (ram 0x1000) ≠ 0xFFF ∧ s.devices[devId (ram 0x1000)]? = some ⟨1, 0, 0, .ram 0x1000, []⟩ ∧
      0x1000 ≤ (localAddr (ram 0x1000)).toNat) ∧
    (devId 0 ≠ 0xFFF ∧ s.devices[devId 0]? = some ⟨2, 0, 0, .rom 0, []⟩ ∧ 0 ≤ (localAddr 0).toNat) ∧
    devId 0x0020_0000_0000_1000 ≠ 0xFFF ∧ s.devices[devId 0x0020_0000_0000_1000]? = some ⟨3, 0, 0, .interruptController, []⟩ ∧
      4096 ≤ (localAddr 0x0020_0000_0000_1000).toNat :=
  ⟨by decide +kernel, witness_ramAt.2, by decide +kernel⟩

/-- The directory of the example machine, at each kind of word and above it; and an AddDevice. -/
theorem witness_DirectoryContents :
    State.reset.busReset = .ok State.reset ∧ State.reset.arrivals = .quiet ∧
    State.reset.devices[2]? = some ⟨3, 0, 0, .interruptController, []⟩ ∧
    (∀ k ∈ [0, 9, 10, 11, 12, 13], devId (0xFFF0_0000_0000_0000 + BitVec.ofNat 64 k) = 0xFFF ∧
      (localAddr (0xFFF0_0000_0000_0000 + BitVec.ofNat 64 k)).toNat = k) ∧ 4 * State.reset.devices.length < 13 ∧
    State.reset.addDevice ⟨1, 0, 0, .ram 1, []⟩ =
      .next { State.reset with devices := exampleDevices ++ [⟨1, 0, 0, .ram 1, []⟩] } :=
  ⟨by decide +kernel, by decide +kernel, by decide +kernel, by decide +kernel, by decide +kernel,
    next_of (by decide +kernel)⟩

theorem witness_BusIsolation :
    let s := machine [] [7]
    s.controllerCount ≤ 1 ∧ busRead (ram 0x10) s = .ok (7, s) ∧
      busWrite (ram 0xFFF) 9 s = .ok ((), { s with mem := s.mem.writeWord (ram 0xFFF).toNat 9 }) ∧
      devId 0x0020_0000_0000_0FFF ≠ devId (ram 0xFFF) ∧ s.arrivals = .quiet := by decide +kernel

theorem witness_ReadAfterWrite :
    let s := machine [] [7]
    let t := { s with mem := s.mem.writeWord (ram 0x10).toNat 9 }
    s.mem.wf ∧ s.vectors.wf ∧ s.controllerCount ≤ 1 ∧ s.arrivals = .quiet ∧ s.peek (ram 0x10) = some 7 ∧
      busWrite (ram 0x10) 9 s = .ok ((), t) ∧ ram 0x11 ≠ ram 0x10 ∧
      busWrite (ram 0x11) 8 t = .ok ((), { t with mem := t.mem.writeWord (ram 0x11).toNat 8 }) := by decide +kernel

/-- An overlapping copy at the top of the RAM; a source range into the next window, a destination range that wraps. -/
theorem witness_BusCopyThroughBuffer :
    let s := machine [] []
    (s.arrivals = .quiet ∧ s.mem.wf ∧ s.vectors.wf ∧ s.controllerCount ≤ 1 ∧
      ¬ (ram 0xFFD + (2 - 1)).toNat < (ram 0xFFD).toNat ∧ devId (ram 0xFFD + (2 - 1)) = devId (ram 0xFFD) ∧
      ¬ (ram 0xFFE + (2 - 1)).toNat < (ram 0xFFE).toNat ∧ devId (ram 0xFFE + (2 - 1)) = devId (ram 0xFFE) ∧
      ∀ k, k < 2 → s.peek (ram 0xFFD + BitVec.ofNat 64 k) = some 0) ∧
    (∀ k, k < (2 : Word).toNat → s.ramAt (ram 0xFFE + BitVec.ofNat 64 k)) ∧
    devId (0x000F_FFFF_FFFF_FFFF + (2 - 1)) ≠ devId 0x000F_FFFF_FFFF_FFFF ∧
    (0xFFFF_FFFF_FFFF_FFFF + (2 - 1) : Word).toNat < (0xFFFF_FFFF_FFFF_FFFF : Word).toNat := by
  refine ⟨by decide +kernel, fun k hk => ?_, by decide +kernel, by decide +kernel⟩
  have h : k = 0 ∨ k = 1 := by
    have : (2 : Word).toNat = 2 := rfl
    omega
  obtain rfl | rfl := h
  · exact ⟨by decide +kernel, ⟨1, 0, 0, .ram 0x1000, []⟩, 0x1000, by decide +kernel, rfl, by decide +kernel⟩
  · exact witness_ramAt.2

theorem witness_EnqueueCapturesVector : (machine [] []).arrivals = .quiet ∧ (4095 : Word).toNat < 4096 ∧
    4096 ≤ (4096 : Word).toNat ∧
    busWrite 0x0020_0000_0000_0000 5 (machine [] []) =
      .ok ((), { machine [] [] with vectors := Memory.writeWord [] 0 5 }) := by decide +kernel

/-- A state in which a record waits, and the three in which none is delivered. -/
def waiting : State := { machine [] [] with rip := 5, ie := true, queue := [⟨9, 1, 2, 0x500⟩] }

theorem witness_Delivery : waiting.arrivals = .quiet ∧ waiting.ie = true ∧ waiting.inISR = false ∧
    waiting.queue = ⟨9, 1, 2, 0x500⟩ :: [] ∧ { waiting with ie := false }.ie = false ∧
    { waiting with inISR := true }.inISR = true ∧ { waiting with queue := [] }.queue = [] := by decide +kernel

theorem witness_NoNesting :
    let s := State.withCode { waiting with inISR := true } [0x1]
    step s = .next { s with rip := 6 } ∧ s.runState = .running ∧ s.hostMoves = [] ∧ s.inISR = true ∧
      fetchDecode s = .ok (⟨0x01, [], none⟩, s) ∧ (0x01 : BitVec 8) ≠ 0x03 :=
  ⟨next_of (by decide +kernel), by decide +kernel⟩

/-- The last planned point, the first of a recurring plan with two records, and a machine that has not started. -/
theorem witness_InterleavingPoint :
    let s := { machine [] [] with started := true, arrivals := ⟨[[.timer]], []⟩ }
    let u := { machine [] [] with
      started := true
      devices := exampleDevices ++ [(⟨9, 0, 0, .external 0 0, [4095]⟩ : Device)]
      arrivals := ⟨[], [[.device 3 4095 1 2], []]⟩ }
    s.started = true ∧ s.arrivals.now = [.timer] ∧ u.started = true ∧
      u.devices[3]? = some ⟨9, 0, 0, .external 0 0, [4095]⟩ ∧ (4095 : Word) ∈ ([4095] : List Word) ∧
      (4095 : Word).toNat < 4096 ∧ u.arrivals.now = [.device 3 4095 1 2] ∧
      (Schedule.mk [[.timer, .timer]] []).now = .timer :: [.timer] ∧ (machine [] []).started = false ∧
      poll s = .ok ((), { s with arrivals := .quiet, queue := [⟨2, 0, 0, 0⟩] }) := by decide +kernel

/-- A machine in the handler of a timer that fires once in each Tick: its EINT returns, and the next record is entered in
the same Tick, so that the state comes back. -/
def ticking : State :=
  { State.withCode { machine [] [] with rip := ram 0x20 } [0x3] with
    started := true
    ie := true
    inISR := true
    rsip := ram 0x40
    vectors := Memory.writeWord [] 2 (ram 0x20)
    arrivals := ⟨[], [[], [.timer]]⟩ }

theorem witness_TimerFairness : RunningForever (fun _ => ticking) ∧ ticking.started = true ∧ ticking.arrivals.fair :=
  have h : step ticking = .next ticking ∧ ticking.runState = .running ∧ ticking.hostMoves = [] :=
    ⟨next_of (by decide +kernel), by decide +kernel⟩
  ⟨fun _ => h, by decide +kernel, ⟨[.timer], by decide +kernel, by decide⟩⟩

/-- The queue as delivery finds it in a Tick, for the tests. -/
def queueAtDelivery (s : State) : Option (List InterruptRecord) :=
  match fetchDecode s with
  | .error _ => none
  | .ok (q, s1) =>
    match execute q s1 with
    | .fault _ => none
    | .refused _ => none
    | .next s2 =>
      match poll s2 with
      | .error _ => none
      | .ok (_, s3) => some s3.queue

theorem queueAtDelivery_iff {s : State} {r : InterruptRecord} :
    EnqueuedInTick s r ↔ ∃ new, queueAtDelivery s = some (s.queue ++ new) ∧ r ∈ new := by
  constructor
  · rintro ⟨q, s1, s2, s3, new, h1, h2, h3, h4, h5⟩
    exact ⟨new, by simp [queueAtDelivery, h1, h2, h3, h4], h5⟩
  · rintro ⟨new, h, hr⟩
    unfold queueAtDelivery at h
    split at h
    · cases h
    · rename_i q s1 h1
      split at h
      · cases h
      · cases h
      · rename_i s2 h2
        split at h
        · cases h
        · rename_i u s3 h3
          exact ⟨q, s1, s2, s3, new, h1, h2, h3, Option.some.inj h, hr⟩

/-- In each Tick of that run the timer's record joins the queue. -/
theorem test_ticking_enqueues : EnqueuedInTick ticking ⟨2, 0, 0, ram 0x20⟩ :=
  queueAtDelivery_iff.2 ⟨[⟨2, 0, 0, ram 0x20⟩], by decide +kernel⟩

/-- At a HLT with a quiet schedule and an empty queue no record joins: the same state follows for ever, without a timer. -/
theorem test_quiet_enqueues_nothing (r : InterruptRecord) :
    ¬ EnqueuedInTick { ticking with arrivals := .quiet, mem := [] } r := by
  rw [queueAtDelivery_iff, show queueAtDelivery { ticking with arrivals := .quiet, mem := [] } = some [] by decide +kernel]
  rintro ⟨new, h, hr⟩
  rw [show new = [] from (Option.some.inj h).symm] at hr
  cases hr

/-- The boot device at id 0 and at id 1, and none. -/
theorem witness_BusResetTable :
    let c : Device := ⟨3, 0, 0, .interruptController, []⟩
    let s := { State.reset with devices := [⟨1, 0, 0, .ram 0x1000, []⟩, ⟨2, 0, 0, .rom 0, []⟩, c] }
    let u := { State.reset with devices := [⟨1, 0, 0, .ram 0x1000, []⟩, c] }
    State.reset.devices[2]? = some c ∧ State.reset.devices[0]? = some ⟨2, 0, 0, .rom 0, []⟩ ∧
      s.devices[2]? = some c ∧ s.devices[1]? = some ⟨2, 0, 0, .rom 0, []⟩ ∧
      (∀ k, k < 1 → ∀ e ∈ s.devices[k]?, e.deviceType ≠ s.params.bootDeviceType) ∧
      u.devices[1]? = some c ∧ ∀ d ∈ u.devices, d.deviceType ≠ u.params.bootDeviceType := by decide +kernel

/-- An empty image, and an image of one word that is not the boot magic, whatever the boot magic is. -/
theorem witness_BootImageExposed : State.reset.devices[0]? = some ⟨2, 0, 0, .rom 0, []⟩ ∧ State.reset.mem.wf ∧
    ([] : List Word).head? ≠ some Config.bootMagic ∧ [Config.bootMagic + 1].head? ≠ some Config.bootMagic ∧
    [Config.bootMagic + 1].length ≤ 2 ^ 52 := by
  refine ⟨by decide +kernel, by decide +kernel, by simp, ?_, by simp⟩
  generalize Config.bootMagic = w
  simp only [List.head?_cons, ne_eq, Option.some.injEq]
  bv_omega

/-- Room for one more device, no more room, and a second controller. -/
theorem witness_AddDeviceIds : State.reset.devices.length < 0xFFF ∧ 0 < State.reset.controllerCount ∧
    { State.reset with devices := List.replicate 0xFFE ⟨1, 0, 0, .ram 1, []⟩ }.devices.length < 0xFFF ∧
    { State.reset with devices := List.replicate 0xFFF ⟨1, 0, 0, .ram 1, []⟩ }.devices.length = 0xFFF := by
  exact ⟨by decide +kernel, by decide +kernel, by simp only [List.length_replicate]; decide, List.length_replicate⟩

theorem witness_HostMoves :
    let s := { State.reset with hostMoves := [.stepOnce, .suspend] }
    step (State.withCode s [0x1]) = .next { State.withCode s [0x1] with rip := 1, hostMoves := [.suspend] } ∧
      s.hostMoves = .stepOnce :: [.suspend] ∧ s.arrivals = .quiet ∧ s.runState = .stopped ∧
      { s with hostMoves := [.suspend], runState := .running }.runState = .running ∧
      { s with mem := [] }.mem.wf ∧ s.devices[1]? = some ⟨1, 0, 0, .ram 0x1000, []⟩ ∧
      (List.replicate 0x1000 (1 : Word)).length ≤ min 0x1000 (2 ^ 52) ∧ 0x1000 < (List.replicate 0x1001 (1 : Word)).length ∧
      (∀ m ∈ [HostMove.processorReset, .suspend, .resume, .wait, .loadImage 0 [], .loadRam 1 [1], .writeRegister .rsp 7, .busReset, .busStart, .busStop,
        .addDevice ⟨1, 0, 0, .ram 1, []⟩], { s with hostMoves := [m] }.hostMoves = m :: []) ∧
      HostMove.writeRegister .rsp 7 ≠ .processorReset ∧ HostMove.writeRegister .rsp 7 ≠ .suspend :=
  ⟨next_of (by decide +kernel), by decide +kernel⟩

/-- A stopped machine, and a machine at a HLT that is idle although a record of another agent is due; both step. -/
theorem witness_IdleAndStopped :
    let s := State.withCode { machine [] [] with started := true, arrivals := ⟨[[.timer], []], []⟩ } [0x0]
    State.reset.stopped ∧ State.reset.hostMoves = [] ∧ State.reset.arrivals = .quiet ∧ step State.reset = .next State.reset ∧
      s.idle ∧ s.hostMoves = [] ∧ step s = .next { s with arrivals := .quiet, queue := [⟨2, 0, 0, 0⟩] } ∧
      { s with ie := true }.started = true :=
  ⟨rfl, rfl, rfl, next_of (by decide +kernel),
    ⟨by decide +kernel, ⟨⟨0x00, [], none⟩, none, by decide +kernel, by decide +kernel, rfl⟩, .inl (by decide +kernel)⟩,
    by decide +kernel, next_of (by decide +kernel), by decide +kernel⟩

theorem witness_HltNopInteIntd : evalGate none ⟨machine [] [], false⟩ = .ok (true, ⟨machine [] [], false⟩) ∧
    evalGate (some ⟨stk, .whenZero⟩) ⟨machine [] [0], false⟩ =
      .ok (true, ⟨{ machine [] [0] with rsp := ram 0x11 }, false⟩) := by decide +kernel

/-- Three sources, the first at a type of 4095, of 4096, or an address. -/
theorem witness_sources3 (s : State) (a b c : Fin 16) :
    Sources3 none (reg a) (reg b) (reg c) s (s.readReg (.gp a)) (s.readReg (.gp b)) (s.readReg (.gp c)) ⟨s, false⟩ :=
  ⟨⟨s, false⟩, ⟨s, false⟩, ⟨s, false⟩, none, none, none, rfl, rfl, rfl, rfl⟩

theorem witness_SoftwareInterrupt :
    Sources3 none (reg 0) (reg 1) (reg 2) (machine [4095, 1, 2] []) 4095 1 2 ⟨machine [4095, 1, 2] [], false⟩ ∧
    Sources3 none (reg 0) (reg 1) (reg 2) (machine [4096, 1, 2] []) 4096 1 2 ⟨machine [4096, 1, 2] [], false⟩ ∧
    (4095 : Word).toNat < 4096 ∧ 4096 ≤ (4096 : Word).toNat ∧ (machine [4095, 1, 2] []).arrivals = .quiet :=
  ⟨witness_sources3 _ 0 1 2, witness_sources3 _ 0 1 2, by decide, by decide, rfl⟩

theorem witness_ReturnFromInterrupt : waiting.arrivals = .quiet ∧ waiting.ie = true ∧ waiting.inISR = false ∧
    waiting.queue = ⟨9, 1, 2, 0x500⟩ :: [] ∧ { waiting with inISR := true }.inISR = true ∧
    evalGate none ⟨waiting, false⟩ = .ok (true, ⟨waiting, false⟩) := by decide +kernel

/-- Registers, and the stack twice. -/
theorem witness_Exchange :
    let s := machine [5, 6] [1, 2]
    let t : Tick := ⟨{ s with rsp := ram 0x11 }, false⟩
    evalGate none ⟨s, false⟩ = .ok (true, ⟨s, false⟩) ∧
      load (Dest.operand .stack) ⟨s, false⟩ = .ok ((1, none), t) ∧ load (Dest.operand (dst 0)) t = .ok ((5, none), t) ∧
      storeDest .stack 5 none t =
        .ok ((), ⟨{ s with mem := s.mem.writeWord (ram 0x10).toNat 5 }, false⟩) ∧
      storeDest (dst 0) 1 none ⟨{ s with mem := s.mem.writeWord (ram 0x10).toNat 5 }, false⟩ =
        .ok ((), ⟨{ s with mem := s.mem.writeWord (ram 0x10).toNat 5 }.writeReg (.gp 0) 1, false⟩) := by decide +kernel

/-- A target in memory that equals the expected register, and one that does not. -/
theorem witness_CompareAndSwap :
    let a : Dest := .indirect (.register (.gp 1)) .none
    let s := machine [0, ram 0x10, 3] [3]
    let u := machine [0, ram 0x10, 4] [3]
    evalGate none ⟨s, false⟩ = .ok (true, ⟨s, false⟩) ∧ load a.operand ⟨s, false⟩ = .ok ((3, some (ram 0x10)), ⟨s, false⟩) ∧
      load (dst 2).operand ⟨s, false⟩ = .ok ((3, none), ⟨s, false⟩) ∧ load (lit 7) ⟨s, false⟩ = .ok ((7, none), ⟨s, false⟩) ∧
      storeDest a 7 (some (ram 0x10)) ⟨s, false⟩ =
        .ok ((), ⟨{ s with mem := s.mem.writeWord (ram 0x10).toNat 7 }, false⟩) ∧
      load (dst 2).operand ⟨u, false⟩ = .ok ((4, none), ⟨u, false⟩) ∧
      storeDest (dst 2) 3 none ⟨u, false⟩ = .ok ((), ⟨u.writeReg (.gp 2) 3, false⟩) := by decide +kernel

/-- One register source under no gate. -/
theorem witness_sources1 (s : State) (a : Fin 16) : Sources1 none (reg a) s (s.readReg (.gp a)) ⟨s, false⟩ :=
  ⟨⟨s, false⟩, none, rfl, rfl⟩

theorem witness_SetAndNot (s : State) (v : Word) : Sources1 none (reg 0) s (s.readReg (.gp 0)) ⟨s, false⟩ ∧
    storeDest (dst 15) v none ⟨s, false⟩ = .ok ((), ⟨s.writeReg (.gp 15) v, false⟩) := ⟨witness_sources1 s 0, rfl⟩

theorem witness_BlockCopy :
    let s := machine [ram 0x11, ram 0x10, 1] [7]
    Sources3 none (reg 0) (reg 1) (reg 2) s (ram 0x11) (ram 0x10) 1 ⟨s, false⟩ ∧
      busCopy (ram 0x10) (ram 0x11) 1 s = .ok ((), { s with mem := s.mem.writeWord (ram 0x11).toNat 7 }) :=
  ⟨witness_sources3 _ 0 1 2, by decide +kernel⟩

/-- A push to the highest word of the RAM, a pop of a word. -/
theorem witness_CallAndReturn :
    let s := { machine [0x40] [] with rsp := ram 0x1000 }
    let u := machine [] [0x12]
    Sources1 none (reg 0) s 0x40 ⟨s, false⟩ ∧
      busWrite (s.rsp - 1) (s.rip + BitVec.ofNat 64 (Instr.call none (reg 0)).length) { s with rsp := s.rsp - 1 } =
        .ok ((), { s with rsp := ram 0xFFF, mem := s.mem.writeWord (ram 0xFFF).toNat 1 }) ∧
      evalGate none ⟨u, false⟩ = .ok (true, ⟨u, false⟩) ∧ busRead u.rsp u = .ok (0x12, u) :=
  ⟨witness_sources1 _ 0, by decide +kernel, rfl, by decide +kernel⟩

theorem witness_DebugInstructions (s : State) :
    Sources3 none (reg 0) (reg 1) (reg 2) s (s.readReg (.gp 0)) (s.readReg (.gp 1)) (s.readReg (.gp 2)) ⟨s, false⟩ ∧
    evalGate none ⟨s, false⟩ = .ok (true, ⟨s, false⟩) := ⟨witness_sources3 s 0 1 2, rfl⟩

/-- The operands of V-ARI-1, and any value stored. -/
theorem witness_AddSubMul (v : Word) :
    let s := machine [0xFFFF_FFFF_FFFF_FFFF, 1] []
    Sources2 none (reg 0) (reg 1) s 0xFFFF_FFFF_FFFF_FFFF 1 ⟨s, false⟩ ∧
      storeDest (dst 2) v none ⟨s, false⟩ = .ok ((), ⟨s.writeReg (.gp 2) v, false⟩) := ⟨witness_sources2 _ 0 1, rfl⟩

theorem witness_DivideAndRemainder (v : Word) :
    let s := machine [0xFFFF_FFFF_FFFF_FFFF, 1] []
    Sources2 none (reg 0) (reg 1) s 0xFFFF_FFFF_FFFF_FFFF 1 ⟨s, false⟩ ∧ (1 : Word) ≠ 0 ∧
      storeDest (dst 2) v none ⟨s, false⟩ = .ok ((), ⟨s.writeReg (.gp 2) v, false⟩) :=
  ⟨witness_sources2 _ 0 1, by decide, rfl⟩

/-- A divisor of 0 (+0.0), and of -0.0. -/
theorem witness_DivideByZero :
    Sources2 none (reg 0) (reg 1) (machine [7, 0] []) 7 0 ⟨machine [7, 0] [], false⟩ ∧
    Sources2 none (reg 0) (reg 1) (machine [7, 0x8000_0000_0000_0000] []) 7 0x8000_0000_0000_0000
      ⟨machine [7, 0x8000_0000_0000_0000] [], false⟩ ∧ (machine [7, 0] []).arrivals = .quiet :=
  ⟨witness_sources2 _ 0 1, witness_sources2 _ 0 1, rfl⟩

theorem witness_BitwiseLogic :
    let s := machine [0xF0F0, 0xFF00] []
    Sources2 none (reg 0) (reg 1) s 0xF0F0 0xFF00 ⟨s, false⟩ ∧
      (∀ k, k < 64 → (0xF000 : Word).getLsbD k = ((0xF0F0 : Word).getLsbD k && (0xFF00 : Word).getLsbD k)) ∧
      storeDest (dst 2) 0xF000 none ⟨s, false⟩ = .ok ((), ⟨s.writeReg (.gp 2) 0xF000, false⟩) :=
  ⟨witness_sources2 _ 0 1, by decide +kernel, rfl⟩

/-- A count of 64, which the two modes read differently. -/
theorem witness_Shifts (v : Word) :
    let s := machine [0xF0, 64] []
    let u := { s with params := ⟨.saturate, 2, true⟩ }
    Sources2 none (reg 0) (reg 1) s 0xF0 64 ⟨s, false⟩ ∧ Sources2 none (reg 0) (reg 1) u 0xF0 64 ⟨u, false⟩ ∧
      s.params.shiftCountMode = .mask ∧ u.params.shiftCountMode = .saturate ∧
      storeDest (dst 2) v none ⟨s, false⟩ = .ok ((), ⟨s.writeReg (.gp 2) v, false⟩) ∧
      storeDest (dst 2) v none ⟨u, false⟩ = .ok ((), ⟨u.writeReg (.gp 2) v, false⟩) :=
  ⟨witness_sources2 _ 0 1, witness_sources2 _ 0 1, rfl, rfl, rfl, rfl⟩

/-- V-BIT-17 to the right, V-BIT-20 to the left. -/
theorem witness_Rotations :
    let s := machine [0x1234, 8] []
    let u := machine [0x3400_0000_0000_0012, 8] []
    Sources2 none (reg 0) (reg 1) s 0x1234 8 ⟨s, false⟩ ∧ Sources2 none (reg 0) (reg 1) u 0x3400_0000_0000_0012 8 ⟨u, false⟩ ∧
      (∀ k, k < 64 → (0x3400_0000_0000_0012 : Word).getLsbD k =
        (0x1234 : Word).getLsbD ((k + (8 : Word).toNat % 64) % 64)) ∧
      (∀ k, k < 64 → (0x1234 : Word).getLsbD ((k + (8 : Word).toNat % 64) % 64) =
        (0x3400_0000_0000_0012 : Word).getLsbD k) ∧
      storeDest (dst 2) 0x1234 none ⟨s, false⟩ = .ok ((), ⟨s.writeReg (.gp 2) 0x1234, false⟩) :=
  ⟨witness_sources2 _ 0 1, witness_sources2 _ 0 1, by decide +kernel, by decide +kernel, rfl⟩

/-- Equal operands, where the six relations part. -/
theorem witness_Comparisons (v : Word) :
    let s := machine [5, 5] []
    Sources2 none (reg 0) (reg 1) s 5 5 ⟨s, false⟩ ∧
      storeDest (dst 2) v none ⟨s, false⟩ = .ok ((), ⟨s.writeReg (.gp 2) v, false⟩) := ⟨witness_sources2 _ 0 1, rfl⟩

/-- 1.5 and 2.25, whose results no operation leaves open; two infinities, whose difference is a NaN. -/
theorem witness_FloatArithmetic :
    let s := machine [0x3FF8_0000_0000_0000, 0x4002_0000_0000_0000] []
    let u := machine [0x7FF0_0000_0000_0000, 0x7FF0_0000_0000_0000] []
    Sources2 none (reg 0) (reg 1) s 0x3FF8_0000_0000_0000 0x4002_0000_0000_0000 ⟨s, false⟩ ∧
      f64IsZero 0x4002_0000_0000_0000 = false ∧
      f64Add 0x3FF8_0000_0000_0000 0x4002_0000_0000_0000 = some 0x400E_0000_0000_0000 ∧
      f64Mod 0x3FF8_0000_0000_0000 0x4002_0000_0000_0000 = some 0x3FF8_0000_0000_0000 ∧
      storeDest (dst 2) 0x400E_0000_0000_0000 none ⟨s, false⟩ =
        .ok ((), ⟨s.writeReg (.gp 2) 0x400E_0000_0000_0000, false⟩) ∧
      Sources2 none (reg 0) (reg 1) u 0x7FF0_0000_0000_0000 0x7FF0_0000_0000_0000 ⟨u, false⟩ ∧
      f64Sub 0x7FF0_0000_0000_0000 0x7FF0_0000_0000_0000 = none ∧
      f64IsZero 0x7FF0_0000_0000_0000 = false ∧ f64Div 0x7FF0_0000_0000_0000 0x7FF0_0000_0000_0000 = none ∧
      storeDest (dst 2) (nanOf (Config.nanDraw u.draws)) none ⟨{ u with draws := u.draws + 1 }, false⟩ =
        .ok ((), ⟨{ u with draws := u.draws + 1 }.writeReg (.gp 2) (nanOf (Config.nanDraw u.draws)), false⟩) :=
  ⟨witness_sources2 _ 0 1, by decide +kernel, by decide +kernel, by decide +kernel, rfl, witness_sources2 _ 0 1,
    by decide +kernel, by decide +kernel, by decide +kernel, rfl⟩

/-- A divisor that is no zero, an operation with a result, and a NaN. -/
theorem witness_NaNResults : f64IsZero 0x3FF0_0000_0000_0000 = false ∧
    f64Add 0x3FF0_0000_0000_0000 0x3FF0_0000_0000_0000 = some 0x4000_0000_0000_0000 ∧
    f64IsNaN 0x7FF8_0000_0000_0000 = true := by decide +kernel

/-- Halfway between 0 and the smallest subnormal, and the least value that rounds to an infinity. -/
theorem witness_RoundsToNearestEven : 0 < 2 ∧ f64Round 1 2 ≠ f64InfBits ∧ 0 < f64InfBits ∧
    f64Round ((2 ^ 54 - 1) * 2 ^ 2044) 1 = f64InfBits := by decide +kernel

/-- Finite operands, the smallest subnormal and the largest finite value among them; exact results, inexact and zero ones;
infinities of both signs. -/
theorem witness_ExactResults : (f64Finite 0x7FEF_FFFF_FFFF_FFFF ∧ f64Finite 1 ∧ f64IsZero 1 = false ∧
    f64IsInf 0x7FF0_0000_0000_0000 = true ∧ f64Int 2 = f64Int 1 + f64Int 1 ∧ f64Int 0 = f64Int 1 - f64Int 1 ∧
    f64Finite 0x3FF0_0000_0000_0000 ∧ f64Int 1 * 2 ^ 1074 = f64Int 1 * f64Int 0x3FF0_0000_0000_0000 ∧
    f64Int 1 * f64Int 0x3FF0_0000_0000_0000 = f64Int 1 * 2 ^ 1074 ∧ f64Finite 0x8000_0000_0000_0000 ∧
    f64IsZero 0x8000_0000_0000_0000 = true) ∧
    (f64Int 0x7FEF_FFFF_FFFF_FFFF + f64Int 1 ≠ 0 ∧ f64Int 0x7FEF_FFFF_FFFF_FFFF - f64Int 1 ≠ 0 ∧
      f64Int 0x7FEF_FFFF_FFFF_FFFF * f64Int 1 ≠ 0 ∧ f64Int 1 ≠ 0 ∧ f64Int 0 + f64Int 0x8000_0000_0000_0000 = 0 ∧
      f64Int 0x8000_0000_0000_0000 - f64Int 0 = 0 ∧ f64Sign 0x8000_0000_0000_0000 = true ∧ f64Sign 0 = false) ∧
    f64IsNaN 0x7FF0_0000_0000_0000 = false ∧ f64IsZero 0x7FF0_0000_0000_0000 = false ∧
    f64IsInf 0xFFF0_0000_0000_0000 = true ∧ f64IsNaN 0xFFF0_0000_0000_0000 = false ∧
    f64Sign 0xFFF0_0000_0000_0000 ≠ f64Sign 0x7FF0_0000_0000_0000 ∧ f64IsNaN 1 = false := by
  refine ⟨⟨?_, ?_, ?_, ?_, ?_, ?_, ?_, ?_, ?_, ?_, ?_⟩, ?_⟩ <;> (try unfold f64Finite) <;> decide +kernel

/-- A SET to memory that completes, and a gated-off one. -/
theorem witness_FrameOneDestination :
    let d : Dest := .indirect (.literal (.trailing (ram 0xFFF))) .none
    let i : Instr := .set none d (lit 1)
    let s := machine [1] []
    exec i s = .next { s with rip := 2, mem := s.mem.writeWord (ram 0xFFF).toNat 1 } ∧
      exec (.set (some ⟨reg 0, .whenZero⟩) d (lit 1)) s = .next { s with rip := 2 } ∧
      i.shape.params = .write d :: [.read (lit 1)] ∧ s.controllerCount ≤ 1 ∧
      evalGate i.shape.gate ⟨s, false⟩ = .ok (true, ⟨s, false⟩) ∧
      loadPhase i.shape.params ⟨s, false⟩ = .ok ([⟨0, none, false⟩, ⟨1, none, false⟩], ⟨s, false⟩) ∧
      resolveDest d none ⟨s, false⟩ = .ok (.word (ram 0xFFF), ⟨s, false⟩) ∧ usesStack i = false ∧ s.arrivals = .quiet ∧
      evalGate (some ⟨reg 0, .whenZero⟩) ⟨s, false⟩ = .ok (false, ⟨s, false⟩) :=
  ⟨next_of (by decide +kernel), next_of (by decide +kernel), by decide +kernel⟩

/-- A successful and a failing CAS, and an XCHG with a word of memory. -/
theorem witness_FrameSwaps :
    let a : Dest := .indirect (.register (.gp 1)) .none
    let s := machine [0, ram 0x10, 3] [3]
    let u := machine [0, ram 0x10, 4] [3]
    exec (.cas none a (dst 2) (lit 7)) s = .next { s with rip := 1, mem := s.mem.writeWord (ram 0x10).toNat 7 } ∧
      exec (.cas none a (dst 2) (lit 7)) u = .next { u.writeReg (.gp 2) 3 with rip := 1 } ∧
      exec (.xchg none a (dst 2)) u =
        .next { u.writeReg (.gp 2) 3 with rip := 1, mem := u.mem.writeWord (ram 0x10).toNat 4 } ∧
      resolveDest a (some (ram 0x10)) ⟨s, false⟩ = .ok (.word (ram 0x10), ⟨s, false⟩) ∧
      resolveDest (dst 2) none ⟨u, false⟩ = .ok (.register (.gp 2), ⟨u, false⟩) ∧
      writeTarget (.word (ram 0x10)) 4 ⟨u, false⟩ =
        .ok ((), ⟨{ u with mem := u.mem.writeWord (ram 0x10).toNat 4 }, false⟩) ∧
      s.controllerCount ≤ 1 ∧ usesStack (.cas none a (dst 2) (lit 7)) = false ∧ s.arrivals = .quiet ∧
      evalGate (some ⟨reg 2, .whenZero⟩) ⟨s, false⟩ = .ok (false, ⟨s, false⟩) :=
  ⟨next_of (by decide +kernel), next_of (by decide +kernel), next_of (by decide +kernel), by decide +kernel⟩

theorem witness_FrameNoDestination :
    exec (.dbg none (lit 1) (lit 2) (lit 3)) (machine [] []) =
      .next { machine [] [] with rip := 1, hooks := [.debug 1 2 3] } ∧
    exec (.eint none) { machine [] [] with inISR := true, rsip := 7 } = .next { machine [] [] with rip := 7 } ∧
    (Instr.dbg none (lit 1) (lit 2) (lit 3)).shape.opcode ∈
      ([0x00, 0x01, 0x02, 0x03, 0x04, 0x05, 0x0C, 0x0D] : List (BitVec 8)) ∧
    (Instr.eint none).shape.opcode = 0x03 ∧ usesStack (.eint none) = false ∧ (machine [] []).arrivals = .quiet :=
  ⟨next_of (by decide +kernel), next_of (by decide +kernel), by decide +kernel⟩

/-- A CALL, a RET and a CPY that complete. -/
theorem witness_FrameCallRetCpy :
    let s := machine [ram 0x11, ram 0x10, 1] [7]
    exec (.call none (reg 0)) s =
        .next { s with rip := ram 0x11, rsp := ram 0xF, mem := s.mem.writeWord (ram 0xF).toNat 1 } ∧
      exec (.ret none) s = .next { s with rip := 7, rsp := ram 0x11 } ∧
      exec (.cpy none (reg 0) (reg 1) (reg 2)) s = .next { s with rip := 1, mem := s.mem.writeWord (ram 0x11).toNat 7 } ∧
      (s.controllerCount ≤ 1 ∧ s.arrivals = .quiet) ∧
      Sources1 none (reg 0) s (ram 0x11) ⟨s, false⟩ ∧
      Sources3 none (reg 0) (reg 1) (reg 2) s (ram 0x11) (ram 0x10) 1 ⟨s, false⟩ :=
  ⟨next_of (by decide +kernel), next_of (by decide +kernel), next_of (by decide +kernel), by decide +kernel,
    witness_sources1 _ 0, witness_sources3 _ 0 1 2⟩

theorem witness_ControlBits :
    exec (.intd none) { machine [] [] with ie := true } = .next { machine [] [] with rip := 1 } :=
  next_of (by decide +kernel)

theorem witness_TickLeavesFixed :
    let s := State.withCode (machine [] []) [0x05C0_0008]
    step s = .next { s.writeReg (.gp 0) 5 with rip := 1 } ∧ s.runState = .running ∧ s.hostMoves = [] :=
  ⟨next_of (by decide +kernel), by decide +kernel⟩

/-- The state after reset meets the invariant and steps. -/
theorem witness_StepKeepsInvariant : State.reset.Inv ∧ step State.reset = .next State.reset :=
  ⟨{ memWf := by decide
     vectorsWf := by decide
     vectorsInTable := by decide
     memBacked := by simp [State.reset]
     queueTypes := by decide
     idsAssignable := by decide
     oneController := by decide
     bootAligned := by decide
     directoryTable := ⟨3, by decide, by decide⟩ }, next_of (by decide +kernel)⟩

end Sys2Proof.Tests
end

section
/-!
PROOFS. The register file (O15), the control bits of an instruction (O57), and the invariant of every step (O60).
-/

namespace Sys2Proof.Machine

/-! ## Registers (R22, R23, R159) -/

/-- The three constant registers are those that `constantReg` names. -/
theorem constantReg_eq_false {r : Reg} (h0 : r ≠ .rzero) (h1 : r ≠ .rone) (hm : r ≠ .rmax) : constantReg r = false := by
  cases r <;> simp_all [constantReg]

/-- Settles O15, from the register laws of Laws/State.lean and the equation of the IP advance. -/
theorem registerReadWrite : Obligations.RegisterReadWrite := by
  refine ⟨fun t next hw => ?_, fun t next hw => ?_, fun s => ⟨rfl, rfl, rfl⟩, fun s v => ⟨rfl, rfl, rfl⟩,
    fun s r v h0 h1 hm => s.readReg_writeReg_same r v (constantReg_eq_false h0 h1 hm),
    fun s r r' v h => s.readReg_writeReg_ne r r' v h, fun t r v => ?_⟩
  · rw [Tick.advance_eq, hw]; rfl
  · rw [Tick.advance_eq, hw]; rfl
  · rw [setReg_apply]
    by_cases hr : r = .rip <;> simp [hr]

/-! ## Control state: what an instruction can do to it (R30 to R32, R330, R331) -/

/-- What an instruction of opcode `op` may do to the control bits and the hook events: nothing, or what INTE, INTD, EINT, BRK
and DBG do. -/
structure ControlChange (op : BitVec 8) (s t : State) : Prop where
  ie : t.ie = s.ie ∨ (op = 0x04 ∧ t.ie = true) ∨ (op = 0x05 ∧ t.ie = false)
  inISR : t.inISR = s.inISR ∨ (op = 0x03 ∧ s.inISR = true ∧ t.inISR = false)
  runState : t.runState = s.runState ∨ (op = 0x0D ∧ t.runState = .stopped)
  hooks : t.hooks = s.hooks ∨
    (op = 0x0C ∧ s.params.debugHookInstalled = true ∧ ∃ a b c, t.hooks = s.hooks ++ [.debug a b c]) ∨
    (op = 0x0D ∧ t.hooks = s.hooks ++ [.brk])

theorem SameControl.refl (s : State) : SameControl s s := ⟨rfl, rfl, rfl, rfl⟩

theorem SameControl.controlChange {op : BitVec 8} {s t : State} (h : SameControl s t) : ControlChange op s t :=
  ⟨.inl h.ie, .inl h.inISR, .inl h.runState, .inl h.hooks⟩

/-- A control change between two stretches that leave control state alone, the parameters being the same before it. -/
theorem ControlChange.between {op : BitVec 8} {s s' t' t : State} (h : ControlChange op s' t') (hs : SameControl s s')
    (hp : s'.params = s.params) (ht : SameControl t' t) : ControlChange op s t := by
  obtain ⟨e1, e2, e3, e4⟩ := h
  rw [hs.ie] at e1
  rw [hs.inISR] at e2
  rw [hs.runState] at e3
  rw [hs.hooks, hp] at e4
  exact ⟨by rw [ht.ie]; exact e1, by rw [ht.inISR]; exact e2, by rw [ht.runState]; exact e3, by rw [ht.hooks]; exact e4⟩

/-- One slot of the store phase leaves control state alone (R158). -/
theorem storeParam_sameControl {p : Param} {x : Slot} {t u : Tick} (h : storeParam p x t = .ok ((), u)) :
    SameControl t.st u.st := by
  cases hd : x.dirty with
  | false =>
    rw [storeParam_clean p x hd] at h
    cases h
    exact .refl _
  | true =>
    cases p with
    | read p => cases h; exact .refl _
    | write d =>
      rw [storeParam_write_dirty hd] at h
      obtain ⟨-, hc, -⟩ := storeDest_changes h
      exact hc
    | readWrite d =>
      rw [storeParam_readWrite_dirty hd] at h
      obtain ⟨-, hc, -⟩ := storeDest_changes h
      exact hc

/-- The store phase leaves control state alone (R158). -/
theorem storePhase_sameControl {ps : List Param} {xs : List Slot} {t u : Tick} (h : storePhase ps xs t = .ok ((), u)) :
    SameControl t.st u.st := by
  induction ps generalizing xs t with
  | nil => cases h; exact .refl _
  | cons p ps ih =>
    cases xs with
    | nil => cases h; exact .refl _
    | cons x xs =>
      obtain ⟨t1, h1, h2⟩ := storePhase_cons.1 h
      exact (storeParam_sameControl h1).trans (ih h2)

theorem enqueue_sameControl {ty a b : Word} {s t : State} (h : enqueue ty a b s = .ok ((), t)) : SameControl s t := by
  obtain ⟨-, hc, -⟩ := enqueue_changes h
  exact hc

/-- The handler of an instruction with one destination leaves control state alone. -/
theorem WritesSlot0.sameControl {i : Instr} {h : Handler} (hw : WritesSlot0 i h) {env : Env} {xs ys : List Slot}
    {t u : Tick} (he : env.opcode = i.shape.opcode.setWidth 64) (hh : h env xs t = .ok (ys, u)) :
    SameControl t.st u.st := by
  rcases hw env xs ys t u he hh with ⟨v, n, -, -, rfl⟩ | ⟨-, -, s, hq, rfl⟩
  · exact ⟨rfl, rfl, rfl, rfl⟩
  · exact enqueue_sameControl hq

/-- What each instruction's handler does to control state. -/
theorem handler_controlChange {i : Instr} {env : Env} {xs ys : List Slot} {t u : Tick}
    (he : env.opcode = i.shape.opcode.setWidth 64) (h : handlerOf i env xs t = .ok (ys, u)) :
    ControlChange i.shape.opcode t.st u.st := by
  cases i with
  | hlt g =>
    obtain ⟨-, rfl⟩ := (hltHandler_ok (env := env)).1 h
    exact SameControl.controlChange ⟨rfl, rfl, rfl, rfl⟩
  | nop g => cases h; exact (SameControl.refl _).controlChange
  | int g a b c =>
    obtain ⟨-, s, rfl, ⟨-, hq⟩ | ⟨-, hq⟩⟩ := (intHandler_ok (env := env)).1 h
    · exact (enqueue_sameControl hq).controlChange
    · exact (enqueue_sameControl hq).controlChange
  | eint g =>
    obtain ⟨-, ⟨hin, rfl⟩ | ⟨-, s, hq, rfl⟩⟩ := (eintHandler_ok (env := env)).1 h
    · exact ⟨.inl rfl, .inr ⟨rfl, hin, rfl⟩, .inl rfl, .inl rfl⟩
    · exact (enqueue_sameControl hq).controlChange
  | inte g =>
    obtain ⟨-, rfl⟩ := (enableHandler_ok (env := env)).1 h
    exact ⟨.inr (.inl ⟨rfl, rfl⟩), .inl rfl, .inl rfl, .inl rfl⟩
  | intd g =>
    obtain ⟨-, rfl⟩ := (enableHandler_ok (env := env)).1 h
    exact ⟨.inr (.inr ⟨rfl, rfl⟩), .inl rfl, .inl rfl, .inl rfl⟩
  | xchg g a b =>
    obtain ⟨-, rfl⟩ := (xchgHandler_ok (env := env)).1 h
    exact (SameControl.refl _).controlChange
  | cas g a b c =>
    obtain ⟨rfl, -⟩ := (casHandler_ok (env := env)).1 h
    exact (SameControl.refl _).controlChange
  | cpy g a b c =>
    obtain ⟨-, s, hc, rfl⟩ := (cpyHandler_ok (env := env)).1 h
    exact (busCopy_frame hc).1.sameControl.controlChange
  | call g a =>
    obtain ⟨-, v, hp, rfl⟩ := (callHandler_ok (env := env)).1 h
    obtain ⟨s, hb, rfl⟩ := push_ok.1 hp
    obtain ⟨e1, e2, e3, e4⟩ := (busWrite_busTo hb).sameControl
    exact SameControl.controlChange ⟨e1, e2, e3, e4⟩
  | ret g =>
    obtain ⟨-, v, w, hp, rfl⟩ := (retHandler_ok (env := env)).1 h
    obtain ⟨e1, e2, e3, e4⟩ := (pop_reads hp).1.sameControl
    exact SameControl.controlChange ⟨e1, e2, e3, e4⟩
  | dbg g a b c =>
    obtain ⟨-, rfl⟩ := (dbgHandler_ok (env := env)).1 h
    refine ⟨.inl rfl, .inl rfl, .inl rfl, ?_⟩
    by_cases hi : t.st.params.debugHookInstalled = true
    · exact .inr (.inl ⟨rfl, hi, _, _, _, if_pos hi⟩)
    · exact .inl (if_neg hi)
  | brk g =>
    obtain ⟨-, rfl⟩ := (brkHandler_ok (env := env)).1 h
    exact ⟨.inl rfl, .inl rfl, .inr ⟨rfl, rfl⟩, .inr (.inr ⟨rfl, rfl⟩)⟩
  | _ => exact ((oneDestination rfl).2.sameControl he h).controlChange

/-- What an instruction that completes does to control state: its handler does it, the rest of the Tick does nothing. -/
theorem exec_controlChange {i : Instr} {s t : State} (h : exec i s = .next t) : ControlChange i.shape.opcode s t := by
  obtain ⟨u, hb, rfl⟩ := exec_next.1 h
  rcases tickBody_ok.1 hb with hg | ⟨t1, t2, t3, xs, ys, hg, hl, hh, hs⟩
  · exact (advance_control (evalGate_reads hg).1.sameControl _).controlChange
  · have hr : s.ReadsTo t2.st := ((evalGate_reads hg).trans (loadPhase_reads hl).1).1
    exact (handler_controlChange rfl hh).between hr.sameControl hr.sameFixed.params
      (advance_control (storePhase_sameControl hs) _)

/-- Settles O57: what the handler of each of the 41 instructions does to control state, in a Tick whose other phases leave it
alone. -/
theorem controlBits : Obligations.ControlBits := by
  intro i s t h
  obtain ⟨hie, hisr, hrun, hhooks⟩ := exec_controlChange h
  exact ⟨hie, hisr, hrun, hhooks⟩

/-! ## The invariant along the processor's operations -/

/-- The invariant speaks of six parts of the state alone. -/
theorem State.Inv.congr {s t : State} (h : s.Inv) (hb : t.bootAddr = s.bootAddr) (hv : t.vectors = s.vectors)
    (hq : t.queue = s.queue) (hd : t.devices = s.devices) (hdir : t.directory = s.directory) (hm : t.mem = s.mem) :
    t.Inv :=
  h.of_same (by rw [hd]; exact sameDevices_refl _) (by rw [hb]; exact h.bootAligned) (.inl hdir)
    (by rw [hm]; exact h.memWf) (by rw [hv]; exact h.vectorsWf) (by rw [hv]; exact h.vectorsInTable)
    (by rw [hm]; exact h.memBacked) (by rw [hq]; exact h.queueTypes)

theorem State.Inv.sameData {s t : State} (h : s.Inv) (k : SameData s t) : t.Inv :=
  h.congr k.bootAddr k.vectors k.queue k.devices k.directory k.mem

/-- The invariant of a state with other records in its queue, each of a type below 4096 (R36). -/
theorem State.Inv.withQueue {s : State} (h : s.Inv) {q : List InterruptRecord}
    (hq : ∀ r ∈ q, r.type.toNat < vectorCount) : State.Inv { s with queue := q } :=
  h.of_same (sameDevices_refl _) h.bootAligned (.inl rfl) h.memWf h.vectorsWf h.vectorsInTable h.memBacked hq

/-- Records that join the queue may be any of types below 4096 (R403). -/
theorem State.Inv.queueTypes_append {s : State} (h : s.Inv) {new : List InterruptRecord}
    (hn : ∀ r ∈ new, r.type.toNat < vectorCount) : ∀ r ∈ s.queue ++ new, r.type.toNat < vectorCount :=
  fun r hr => (List.mem_append.1 hr).elim (h.queueTypes r) (hn r)

theorem State.Inv.readsTo {s t : State} (h : s.Inv) (k : s.ReadsTo t) : t.Inv := by
  obtain ⟨sp, new, n, ds, rfl, hd, hj⟩ := k
  exact h.of_same hd h.bootAligned (.inl rfl) h.memWf h.vectorsWf h.vectorsInTable h.memBacked
    (h.queueTypes_append hj.types)

/-- A write keeps the invariant (R62, R64): its word is one of a RAM or of the vector table. -/
theorem State.Inv.writeAt {s t : State} {a v : Word} (h : s.Inv) (k : s.writeAt a v = .ok t) : t.Inv := by
  obtain ⟨-, d, hd, ⟨n, hk, hl, rfl⟩ | ⟨-, hl, rfl⟩ | ⟨_, _, ds, -, rfl, hds⟩⟩ := State.writeAt_ok k
  · refine h.of_same (sameDevices_refl _) h.bootAligned (.inl rfl) (Memory.wf_writeWord _ _ _ h.memWf) h.vectorsWf
      h.vectorsInTable (fun c hc => ?_) h.queueTypes
    rcases Memory.mem_writeWord hc with hc | hc
    · exact h.memBacked c hc
    · have ha := devId_localAddr a
      have hlt := (localAddr a).isLt
      refine ⟨d, ?_, .inl ⟨n, hk, ?_⟩⟩
      · rw [hc, show a.toNat / 2 ^ 52 = devId a by omega]; exact hd
      · rw [hc, show a.toNat % 2 ^ 52 = (localAddr a).toNat by omega]; exact hl
  · refine h.of_same (sameDevices_refl _) h.bootAligned (.inl rfl) h.memWf (Memory.wf_writeWord _ _ _ h.vectorsWf)
      (fun c hc => ?_) h.memBacked h.queueTypes
    rcases Memory.mem_writeWord hc with hc | hc
    · exact h.vectorsInTable c hc
    · omega
  · exact h.of_same hds h.bootAligned (.inl rfl) h.memWf h.vectorsWf h.vectorsInTable h.memBacked h.queueTypes

theorem State.Inv.poll {s t : State} (h : s.Inv) (k : Machine.poll s = .ok ((), t)) : t.Inv := h.readsTo (poll_readsTo k)

theorem State.Inv.busWrite {s t : State} {a v : Word} (h : s.Inv) (k : Machine.busWrite a v s = .ok ((), t)) : t.Inv := by
  obtain ⟨s1, hp, hw⟩ := busWrite_ok.1 k
  exact (h.poll hp).writeAt hw

theorem State.Inv.enqueue {s t : State} {ty a b : Word} (h : s.Inv) (k : Machine.enqueue ty a b s = .ok ((), t)) :
    t.Inv := by
  obtain ⟨s1, hp, hty, rfl⟩ := enqueue_ok.1 k
  exact (h.poll hp).withQueue ((h.poll hp).queueTypes_append (by simpa using hty))

/-- Delivery keeps the invariant: the queue loses its head at most (R420). -/
theorem State.Inv.deliver {s t : State} (h : s.Inv) (k : Machine.deliver s = .ok ((), t)) : t.Inv := by
  obtain ⟨s1, hr, rfl | ⟨r, rest, -, hq, rfl⟩⟩ := deliver_next k
  · exact h.readsTo hr
  · have h1 := h.readsTo hr
    have h2 : State.Inv { s1 with queue := rest } :=
      h1.withQueue fun x hx => h1.queueTypes x (by rw [hq]; exact List.mem_cons_of_mem _ hx)
    exact h2.congr rfl rfl rfl rfl rfl rfl

/-- What an operation that keeps the invariant relates. -/
def KeepsInv (s t : State) : Prop := s.Inv → t.Inv

theorem keepsInv_closed : Closed KeepsInv where
  trans _ _ _ h k hs := k (h hs)
  reads _ _ k h := h.readsTo k
  write _ _ _ _ k h := h.busWrite k
  enqueue _ _ _ _ _ k h := h.enqueue k
  data _ _ k h := h.sameData k

/-- A Tick keeps the invariant (R150). -/
theorem State.Inv.tick {s t : State} (h : s.Inv) (k : Machine.tick s = .next t) : t.Inv :=
  tick_closed keepsInv_closed (fun _ _ hd hs => hs.deliver hd) k h

/-! ## The invariant along the bus's lifecycle calls (R460 to R465) -/

/-- The lifecycle calls of all devices keep the invariant: the queue and the table are kept or emptied (R408, R409). -/
theorem State.Inv.callDevices {s : State} (h : s.Inv) (c : Lifecycle) : (State.callDevices c 0 s.devices s).Inv := by
  obtain ⟨es, q, v, e, hd, hqv, -, -⟩ := callDevices_changes c s.devices 0 s fun j d hj =>
    ⟨d, by rw [Nat.zero_add]; exact hj, Device.same_refl d⟩
  rw [e]
  rcases hqv with ⟨rfl, rfl⟩ | ⟨rfl, rfl⟩
  · exact h.of_same hd h.bootAligned (.inl rfl) h.memWf h.vectorsWf h.vectorsInTable h.memBacked h.queueTypes
  · exact h.of_same hd h.bootAligned (.inl rfl) h.memWf Memory.wf_nil (by simp) h.memBacked (by simp)

/-- The directory rebuilt and a boot address given, as a bus Start or Reset does first (R461, R462). -/
theorem State.Inv.rebuilt {s : State} (h : s.Inv) (b : Nat) :
    State.Inv { s.rebuildDirectory with bootAddr := bootAddress b } :=
  h.of_same (sameDevices_refl _) (localAddr_bootAddress b) (.inr rfl) h.memWf h.vectorsWf h.vectorsInTable h.memBacked
    h.queueTypes

/-- What the bus's Start and Reset do before they call the processor (R460). -/
theorem busPrepare_ok {s t : State} {c : Lifecycle} (k : s.busPrepare c = .ok t) :
    ∃ b, t = State.callDevices c 0 s.devices { s.rebuildDirectory with bootAddr := bootAddress b } := by
  unfold State.busPrepare at k
  dsimp only at k
  split at k
  · cases k
  · rename_i b _
    injection k with k
    exact ⟨b, k.symm⟩

theorem State.Inv.busPrepare {s t : State} {c : Lifecycle} (h : s.Inv) (k : s.busPrepare c = .ok t) : t.Inv := by
  obtain ⟨b, rfl⟩ := busPrepare_ok k
  exact (h.rebuilt b).callDevices c

theorem State.Inv.processorReset {s : State} (h : s.Inv) : s.processorReset.Inv := h.congr rfl rfl rfl rfl rfl rfl

theorem State.Inv.resume {s : State} (h : s.Inv) : s.resume.Inv := h.congr rfl rfl rfl rfl rfl rfl

theorem State.Inv.suspend {s : State} (h : s.Inv) : s.suspend.Inv := h.congr rfl rfl rfl rfl rfl rfl

theorem State.Inv.busStart {s t : State} (h : s.Inv) (k : s.busStart = .ok t) : t.Inv := by
  unfold State.busStart at k
  split at k
  · rename_i s' hp
    cases k
    exact (h.busPrepare hp).processorReset.resume
  · cases k

theorem State.Inv.busReset {s t : State} (h : s.Inv) (k : s.busReset = .ok t) : t.Inv := by
  unfold State.busReset at k
  split at k
  · rename_i s' hp
    cases k
    exact (h.busPrepare hp).processorReset
  · cases k

/-! ## The invariant along AddDevice (R55) -/

/-- When AddDevice answers a next state, and which (R55; log 16). -/
theorem addDevice_next {s t : State} {d : Device} (k : s.addDevice d = .next t) :
    s.devices.length < directoryId ∧ (d.kind = .interruptController → s.controllerCount = 0) ∧
      t = { s with devices := s.devices ++ [d] } := by
  unfold State.addDevice at k
  split_ifs at k with h1 h2
  injection k with k
  refine ⟨Nat.lt_of_not_le h1, fun hd => ?_, k.symm⟩
  by_contra h0
  exact h2 ⟨hd, Nat.pos_of_ne_zero h0⟩

/-- AddDevice keeps the invariant: the directory stays the table of the devices attached before (R54, R55). -/
theorem State.Inv.addDevice {s t : State} {d : Device} (h : s.Inv) (k : s.addDevice d = .next t) : t.Inv := by
  obtain ⟨hlen, hone, rfl⟩ := addDevice_next k
  refine ⟨h.memWf, h.vectorsWf, h.vectorsInTable, fun c hc => ?_, h.queueTypes, ?_, ?_, h.bootAligned, ?_⟩
  · obtain ⟨e, he, hk⟩ := h.memBacked c hc
    exact ⟨e, List.getElem?_append_left (List.getElem?_eq_some_iff.1 he).1 ▸ he, hk⟩
  · show (s.devices ++ [d]).length ≤ directoryId
    rw [List.length_append]
    exact hlen
  · show (s.devices ++ [d]).countP _ ≤ 1
    rw [List.countP_append]
    by_cases hd : d.kind = .interruptController
    · have h0 := hone hd
      unfold State.controllerCount at h0
      rw [h0, Nat.zero_add]
      exact List.countP_le_length
    · have h1 : s.devices.countP (fun x => x.kind == .interruptController) ≤ 1 := h.oneController
      simpa [hd] using h1
  · obtain ⟨n, hn, e⟩ := h.directoryTable
    refine ⟨n, ?_, ?_⟩
    · show n ≤ (s.devices ++ [d]).length
      rw [List.length_append]
      omega
    · show s.directory = _
      rw [e, List.take_append_of_le_length hn]

/-! ## The invariant along the loader's moves (R62, R63, R470) -/

/-- What the directory shows of a device (R54). -/
def Device.identity (d : Device) : Word × Word × Word := (d.deviceType, d.vendorId, d.productId)

/-- The directory's groups are those of the devices' identities. -/
theorem directoryGroups_congr {ds es : List Device} (h : ds.map Device.identity = es.map Device.identity) (k : Nat) :
    directoryGroups k ds = directoryGroups k es := by
  induction ds generalizing es k with
  | nil => cases es with
    | nil => rfl
    | cons e es => cases h
  | cons d ds ih => cases es with
    | nil => cases h
    | cons e es =>
      simp only [List.map_cons, List.cons.injEq, Device.identity, Prod.mk.injEq] at h
      obtain ⟨⟨h1, h2, h3⟩, ht⟩ := h
      simp only [directoryGroups, h1, h2, h3, ih ht]

/-- The directory's table is the same when a device is replaced by one of its identity. -/
theorem directoryTable_take_set {ds : List Device} {id : Nat} {d e : Device} (hd : ds[id]? = some d)
    (he : e.identity = d.identity) (n : Nat) : directoryTable ((ds.set id e).take n) = directoryTable (ds.take n) := by
  have hmap : (ds.set id e).map Device.identity = ds.map Device.identity := by
    obtain ⟨hlt, rfl⟩ := List.getElem?_eq_some_iff.1 hd
    rw [List.map_set, he, ← List.getElem_map Device.identity (h := by simpa using hlt), List.set_getElem_self]
  unfold directoryTable
  rw [directoryGroups_congr (es := ds.take n) (by rw [List.map_take, hmap, List.map_take])]
  simp

/-- Replacing a device by another keeps the number of interrupt controllers, where neither is one. -/
theorem countP_controller_set {ds : List Device} {id : Nat} {d e : Device} (hd : ds[id]? = some d)
    (hdk : d.kind ≠ .interruptController) (hek : e.kind ≠ .interruptController) :
    (ds.set id e).countP (fun x => x.kind == .interruptController) =
      ds.countP fun x => x.kind == .interruptController := by
  obtain ⟨hlt, rfl⟩ := List.getElem?_eq_some_iff.1 hd
  rw [List.countP_set hlt]
  simp [hdk, hek]

/-- The words placed in a device's window, and those of the other windows, are backed by the device table after (R51, R62,
R63). -/
theorem backs_window {s t : State} (h : s.Inv) {id n : Nat} {ws : List Word} {e : Device}
    (he : t.devices[id]? = some e) (hk : e.kind = .ram n ∨ e.kind = .rom n) (hn : ws.length ≤ n)
    (hw : ws.length ≤ windowWords) (hother : ∀ k, k ≠ id → t.devices[k]? = s.devices[k]?) {c : Host.Cell}
    (hc : c ∈ (s.mem.clearWindow id).writeWords (windowBase id) ws) : t.backs (c.1 / 8) := by
  rcases mem_window hc with ⟨hc, hid⟩ | ⟨k, hkl, hc⟩
  · obtain ⟨d, hd, hb⟩ := h.memBacked c hc
    exact ⟨d, (hother _ hid).trans hd, hb⟩
  · have hk52 : k < 2 ^ 52 := lt_of_lt_of_le hkl hw
    have hdiv : c.1 / 8 / 2 ^ 52 = id := by omega
    have hmod : c.1 / 8 % 2 ^ 52 < n := by omega
    refine ⟨e, by rw [hdiv]; exact he, ?_⟩
    rcases hk with hk | hk
    · exact .inl ⟨n, hk, hmod⟩
    · exact .inr ⟨n, hk, hmod⟩

theorem Memory.wf_fillWindow {m : Memory} (hm : m.wf) (id : Nat) (ws : List Word) :
    Memory.wf ((m.clearWindow id).writeWords (windowBase id) ws) :=
  Memory.wf_writeWords _ _ _ (Memory.wf_clearWindow _ _ hm)

/-- When the loader's move on a boot device answers a next state, and which (R63). -/
theorem loadImage_next {s t : State} {id : Nat} {image : List Byte} (k : s.loadImage id image = .next t) :
    ∃ d n ws, s.devices[id]? = some d ∧ d.kind = .rom n ∧ ws.length ≤ windowWords ∧
      t = { s with devices := s.devices.set id { d with kind := .rom ws.length },
                   mem := (s.mem.clearWindow id).writeWords (windowBase id) ws } := by
  unfold State.loadImage at k
  split at k
  · cases k
  · rename_i d hd
    cases hk : d.kind with
    | rom n =>
      simp only [hk] at k
      split_ifs at k with hw
      injection k with k
      exact ⟨d, n, _, hd, hk, hw, k.symm⟩
    | _ => simp only [hk] at k; cases k

/-- When the loader's move on a RAM answers a next state, and which (R62). -/
theorem loadRam_next {s t : State} {id : Nat} {ws : List Word} (k : s.loadRam id ws = .next t) :
    ∃ d n, s.devices[id]? = some d ∧ d.kind = .ram n ∧ ws.length ≤ n ∧ ws.length ≤ windowWords ∧
      t = { s with mem := (s.mem.clearWindow id).writeWords (windowBase id) ws } := by
  unfold State.loadRam at k
  split at k
  · cases k
  · rename_i d hd
    cases hk : d.kind with
    | ram n =>
      simp only [hk] at k
      split_ifs at k with hw
      injection k with k
      obtain ⟨hn, hw⟩ := Nat.le_min.1 hw
      exact ⟨d, n, hd, hk, hn, hw, k.symm⟩
    | _ => simp only [hk] at k; cases k

theorem State.Inv.loadImage {s t : State} {id : Nat} {image : List Byte} (h : s.Inv)
    (k : s.loadImage id image = .next t) : t.Inv := by
  obtain ⟨d, n, ws, hd, hk, hw, rfl⟩ := loadImage_next k
  have hlt := (List.getElem?_eq_some_iff.1 hd).1
  refine ⟨Memory.wf_fillWindow h.memWf _ _, h.vectorsWf, h.vectorsInTable, fun c hc => ?_, h.queueTypes, ?_, ?_,
    h.bootAligned, ?_⟩
  · exact backs_window h (List.getElem?_set_self hlt) (.inr rfl) le_rfl hw
      (fun k hk => List.getElem?_set_ne (Ne.symm hk)) hc
  · exact (List.length_set ..).trans_le h.idsAssignable
  · exact (countP_controller_set hd (by simp [hk]) (by simp)).trans_le h.oneController
  · obtain ⟨m, hm, e⟩ := h.directoryTable
    have htab := directoryTable_take_set (e := { d with kind := .rom ws.length }) hd rfl m
    exact ⟨m, hm.trans_eq (List.length_set ..).symm, e.trans htab.symm⟩

theorem State.Inv.loadRam {s t : State} {id : Nat} {ws : List Word} (h : s.Inv) (k : s.loadRam id ws = .next t) :
    t.Inv := by
  obtain ⟨d, n, hd, hk, hn, hw, rfl⟩ := loadRam_next k
  exact h.of_same (sameDevices_refl _) h.bootAligned (.inl rfl) (Memory.wf_fillWindow h.memWf _ _) h.vectorsWf
    h.vectorsInTable (fun c hc => backs_window h hd (.inl hk) hn hw (fun _ _ => rfl) hc) h.queueTypes

/-! ## The invariant along every step -/

theorem outcomeOf_next {r : Except Fault State} {t : State} : outcomeOf r = .next t ↔ r = .ok t := by
  cases r <;> simp [outcomeOf]

/-- Every host move but Step keeps the invariant (R39, R55, R435, R460, R465, R470). -/
theorem State.Inv.hostEffect {s t : State} {m : HostMove} (h : s.Inv) (k : s.hostEffect m = .next t) : t.Inv := by
  cases m with
  | wait => cases k; exact h
  | addDevice d => exact h.addDevice k
  | loadImage id image => exact h.loadImage k
  | loadRam id contents => exact h.loadRam k
  | busStart => exact h.busStart (outcomeOf_next.1 k)
  | busReset => exact h.busReset (outcomeOf_next.1 k)
  | busStop => cases k; exact (h.callDevices .stop).suspend
  | processorReset => cases k; exact h.processorReset
  | resume => cases k; exact h.resume
  | suspend => cases k; exact h.suspend
  | stepOnce => cases k; exact h
  | writeRegister r v => cases k; exact h.sameData (.writeReg _ _ _)

/-- What a host move that answers a next state did (R411, R435): other agents' records, and then its effect, or for Step a
Tick. -/
theorem hostStep_next {m : HostMove} {s t : State} (k : hostStep m s = .next t) :
    ∃ s1, poll s = .ok ((), s1) ∧ (tick s1 = .next t ∨ s1.hostEffect m = .next t) := by
  unfold hostStep at k
  split_ifs at k
  cases hp : poll s with
  | error f => rw [hp] at k; cases k
  | ok p =>
    obtain ⟨⟨⟩, s1⟩ := p
    rw [hp] at k
    refine ⟨s1, rfl, ?_⟩
    cases m with
    | stepOnce => exact .inl k
    | _ => exact .inr k

theorem State.Inv.hostStep {s t : State} {m : HostMove} (h : s.Inv) (k : Machine.hostStep m s = .next t) : t.Inv := by
  obtain ⟨s1, hp, ht | he⟩ := hostStep_next k
  · exact (h.poll hp).tick ht
  · exact (h.poll hp).hostEffect he

theorem State.Inv.selfStep {s t : State} (h : s.Inv) (k : Machine.selfStep s = .next t) : t.Inv := by
  cases hr : s.runState with
  | running =>
    rw [selfStep_running hr] at k
    exact h.tick k
  | stopped =>
    rw [selfStep_stopped hr] at k
    exact h.poll (outcomeOfUnit_next.1 k)

/-- Who moved in a step that answers a next state (R435, R478): the machine, or the host, with its move taken off its list. -/
theorem step_next {s t : State} (k : step s = .next t) :
    selfStep s = .next t ∨ ∃ m rest, s.hostMoves = m :: rest ∧
      (selfStep { s with hostMoves := rest } = .next t ∨ hostStep m { s with hostMoves := rest } = .next t) := by
  unfold step cycle at k
  split at k
  · rename_i m rest hm
    refine .inr ⟨m, rest, hm, ?_⟩
    split_ifs at k with hw
    · exact .inl k
    · exact .inr k
  · exact .inl k

/-- Settles O60: a step is the machine's own or a host move, and each keeps the invariant; a Tick does so because its parts
do (`keepsInv_closed`). -/
theorem stepKeepsInvariant : Obligations.StepKeepsInvariant := by
  intro s t h k
  rcases step_next k with hs | ⟨m, rest, -, hs⟩
  · exact h.selfStep hs
  · have h1 : State.Inv { s with hostMoves := rest } := h.congr rfl rfl rfl rfl rfl rfl
    rcases hs with hs | hs
    · exact h1.selfStep hs
    · exact h1.hostStep hs

end Sys2Proof.Machine
end

section
/-!
PROOFS. The bus: the outcome of an access (O16), the directory (O17), isolation (O18), a read after a write (O19),
BusCopy (O20), the boot image (O28) and AddDevice (O29).
-/

namespace Sys2Proof.Machine

/-! ## An access with no other agent about to act (R57, R58) -/

theorem busRead_error {s : State} {a : Word} {f : Fault} (hq : s.arrivals = .quiet) (h : s.readAt a = .error f) :
    busRead a s = .error f := by
  unfold busRead
  rw [bind_of_ok (poll_quiet hq), get_bind, h]
  rfl

theorem busWrite_quiet {s t : State} {a v : Word} (hq : s.arrivals = .quiet) (h : s.writeAt a v = .ok t) :
    busWrite a v s = .ok ((), t) :=
  busWrite_ok.2 ⟨s, poll_quiet hq, h⟩

theorem busWrite_error {s : State} {a v : Word} {f : Fault} (hq : s.arrivals = .quiet) (h : s.writeAt a v = .error f) :
    busWrite a v s = .error f := by
  unfold busWrite
  rw [bind_of_ok (poll_quiet hq), get_bind, h]
  rfl

/-! ## Which device an access reaches (R53, R56) -/

theorem State.readAt_device {s : State} {a : Word} {d : Device} (ha : devId a ≠ directoryId)
    (hd : s.devices[devId a]? = some d) : s.readAt a = s.deviceReadWord (devId a) d a := by
  unfold State.readAt
  rw [if_neg ha, hd]

theorem State.readAt_hole {s : State} {a : Word} (ha : devId a ≠ directoryId) (hd : s.devices[devId a]? = none) :
    s.readAt a = .error .noDeviceAtId := by
  unfold State.readAt
  rw [if_neg ha, hd]

theorem State.readAt_directory_above {s : State} {a : Word} (ha : devId a = directoryId)
    (h : s.directory.length ≤ (localAddr a).toNat) : s.readAt a = .error .directoryOutOfRange := by
  unfold State.readAt
  rw [if_pos ha, List.getElem?_eq_none h]

theorem State.writeAt_device {s : State} {a v : Word} {d : Device} (ha : devId a ≠ directoryId)
    (hd : s.devices[devId a]? = some d) : s.writeAt a v = s.deviceWriteWord (devId a) d a v := by
  unfold State.writeAt
  rw [if_neg ha, hd]

theorem State.writeAt_hole {s : State} {a v : Word} (ha : devId a ≠ directoryId) (hd : s.devices[devId a]? = none) :
    s.writeAt a v = .error .noDeviceAtId := by
  unfold State.writeAt
  rw [if_neg ha, hd]

theorem State.writeAt_directory {s : State} {a v : Word} (ha : devId a = directoryId) :
    s.writeAt a v = .error .directoryWrite := if_pos ha

/-! ## What each kind of device answers (R62 to R64) -/

/-- The number of words of a reference device; a device of the DEVICES parameter has no such number. -/
def DeviceKind.words : DeviceKind → Option Nat
  | .ram n => some n
  | .rom n => some n
  | .interruptController => some vectorCount
  | .external _ _ => none

/-- A read past a RAM, a boot image or the vector table is fatal. -/
theorem State.deviceReadWord_above {s : State} {id n : Nat} {d : Device} {a : Word} (hk : d.kind.words = some n)
    (h : n ≤ (localAddr a).toNat) : s.deviceReadWord id d a = .error .deviceOutOfRange := by
  unfold State.deviceReadWord
  cases hd : d.kind <;> rw [hd] at hk <;> cases hk <;> exact if_neg (Nat.not_lt.2 h)

theorem State.deviceWriteWord_ram {s : State} {id n : Nat} {d : Device} {a v : Word} (hk : d.kind = .ram n)
    (h : (localAddr a).toNat < n) :
    s.deviceWriteWord id d a v = .ok { s with mem := s.mem.writeWord a.toNat v } := by
  simp only [State.deviceWriteWord, hk, if_pos h]

theorem State.deviceWriteWord_rom {s : State} {id n : Nat} {d : Device} {a v : Word} (hk : d.kind = .rom n) :
    s.deviceWriteWord id d a v = .error .readOnlyDevice := by
  simp only [State.deviceWriteWord, hk]

theorem State.deviceWriteWord_vectors {s : State} {id : Nat} {d : Device} {a v : Word}
    (hk : d.kind = .interruptController) (h : (localAddr a).toNat < vectorCount) :
    s.deviceWriteWord id d a v = .ok { s with vectors := s.vectors.writeWord (localAddr a).toNat v } := by
  simp only [State.deviceWriteWord, hk, if_pos h]

/-- A write past a RAM or the vector table is fatal. -/
theorem State.deviceWriteWord_above {s : State} {id n : Nat} {d : Device} {a v : Word} (hk : d.kind.words = some n)
    (hr : ∀ m, d.kind ≠ .rom m) (h : n ≤ (localAddr a).toNat) :
    s.deviceWriteWord id d a v = .error .deviceOutOfRange := by
  unfold State.deviceWriteWord
  cases hd : d.kind with
  | rom m => exact absurd hd (hr m)
  | _ => rw [hd] at hk; cases hk <;> exact if_neg (Nat.not_lt.2 h)

/-- A write to a word of a RAM stores it (R62). -/
theorem State.writeAt_ram {s : State} {a : Word} (v : Word) (h : s.ramAt a) :
    s.writeAt a v = .ok { s with mem := s.mem.writeWord a.toNat v } := by
  obtain ⟨ha, d, n, hd, hk, hl⟩ := h
  rw [State.writeAt_device ha hd, State.deviceWriteWord_ram hk hl]

/-- A word of a RAM reads what memory holds (R62). -/
theorem State.peek_ramAt {s : State} {a : Word} (h : s.ramAt a) : s.peek a = some (s.mem.readWord a.toNat) := by
  obtain ⟨ha, d, n, hd, hk, hl⟩ := h
  unfold State.peek
  rw [if_neg ha, hd]
  simp only [hk, if_pos hl]

/-- Settles O16: with no other agent about to act an access is the one of the device that its address names, and each kind of
device has its equation. -/
theorem busAccessOutcomes : Obligations.BusAccessOutcomes := by
  refine ⟨fun s a v hq h => busWrite_quiet hq (State.writeAt_ram v h), fun s a v d hq ha hd hk hl => ?_,
    fun s a v hq => ⟨fun ha hd => ?_, fun ha => ?_, fun d n ha hd hk hl => ?_, fun d n ha hd hk => ?_,
      fun d ha hd hk hl => ?_⟩⟩
  · exact busWrite_quiet hq ((State.writeAt_device ha hd).trans (State.deviceWriteWord_vectors hk hl))
  · exact ⟨busRead_error hq (State.readAt_hole ha hd), busWrite_error hq (State.writeAt_hole ha hd)⟩
  · exact busWrite_error hq (State.writeAt_directory ha)
  · have hw : d.kind.words = some n := by rw [hk]; rfl
    exact ⟨busRead_error hq ((State.readAt_device ha hd).trans (State.deviceReadWord_above hw hl)),
      busWrite_error hq ((State.writeAt_device ha hd).trans (State.deviceWriteWord_above hw (by simp [hk]) hl))⟩
  · have hw : d.kind.words = some n := by rw [hk]; rfl
    exact ⟨busWrite_error hq ((State.writeAt_device ha hd).trans (State.deviceWriteWord_rom hk)),
      fun hl => busRead_error hq ((State.readAt_device ha hd).trans (State.deviceReadWord_above hw hl))⟩
  · have hw : d.kind.words = some 4096 := by rw [hk]; rfl
    exact ⟨busRead_error hq ((State.readAt_device ha hd).trans (State.deviceReadWord_above hw hl)),
      busWrite_error hq ((State.writeAt_device ha hd).trans (State.deviceWriteWord_above hw (by simp [hk]) hl))⟩

/-! ## The directory (R54, R461) -/

/-- Each device's group of four words, in attachment order. -/
theorem directoryGroups_getElem? {ds : List Device} {d : Device} {k : Nat} (hd : ds[k]? = some d) (n : Nat) {r : Nat}
    (hr : r < 4) : (directoryGroups n ds)[4 * k + r]? =
      [d.deviceType, d.vendorId, d.productId, BitVec.ofNat 64 (n + k)][r]? := by
  induction ds generalizing k n with
  | nil => cases hd
  | cons e ds ih =>
    cases k with
    | zero =>
      cases hd
      have happ : directoryGroups n (d :: ds) =
          [d.deviceType, d.vendorId, d.productId, BitVec.ofNat 64 n] ++ directoryGroups (n + 1) ds := rfl
      rw [happ, Nat.mul_zero, Nat.zero_add, List.getElem?_append_left (by simpa using hr), Nat.add_zero]
    | succ k =>
      rw [show 4 * (k + 1) + r = 4 * k + r + 4 by omega, show n + (k + 1) = n + 1 + k by omega,
        ← ih (by simpa using hd) (n + 1)]
      rfl

@[simp] theorem directoryGroups_length (ds : List Device) (n : Nat) : (directoryGroups n ds).length = 4 * ds.length := by
  induction ds generalizing n with
  | nil => rfl
  | cons d ds ih => simp only [directoryGroups, List.length_cons, ih]; omega

/-- Word `1 + 4k + r` of the table is word `r` of device `k`'s group. -/
theorem directoryTable_getElem? {ds : List Device} {d : Device} {k : Nat} (hd : ds[k]? = some d) {r : Nat} (hr : r < 4) :
    (directoryTable ds)[1 + r + 4 * k]? = [d.deviceType, d.vendorId, d.productId, BitVec.ofNat 64 k][r]? := by
  have h := directoryGroups_getElem? hd 0 hr
  rw [Nat.zero_add] at h
  rw [show 1 + r + 4 * k = 4 * k + r + 1 by omega, ← h]
  rfl

theorem directoryTable_length (ds : List Device) : (directoryTable ds).length = 4 * ds.length + 1 := by
  simp [directoryTable]

/-- A read of a word that the directory holds. -/
theorem busRead_directory {s : State} {a v : Word} (hq : s.arrivals = .quiet) (ha : devId a = directoryId)
    (h : s.directory[(localAddr a).toNat]? = some v) : busRead a s = .ok (v, s) :=
  busRead_quiet hq (by unfold State.peek; rw [if_pos ha, h])

/-- The devices' lifecycle calls leave the directory that was rebuilt before them (R460, R461). -/
theorem busPrepare_directory {s t : State} {c : Lifecycle} (k : s.busPrepare c = .ok t) :
    t.directory = directoryTable s.devices := by
  obtain ⟨b, rfl⟩ := busPrepare_ok k
  obtain ⟨es, q, v, e, -⟩ := callDevices_changes c s.devices 0 { s.rebuildDirectory with bootAddr := bootAddress b }
    fun j d hj => ⟨d, by rw [Nat.zero_add]; exact hj, Device.same_refl d⟩
  rw [e]
  rfl

theorem busReset_ok {s t : State} (k : s.busReset = .ok t) :
    ∃ u, s.busPrepare .reset = .ok u ∧ t = u.processorReset := by
  unfold State.busReset at k
  split at k
  · rename_i u hu
    cases k
    exact ⟨u, hu, rfl⟩
  · cases k

theorem busStart_ok {s t : State} (k : s.busStart = .ok t) :
    ∃ u, s.busPrepare .start = .ok u ∧ t = u.processorReset.resume := by
  unfold State.busStart at k
  split at k
  · rename_i u hu
    cases k
    exact ⟨u, hu, rfl⟩
  · cases k

/-- A bus Reset or Start leaves the table of the devices attached before it. -/
theorem busResetOrStart_directory {s t : State} (k : s.busReset = .ok t ∨ s.busStart = .ok t) :
    t.directory = directoryTable s.devices := by
  rcases k with k | k
  · obtain ⟨u, hu, rfl⟩ := busReset_ok k
    exact u.processorReset_directory.trans (busPrepare_directory hu)
  · obtain ⟨u, hu, rfl⟩ := busStart_ok k
    exact u.processorReset_directory.trans (busPrepare_directory hu)

/-- Settles O17: the directory a bus Reset or Start leaves is the table of the devices, read word by word; AddDevice changes
the device table only. -/
theorem directoryContents : Obligations.DirectoryContents := by
  refine ⟨fun s t k hq a ha => ?_, fun s t d k => ?_⟩
  · have hdir := busResetOrStart_directory k
    have group {k : Nat} {d : Device} (hd : s.devices[k]? = some d) {r : Nat} (hr : r < 4) {v : Word}
        (hv : [d.deviceType, d.vendorId, d.productId, BitVec.ofNat 64 k][r]? = some v)
        (hl : (localAddr a).toNat = 1 + r + 4 * k) : busRead a t = .ok (v, t) :=
      busRead_directory hq ha (by rw [hdir, hl, directoryTable_getElem? hd hr, hv])
    refine ⟨fun hl => busRead_directory hq ha (by rw [hdir, hl]; rfl), fun k d hd => ⟨?_, ?_, ?_, ?_⟩, fun hl => ?_,
      fun v => busWrite_error hq (State.writeAt_directory ha)⟩
    · exact group (r := 0) hd (by omega) rfl
    · exact group (r := 1) hd (by omega) rfl
    · exact group (r := 2) hd (by omega) rfl
    · exact group (r := 3) hd (by omega) rfl
    · exact busRead_error hq (State.readAt_directory_above ha (by rw [hdir, directoryTable_length]; omega))
  · obtain ⟨-, -, rfl⟩ := addDevice_next k
    rfl

/-! ## AddDevice (R55) -/

theorem State.addDevice_full {s : State} {d : Device} (h : directoryId ≤ s.nextId) :
    s.addDevice d = .fault .deviceIdsExhausted := if_pos h

theorem State.addDevice_secondController {s : State} {d : Device} (h : s.nextId < directoryId)
    (hd : d.kind = .interruptController ∧ 0 < s.controllerCount) :
    s.addDevice d = .refused .secondInterruptController := (if_neg (Nat.not_le.2 h)).trans (if_pos hd)

theorem State.addDevice_room {s : State} {d : Device} (h : s.nextId < directoryId)
    (hd : ¬ (d.kind = .interruptController ∧ 0 < s.controllerCount)) :
    s.addDevice d = .next { s with devices := s.devices ++ [d] } := (if_neg (Nat.not_le.2 h)).trans (if_neg hd)

/-- Settles O29: the three outcomes of AddDevice, the new device standing at the end of the table. -/
theorem addDeviceIds : Obligations.AddDeviceIds := by
  refine fun s d => ⟨fun hlt hone => ?_, fun hlen => State.addDevice_full hlen.ge,
    fun hlt hk hc => State.addDevice_secondController hlt ⟨hk, hc⟩⟩
  exact ⟨_, State.addDevice_room hlt hone, List.getElem?_concat_length, fun k hk => List.getElem?_append_left hk, rfl⟩

/-! ## Isolation (R59) -/

theorem State.deviceReadWord_devices_ne {s t : State} {id k : Nat} {d : Device} {a v : Word}
    (h : s.deviceReadWord id d a = .ok (v, t)) (hk : k ≠ id) : t.devices[k]? = s.devices[k]? := by
  unfold State.deviceReadWord at h
  cases hd : d.kind with
  | external b m =>
    simp only [hd] at h
    split at h
    · cases h
      exact List.getElem?_set_ne (Ne.symm hk)
    · cases h
  | _ =>
    simp only [hd] at h
    split_ifs at h
    cases h
    rfl

theorem State.deviceWriteWord_devices_ne {s t : State} {id k : Nat} {d : Device} {a v : Word}
    (h : s.deviceWriteWord id d a v = .ok t) (hk : k ≠ id) : t.devices[k]? = s.devices[k]? := by
  unfold State.deviceWriteWord at h
  cases hd : d.kind with
  | external b m =>
    simp only [hd] at h
    split at h
    · cases h
      exact List.getElem?_set_ne (Ne.symm hk)
    · cases h
  | rom n => simp only [hd] at h; cases h
  | _ =>
    simp only [hd] at h
    split_ifs at h
    cases h
    rfl

theorem poll_devices {s t : State} (h : poll s = .ok ((), t)) : t.devices = s.devices := by
  obtain ⟨new, rfl, -⟩ := poll_ok h
  rfl

/-- A bus read leaves every device alone but the one that its address names. -/
theorem busRead_devices_ne {s t : State} {a v : Word} {k : Nat} (h : busRead a s = .ok (v, t)) (hk : k ≠ devId a) :
    t.devices[k]? = s.devices[k]? := by
  obtain ⟨s1, hp, hr⟩ := busRead_ok.1 h
  rw [← poll_devices hp]
  rcases State.readAt_ok hr with ⟨-, rfl⟩ | ⟨hnone, -⟩
  · rfl
  · by_cases ha : devId a = directoryId
    · unfold State.readAt at hr
      rw [if_pos ha] at hr
      split at hr <;> cases hr
      rfl
    · cases hd : s1.devices[devId a]? with
      | none => rw [State.readAt_hole ha hd] at hr; cases hr
      | some d => rw [State.readAt_device ha hd] at hr; exact State.deviceReadWord_devices_ne hr hk

/-- A bus write leaves every device alone but the one that its address names. -/
theorem busWrite_devices_ne {s t : State} {a v : Word} {k : Nat} (h : busWrite a v s = .ok ((), t)) (hk : k ≠ devId a) :
    t.devices[k]? = s.devices[k]? := by
  obtain ⟨s1, hp, hw⟩ := busWrite_ok.1 h
  rw [← poll_devices hp]
  obtain ⟨ha, d, hd, -⟩ := State.writeAt_ok hw
  rw [State.writeAt_device ha hd] at hw
  exact State.deviceWriteWord_devices_ne hw hk

/-- Settles O18, from what the bus can change at all (`State.BusTo`), the word a write changes, and the one device that an
access reaches. -/
theorem busIsolation : Obligations.BusIsolation := by
  intro s t a v hc h
  have hbus : s.BusTo t := h.elim busWrite_busTo fun h => (busRead_readsTo h).busTo
  refine ⟨fun k hk => h.elim (busWrite_devices_ne · hk) (busRead_devices_ne · hk), hbus.sameFixed.directory,
    fun b hb => ?_, fun hq => ?_⟩
  · rcases h with h | h
    · exact busWrite_sameWordsBut h hc b fun e => hb (congrArg devId e)
    · exact (busRead_readsTo h).peek b
  · obtain ⟨new, hnew, hquiet⟩ := hbus.onlyArrivals
    rw [hnew, (hquiet hq).1, List.append_nil]

/-! ## A read after a write (R62, R64, R71) -/

theorem busWrite_stays_quiet {s t : State} {a v : Word} (h : busWrite a v s = .ok ((), t)) (hq : s.arrivals = .quiet) :
    t.arrivals = .quiet := by
  obtain ⟨_, -, hquiet⟩ := (busWrite_busTo h).onlyArrivals
  exact (hquiet hq).2

theorem busWrite_controllerCount {s t : State} {a v : Word} (h : busWrite a v s = .ok ((), t)) :
    t.controllerCount = s.controllerCount :=
  controllerCount_same (busWrite_busTo h).sameFixed.devices

/-- Settles O19: the written word is seen by `peek`, a later write elsewhere leaves it, and a read answers what `peek` sees. -/
theorem readAfterWrite : Obligations.ReadAfterWrite := by
  intro s t a v w hm hv hc hq hp h
  have hqt := busWrite_stays_quiet h hq
  have hpt : t.peek a = some v := busWrite_peek h hp hm hv
  refine ⟨busRead_quiet hqt hpt, busWrite_sameWordsBut h hc, fun b x u hb h' => ?_⟩
  have hpu : u.peek a = t.peek a := busWrite_sameWordsBut h' (by rwa [busWrite_controllerCount h]) a hb.symm
  exact busRead_quiet (busWrite_stays_quiet h' hqt) (hpu.trans hpt)

/-! ## BusCopy (R60) -/

/-- Addresses of a range, counted from its second word or from its first. -/
theorem add_one_add_ofNat (a : Word) (k : Nat) : a + 1 + BitVec.ofNat 64 k = a + BitVec.ofNat 64 (k + 1) := by
  rw [BitVec.ofNat_add, BitVec.add_assoc, BitVec.add_comm 1]
  rfl

/-- No later word of a range of at most `2 ^ 64` words has the address of its first. -/
theorem ne_add_ofNat_succ (a : Word) {k : Nat} (hk : k + 1 < 2 ^ 64) : a ≠ a + BitVec.ofNat 64 (k + 1) := by
  intro h
  have h := congrArg BitVec.toNat h
  rw [BitVec.toNat_add, BitVec.toNat_ofNat] at h
  omega

/-- Reads of a range of words that `peek` sees answer them in order and change nothing. -/
theorem busReadRange_quiet {s : State} (hq : s.arrivals = .quiet) {n : Nat} {a : Word} {f : Nat → Word}
    (h : ∀ k, k < n → s.peek (a + BitVec.ofNat 64 k) = some (f k)) :
    busReadRange a n s = .ok ((List.range n).map f, s) := by
  induction n generalizing a f with
  | zero => rfl
  | succ n ih =>
    have hfirst : busRead a s = .ok (f 0, s) := busRead_quiet hq (by simpa using h 0 n.succ_pos)
    have hrest := ih (a := a + 1) (f := fun k => f (k + 1)) fun k hk => by
      rw [add_one_add_ofNat]
      exact h (k + 1) (Nat.succ_lt_succ hk)
    rw [List.range_succ_eq_map, List.map_cons, List.map_map]
    exact (bind_of_ok hfirst).trans ((bind_of_ok hrest).trans rfl)

/-- Writes to a range of RAM words change memory alone, and each word then reads what was written to it. -/
theorem busWriteRange_ram {vs : List Word} {s : State} {a : Word} (hq : s.arrivals = .quiet) (hm : s.mem.wf)
    (hv : s.vectors.wf) (hc : s.controllerCount ≤ 1) (hlen : vs.length ≤ 2 ^ 64)
    (hram : ∀ k, k < vs.length → s.ramAt (a + BitVec.ofNat 64 k)) :
    ∃ m, busWriteRange a vs s = .ok ((), { s with mem := m }) ∧
      ∀ k (hk : k < vs.length), State.peek { s with mem := m } (a + BitVec.ofNat 64 k) = some vs[k] := by
  induction vs generalizing s a with
  | nil => exact ⟨s.mem, rfl, fun k hk => absurd hk (Nat.not_lt_zero k)⟩
  | cons v vs ih =>
    rw [List.length_cons] at hlen hram
    have ha : s.ramAt a := by simpa using hram 0 (Nat.succ_pos _)
    have hfirst := busWrite_quiet hq (State.writeAt_ram v ha)
    obtain ⟨m, hrest, hread⟩ := ih (s := { s with mem := s.mem.writeWord a.toNat v }) (a := a + 1) hq
      (Memory.wf_writeWord _ _ _ hm) hv hc (by omega) fun k hk => by
        rw [add_one_add_ofNat]
        exact hram (k + 1) (Nat.succ_lt_succ hk)
    refine ⟨m, (bind_of_ok hfirst).trans hrest, fun k hk => ?_⟩
    cases k with
    | zero =>
      have hkept := (busWriteRange_frame hrest).2.2 hc a fun k hk => by
        rw [add_one_add_ofNat]
        exact ne_add_ofNat_succ a (by omega)
      simpa using hkept.trans (busWrite_peek hfirst (State.peek_ramAt ha) hm hv)
    | succ k =>
      rw [← add_one_add_ofNat]
      exact hread k (Nat.lt_of_succ_lt_succ hk)

/-- A BusCopy one of whose ranges wraps or leaves its window is fatal. -/
theorem busCopy_crosses {src dst len : Word} {s : State} (h0 : len ≠ 0)
    (h : rangeCrosses src len = true ∨ rangeCrosses dst len = true) :
    busCopy src dst len s = .error .copyCrossesDevice := by
  unfold busCopy
  rw [if_neg h0]
  rcases h with h | h
  · rw [if_pos h]; rfl
  · rw [if_pos h]; split <;> rfl

theorem rangeCrosses_eq_false {a len : Word} (hlt : ¬ (a + (len - 1)).toNat < a.toNat)
    (hid : devId (a + (len - 1)) = devId a) : rangeCrosses a len = false :=
  Bool.eq_false_iff.2 fun h => (rangeCrosses_iff.1 h).elim hlt fun h => h hid

/-- Settles O20: every word is read before any is written, so the words written are those of the source before the copy,
whatever the ranges share. -/
theorem busCopyThroughBuffer : Obligations.BusCopyThroughBuffer := by
  refine ⟨fun s src dst => rfl, fun s src dst len h0 h => ?_,
    fun s src dst len f hq hm hv hc h0 hs1 hs2 hd1 hd2 hsrc hdst => ?_⟩
  · refine busCopy_crosses h0 ?_
    rw [rangeCrosses_iff, rangeCrosses_iff, or_assoc]
    exact h
  · have hreads := busReadRange_quiet hq hsrc
    have hlen : ((List.range len.toNat).map f).length = len.toNat := by simp
    obtain ⟨m, hwrites, hread⟩ := busWriteRange_ram hq hm hv hc (by rw [hlen]; exact len.isLt.le) (by rwa [hlen])
    have hcopy : busCopy src dst len s = .ok ((), { s with mem := m }) :=
      busCopy_ok.2 (.inr ⟨h0, rangeCrosses_eq_false hs1 hs2, rangeCrosses_eq_false hd1 hd2, _, s, hreads, hwrites⟩)
    refine ⟨m, hcopy, fun k hk => ?_, (busCopy_frame hcopy).2.2 hc⟩
    rw [hread k (by rwa [hlen]), List.getElem_map, List.getElem_range]

/-! ## The boot image (R63, R65, R76) -/

/-- The words of an image made of words' bytes are these words. -/
theorem imageWords_wordBytes (ws : List Word) : imageWords (ws.flatMap wordBytes) = ws := by
  induction ws with
  | nil => rfl
  | cons w ws ih => exact congrArg₂ List.cons (joinBytes_byteOf w) ih

theorem stripMagic_magic (ws : List Word) : stripMagic (Config.bootMagic :: ws) = ws := if_pos rfl

theorem stripMagic_of_head?_ne {ws : List Word} (h : ws.head? ≠ some Config.bootMagic) : stripMagic ws = ws := by
  cases ws with
  | nil => rfl
  | cons w ws => exact if_neg fun e => h (congrArg some e)

/-- The machine with these words as the image of the boot device `d` at `id`, which exposes no others. -/
def State.withImage (s : State) (id : Nat) (d : Device) (ws : List Word) : State :=
  { s with devices := s.devices.set id { d with kind := .rom ws.length }
           mem := (s.mem.clearWindow id).writeWords (windowBase id) ws }

theorem loadImage_rom {s : State} {id n : Nat} {d : Device} {image : List Byte} {ws : List Word}
    (hd : s.devices[id]? = some d) (hk : d.kind = .rom n) (hi : stripMagic (imageWords image) = ws)
    (hw : ws.length ≤ windowWords) : s.loadImage id image = .next (s.withImage id d ws) := by
  subst hi
  simp only [State.loadImage, hd, hk, if_pos hw]
  rfl

/-- A filled window reads the words placed in it and 0 above them; every other window reads as before. -/
theorem Memory.readWord_fillWindow {m : Memory} (hm : m.wf) {id : Nat} {ws : List Word} (hw : ws.length ≤ windowWords)
    (a : Nat) : Memory.readWord ((m.clearWindow id).writeWords (windowBase id) ws) a =
      if a / 2 ^ 52 = id then ws.getD (a % 2 ^ 52) 0 else m.readWord a := by
  unfold windowWords at hw
  rw [Memory.readWord_writeWords _ _ _ _ (Memory.wf_clearWindow _ _ hm), Memory.readWord_clearWindow]
  unfold windowBase
  by_cases hid : a / 2 ^ 52 = id
  · have hoff : a - id * 2 ^ 52 = a % 2 ^ 52 := by omega
    rw [if_pos hid, if_pos hid, hoff]
    split_ifs with hin
    · rfl
    · rw [List.getD_eq_default _ _ (by omega)]
  · rw [if_neg hid, if_neg hid, if_neg (by omega)]

/-- The device id of an address and the local address, as quotient and remainder (R51). -/
theorem devId_eq_div (a : Word) : a.toNat / 2 ^ 52 = devId a := by
  have h := devId_localAddr a
  have hlt := (localAddr a).isLt
  omega

theorem localAddr_eq_mod (a : Word) : a.toNat % 2 ^ 52 = (localAddr a).toNat := by
  have h := devId_localAddr a
  have hlt := (localAddr a).isLt
  omega

/-- The boot device exposes the image's words, and nothing above them. -/
theorem State.peek_withImage {s : State} {id : Nat} {d : Device} {ws : List Word} (hlt : id < s.devices.length)
    (hid : id ≠ directoryId) (hm : s.mem.wf) (hw : ws.length ≤ windowWords) {a : Word} (ha : devId a = id) :
    (s.withImage id d ws).peek a = ws[(localAddr a).toNat]? := by
  have hdev : (s.withImage id d ws).devices[devId a]? = some { d with kind := .rom ws.length } := by
    rw [ha]
    exact List.getElem?_set_self hlt
  have hread : (s.withImage id d ws).mem.readWord a.toNat = ws.getD (localAddr a).toNat 0 := by
    show Memory.readWord ((s.mem.clearWindow id).writeWords (windowBase id) ws) a.toNat = _
    rw [Memory.readWord_fillWindow hm hw, devId_eq_div, localAddr_eq_mod, if_pos ha]
  unfold State.peek
  rw [if_neg (ha ▸ hid), hdev]
  dsimp only
  split_ifs with hl
  · rw [hread, List.getD_eq_getElem _ _ hl, List.getElem?_eq_getElem hl]
  · rw [List.getElem?_eq_none (Nat.not_lt.1 hl)]

/-- The words of every other window read as before. -/
theorem State.peek_withImage_ne {s : State} {id : Nat} {d : Device} {ws : List Word} (hm : s.mem.wf)
    (hw : ws.length ≤ windowWords) {a : Word} (ha : devId a ≠ id) : (s.withImage id d ws).peek a = s.peek a := by
  have hdev : (s.withImage id d ws).devices[devId a]? = s.devices[devId a]? := List.getElem?_set_ne (Ne.symm ha)
  have hread : (s.withImage id d ws).mem.readWord a.toNat = s.mem.readWord a.toNat := by
    show Memory.readWord ((s.mem.clearWindow id).writeWords (windowBase id) ws) a.toNat = _
    rw [Memory.readWord_fillWindow hm hw, devId_eq_div, if_neg ha]
  unfold State.peek
  rw [hdev, hread]
  rfl

/-- Settles O28: the image's bytes give its words back, with or without the magic before them, and the boot device's window is
filled with these. -/
theorem bootImageExposed : Obligations.BootImageExposed := by
  intro s id size d ws hd hk hid hm hw hmagic
  have hlt : id < s.devices.length := (List.getElem?_eq_some_iff.1 hd).1
  refine ⟨s.withImage id d ws, loadImage_rom hd hk ?_ hw, loadImage_rom hd hk ?_ hw, fun a k ha hl => ?_,
    fun a ha => State.peek_withImage_ne hm hw ha⟩
  · rw [imageWords_wordBytes, stripMagic_of_head?_ne hmagic]
  · rw [imageWords_wordBytes, stripMagic_magic]
  · rw [State.peek_withImage hlt hid.ne hm hw ha, hl]

end Sys2Proof.Machine
end

section
/-!
PROOFS. The codec (30_encoding.md): Decode and Encode are inverse (O2, O3), the five checks and elaboration agree (O4),
the length of an instruction (O5), the worked encodings (O1) and the undefined opcodes (O6).
-/

namespace Sys2Proof

open Machine (bind_ok bind_of_ok)

/-! ## Fields written back (R101 to R103, R108) -/

theorem OperandField.pack_unpack (f : BitVec 10) : (OperandField.unpack f).pack = f := by
  apply BitVec.eq_of_getLsbD_eq
  intro i hi
  simp only [OperandField.unpack, OperandField.pack, BitVec.getLsbD_append, BitVec.getLsbD_extractLsb']
  grind

theorem SubGroup.pack_unpack (q : BitVec 12) : (SubGroup.unpack q).pack = q := by
  simp only [SubGroup.unpack, SubGroup.pack]
  ext i hi
  grind

@[simp] theorem Rel.code_ofCode (c : BitVec 2) : (Rel.ofCode c).code = c := by revert c; decide
@[simp] theorem Pred.code_ofCode (c : BitVec 1) : (Pred.ofCode c).code = c := by revert c; decide
@[simp] theorem bitOf_decide (b : BitVec 1) : bitOf (decide (b = 1#1)) = b := by revert b; decide

theorem bit_eq_zero {b : BitVec 1} (h : ¬ b = 1#1) : b = 0#1 := by revert b; decide

theorem operandType_cases (t : BitVec 2) : t = 0#2 ∨ t = 1#2 ∨ t = 2#2 ∨ t = 3#2 := by revert t; decide

/-- The operand fields are the packed ones. -/
theorem OperandField.exists_pack (f : BitVec 10) : ∃ o : OperandField, f = o.pack :=
  ⟨OperandField.unpack f, (OperandField.pack_unpack f).symm⟩

theorem SubGroup.exists_pack (q : BitVec 12) : ∃ g : SubGroup, q = g.pack :=
  ⟨SubGroup.unpack q, (SubGroup.pack_unpack q).symm⟩

/-! ## What Encode writes is as long as R115 says -/

theorem encodeLiteral_length (l : Literal) : (encodeLiteral l).2.length = l.words := by cases l <;> rfl

theorem encodeSubOperand_length (p : RawSub) : (encodeSubOperand p.op).2.length = p.words := by
  obtain ⟨⟨k, rel, ind⟩, neg⟩ := p
  cases k with
  | literal l => exact encodeLiteral_length l
  | _ => rfl

theorem encodeSub_length (p : Option RawSub) : (encodeSub p).2.length = (p.toList.map RawSub.words).sum := by
  cases p with
  | none => rfl
  | some p => simpa [encodeSub] using encodeSubOperand_length p

theorem encodeOperand_length (p : RawOperand) : (encodeOperand p).2.length = p.words := by
  obtain ⟨k, rel, ind⟩ := p
  cases k with
  | literal l => exact encodeLiteral_length l
  | calculated b i s o =>
    simp [encodeOperand, RawOperand.words, RawOperand.subs, encodeSub_length]
    omega
  | _ => rfl

theorem encodeOperands_length (ps : List RawOperand) :
    ((ps.map fun p => (encodeOperand p).2).flatten).length = (ps.map RawOperand.words).sum := by
  induction ps with
  | nil => rfl
  | cons p ps ih =>
    simp only [List.map_cons, List.flatten_cons, List.length_append, List.sum_cons, encodeOperand_length, ih]

theorem encodeRaw_length (r : RawInstr) : (encodeRaw r).length = r.length := by
  obtain ⟨op, ps, cond⟩ := r
  have hps := encodeOperands_length ps
  rcases cond with _ | ⟨p, pred⟩
  · simp only [encodeRaw, List.length_cons, hps, RawInstr.length, RawInstr.operands, Option.map_none, Option.toList_none,
      List.append_nil]
    omega
  · simp only [encodeRaw, List.length_cons, List.length_append, hps, encodeOperand_length, RawInstr.length,
      RawInstr.operands, Option.map_some, Option.toList_some, List.map_append, List.map_cons, List.map_nil,
      List.sum_append, List.sum_singleton]
    omega

/-! ## Decode of an encoded instruction (R117 (a)) -/

section
variable {σ ε : Type} {rd : StateT σ (Except ε) Word} {x y : σ}

/-- A record with its opcode's number of operands is read back from its words, whatever the word stream. -/
theorem decodeRaw_encode {r : RawInstr} (hc : r.countMatches = true) (h : Feeds rd (encodeRaw r) x y) :
    decodeRaw rd x = .ok (r, y) := by
  obtain ⟨op, ps, cond⟩ := r
  have hn : ps.length = declaredCount op := of_decide_eq_true hc
  have hslots : [slotField ps 0, slotField ps 1, slotField ps 2].take (declaredCount op) =
      ps.map fun p => (encodeOperand p).1 := hn ▸ slotFields ps (hn ▸ declaredCount_le op)
  unfold decodeRaw
  rcases cond with _ | ⟨p, pred⟩
  · obtain ⟨x1, h0, h1⟩ := h.one
    refine (bind_of_ok h0).trans ?_
    simp only [ControlWord.unpack_pack, hslots]
    refine (bind_of_ok (decodeOperands_encode h1)).trans ?_
    rfl
  · obtain ⟨x1, h0, h1⟩ := h.one
    obtain ⟨x2, h1, h2⟩ := h1.split
    refine (bind_of_ok h0).trans ?_
    simp only [ControlWord.unpack_pack, hslots]
    refine (bind_of_ok (decodeOperands_encode h1)).trans ?_
    simp only [decodeCond, if_true, Pred.ofCode_code]
    refine (bind_of_ok ((bind_of_ok (decodeOperand_encode h2)).trans rfl)).trans ?_
    rfl

/-! ## Encode of a decoded instruction (R117 (b), (c))

For each part that Decode reads: which words it took, and that Encode writes the part's field and words back as their
canonical forms. -/

/-- A literal was read from the words that Encode writes for it, and its `sel` is written back with its ignored bits 0. -/
theorem decodeLiteral_ok {sel : BitVec 5} {l : Literal} (h : decodeLiteral rd sel x = .ok (l, y)) :
    Feeds rd (encodeLiteral l).2 x y ∧
      (encodeLiteral l).1 = (if sel.extractLsb' 0 1 = 1#1 then sel else 0#5) ∧
      (encodeLiteral l).2.length = if sel.extractLsb' 0 1 = 1#1 then 0 else 1 := by
  unfold decodeLiteral at h
  split at h
  next hb =>
    cases h
    refine ⟨.nil _, ?_, by simp [hb, encodeLiteral]⟩
    rw [if_pos hb]
    revert sel
    decide
  next hb =>
    obtain ⟨v, x1, h1, h2⟩ := bind_ok.1 h
    cases h2
    exact ⟨.cons h1 (.nil _), by simp [hb, encodeLiteral], by simp [hb, encodeLiteral]⟩

theorem groupWords_absent (n : BitVec 1) (f : BitVec 10) : groupWords (SubGroup.pack ⟨0#1, n, f⟩) = 0 := by
  simp [groupWords, SubGroup.unpack_pack]

/-- A sub-operand was read from the words that Encode writes for it, and its field is written back in canonical form. -/
theorem decodeSubOperand_ok {f : BitVec 10} {p : RawSubOperand} (n : BitVec 1)
    (h : decodeSubOperand rd f x = .ok (p, y)) :
    Feeds rd (encodeSubOperand p).2 x y ∧ (encodeSubOperand p).1 = canonicalField true f ∧
      (encodeSubOperand p).2.length = groupWords (SubGroup.pack ⟨1#1, n, f⟩) := by
  obtain ⟨⟨rel, ind, type, sel⟩, rfl⟩ := OperandField.exists_pack f
  unfold decodeSubOperand at h
  simp only [canonicalField, groupWords, SubGroup.unpack_pack, OperandField.unpack_pack] at h ⊢
  obtain rfl | rfl | rfl | rfl := operandType_cases type
  · cases h
    exact ⟨.nil _, by simp [encodeSubOperand], by simp [encodeSubOperand]⟩
  · cases h
    exact ⟨.nil _, by simp [encodeSubOperand], by simp [encodeSubOperand]⟩
  · obtain ⟨l, x1, hl, h⟩ := bind_ok.1 h
    cases h
    obtain ⟨hfeed, hsel, hlen⟩ := decodeLiteral_ok hl
    refine ⟨hfeed, ?_, ?_⟩
    · simp only [encodeSubOperand, hsel]
      split_ifs <;> simp_all
    · simp only [encodeSubOperand, hlen]
      split_ifs <;> simp_all [bit_eq_zero]
  · cases h
    exact ⟨.nil _, by simp [encodeSubOperand], by simp [encodeSubOperand]⟩

/-- The same for a group of a nested control word, which takes the trailing words that its field says (R110). -/
theorem decodeSub_ok {q : BitVec 12} {p : Option RawSub} (h : decodeSub rd q x = .ok (p, y)) :
    Feeds rd (encodeSub p).2 x y ∧ (encodeSub p).1 = canonicalGroup q ∧ (encodeSub p).2.length = groupWords q := by
  obtain ⟨⟨present, neg, f⟩, rfl⟩ := SubGroup.exists_pack q
  unfold decodeSub at h
  simp only [canonicalGroup, SubGroup.unpack_pack] at h ⊢
  split at h
  next hp =>
    obtain ⟨s, x1, h1, h2⟩ := bind_ok.1 h
    cases h2
    subst hp
    obtain ⟨hfeed, hfield, hlen⟩ := decodeSubOperand_ok neg h1
    exact ⟨hfeed, by simp [encodeSub, hfield], hlen⟩
  next hp =>
    cases h
    obtain rfl := bit_eq_zero hp
    exact ⟨.nil _, rfl, (groupWords_absent neg f).symm⟩

/-- `ts` is the canonical form of the trailing words `us` of the operands with these fields (R113, R117 (c)). -/
structure CanonicalForm (fs : List (BitVec 10)) (us ts : List Word) : Prop where
  length : us.length = ts.length
  trailing : ∀ gs vs, canonicalTrailing (fs ++ gs) (us ++ vs) = ts ++ canonicalTrailing gs vs

theorem CanonicalForm.nil : CanonicalForm [] [] [] := ⟨rfl, fun _ _ => rfl⟩

theorem CanonicalForm.append {fs gs : List (BitVec 10)} {us vs ts ss : List Word} (h : CanonicalForm fs us ts)
    (k : CanonicalForm gs vs ss) : CanonicalForm (fs ++ gs) (us ++ vs) (ts ++ ss) :=
  ⟨by simp [h.length, k.length], fun fs' vs' => by simp [h.trailing, k.trailing]⟩

/-- With no further operand, the words after the operands' own are no part of the canonical form. -/
theorem CanonicalForm.eq {fs : List (BitVec 10)} {us ts : List Word} (h : CanonicalForm fs us ts) (vs : List Word) :
    canonicalTrailing fs (us ++ vs) = ts := by
  simpa [canonicalTrailing] using h.trailing [] vs

theorem Feeds.append {us vs : List Word} {z : σ} (h : Feeds rd us x y) (k : Feeds rd vs y z) :
    Feeds rd (us ++ vs) x z := by
  induction h with
  | nil x => exact k
  | cons h t ih => exact .cons h (ih k)

/-- An operand's field is written back in canonical form, and so are its trailing words. -/
theorem decodeOperand_ok {f : BitVec 10} {p : RawOperand} (h : decodeOperand rd f x = .ok (p, y)) :
    (encodeOperand p).1 = canonicalField false f ∧
      ∃ us, Feeds rd us x y ∧ CanonicalForm [f] us (encodeOperand p).2 := by
  obtain ⟨⟨rel, ind, type, sel⟩, rfl⟩ := OperandField.exists_pack f
  unfold decodeOperand at h
  simp only [canonicalField, OperandField.unpack_pack] at h ⊢
  obtain rfl | rfl | rfl | rfl := operandType_cases type
  · cases h
    exact ⟨by simp [encodeOperand], [], .nil _, rfl, fun gs vs => by
      simp [canonicalTrailing, OperandField.unpack_pack, encodeOperand]⟩
  · cases h
    exact ⟨by simp [encodeOperand], [], .nil _, rfl, fun gs vs => by
      simp [canonicalTrailing, OperandField.unpack_pack, encodeOperand]⟩
  · obtain ⟨l, x1, hl, h⟩ := bind_ok.1 h
    cases h
    obtain ⟨hfeed, hsel, hlen⟩ := decodeLiteral_ok hl
    refine ⟨?_, _, hfeed, rfl, fun gs vs => ?_⟩
    · simp only [encodeOperand, hsel]
      split_ifs <;> simp_all
    · simp only [encodeOperand, List.singleton_append, canonicalTrailing, OperandField.unpack_pack]
      split_ifs at hlen with hb
      · simp [hb, List.length_eq_zero_iff.1 hlen]
      · obtain ⟨w, hw⟩ := List.length_eq_one_iff.1 hlen
        simp [hb, hw]
  · obtain ⟨w, x2, hw, h0⟩ := bind_ok.1 h
    obtain ⟨b, x3, hb, h0⟩ := bind_ok.1 h0
    obtain ⟨i, x4, hi, h0⟩ := bind_ok.1 h0
    obtain ⟨s, x5, hs, h0⟩ := bind_ok.1 h0
    obtain ⟨o, x6, ho, h0⟩ := bind_ok.1 h0
    cases h0
    obtain ⟨hb1, hb2, hb3⟩ := decodeSub_ok hb
    obtain ⟨hi1, hi2, hi3⟩ := decodeSub_ok hi
    obtain ⟨hs1, hs2, hs3⟩ := decodeSub_ok hs
    obtain ⟨ho1, ho2, ho3⟩ := decodeSub_ok ho
    refine ⟨by simp [encodeOperand], _, .cons hw (((hb1.append hi1).append hs1).append ho1), by simp [encodeOperand],
      fun gs vs => ?_⟩
    have hlen : groupWords (NestedWord.unpack w).q0 + groupWords (NestedWord.unpack w).q1 +
        groupWords (NestedWord.unpack w).q2 + groupWords (NestedWord.unpack w).q3 =
          ((encodeSub b).2 ++ (encodeSub i).2 ++ (encodeSub s).2 ++ (encodeSub o).2).length := by
      simp only [List.length_append, hb3, hi3, hs3, ho3]
    simp only [encodeOperand, List.cons_append, canonicalTrailing, OperandField.unpack_pack, hlen,
      List.take_left', List.drop_left', canonicalNested, hb2, hi2, hs2, ho2]
    rfl

theorem decodeOperands_ok {fs : List (BitVec 10)} {ps : List RawOperand} (h : decodeOperands rd fs x = .ok (ps, y)) :
    (ps.map fun p => (encodeOperand p).1) = fs.map (canonicalField false) ∧
      ∃ us, Feeds rd us x y ∧ CanonicalForm fs us (ps.map fun p => (encodeOperand p).2).flatten := by
  induction fs generalizing x ps with
  | nil => cases h; exact ⟨rfl, [], .nil _, .nil⟩
  | cons f fs ih =>
    obtain ⟨p, x1, h1, h⟩ := bind_ok.1 h
    obtain ⟨qs, x2, h2, h⟩ := bind_ok.1 h
    cases h
    obtain ⟨hf, us, hus, hc⟩ := decodeOperand_ok h1
    obtain ⟨hfs, vs, hvs, hd⟩ := ih h2
    exact ⟨by simp [hf, hfs], us ++ vs, hus.append hvs, hc.append hd⟩

theorem slotField_eq_getD (ps : List RawOperand) (k : Nat) :
    slotField ps k = ((ps.map fun p => (encodeOperand p).1)[k]?).getD 0#10 := by
  unfold slotField
  rw [List.getElem?_map]
  cases ps[k]? <;> rfl

/-- Where the first `n` of three fields are the operands' in canonical form, so are the control word's slots. -/
theorem slotField_of_take {ps : List RawOperand} {n : Nat} {f0 f1 f2 : BitVec 10}
    (h : (ps.map fun p => (encodeOperand p).1) = ([f0, f1, f2].take n).map (canonicalField false)) :
    slotField ps 0 = (if 0 < n then canonicalField false f0 else 0#10) ∧
      slotField ps 1 = (if 1 < n then canonicalField false f1 else 0#10) ∧
      slotField ps 2 = (if 2 < n then canonicalField false f2 else 0#10) := by
  simp only [slotField_eq_getD, h, List.getElem?_map, List.getElem?_take]
  refine ⟨?_, ?_, ?_⟩ <;> split_ifs <;> rfl

/-- The conditional operand's part of the control word, and its trailing words' canonical form. -/
theorem decodeCond_ok {c : ControlWord} {g : Option (RawOperand × Pred)} (h : decodeCond rd c x = .ok (g, y)) :
    (g = none ∧ c.condPresent = 0#1 ∧ y = x) ∨
      ∃ p us, g = some (p, Pred.ofCode c.condPred) ∧ c.condPresent = 1#1 ∧
        (encodeOperand p).1 = canonicalField false c.fc ∧ Feeds rd us x y ∧
        CanonicalForm [c.fc] us (encodeOperand p).2 := by
  unfold decodeCond at h
  split at h
  next hp =>
    obtain ⟨p, x1, h1, h2⟩ := bind_ok.1 h
    cases h2
    obtain ⟨hf, us, hus, hc⟩ := decodeOperand_ok h1
    exact .inr ⟨p, us, rfl, hp, hf, hus, hc⟩
  next hp =>
    cases h
    exact .inl ⟨rfl, bit_eq_zero hp, rfl⟩

/-- A decoded record was read from as many words as its length, and its encoding is their canonical form. -/
theorem decodeRaw_ok {r : RawInstr} (h : decodeRaw rd x = .ok (r, y)) :
    ∃ us, Feeds rd us x y ∧ us.length = r.length ∧ ∀ vs, canonicalWords (us ++ vs) = encodeRaw r := by
  unfold decodeRaw at h
  obtain ⟨w, x1, hw, h⟩ := bind_ok.1 h
  obtain ⟨ps, x2, hps, h⟩ := bind_ok.1 h
  obtain ⟨g, x3, hg, h⟩ := bind_ok.1 h
  cases h
  obtain ⟨hf, us, hus, hc⟩ := decodeOperands_ok hps
  obtain ⟨h0, h1, h2⟩ := slotField_of_take hf
  rw [← encodeRaw_length]
  obtain ⟨rfl, hp, rfl⟩ | ⟨p, vs, rfl, hp, hpf, hvs, hd⟩ := decodeCond_ok hg
  · exact ⟨w :: us, .cons hw hus, by simp [encodeRaw, hc.length], fun ws => by
      simp [canonicalWords, canonicalControl, hp, encodeRaw, h0, h1, h2, hc.eq]⟩
  · have hcd := hc.append hd
    exact ⟨w :: (us ++ vs), .cons hw (hus.append hvs), by simp [encodeRaw, hc.length, hd.length], fun ws => by
      simp [canonicalWords, canonicalControl, hp, encodeRaw, h0, h1, h2, hpf, ← hcd.eq ws]⟩

end

theorem Feeds.of_list {us ws rest : List Word} (h : Feeds nextWord us ws rest) : ws = us ++ rest := by
  generalize hr : rest = r at h
  induction h with
  | nil x => rfl
  | @cons w us x y z h t ih =>
    cases x with
    | nil => cases h
    | cons v vs =>
      cases h
      rw [List.cons_append, ← ih hr]

/-- Settles O2, from what Decode reads of an encoding and what Encode writes of a decoded record. -/
theorem roundTripLaws : Obligations.RoundTripLaws := by
  refine ⟨fun r rest hc => ⟨decodeRaw_encode hc (Feeds.list _ _), encodeRaw_length r⟩, fun ws rest r h => ?_⟩
  obtain ⟨us, hus, hlen, hcanon⟩ := decodeRaw_ok h
  obtain rfl := hus.of_list
  have htake : (us ++ rest).take r.length = us := List.take_left' hlen
  exact ⟨decodeRaw_count h, by rw [htake], (hcanon rest).symm, fun hw => by rw [← hcanon rest, hw]⟩

/-! ## What each form of elaboration answers (R120) -/

section
variable {ps : List RawOperand} {i : Instr}

theorem elabNone_ok {mk : Instr} : elabNone mk ps = .ok i ↔ ps = [] ∧ mk = i := by
  rcases ps with _ | ⟨p, ps⟩ <;> simp [elabNone]

theorem elabR_ok {mk : Operand → Instr} : elabR mk ps = .ok i ↔ ∃ a : Operand, ps = [a.raw] ∧ mk a = i := by
  rcases ps with _ | ⟨p, _ | ⟨q, ps⟩⟩ <;> simp [elabR, except_bind_ok, elabOperand_ok, pure, Except.pure]

theorem elabRRR_ok {mk : Operand → Operand → Operand → Instr} :
    elabRRR mk ps = .ok i ↔ ∃ a b c : Operand, ps = [a.raw, b.raw, c.raw] ∧ mk a b c = i := by
  rcases ps with _ | ⟨p, _ | ⟨q, _ | ⟨r, _ | ⟨s, ps⟩⟩⟩⟩ <;>
    simp [elabRRR, except_bind_ok, elabOperand_ok, pure, Except.pure, and_assoc]

theorem elabWR_ok {mk : Dest → Operand → Instr} :
    elabWR mk ps = .ok i ↔ ∃ (d : Dest) (a : Operand), ps = [d.operand.raw, a.raw] ∧ mk d a = i := by
  rcases ps with _ | ⟨p, _ | ⟨q, _ | ⟨r, ps⟩⟩⟩ <;>
    simp [elabWR, except_bind_ok, elabOperand_ok, elabDest_ok, pure, Except.pure, and_assoc]

theorem elabWRR_ok {mk : Dest → Operand → Operand → Instr} :
    elabWRR mk ps = .ok i ↔ ∃ (d : Dest) (a b : Operand), ps = [d.operand.raw, a.raw, b.raw] ∧ mk d a b = i := by
  rcases ps with _ | ⟨p, _ | ⟨q, _ | ⟨r, _ | ⟨s, ps⟩⟩⟩⟩ <;>
    simp [elabWRR, except_bind_ok, elabOperand_ok, elabDest_ok, pure, Except.pure, and_assoc]

theorem elabWW_ok {mk : Dest → Dest → Instr} :
    elabWW mk ps = .ok i ↔ ∃ d e : Dest, ps = [d.operand.raw, e.operand.raw] ∧ mk d e = i := by
  rcases ps with _ | ⟨p, _ | ⟨q, _ | ⟨r, ps⟩⟩⟩ <;>
    simp [elabWW, except_bind_ok, elabDest_ok, pure, Except.pure, and_assoc]

theorem elabWWR_ok {mk : Dest → Dest → Operand → Instr} :
    elabWWR mk ps = .ok i ↔
      ∃ (d e : Dest) (a : Operand), ps = [d.operand.raw, e.operand.raw, a.raw] ∧ mk d e a = i := by
  rcases ps with _ | ⟨p, _ | ⟨q, _ | ⟨r, _ | ⟨s, ps⟩⟩⟩⟩ <;>
    simp [elabWWR, except_bind_ok, elabOperand_ok, elabDest_ok, pure, Except.pure, and_assoc]

end

/-! ## Elaboration and the instruction's record are inverse (R118, R120) -/

theorem elabOpcode_shape (i : Instr) : elabOpcode i.shape.opcode i.shape.gate (i.shape.params.map Param.raw) = .ok i := by
  cases i with
  | hlt | nop | eint | inte | intd | ret | brk => exact elabNone_ok.2 ⟨rfl, rfl⟩
  | call => exact elabR_ok.2 ⟨_, rfl, rfl⟩
  | int | cpy | dbg => exact elabRRR_ok.2 ⟨_, _, _, rfl, rfl⟩
  | xchg => exact elabWW_ok.2 ⟨_, _, rfl, rfl⟩
  | cas => exact elabWWR_ok.2 ⟨_, _, _, rfl, rfl⟩
  | set | not => exact elabWR_ok.2 ⟨_, _, rfl, rfl⟩
  | _ => exact elabWRR_ok.2 ⟨_, _, _, rfl, rfl⟩

theorem elabOpcode_ok {op : BitVec 8} {g : Option Gate} {ps : List RawOperand} {i : Instr}
    (h : elabOpcode op g ps = .ok i) : i.shape.opcode = op ∧ i.shape.gate = g ∧ i.shape.params.map Param.raw = ps := by
  unfold elabOpcode at h
  split at h
  case h_42 => cases h
  all_goals rename_i hop
  any_goals obtain ⟨rfl, rfl⟩ := elabNone_ok.1 h; exact ⟨BitVec.eq_of_toNat_eq hop.symm, rfl, rfl⟩
  any_goals obtain ⟨a, rfl, rfl⟩ := elabR_ok.1 h; exact ⟨BitVec.eq_of_toNat_eq hop.symm, rfl, rfl⟩
  any_goals obtain ⟨a, b, c, rfl, rfl⟩ := elabRRR_ok.1 h; exact ⟨BitVec.eq_of_toNat_eq hop.symm, rfl, rfl⟩
  any_goals obtain ⟨d, a, rfl, rfl⟩ := elabWR_ok.1 h; exact ⟨BitVec.eq_of_toNat_eq hop.symm, rfl, rfl⟩
  any_goals obtain ⟨d, a, b, rfl, rfl⟩ := elabWRR_ok.1 h; exact ⟨BitVec.eq_of_toNat_eq hop.symm, rfl, rfl⟩
  any_goals obtain ⟨d, e, rfl, rfl⟩ := elabWW_ok.1 h; exact ⟨BitVec.eq_of_toNat_eq hop.symm, rfl, rfl⟩
  any_goals obtain ⟨d, e, a, rfl, rfl⟩ := elabWWR_ok.1 h; exact ⟨BitVec.eq_of_toNat_eq hop.symm, rfl, rfl⟩

/-- A record elaborates to an instruction exactly when it is that instruction's record. -/
theorem elaborate_ok {r : RawInstr} {i : Instr} : elaborate r = .ok i ↔ r = i.raw := by
  constructor
  · intro h
    obtain ⟨g, hg, hi⟩ := except_bind_ok.1 h
    obtain ⟨op, ps, cond⟩ := r
    obtain ⟨rfl, rfl, rfl⟩ := elabOpcode_ok hi
    obtain rfl := elabGate_ok.1 hg
    rfl
  · rintro rfl
    exact except_bind_ok.2 ⟨_, elabGate_ok.2 rfl, elabOpcode_shape i⟩

/-- Each instruction's opcode has a row of the table, which gives its operands' directions (R121). -/
theorem tableShape (i : Instr) : Laws.TableShape.Statement i := by
  cases i <;> exact ⟨_, rfl, rfl⟩

theorem Instr.raw_countMatches (i : Instr) : i.raw.countMatches = true := by
  obtain ⟨d, hd, hdirs⟩ := tableShape i
  simp [RawInstr.countMatches, Instr.raw, declaredCount, hd, hdirs]

/-- Settles O3, from Decode of an encoded record and the elaboration of an instruction's record. -/
theorem instructionRoundTrip : Obligations.InstructionRoundTrip := by
  intro i rest
  have hraw : (decodeRaw nextWord).run (encode i ++ rest) = .ok (i.raw, rest) :=
    decodeRaw_encode i.raw_countMatches (Feeds.list _ _)
  have helab : elaborate i.raw = .ok i := elaborate_ok.2 rfl
  exact ⟨by simp only [decodeWords, hraw, helab], encodeRaw_length i.raw⟩

/-! ## The five checks on each part of a record (R120) -/

theorem RegisterNumber.inRange_iff {x : BitVec 5} : RegisterNumber.inRange x = true ↔ ∃ r : Reg, x = r.number := by
  rw [← Reg.ofNumber_isSome, Option.isSome_iff_exists]
  constructor
  · rintro ⟨r, h⟩
    exact ⟨r, (Reg.number_ofNumber h).symm⟩
  · rintro ⟨r, rfl⟩
    exact ⟨r, Reg.ofNumber_number r⟩

theorem SignedSub.exists_raw_iff {p : RawSub} :
    (∃ q : SignedSub, p = q.raw) ↔ p.registerInRange = true ∧ p.notNested = true := by
  obtain ⟨⟨k, rel, ind⟩, neg⟩ := p
  constructor
  · rintro ⟨⟨⟨k, rel, ind⟩, neg⟩, h⟩
    rw [h]
    cases k with
    | register r => exact ⟨RegisterNumber.inRange_iff.2 ⟨r, rfl⟩, rfl⟩
    | _ => exact ⟨rfl, rfl⟩
  · rintro ⟨hreg, hnest⟩
    cases k with
    | register x =>
      obtain ⟨r, rfl⟩ := RegisterNumber.inRange_iff.1 hreg
      exact ⟨⟨⟨.register r, rel, ind⟩, neg⟩, rfl⟩
    | stack => exact ⟨⟨⟨.stack, rel, ind⟩, neg⟩, rfl⟩
    | literal l => exact ⟨⟨⟨.literal l, rel, ind⟩, neg⟩, rfl⟩
    | nestedCalculated sel => cases hnest

theorem SignedSub.exists_map_raw_iff {p : Option RawSub} :
    (∃ q : Option SignedSub, p = q.map SignedSub.raw) ↔
      p.toList.all RawSub.registerInRange = true ∧ p.toList.all RawSub.notNested = true := by
  cases p with
  | none => exact ⟨fun _ => ⟨rfl, rfl⟩, fun _ => ⟨none, rfl⟩⟩
  | some p =>
    simp only [Option.toList_some, List.all_cons, List.all_nil, Bool.and_true, ← SignedSub.exists_raw_iff]
    constructor
    · rintro ⟨_ | q, h⟩
      · cases h
      · exact ⟨q, Option.some.inj h⟩
    · rintro ⟨q, rfl⟩
      exact ⟨some q, rfl⟩

/-- The checks of a kind: a register in range, or a Base and sub-operands that pass WF2 and WF4. -/
theorem Kind.exists_raw_iff {k : RawKind} {rel : Rel} {ind : Bool} : (∃ q : Kind, k = q.raw) ↔
    RawOperand.registerInRange ⟨k, rel, ind⟩ = true ∧ RawOperand.basePresent ⟨k, rel, ind⟩ = true ∧
      RawOperand.noNestedCalculated ⟨k, rel, ind⟩ = true := by
  cases k with
  | register x =>
    simp only [RawOperand.registerInRange, RawOperand.basePresent, RawOperand.noNestedCalculated, RawOperand.subs,
      List.all_nil, Bool.and_true, and_true, RegisterNumber.inRange_iff]
    constructor
    · rintro ⟨_ | _, h⟩ <;> cases h
      exact ⟨_, rfl⟩
    · rintro ⟨r, rfl⟩
      exact ⟨.register r, rfl⟩
  | stack => exact ⟨fun _ => ⟨rfl, rfl, rfl⟩, fun _ => ⟨.stack, rfl⟩⟩
  | literal l => exact ⟨fun _ => ⟨rfl, rfl, rfl⟩, fun _ => ⟨.literal l, rfl⟩⟩
  | calculated b i s o =>
    simp only [RawOperand.registerInRange, RawOperand.basePresent, RawOperand.noNestedCalculated, RawOperand.subs,
      List.all_append, Bool.true_and, Bool.and_eq_true]
    constructor
    · rintro ⟨_ | _ | _ | ⟨b, i, s, o⟩, h⟩ <;> cases h
      obtain ⟨hb1, hb2⟩ := SignedSub.exists_map_raw_iff.1 ⟨some b, rfl⟩
      obtain ⟨hi1, hi2⟩ := SignedSub.exists_map_raw_iff.1 ⟨i, rfl⟩
      obtain ⟨hs1, hs2⟩ := SignedSub.exists_map_raw_iff.1 ⟨s, rfl⟩
      obtain ⟨ho1, ho2⟩ := SignedSub.exists_map_raw_iff.1 ⟨o, rfl⟩
      exact ⟨⟨⟨⟨hb1, hi1⟩, hs1⟩, ho1⟩, rfl, ⟨⟨hb2, hi2⟩, hs2⟩, ho2⟩
    · rintro ⟨⟨⟨⟨hb1, hi1⟩, hs1⟩, ho1⟩, hbase, ⟨⟨hb2, hi2⟩, hs2⟩, ho2⟩
      obtain ⟨_ | b, rfl⟩ := SignedSub.exists_map_raw_iff.2 ⟨hb1, hb2⟩
      · cases hbase
      obtain ⟨i, rfl⟩ := SignedSub.exists_map_raw_iff.2 ⟨hi1, hi2⟩
      obtain ⟨s, rfl⟩ := SignedSub.exists_map_raw_iff.2 ⟨hs1, hs2⟩
      obtain ⟨o, rfl⟩ := SignedSub.exists_map_raw_iff.2 ⟨ho1, ho2⟩
      exact ⟨.calculated b i s o, rfl⟩

/-- A read operand is well-formed exactly when it passes WF2, WF3 and WF4. -/
theorem Operand.exists_raw_iff {p : RawOperand} : (∃ q : Operand, p = q.raw) ↔
    p.registerInRange = true ∧ p.basePresent = true ∧ p.noNestedCalculated = true := by
  obtain ⟨k, rel, ind⟩ := p
  rw [← Kind.exists_raw_iff]
  constructor
  · rintro ⟨q, h⟩
    cases h
    exact ⟨q.kind, rfl⟩
  · rintro ⟨q, rfl⟩
    exact ⟨⟨q, rel, ind⟩, rfl⟩

/-- A written operand is well-formed exactly when it is well-formed as a read one and passes WF5. -/
theorem Dest.exists_raw_iff {p : RawOperand} : (∃ d : Dest, p = d.operand.raw) ↔
    (∃ q : Operand, p = q.raw) ∧ p.writable = true := by
  constructor
  · rintro ⟨d, rfl⟩
    exact ⟨⟨d.operand, rfl⟩, by cases d <;> rfl⟩
  · rintro ⟨⟨⟨k, rel, ind⟩, rfl⟩, hw⟩
    cases ind with
    | true => exact ⟨.indirect k rel, rfl⟩
    | false =>
      simp only [RawOperand.writable, Operand.raw, Bool.false_or, Bool.and_eq_true] at hw
      obtain ⟨hrel, hk⟩ := hw
      obtain rfl := of_decide_eq_true hrel
      cases k with
      | register r => exact ⟨.register r, rfl⟩
      | stack => exact ⟨.stack, rfl⟩
      | literal l => cases hk
      | calculated b i s o => cases hk

theorem Param.exists {P : Param → Prop} :
    (∃ q, P q) ↔ (∃ a, P (.read a)) ∨ (∃ d, P (.write d)) ∨ ∃ d, P (.readWrite d) := by
  constructor
  · rintro ⟨a | d | d, h⟩
    · exact .inl ⟨a, h⟩
    · exact .inr (.inl ⟨d, h⟩)
    · exact .inr (.inr ⟨d, h⟩)
  · rintro (⟨a, h⟩ | ⟨d, h⟩ | ⟨d, h⟩) <;> exact ⟨_, h⟩

/-- A declared operand is well-formed in its slot: it is written only where WF5 allows it. -/
theorem Param.exists_raw_iff {dir : Dir} {p : RawOperand} : (∃ q : Param, q.dir = dir ∧ p = q.raw) ↔
    (∃ q : Operand, p = q.raw) ∧ (!dir.includesWrite || p.writable) = true := by
  cases dir with
  | read => simp [Param.exists, Param.dir, Param.raw, Dir.includesWrite]
  | write | readWrite =>
    simp [Param.exists, Param.dir, Param.raw, Dir.includesWrite, Dest.exists_raw_iff]

/-- The declared operands are well-formed beside their directions exactly when each is in its slot. -/
theorem Param.exists_map_raw_iff {dirs : List Dir} {ps : List RawOperand} (hl : ps.length = dirs.length) :
    (∃ qs : List Param, qs.map Param.dir = dirs ∧ qs.map Param.raw = ps) ↔
      (∀ p ∈ ps, ∃ q : Operand, p = q.raw) ∧
        ((ps.zip dirs).all fun pd => !pd.2.includesWrite || pd.1.writable) = true := by
  induction dirs generalizing ps with
  | nil =>
    obtain rfl := List.length_eq_zero_iff.1 hl
    exact ⟨fun _ => ⟨by simp, rfl⟩, fun _ => ⟨[], rfl, rfl⟩⟩
  | cons dir dirs ih =>
    cases ps with
    | nil => cases hl
    | cons p ps =>
      have ih := ih (Nat.succ.inj hl)
      have hp := Param.exists_raw_iff (dir := dir) (p := p)
      simp only [List.zip_cons_cons, List.all_cons, Bool.and_eq_true, List.forall_mem_cons]
      rw [and_and_and_comm, ← hp, ← ih]
      constructor
      · rintro ⟨_ | ⟨q, qs⟩, hd, hr⟩ <;> cases hd
        cases hr
        exact ⟨⟨q, rfl, rfl⟩, qs, rfl, rfl⟩
      · rintro ⟨⟨q, rfl, rfl⟩, qs, rfl, rfl⟩
        exact ⟨q :: qs, rfl, rfl⟩

theorem Gate.exists_raw_iff {c : Option (RawOperand × Pred)} :
    (∃ g : Option Gate, c = g.map fun g => (g.operand.raw, g.pred)) ↔
      ∀ p ∈ (c.map Prod.fst).toList, ∃ q : Operand, p = q.raw := by
  rcases c with _ | ⟨p, pred⟩
  · simp only [Option.map_none, Option.toList_none, List.not_mem_nil, false_imp_iff, implies_true, iff_true]
    exact ⟨none, rfl⟩
  · simp only [Option.map_some, Option.toList_some, List.mem_singleton, forall_eq]
    constructor
    · rintro ⟨_ | g, h⟩ <;> cases h
      exact ⟨_, rfl⟩
    · rintro ⟨q, rfl⟩
      exact ⟨some ⟨q, pred⟩, rfl⟩

/-! ## The five checks on a record -/

theorem definition_mem {op : BitVec 8} {d : Definition} (h : definition op = some d) : d ∈ opcodeTable ∧ d.opcode = op :=
  ⟨List.mem_of_find?_eq_some h, by simpa using List.find?_some h⟩

theorem Param.map_dir_eq_read {qs : List Param} {dirs : List Dir} : qs.map Param.dir = .read :: dirs ↔
    ∃ a rs, qs = .read a :: rs ∧ rs.map Param.dir = dirs := by
  rcases qs with _ | ⟨_ | _ | _, qs⟩ <;> simp [Param.dir]

theorem Param.map_dir_eq_write {qs : List Param} {dirs : List Dir} : qs.map Param.dir = .write :: dirs ↔
    ∃ d rs, qs = .write d :: rs ∧ rs.map Param.dir = dirs := by
  rcases qs with _ | ⟨_ | _ | _, qs⟩ <;> simp [Param.dir]

theorem Param.map_dir_eq_readWrite {qs : List Param} {dirs : List Dir} : qs.map Param.dir = .readWrite :: dirs ↔
    ∃ d rs, qs = .readWrite d :: rs ∧ rs.map Param.dir = dirs := by
  rcases qs with _ | ⟨_ | _ | _, qs⟩ <;> simp [Param.dir]

/-- Every row of the table is the opcode of an instruction with any operands of the row's directions (R121). -/
theorem Instr.exists_shape {d : Definition} (hd : d ∈ opcodeTable) (g : Option Gate) {qs : List Param}
    (h : qs.map Param.dir = d.dirs) : ∃ i : Instr, i.shape.opcode = d.opcode ∧ i.shape.gate = g ∧
      i.shape.params.map Param.raw = qs.map Param.raw := by
  suffices h : ∃ i, elabOpcode d.opcode g (qs.map Param.raw) = .ok i from h.imp fun i => elabOpcode_ok
  fin_cases hd <;>
    simp only [Param.map_dir_eq_read, Param.map_dir_eq_write, Param.map_dir_eq_readWrite, List.map_eq_nil_iff] at h
  any_goals obtain rfl := h; exact ⟨_, elabNone_ok.2 ⟨rfl, rfl⟩⟩
  any_goals obtain ⟨a, _, rfl, rfl⟩ := h; exact ⟨_, elabR_ok.2 ⟨a, rfl, rfl⟩⟩
  any_goals obtain ⟨d, _, rfl, a, _, rfl, rfl⟩ := h; exact ⟨_, elabWR_ok.2 ⟨d, a, rfl, rfl⟩⟩
  any_goals obtain ⟨d, _, rfl, e, _, rfl, rfl⟩ := h; exact ⟨_, elabWW_ok.2 ⟨d, e, rfl, rfl⟩⟩
  any_goals obtain ⟨d, _, rfl, a, _, rfl, b, _, rfl, rfl⟩ := h; exact ⟨_, elabWRR_ok.2 ⟨d, a, b, rfl, rfl⟩⟩
  any_goals obtain ⟨a, _, rfl, b, _, rfl, c, _, rfl, rfl⟩ := h; exact ⟨_, elabRRR_ok.2 ⟨a, b, c, rfl, rfl⟩⟩
  any_goals obtain ⟨d, _, rfl, e, _, rfl, a, _, rfl, rfl⟩ := h; exact ⟨_, elabWWR_ok.2 ⟨d, e, a, rfl, rfl⟩⟩

/-- An instruction's record: a row of the table, operands of its directions and a conditional operand, all well-formed. -/
theorem Instr.exists_raw_iff {r : RawInstr} : (∃ i : Instr, r = i.raw) ↔
    ∃ d, definition r.opcode = some d ∧ (∃ qs : List Param, qs.map Param.dir = d.dirs ∧ qs.map Param.raw = r.params) ∧
      ∃ g : Option Gate, r.cond = g.map fun g => (g.operand.raw, g.pred) := by
  constructor
  · rintro ⟨i, rfl⟩
    obtain ⟨d, hd, hdirs⟩ := tableShape i
    exact ⟨d, hd, ⟨i.shape.params, hdirs.symm, rfl⟩, i.shape.gate, rfl⟩
  · obtain ⟨op, ps, cond⟩ := r
    rintro ⟨d, hd, ⟨qs, hdirs, rfl⟩, g, rfl⟩
    obtain ⟨hmem, rfl⟩ := definition_mem hd
    obtain ⟨i, hop, rfl, hps⟩ := Instr.exists_shape hmem g hdirs
    exact ⟨i, by simp only [Instr.raw, hop, hps]⟩

/-- WF1 to WF5 together: WF2, WF3 and WF4 say that every operand is a well-formed read operand. -/
theorem RawInstr.wellFormed_iff {r : RawInstr} : r.wellFormed = true ↔
    ∃ d, definition r.opcode = some d ∧ (∀ p ∈ r.operands, ∃ q : Operand, p = q.raw) ∧
      ((r.params.zip d.dirs).all fun pd => !pd.2.includesWrite || pd.1.writable) = true := by
  simp only [RawInstr.wellFormed, RawInstr.knownOpcode, RawInstr.registerInRange, RawInstr.basePresent,
    RawInstr.noNestedCalculated, RawInstr.writableDestination, Bool.and_eq_true, Operand.exists_raw_iff,
    List.all_eq_true, forall_and]
  cases definition r.opcode with
  | none => simp
  | some d => simp [and_assoc]

theorem RawInstr.wellFormed_iff_exists {r : RawInstr} (hc : r.countMatches = true) :
    r.wellFormed = true ↔ ∃ i : Instr, r = i.raw := by
  rw [RawInstr.wellFormed_iff, Instr.exists_raw_iff]
  refine exists_congr fun d => and_congr_right fun hd => ?_
  have hl : r.params.length = d.dirs.length := by simpa [RawInstr.countMatches, declaredCount, hd] using hc
  rw [Param.exists_map_raw_iff hl, Gate.exists_raw_iff, RawInstr.operands, List.forall_mem_append, and_right_comm]

/-- Settles O4, from the checks of each part of a record. -/
theorem wellFormedIffInstruction : Obligations.WellFormedIffInstruction := by
  intro r hc
  refine ⟨?_, fun i h => (elaborate_ok.1 h).symm⟩
  simp only [elaborate_ok]
  exact RawInstr.wellFormed_iff_exists hc

/-! ## Length (R100, R115) -/

theorem Literal.words_le (l : Literal) : l.words ≤ 1 := by cases l <;> simp [Literal.words]

theorem RawSub.words_le (p : RawSub) : p.words ≤ 1 := by
  obtain ⟨⟨k, rel, ind⟩, neg⟩ := p
  cases k with
  | literal l => exact l.words_le
  | _ => exact Nat.zero_le 1

theorem RawOperand.subs_length_le (p : RawOperand) : p.subs.length ≤ 4 := by
  have hopt (q : Option RawSub) : q.toList.length ≤ 1 := by cases q <;> simp
  obtain ⟨k, rel, ind⟩ := p
  cases k with
  | calculated b i s o =>
    have hb := hopt b
    have hi := hopt i
    have hs := hopt s
    have ho := hopt o
    simp only [RawOperand.subs, List.length_append]
    omega
  | _ => exact Nat.zero_le 4

/-- The words of a list of parts are at most the bound of one part for each. -/
theorem sum_words_le {α : Type} {f : α → Nat} {n : Nat} (h : ∀ a, f a ≤ n) (l : List α) :
    (l.map f).sum ≤ l.length * n := by
  have := List.sum_le_card_nsmul (l.map f) n (by simpa using fun a _ => h a)
  simpa using this

theorem RawOperand.words_le (p : RawOperand) : p.words ≤ 5 := by
  have hlen := p.subs_length_le
  have hsum := sum_words_le RawSub.words_le p.subs
  obtain ⟨k, rel, ind⟩ := p
  cases k with
  | literal l => exact l.words_le.trans (by decide)
  | calculated b i s o => simp only [RawOperand.words]; omega
  | _ => exact Nat.zero_le 5

theorem RawInstr.operands_length_le {r : RawInstr} (hc : r.countMatches = true) : r.operands.length ≤ 4 := by
  have hn : r.params.length = declaredCount r.opcode := of_decide_eq_true hc
  have h3 := declaredCount_le r.opcode
  have hcond : (r.cond.map Prod.fst).toList.length ≤ 1 := by cases r.cond <;> simp
  simp only [RawInstr.operands, List.length_append]
  omega

/-- A sub-operand with a trailing word of its own. -/
def trailingSub : SignedSub := ⟨⟨.literal (.trailing 0), .none, false⟩, false⟩

/-- An operand of the most words: a nested control word and a trailing word for each sub-operand (R110, R115). -/
def fiveWordOperand : Operand := ⟨.calculated trailingSub (some trailingSub) (some trailingSub) (some trailingSub), .none, false⟩

/-- Settles O5: at most four operands (a conditional one and three declared), each of at most five words. -/
theorem lengthBounds : Obligations.LengthBounds := by
  refine ⟨fun r hc => ?_, ⟨.hlt none, rfl⟩,
    .int (some ⟨fiveWordOperand, .whenZero⟩) fiveWordOperand fiveWordOperand fiveWordOperand, rfl⟩
  have hlen := RawInstr.operands_length_le hc
  have hsum := sum_words_le RawOperand.words_le r.operands
  simp only [RawInstr.length]
  omega

/-! ## The worked encodings (R125) and the undefined opcodes (R122) -/

/-- Settles O1: Encode is evaluated on each row, and Decode of its words is O3. -/
theorem workedEncodings : Obligations.WorkedEncodings := by
  intro p hp
  have henc : encode p.1 = p.2 := by revert p; decide
  have hdec := (instructionRoundTrip p.1 []).1
  rw [List.append_nil, henc] at hdec
  exact ⟨henc, hdec⟩

theorem definition_eq_none {op : BitVec 8} : definition op = none ↔ ∀ d ∈ opcodeTable, d.opcode.toNat ≠ op.toNat := by
  simp [definition, BitVec.toNat_inj]

/-- Settles O6: the opcodes of the table's rows, and the gaps between them. -/
theorem undefinedOpcodes : Obligations.UndefinedOpcodes := by
  refine ⟨fun op => ?_, rfl⟩
  rw [definition_eq_none]
  simp only [opcodeTable, List.forall_mem_cons, List.not_mem_nil, false_imp_iff, implies_true, and_true,
    BitVec.reduceToNat]
  omega

end Sys2Proof
end

section
/-!
PROOFS. The Tick: the fetched instruction's run (O7, O8), a malformed instruction (O9), the gate (O10), reading an operand
(O11 to O13) and storing to one (O14).
-/

namespace Sys2Proof.Machine

/-! ## The Tick of a fetched record (R150, R151, R153) -/

theorem tick_of_fetch {s s1 : State} {r : RawInstr} (h : fetchDecode s = .ok (r, s1)) :
    tick s = withDelivery (execute r s1) := by
  unfold tick
  rw [h]

theorem execute_instr {r : RawInstr} {i : Instr} (h : elaborate r = .ok i) (s : State) : execute r s = exec i s := by
  unfold execute
  rw [h]

theorem execute_malformed {r : RawInstr} {e : WfCheck} (h : elaborate r = .error e) (s : State) :
    execute r s = outcomeOfUnit (invalidTick r s) := by
  unfold execute
  rw [h]
  rfl

/-- The step of a Running processor with no host move is a Tick (R435). -/
theorem step_running {s : State} (hr : s.runState = .running) (hm : s.hostMoves = []) : step s = tick s :=
  (cycle_self hm).trans (selfStep_running hr)

/-- The Tick of a record that elaborates is its instruction's run (R150). -/
theorem tick_of_instr {s s1 : State} {r : RawInstr} {i : Instr} (hf : fetchDecode s = .ok (r, s1))
    (he : elaborate r = .ok i) : tick s = withDelivery (exec i s1) := by
  rw [tick_of_fetch hf, execute_instr he]

/-- Settles O7: the equations of the Tick, and the registers that a fetch leaves. -/
theorem stepRunsInstruction : Obligations.StepRunsInstruction := by
  intro s s1 r i hf he
  have htick := tick_of_instr hf he
  exact ⟨htick, fun hr hm => (step_running hr hm).trans htick, fetchDecode_readReg hf⟩

/-! ## An instruction that stands in memory (R74, R116, R151) -/

/-- The words of an instruction at RIP are fetched as its record. -/
theorem fetchDecode_encode {s : State} {i : Instr} (hq : s.arrivals = .quiet)
    (h : ∀ (k : Nat) (hk : k < (encode i).length), s.peek (s.rip + BitVec.ofNat 64 k) = some (encode i)[k]) :
    fetchDecode s = .ok (i.raw, s) :=
  fetchDecode_ok.2 ⟨_, decodeRaw_encode i.raw_countMatches (Feeds.bus hq (encode i) s.rip h)⟩

/-- What `peek` sees of a memory is its word at that address. -/
theorem State.peek_withMem {s : State} {m : Memory} {a : Word} (h : m.readWord a.toNat = s.mem.readWord a.toNat) :
    State.peek { s with mem := m } a = s.peek a := by
  simp only [State.peek, h]

/-- The memory `m'` holds the words `vs` from address `a` on, and elsewhere what `m` holds. -/
structure Memory.Holds (m m' : Memory) (a : Word) (vs : List Word) : Prop where
  wf : m'.wf
  inside : ∀ (k : Nat) (hk : k < vs.length), m'.readWord (a + BitVec.ofNat 64 k).toNat = vs[k]
  outside : ∀ x : Word, (∀ k, k < vs.length → x ≠ a + BitVec.ofNat 64 k) → m'.readWord x.toNat = m.readWord x.toNat

theorem Memory.Holds.nil {m : Memory} (h : m.wf) (a : Word) : Memory.Holds m m a [] :=
  ⟨h, fun _ hk => absurd hk (Nat.not_lt_zero _), fun _ _ => rfl⟩

/-- A run of words is its first word and the run after it. -/
theorem Memory.Holds.of_cons {m m' : Memory} {a v : Word} {vs : List Word} (hwf : m'.wf)
    (hfirst : m'.readWord a.toNat = v)
    (htail : ∀ (k : Nat) (hk : k < vs.length), m'.readWord (a + 1 + BitVec.ofNat 64 k).toNat = vs[k])
    (hout : ∀ x : Word, x ≠ a → (∀ k, k < vs.length → x ≠ a + 1 + BitVec.ofNat 64 k) →
      m'.readWord x.toNat = m.readWord x.toNat) : Memory.Holds m m' a (v :: vs) where
  wf := hwf
  inside k hk := by
    cases k with
    | zero => simpa using hfirst
    | succ k => rw [← add_one_add_ofNat, htail k (Nat.lt_of_succ_lt_succ hk), List.getElem_cons_succ]
  outside x hx := by
    refine hout x (by simpa using hx 0 (Nat.succ_pos _)) fun k hk => ?_
    rw [add_one_add_ofNat]
    exact hx (k + 1) (Nat.succ_lt_succ hk)

/-- The address below a run is none of the run's. -/
theorem ne_one_add_ofNat (a : Word) {k n : Nat} (hk : k < n) (hn : n < 2 ^ 64) : a ≠ a + 1 + BitVec.ofNat 64 k := by
  rw [add_one_add_ofNat]
  exact ne_add_ofNat_succ a (by omega)

theorem Memory.readWord_writeWord_word (m : Memory) {a x : Word} (v : Word) (h : x ≠ a) :
    (m.writeWord a.toNat v).readWord x.toNat = m.readWord x.toNat :=
  Memory.readWord_writeWord_ne m v fun e => h (BitVec.eq_of_toNat_eq e)

/-- A word written below a run that was written before it. -/
theorem Memory.Holds.then_first {m m' : Memory} {a : Word} {vs : List Word} (h : Memory.Holds m m' (a + 1) vs) (v : Word)
    (hlen : vs.length < 2 ^ 64) : Memory.Holds m (m'.writeWord a.toNat v) a (v :: vs) := by
  refine .of_cons (Memory.wf_writeWord _ _ _ h.wf) (Memory.readWord_writeWord_same _ _ _ h.wf) (fun k hk => ?_)
    fun x hx hout => ?_
  · rw [Memory.readWord_writeWord_word _ _ (ne_one_add_ofNat a hk hlen).symm, h.inside k hk]
  · rw [Memory.readWord_writeWord_word _ _ hx, h.outside x hout]

/-- A word written below a run that is written after it. -/
theorem Memory.Holds.first_then {m m' : Memory} {a v : Word} {vs : List Word} (hm : m.wf)
    (h : Memory.Holds (m.writeWord a.toNat v) m' (a + 1) vs) (hlen : vs.length < 2 ^ 64) :
    Memory.Holds m m' a (v :: vs) := by
  refine .of_cons h.wf ?_ h.inside fun x hx hout => ?_
  · rw [h.outside a fun k hk => ne_one_add_ofNat a hk hlen, Memory.readWord_writeWord_same _ _ _ hm]
  · rw [h.outside x hout, Memory.readWord_writeWord_word _ _ hx]

/-- Writes to a range of RAM words leave a memory that holds them (R62). -/
theorem busWriteRange_holds {vs : List Word} {s : State} {a : Word} (hq : s.arrivals = .quiet) (hm : s.mem.wf)
    (hlen : vs.length < 2 ^ 64) (hram : ∀ k, k < vs.length → s.ramAt (a + BitVec.ofNat 64 k)) :
    ∃ m, busWriteRange a vs s = .ok ((), { s with mem := m }) ∧ Memory.Holds s.mem m a vs := by
  induction vs generalizing s a with
  | nil => exact ⟨s.mem, rfl, .nil hm a⟩
  | cons v vs ih =>
    rw [List.length_cons] at hlen hram
    have ha : s.ramAt a := by simpa using hram 0 (Nat.succ_pos _)
    have hfirst := busWrite_quiet hq (State.writeAt_ram v ha)
    obtain ⟨m, hrest, hh⟩ := ih (s := { s with mem := s.mem.writeWord a.toNat v }) (a := a + 1) hq
      (Memory.wf_writeWord _ _ _ hm) (by omega) fun k hk => by
        rw [add_one_add_ofNat]
        exact hram (k + 1) (Nat.succ_lt_succ hk)
    exact ⟨m, (bind_of_ok hfirst).trans hrest, hh.first_then hm (by omega)⟩

/-- A record encoded over the bus into a RAM (R116): the trailing words first, the control word last. -/
theorem encodeAt_holds {r : RawInstr} {s : State} {a : Word} (hq : s.arrivals = .quiet) (hm : s.mem.wf)
    (hlen : (encodeRaw r).length < 2 ^ 64) (hram : ∀ k, k < (encodeRaw r).length → s.ramAt (a + BitVec.ofNat 64 k)) :
    ∃ m, encodeAt r a s = .ok ((), { s with mem := m }) ∧ Memory.Holds s.mem m a (encodeRaw r) := by
  unfold encodeAt
  cases he : encodeRaw r with
  | nil => exact ⟨s.mem, rfl, .nil hm a⟩
  | cons w trailing =>
    rw [he, List.length_cons] at hlen hram
    obtain ⟨m, htrailing, hh⟩ := busWriteRange_holds (a := a + 1) (vs := trailing) hq hm (by omega) fun k hk => by
      rw [add_one_add_ofNat]
      exact hram (k + 1) (Nat.succ_lt_succ hk)
    have ha : s.ramAt a := by simpa using hram 0 (Nat.succ_pos _)
    have hfirst := busWrite_quiet (s := { s with mem := m }) hq (State.writeAt_ram w ha)
    exact ⟨_, (bind_of_ok htrailing).trans hfirst, hh.then_first w (by omega)⟩

/-- Settles O8: the words of an instruction feed Decode, which reads its record back; and Encode's bus writes leave these words
in the RAM. -/
theorem memoryRunsInstruction : Obligations.MemoryRunsInstruction := by
  intro s i hr hm hq
  have runs {s : State} (hr : s.runState = .running) (hm : s.hostMoves = []) (hf : fetchDecode s = .ok (i.raw, s)) :
      step s = withDelivery (exec i s) := (step_running hr hm).trans (tick_of_instr hf (elaborate_ok.2 rfl))
  refine ⟨fun hwords => ?_, fun hwf hram => ?_⟩
  · have hf := fetchDecode_encode hq hwords
    exact ⟨hf, runs hr hm hf⟩
  · have hlen : (encode i).length = i.length := encodeRaw_length i.raw
    have hmax : i.length ≤ 21 := (lengthBounds.1 i.raw i.raw_countMatches).2
    have hsmall : (encode i).length < 2 ^ 64 := by omega
    rw [← hlen] at hram ⊢
    obtain ⟨m, henc, hh⟩ := encodeAt_holds hq hwf hsmall hram
    refine ⟨m, henc, fun a ha => State.peek_withMem (hh.outside a ha), runs hr hm (fetchDecode_encode hq fun k hk => ?_)⟩
    have hword : State.peek { s with mem := m } (s.rip + BitVec.ofNat 64 k) =
        some (m.readWord (s.rip + BitVec.ofNat 64 k).toNat) := State.peek_ramAt (hram k hk)
    rw [hword, hh.inside k hk]
    rfl

/-! ## A malformed instruction (R153) -/

/-- A decoded record that fails a check does not elaborate (R120). -/
theorem elaborate_malformed {r : RawInstr} (hc : r.countMatches = true) (hw : r.wellFormed = false) :
    ∃ e, elaborate r = .error e := by
  cases he : elaborate r with
  | error e => exact ⟨e, rfl⟩
  | ok i => rw [((wellFormedIffInstruction r hc).1).2 ⟨i, he⟩] at hw; cases hw

/-- An enqueue with no other agent about to act appends its record (R403). -/
theorem enqueue_quiet {s : State} {type d1 d2 : Word} (hq : s.arrivals = .quiet) (ht : type.toNat < vectorCount) :
    enqueue type d1 d2 s = .ok ((), { s with queue := s.queue ++ [⟨type, d1, d2, s.vector type⟩] }) :=
  enqueue_ok.2 ⟨s, poll_quiet hq, ht, rfl⟩

/-- The record that reports a malformed instruction at RIP (R153). -/
def State.invalidRecord (s : State) (r : RawInstr) : InterruptRecord :=
  ⟨0, r.opcode.setWidth 64, s.rip, s.vectors.readWord 0⟩

/-- The state in which a malformed instruction is reported and passed (R153). -/
def State.afterReport (s : State) (r : RawInstr) : State :=
  { s with queue := s.queue ++ [s.invalidRecord r], rip := s.rip + BitVec.ofNat 64 r.length }

theorem invalidTick_quiet {r : RawInstr} {s : State} (hq : s.arrivals = .quiet) :
    invalidTick r s = .ok ((), s.afterReport r) := by
  unfold invalidTick
  rw [get_bind, bind_of_ok (enqueue_quiet hq (by decide))]
  rfl

/-- A delivery that enters the head of the queue (R420). -/
theorem deliver_entry {s : State} {r : InterruptRecord} {rest : List InterruptRecord} (hq : s.arrivals = .quiet)
    (hie : s.ie = true) (hisr : s.inISR = false) (hqueue : s.queue = r :: rest) :
    withDelivery (.next s) = .next (State.enterInterrupt { s with queue := rest } r) := by
  refine outcomeOfUnit_next.2 (deliver_ok.2 ⟨s, poll_quiet hq, .inr ⟨?_, r, rest, hqueue, rfl⟩⟩)
  simp [State.deliverable, State.pendingCount, hie, hisr, hqueue]

/-- Settles O9: a record that fails a check does not elaborate, and its Tick is the report of it. -/
theorem malformedTick : Obligations.MalformedTick := by
  intro s s1 r hr hm hf hw hq
  obtain ⟨e, he⟩ := elaborate_malformed (fetchDecode_count hf) hw
  have hstep : step s = withDelivery (.next (s1.afterReport r)) := by
    rw [step_running hr hm, tick_of_fetch hf, execute_malformed he, invalidTick_quiet hq]
    rfl
  have hrip : s1.rip = s.rip := fetchDecode_readReg hf .rip
  rw [← hrip]
  refine ⟨hstep, fun hie hisr hqueue => ?_⟩
  have hhead : (s1.afterReport r).queue = s1.invalidRecord r :: s1.queue := by
    simp only [State.afterReport, hqueue, List.nil_append]
  exact hstep.trans (deliver_entry (s := s1.afterReport r) hq hie hisr hhead)

/-! ## The gate (R155) -/

/-- Settles O10: the gate is a read and a test; and a Tick whose gate is off has only read. -/
theorem conditionalGate : Obligations.ConditionalGate := by
  refine ⟨fun g t t' v o h => ?_, evalGate_none, fun i s t h => ?_⟩
  · rw [evalGate_some_ok.2 ⟨(v, o), h, rfl⟩]
    cases g.pred <;> rfl
  · obtain ⟨hreads, hip⟩ := evalGate_reads h
    refine ⟨?_, hreads.sameWords, fun r hr => hreads.readReg hr⟩
    rw [exec_eq, runInstr_gate_off h, Tick.advance_eq, hip]
    rfl

/-! ## Reading an operand (R161, R162) -/

/-- A direct operand: its kind's value, and then the relative register. -/
theorem load_direct {k : Kind} {rel : Rel} {v : Word} {t t1 : Tick} (h : kindValue k t = .ok (v, t1)) :
    load ⟨k, rel, false⟩ t = .ok ((v + relBase t1.st rel, none), t1) :=
  load_ok.2 ⟨v, t1, h, deref_ok.2 (.inl ⟨rfl, rfl, rfl⟩)⟩

/-- An indirect operand at a word that `peek` sees. -/
theorem load_indirect {k : Kind} {rel : Rel} {v w : Word} {t t1 : Tick} (h : kindValue k t = .ok (v, t1))
    (hq : t1.st.arrivals = .quiet) (hp : t1.st.peek (v + relBase t1.st rel) = some w) :
    load ⟨k, rel, true⟩ t = .ok ((w, some (v + relBase t1.st rel)), t1) :=
  load_ok.2 ⟨v, t1, h, deref_ok.2 (.inr ⟨rfl, rfl, t1.st, busRead_quiet hq hp, rfl⟩)⟩

theorem Literal.value_embedded (v : BitVec 4) : (Literal.embedded v).value = BitVec.ofNat 64 v.toNat :=
  BitVec.eq_of_toNat_eq (by simp [Literal.value])

/-- Settles O11: a direct operand is `load_direct`, an indirect one `load_indirect`. -/
theorem operandValue : Obligations.OperandValue := by
  refine ⟨fun t r rel => load_direct rfl, fun t v rel => ?_, fun t v rel => load_direct rfl,
    fun t t1 kind rel v h => load_direct h, fun t t1 kind rel v w h hq hp => load_indirect h hq hp⟩
  rw [← Literal.value_embedded]
  exact load_direct rfl

/-- A Pop of a word that `peek` sees (R160). -/
theorem pop_quiet {t : Tick} {v : Word} (hq : t.st.arrivals = .quiet) (hp : t.st.peek t.st.rsp = some v) :
    pop t = .ok (v, ⟨{ t.st with rsp := t.st.rsp + 1 }, t.ipWritten⟩) :=
  pop_ok.2 ⟨t.st, busRead_quiet hq hp, rfl⟩

/-- A Push into a RAM (R160). -/
theorem push_ram {t : Tick} (v : Word) (hq : t.st.arrivals = .quiet) (hram : t.st.ramAt (t.st.rsp - 1)) :
    push v t = .ok ((), ⟨{ t.st with
      rsp := t.st.rsp - 1
      mem := t.st.mem.writeWord (t.st.rsp - 1).toNat v }, t.ipWritten⟩) :=
  push_ok.2 ⟨_, busWrite_quiet (s := { t.st with rsp := t.st.rsp - 1 }) hq (State.writeAt_ram v hram), rfl⟩

/-- A word of a RAM reads what was stored there (R62). -/
theorem State.peek_ram_stored {s : State} {a : Word} (v : Word) (hm : s.mem.wf) (h : s.ramAt a) :
    State.peek { s with mem := s.mem.writeWord a.toNat v } a = some v := by
  rw [State.peek_ramAt (s := { s with mem := s.mem.writeWord a.toNat v }) h, Memory.readWord_writeWord_same _ _ _ hm]

/-- Settles O12: a Pop reads the word at RSP, and a Push has left the pushed one there. -/
theorem stackDiscipline : Obligations.StackDiscipline := by
  refine ⟨fun t rel v hq hp => load_direct (k := .stack) (pop_quiet hq hp), fun t v hq hm hram => ⟨push_ram v hq hram, ?_⟩⟩
  refine (pop_quiet (v := v) ?_ ?_).trans ?_
  · exact hq
  · exact State.peek_ram_stored (s := { t.st with rsp := t.st.rsp - 1 }) v hm hram
  · simp

/-- Reading a sub-operand: its kind's value, the relative register, the indirection. -/
theorem subValue_of_deref {k : SubKind} {rel : Rel} {ind : Bool} {x v : Word} {y : Option Word} {t t1 t2 : Tick}
    (h : subKindValue k t = .ok (x, t1)) (hd : deref ind (x + relBase t1.st rel) t1 = .ok ((v, y), t2)) :
    subValue ⟨k, rel, ind⟩ t = .ok (v, t2) := by
  unfold subValue
  rw [bind_of_ok h, bind_of_ok (addRel_apply _ _ _), bind_of_ok hd]
  rfl

theorem subValue_direct {k : SubKind} {rel : Rel} {v : Word} {t t1 : Tick} (h : subKindValue k t = .ok (v, t1)) :
    subValue ⟨k, rel, false⟩ t = .ok (v + relBase t1.st rel, t1) :=
  subValue_of_deref h (y := none) (deref_ok.2 (.inl ⟨rfl, rfl, rfl⟩))

theorem subValue_indirect {k : SubKind} {rel : Rel} {v w : Word} {t t1 : Tick} (h : subKindValue k t = .ok (v, t1))
    (hq : t1.st.arrivals = .quiet) (hp : t1.st.peek (v + relBase t1.st rel) = some w) :
    subValue ⟨k, rel, true⟩ t = .ok (w, t1) :=
  subValue_of_deref h (y := some _) (deref_ok.2 (.inr ⟨rfl, rfl, t1.st, busRead_quiet hq hp, rfl⟩))

theorem termValue_of_subValue {p : SubOperand} {w : Word} {t t' : Tick} (h : subValue p t = .ok (w, t')) (neg : Bool) :
    termValue ⟨p, neg⟩ t = .ok (if neg then -w else w, t') := by
  unfold termValue
  rw [bind_of_ok h]
  rfl

/-- A term that may be absent, with what the spec says of each case (R109, R162). -/
theorem optTermValue_of_cases {dflt v : Word} {p : Option SignedSub} {t t' : Tick}
    (h : match p with | none => v = dflt ∧ t' = t | some q => termValue q t = .ok (v, t')) :
    optTermValue dflt p t = .ok (v, t') := by
  cases p with
  | none => obtain ⟨rfl, rfl⟩ := h; rfl
  | some q => exact h

/-- Word arithmetic is arithmetic modulo 2^64. -/
theorem mulAdd_eq_ofNat (b i s o : Word) :
    b + i * s + o = BitVec.ofNat 64 ((b.toNat + i.toNat * s.toNat + o.toNat) % 2 ^ 64) := by
  apply BitVec.eq_of_toNat_eq
  simp [BitVec.toNat_add, BitVec.toNat_mul]

theorem neg_eq_ofInt (w : Word) : -w = BitVec.ofInt 64 (-(w.toNat : Int)) := by
  rw [BitVec.ofInt_neg, BitVec.ofInt_natCast, BitVec.ofNat_toNat, BitVec.setWidth_eq]

/-- Settles O13: the terms in their order, a term's sign, and a sub-operand read as an operand is. -/
theorem calculatedValue : Obligations.CalculatedValue := by
  refine ⟨fun b i s o t t1 t2 t3 t4 vb vi vs vo hb hi hs ho => ?_, fun p t t' w h => ⟨termValue_of_subValue h false, ?_⟩,
    fun t r rel => subValue_direct rfl, fun t l rel => subValue_direct rfl,
    fun t rel v hq hp => subValue_direct (k := .stack) (pop_quiet hq hp), fun t t1 kind rel v h => subValue_direct h,
    fun t t1 kind rel v w h hq hp => subValue_indirect h hq hp⟩
  · have hi : optTermValue 0 i t1 = .ok (vi, t2) := optTermValue_of_cases hi
    have hs : optTermValue 1 s t2 = .ok (vs, t3) := optTermValue_of_cases hs
    have ho : optTermValue 0 o t3 = .ok (vo, t4) := optTermValue_of_cases ho
    exact calculated_ok.2 ⟨vb, vi, vs, vo, t1, t2, t3, hb, hi, hs, ho, (mulAdd_eq_ofNat vb vi vs vo).symm⟩
  · rw [← neg_eq_ofInt]
    exact termValue_of_subValue h true

/-! ## Storing to a destination (R163, R164) -/

theorem storeDest_of_resolve {d : Dest} {v : Word} {o : Option Word} {x : Target} {t t1 : Tick}
    (h : resolveDest d o t = .ok (x, t1)) : storeDest d v o t = writeTarget x v t1 := by
  unfold storeDest
  rw [bind_of_ok h]

/-- A direct Stack destination pushes. -/
theorem storeDest_stack (v : Word) (o : Option Word) (t : Tick) : storeDest .stack v o t = push v t := by
  have hresolve : resolveDest .stack o t = .ok (.word (t.st.rsp - 1), ⟨{ t.st with rsp := t.st.rsp - 1 }, t.ipWritten⟩) := by
    show (pushAddress >>= fun a => pure (Target.word a)) t = _
    rw [bind_of_ok (pushAddress_apply t)]
    rfl
  rw [storeDest_of_resolve hresolve]
  unfold push
  rw [bind_of_ok (pushAddress_apply t)]
  rfl

/-- An indirect destination resolves to the remembered address. -/
theorem resolveDest_remembered (k : Kind) (rel : Rel) (a : Word) (t : Tick) :
    resolveDest (.indirect k rel) (some a) t = .ok (.word a, t) := rfl

/-- Without one it resolves to the address that its kind and relative register give now. -/
theorem resolveDest_now {k : Kind} {rel : Rel} {a : Word} {t t1 : Tick} (h : primary k rel t = .ok (a, t1)) :
    resolveDest (.indirect k rel) none t = .ok (.word a, t1) := by
  unfold resolveDest
  dsimp only
  rw [bind_of_ok h]
  rfl

theorem onState_of_error {α : Type} {m : SM α} {t : Tick} {f : Fault} (h : m t.st = .error f) :
    onState m t = .error f := by
  unfold onState
  rw [h]

/-- The store of a destination that resolves to a word is one bus write. -/
theorem storeDest_word {d : Dest} {v : Word} {o : Option Word} {a : Word} {t t1 : Tick} {s : State}
    (h : resolveDest d o t = .ok (.word a, t1)) (hs : busWrite a v t1.st = .ok ((), s)) :
    storeDest d v o t = .ok ((), ⟨s, t1.ipWritten⟩) :=
  (storeDest_of_resolve h).trans (onState_of_ok hs)

/-- It is fatal where the write is. -/
theorem storeDest_word_error {d : Dest} {v : Word} {o : Option Word} {a : Word} {t t1 : Tick} {f : Fault}
    (h : resolveDest d o t = .ok (.word a, t1)) (hf : busWrite a v t1.st = .error f) : storeDest d v o t = .error f :=
  (storeDest_of_resolve h).trans (onState_of_error hf)

/-- Settles O14: each destination's place, and the one write there. -/
theorem storeForms : Obligations.StoreForms := by
  refine ⟨fun t r v o => storeDest_register r v o t, fun t v o => storeDest_stack v o t,
    fun t k rel a v hq hram => ?_, fun t t1 k rel a v hp hq hram => ?_, fun t k rel a v => ?_, fun t t1 k rel a v hp => ?_,
    fun t k rel a v d hq ha hd hk hl => ?_⟩
  · exact storeDest_word (resolveDest_remembered k rel a t) (busWrite_quiet hq (State.writeAt_ram v hram))
  · exact storeDest_word (resolveDest_now hp) (busWrite_quiet hq (State.writeAt_ram v hram))
  · have hat := resolveDest_remembered k rel a t
    exact ⟨fun _ => storeDest_word hat, fun _ => storeDest_word_error hat⟩
  · have hat := resolveDest_now hp
    exact ⟨fun _ => storeDest_word hat, fun _ => storeDest_word_error hat⟩
  · have hwrite := (State.writeAt_device (v := v) ha hd).trans (State.deviceWriteWord_vectors hk hl)
    exact storeDest_word (resolveDest_remembered k rel a t) (busWrite_quiet hq hwrite)

end Sys2Proof.Machine
end

section
/-!
PROOFS. What instructions change: the register forms (O52), the frame of the instructions with one destination (O53), and
what no Tick changes (O58).
-/

namespace Sys2Proof.Machine

/-! ## Instructions on registers (R150, R159) -/

/-- A direct register operand. -/
def regOperand (r : Reg) : Operand := ⟨.register r, .none, false⟩

/-- An instruction with a register destination, two register sources and no conditional operand, whose handler writes `f` of
the sources. -/
structure RegisterInstr (i : Instr) (f : Word → Word → Word) (rd ra rb : Reg) : Prop where
  handler : handlerOf i = binaryHandler f
  gate : i.shape.gate = none
  params : i.shape.params = [.write (.register rd), .read (regOperand ra), .read (regOperand rb)]

theorem RegisterInstr.length {i : Instr} {f : Word → Word → Word} {rd ra rb : Reg} (h : RegisterInstr i f rd ra rb) :
    i.length = 1 := by
  simp only [Instr.length, Instr.raw, h.gate, h.params]
  rfl

/-- The IP advance of an instruction of one word that wrote one register: RIP keeps what was written to it (R159). -/
theorem advance_writeReg (s : State) (rd : Reg) (v : Word) :
    Tick.advance ⟨s.writeReg rd v, decide (rd = .rip)⟩ (nextIP s.rip 1) =
      { s.writeReg rd v with rip := if rd = .rip then v else s.rip + 1 } := by
  rw [Tick.advance_eq]
  by_cases h : rd = .rip
  · subst h; rfl
  · simp [h, nextIP]

/-- A register form completes in every state, and writes its destination. -/
theorem RegisterInstr.exec_next {i : Instr} {f : Word → Word → Word} {rd ra rb : Reg} (h : RegisterInstr i f rd ra rb)
    (s : State) : exec i s = .next { s.writeReg rd (f (s.readReg ra) (s.readReg rb)) with
      rip := if rd = .rip then f (s.readReg ra) (s.readReg rb) else s.rip + 1 } := by
  have hgate : evalGate i.shape.gate ⟨s, false⟩ = .ok (true, ⟨s, false⟩) := by rw [h.gate]; rfl
  have hload : loadPhase i.shape.params ⟨s, false⟩ =
      .ok ([⟨0, none, false⟩, ⟨s.readReg ra, none, false⟩, ⟨s.readReg rb, none, false⟩], ⟨s, false⟩) := by
    rw [h.params]
    exact loadPhase_wrr_ok.2 ⟨_, _, _, load_register ra _, load_register rb _, rfl⟩
  have hstore {x : Slot} {xs : List Slot} (hx : x = ⟨f (s.readReg ra) (s.readReg rb), none, true⟩) :
      storePhase i.shape.params (x :: xs) ⟨s, false⟩ =
        .ok ((), ⟨s.writeReg rd (f (s.readReg ra) (s.readReg rb)), decide (rd = .rip)⟩) := by
    rw [h.params, hx]
    exact storePhase_cons.2 ⟨_, storeDest_register rd _ none ⟨s, false⟩, storePhase_reads (by simp) _ _⟩
  rw [exec_eq, h.handler, runInstr_gate_on hgate hload (binaryHandler_ok.2 ⟨rfl, rfl⟩) (hstore rfl), h.length,
    advance_writeReg]

/-- The claim of O52 about one instruction and its result. -/
def RegisterForm (mk : Option Gate → Dest → Operand → Operand → Instr) (f : Word → Word → Word) : Prop :=
  ∀ (rd ra rb : Reg) (s : State), exec (mk none (.register rd) (regOperand ra) (regOperand rb)) s =
    .next { s.writeReg rd (f (s.readReg ra) (s.readReg rb)) with
      rip := if rd = .rip then f (s.readReg ra) (s.readReg rb) else s.rip + 1 }

theorem RegisterForm.of_handler {mk : Option Gate → Dest → Operand → Operand → Instr} {f f' : Word → Word → Word}
    (h : ∀ rd ra rb, RegisterInstr (mk none (.register rd) (regOperand ra) (regOperand rb)) f rd ra rb)
    (hf : ∀ x y, f x y = f' x y) : RegisterForm mk f' := by
  intro rd ra rb s
  rw [← hf]
  exact (h rd ra rb).exec_next s

theorem boolWord_decide (p : Prop) [Decidable p] : boolWord (decide p) = if p then BitVec.allOnes 64 else 0 := by
  by_cases h : p <;> simp [boolWord, Word.maxValue, h]

/-- The count of a rotation is its low six bits (R280). -/
theorem rotateCount (c : Word) : (c.extractLsb' 0 6).toNat = c.toNat % 64 := by simp

theorem rotateRight_eq (b c : Word) : rotateRight b c = b.rotateRight c.toNat := by
  simp only [rotateRight, rotateCount, BitVec.rotateRight_def]
  split_ifs with h <;> simp [h]

theorem rotateLeft_eq (b c : Word) : rotateLeft b c = b.rotateLeft c.toNat := by
  simp only [rotateLeft, rotateCount, BitVec.rotateLeft_def]
  split_ifs with h <;> simp [h, BitVec.ushiftRight_eq_zero]

/-- Settles O52: each of the instructions is a register form of its handler's function, which is the one the statement names. -/
theorem registerForms : Obligations.RegisterForms := by
  intro p hp
  show RegisterForm p.1 p.2
  revert p
  simp only [List.forall_mem_cons]
  have form {mk : Option Gate → Dest → Operand → Operand → Instr} {f f' : Word → Word → Word} :=
    RegisterForm.of_handler (mk := mk) (f := f) (f' := f')
  -- RR and RL stand tenth and eleventh, the comparisons after them; the others' functions are the statement's own
  refine ⟨?_, ?_, ?_, ?_, ?_, ?_, ?_, ?_, ?_, ?_, ?_, ?_, ?_, ?_, ?_, ?_, ?_, by simp⟩
  case refine_10 => exact form (fun _ _ _ => ⟨rfl, rfl, rfl⟩) rotateRight_eq
  case refine_11 => exact form (fun _ _ _ => ⟨rfl, rfl, rfl⟩) rotateLeft_eq
  case refine_17 =>
    exact form (fun _ _ _ => ⟨rfl, rfl, rfl⟩) fun x y => (boolWord_decide (x ≠ y)).trans (ite_not _ _ _)
  case refine_12 | refine_13 | refine_14 | refine_15 | refine_16 =>
    exact form (fun _ _ _ => ⟨rfl, rfl, rfl⟩) fun x y => boolWord_decide _
  all_goals exact form (fun _ _ _ => ⟨rfl, rfl, rfl⟩) fun _ _ => rfl

/-! ## What an instruction with one destination leaves alone (R156, R158, R163) -/

/-- All that `Obligations.FrameOneDestination` says but for the words. -/
structure OneDestFrame (i : Instr) (d : Dest) (s t : State) : Prop where
  fixed : SameFixed s t
  control : SameControl s t
  regs : ∀ r : Reg, r ≠ .rip → r ≠ .rsp → d ≠ .register r → t.readReg r = s.readReg r
  rsp : usesStack i = false → d ≠ .register .rsp → t.rsp = s.rsp
  arrivals : i.shape.opcode ∉ [0x16, 0x17, 0x18, 0x19] → OnlyArrivals s t
  queue : s.arrivals = .quiet → t.queue = s.queue ∨
    t.queue = s.queue ++ [⟨1, i.shape.opcode.setWidth 64, s.rip, s.vectors.readWord 1⟩]
  draws : t.draws = s.draws ∨ (i.shape.opcode ∈ [0x11, 0x13, 0x15, 0x17, 0x19] ∧ t.draws = s.draws + 1)

theorem OnlyArrivals.queue_quiet {s t : State} (h : OnlyArrivals s t) (hq : s.arrivals = .quiet) : t.queue = s.queue := by
  obtain ⟨new, e, k⟩ := h
  obtain ⟨rfl, -⟩ := k hq
  rw [e, List.append_nil]

theorem OnlyArrivals.stays_quiet {s t : State} (h : OnlyArrivals s t) (hq : s.arrivals = .quiet) : t.arrivals = .quiet := by
  obtain ⟨new, -, k⟩ := h
  exact (k hq).2

/-- RSP after the gate and the load phase of an instruction that does not use the stack. -/
theorem loaded_rsp {i : Instr} {b : Bool} {s : State} {t1 t2 : Tick} {xs : List Slot} (hu : usesStack i = false)
    (hg : evalGate i.shape.gate ⟨s, false⟩ = .ok (b, t1)) (hl : loadPhase i.shape.params t1 = .ok (xs, t2)) :
    t2.st.rsp = s.rsp := by
  obtain ⟨hgate, hparams⟩ := usesStack_false hu
  exact (loadPhase_rsp hl hparams).trans (evalGate_rsp hgate hg)

/-- An instruction that does not use the stack has no Stack destination, nor one whose address pops. -/
theorem usesStack_dest {i : Instr} {d : Dest} {srcs : List Param} (hp : i.shape.params = .write d :: srcs)
    (hu : usesStack i = false) : popsKind d.operand.kind = false := by
  have hparams := (usesStack_false hu).2
  rw [hp, List.any_cons, Bool.or_eq_false_iff] at hparams
  exact hparams.1

section
variable {i : Instr} {d : Dest} {s : State}

/-- A Tick that only read, its gate being off. -/
theorem OneDestFrame.of_gateOff {t1 : Tick} (hg : evalGate i.shape.gate ⟨s, false⟩ = .ok (false, t1)) (n : Word) :
    OneDestFrame i d s (t1.advance n) := by
  have hr : s.ReadsTo t1.st := (evalGate_reads hg).1
  have ha := advance_onlyArrivals hr.onlyArrivals n
  exact {
    fixed := advance_fixed hr.sameFixed n
    control := advance_control hr.sameControl n
    regs := fun r hrip hrsp _ => (advance_readReg _ _ hrip).trans (hr.readReg hrsp)
    rsp := fun hu _ => (advance_rsp _ _).trans (evalGate_rsp (usesStack_false hu).1 hg)
    arrivals := fun _ => ha
    queue := fun hq => .inl (ha.queue_quiet hq)
    draws := .inl ((advance_draws _ _).trans hr.draws) }

/-- A Tick that read its operands, perhaps drew a NaN, and stored. -/
theorem OneDestFrame.of_stored {srcs : List Param} {u : State} {ip : Bool} {v : Word} {n : Nat} {t4 : Tick}
    (hp : i.shape.params = .write d :: srcs) (hr : s.ReadsTo u) (hrsp : usesStack i = false → u.rsp = s.rsp)
    (hn : n = 0 ∨ (n = 1 ∧ i.shape.opcode ∈ [0x11, 0x13, 0x15, 0x17, 0x19]))
    (hs : storeDest d v none ⟨{ u with draws := u.draws + n }, ip⟩ = .ok ((), t4)) (next : Word) :
    OneDestFrame i d s (t4.advance next) := by
  obtain ⟨hfixed, hcontrol, harrivals, hdraws, hregs, hstack, -, -⟩ := storeDest_changes hs
  have hdata : SameFixed u { u with draws := u.draws + n } := ⟨rfl, rfl, rfl, rfl, rfl, sameDevices_refl _⟩
  have hbits : SameControl u { u with draws := u.draws + n } := ⟨rfl, rfl, rfl, rfl⟩
  have ha := advance_onlyArrivals (hr.onlyArrivals.trans harrivals) next
  exact {
    fixed := advance_fixed ((hr.sameFixed.trans hdata).trans hfixed) next
    control := advance_control ((hr.sameControl.trans hbits).trans hcontrol) next
    regs := fun r hrip hrsp hd => by
      have hread : State.readReg { u with draws := u.draws + n } r = u.readReg r := by cases r <;> rfl
      rw [advance_readReg _ _ hrip, hregs r hrip hrsp hd, hread, hr.readReg hrsp]
    rsp := fun hu hd => by rw [advance_rsp, hstack (usesStack_dest hp hu) hd]; exact hrsp hu
    arrivals := fun _ => ha
    queue := fun hq => .inl (ha.queue_quiet hq)
    draws := by
      have hcount : (t4.advance next).draws = s.draws + n := by rw [advance_draws, hdraws, ← hr.draws]
      rcases hn with rfl | ⟨rfl, hop⟩
      · exact .inl hcount
      · exact .inr ⟨hop, hcount⟩ }

/-- A Tick that read its operands and queued the record of a zero divisor. -/
theorem OneDestFrame.of_raised {u s3 : State} {ip : Bool} (hr : s.ReadsTo u) (hrsp : usesStack i = false → u.rsp = s.rsp)
    (hop : i.shape.opcode ∈ [0x16, 0x17, 0x18, 0x19])
    (hq : enqueue 1 (i.shape.opcode.setWidth 64) s.rip u = .ok ((), s3)) (next : Word) :
    OneDestFrame i d s (Tick.advance ⟨s3, ip⟩ next) := by
  obtain ⟨hfixed, hcontrol, -, hdraws, hregs, hquiet, -⟩ := enqueue_changes hq
  exact {
    fixed := advance_fixed (hr.sameFixed.trans hfixed) next
    control := advance_control (hr.sameControl.trans hcontrol) next
    regs := fun r hrip hrsp _ => by rw [advance_readReg _ _ hrip, hregs, hr.readReg hrsp]
    rsp := fun hu _ => by rw [advance_rsp]; exact (hregs .rsp).trans (hrsp hu)
    arrivals := fun h => absurd hop h
    queue := fun hs => by
      rw [advance_queue, hquiet (hr.onlyArrivals.stays_quiet hs), ← hr.onlyArrivals.queue_quiet hs, ← hr.vectors]
      exact .inr rfl
    draws := .inl (by rw [advance_draws, hdraws, hr.draws]) }

theorem oneDestination_frame {srcs : List Param} {t : State} (hp : i.shape.params = .write d :: srcs)
    (h : exec i s = .next t) : OneDestFrame i d s t := by
  rcases oneDestination_next hp h with ⟨t1, hg, rfl⟩ | ⟨t1, t2, xs, hg, hl, hbody⟩
  · exact .of_gateOff hg _
  · have hr : s.ReadsTo t2.st := ((evalGate_reads hg).trans (loadPhase_reads hl).1).1
    have hrsp (hu : usesStack i = false) : t2.st.rsp = s.rsp := loaded_rsp hu hg hl
    rcases hbody with ⟨v, n, t4, hn, hs, rfl⟩ | ⟨hop, s3, hq, rfl⟩
    · exact .of_stored hp hr hrsp hn hs _
    · exact .of_raised hr hrsp hop hq _

/-- The words after an instruction with one destination: the same, or its gate was on, its destination is no register, and
every word is the same but the one the destination resolves to after the load phase. -/
theorem oneDestination_words {srcs : List Param} {t : State} (hp : i.shape.params = .write d :: srcs)
    (h : exec i s = .next t) : SameWords s t ∨
      ∃ t1 t2 xs, evalGate i.shape.gate ⟨s, false⟩ = .ok (true, t1) ∧ loadPhase i.shape.params t1 = .ok (xs, t2) ∧
        (∀ r, d ≠ .register r) ∧ (s.controllerCount ≤ 1 → ∀ a t3,
          resolveDest d none ⟨{ t2.st with draws := t.draws }, t2.ipWritten⟩ = .ok (.word a, t3) → SameWordsBut a s t) := by
  rcases oneDestination_next hp h with ⟨t1, hg, rfl⟩ | ⟨t1, t2, xs, hg, hl, hbody⟩
  · exact .inl fun w => (advance_peek _ _ w).trans ((evalGate_reads hg).1.peek w)
  · have hr : s.ReadsTo t2.st := ((evalGate_reads hg).trans (loadPhase_reads hl).1).1
    rcases hbody with ⟨v, n, t4, -, hs, rfl⟩ | ⟨-, s3, hq, rfl⟩
    · obtain ⟨-, -, -, hdraws, -, -, hreg, hword⟩ := storeDest_changes hs
      by_cases hd : ∃ r, d = .register r
      · obtain ⟨r, hd⟩ := hd
        exact .inl fun w => (advance_peek _ _ w).trans ((hreg r hd w).trans (hr.peek w))
      · refine .inr ⟨t1, t2, xs, hg, hl, fun r hd' => hd ⟨r, hd'⟩, fun hc a t3 hres w hw => ?_⟩
        rw [advance_draws, hdraws] at hres
        have hc2 : t2.st.controllerCount ≤ 1 := by rwa [controllerCount_same hr.sameFixed.devices]
        exact (advance_peek _ _ w).trans ((hword hc2 _ _ hres w fun e => hw (Target.word.inj e).symm).trans (hr.peek w))
    · obtain ⟨-, -, hwords, -⟩ := enqueue_changes hq
      exact .inl fun w => (advance_peek _ _ w).trans ((hwords w).trans (hr.peek w))

end

/-- Settles O53: the frame of each way in which the instruction can complete, and the one word that it can store. -/
theorem frameOneDestination : Obligations.FrameOneDestination := by
  intro i d srcs s t hp h
  have hf := oneDestination_frame hp h
  refine ⟨hf.fixed, hf.control, hf.regs, hf.rsp, hf.arrivals, hf.queue, hf.draws, ?_⟩
  rcases oneDestination_words hp h with hw | ⟨u1, u2, ys, hg, hl, hd, hw⟩
  · exact ⟨fun _ _ => hw, fun _ _ => hw, fun _ _ _ _ _ _ _ _ _ b _ => hw b⟩
  · refine ⟨fun r hr => absurd hr (hd r), fun t1 hoff => ?_, fun hc t1 t2 t3 xs a hg' hl' hres => ?_⟩
    · rw [hg] at hoff
      cases hoff
    · rw [hg] at hg'
      cases hg'
      rw [hl] at hl'
      cases hl'
      exact hw hc a t3 hres

/-! ## What no Tick changes (R34, R170) -/

theorem SameData.sameFixed {s t : State} (h : SameData s t) : SameFixed s t :=
  ⟨h.bootAddr, h.params, h.directory, h.started, h.hostMoves, by rw [h.devices]; exact sameDevices_refl _⟩

theorem sameFixed_closed : Closed SameFixed where
  trans _ _ _ h k := h.trans k
  reads _ _ h := h.sameFixed
  write _ _ _ _ h := (busWrite_busTo h).sameFixed
  enqueue _ _ _ _ _ h := (enqueue_changes h).1
  data _ _ h := h.sameFixed

theorem deliver_sameFixed {s t : State} (h : deliver s = .ok ((), t)) : SameFixed s t := by
  obtain ⟨s1, hr, rfl | ⟨r, rest, -, -, rfl⟩⟩ := deliver_next h
  · exact hr.sameFixed
  · exact hr.sameFixed.trans ⟨rfl, rfl, rfl, rfl, rfl, sameDevices_refl _⟩

/-- Settles O58: every part of a Tick, its delivery among them, keeps what is fixed. -/
theorem tickLeavesFixed : Obligations.TickLeavesFixed := by
  intro s t hr hm h
  rw [step_running hr hm] at h
  exact tick_closed sameFixed_closed (fun _ _ => deliver_sameFixed) h

end Sys2Proof.Machine
end

section
/-!
PROOFS. What the basic instructions do: HLT, NOP, INTE and INTD (O32), INT (O33), EINT (O34), XCHG (O35), CAS (O36), SET and
NOT (O37), CPY (O38), CALL and RET (O39).
-/

namespace Sys2Proof.Machine

/-! ## The run of an instruction, forwards (R150, R159) -/

/-- The IP advance of a Tick that did not write RIP (R159). -/
theorem Tick.advance_unwritten {s : State} {written : Bool} (h : written = false) (next : Word) :
    Tick.advance ⟨s, written⟩ next = { s with rip := next } := by
  rw [Tick.advance_eq, h]
  rfl

/-- An instruction that only reads its operands: its gate, the load phase, its handler, and no store. -/
theorem exec_readOnly {i : Instr} {s : State} {t1 t2 t3 : Tick} {xs ys : List Slot}
    (hp : ∀ p ∈ i.shape.params, ∃ q, p = .read q) (hg : evalGate i.shape.gate ⟨s, false⟩ = .ok (true, t1))
    (hl : loadPhase i.shape.params t1 = .ok (xs, t2)) (hh : handlerOf i (envOf i s.rip) xs t2 = .ok (ys, t3)) :
    exec i s = .next (t3.advance (nextIP s.rip i.length)) := by
  rw [exec_eq]
  exact runInstr_gate_on hg hl hh (storePhase_reads hp ys t3)

/-- An instruction without operands: its gate and its handler. -/
theorem exec_noOperand {i : Instr} {s : State} {t t' : Tick} (hp : i.shape.params = [])
    (hg : evalGate i.shape.gate ⟨s, false⟩ = .ok (true, t)) (hh : handlerOf i (envOf i s.rip) [] t = .ok ([], t')) :
    exec i s = .next (t'.advance (nextIP s.rip i.length)) :=
  exec_readOnly (by simp [hp]) hg (by rw [hp]; exact loadPhase_nil t) hh

/-- A gate does not write RIP (R155, R159). -/
theorem evalGate_unwritten {g : Option Gate} {b : Bool} {s : State} {t : Tick} (h : evalGate g ⟨s, false⟩ = .ok (b, t)) :
    t.ipWritten = false :=
  (evalGate_reads h).2

theorem Sources1.reads {g : Option Gate} {a : Operand} {s : State} {x : Word} {t : Tick} (h : Sources1 g a s x t) :
    Tick.Reads ⟨s, false⟩ t := by
  obtain ⟨t1, oa, hg, ha⟩ := h
  exact (evalGate_reads hg).trans (load_reads ha)

theorem Sources3.reads {g : Option Gate} {a b c : Operand} {s : State} {x y z : Word} {t : Tick}
    (h : Sources3 g a b c s x y z t) : Tick.Reads ⟨s, false⟩ t := by
  obtain ⟨t1, t2, t3, oa, ob, oc, hg, ha, hb, hc⟩ := h
  exact (evalGate_reads hg).trans ((load_reads ha).trans ((load_reads hb).trans (load_reads hc)))

/-- An instruction with one source, and its handler on what was read. -/
theorem exec_of_sources1 {i : Instr} {a : Operand} {s : State} {x : Word} {t t' : Tick} (h : Sources1 i.shape.gate a s x t)
    (hp : i.shape.params = [.read a])
    (hh : ∀ oa, handlerOf i (envOf i s.rip) [⟨x, oa, false⟩] t = .ok ([⟨x, oa, false⟩], t')) :
    exec i s = .next (t'.advance (nextIP s.rip i.length)) := by
  obtain ⟨t1, oa, hg, ha⟩ := h
  refine exec_readOnly (by simp [hp]) hg ?_ (hh oa)
  rw [hp]
  exact loadPhase_r_ok.2 ⟨_, ha, rfl⟩

/-- An instruction with three sources, and its handler on what was read. -/
theorem exec_of_sources3 {i : Instr} {a b c : Operand} {s : State} {x y z : Word} {t t' : Tick}
    (h : Sources3 i.shape.gate a b c s x y z t) (hp : i.shape.params = [.read a, .read b, .read c])
    (hh : ∀ oa ob oc, ∃ ys,
      handlerOf i (envOf i s.rip) [⟨x, oa, false⟩, ⟨y, ob, false⟩, ⟨z, oc, false⟩] t = .ok (ys, t')) :
    exec i s = .next (t'.advance (nextIP s.rip i.length)) := by
  obtain ⟨t1, t2, t3, oa, ob, oc, hg, ha, hb, hc⟩ := h
  obtain ⟨ys, hh⟩ := hh oa ob oc
  refine exec_readOnly (by simp [hp]) hg ?_ hh
  rw [hp]
  exact loadPhase_rrr_ok.2 ⟨_, _, _, _, _, ha, hb, hc, rfl⟩

/-! ## HLT, NOP, INTE, INTD (R200, R201, R204, R205) -/

/-- Settles O32: HLT writes RIP with its own address; the others leave RIP to the IP advance. -/
theorem hltNopInteIntd : Obligations.HltNopInteIntd := by
  intro g s t hg
  have hip := evalGate_unwritten hg
  refine ⟨?_, ?_, ?_, ?_, rfl, rfl, rfl, rfl⟩
  · exact exec_noOperand (i := .hlt g) rfl hg (hltHandler_ok.2 ⟨rfl, rfl⟩)
  · rw [exec_noOperand (i := .nop g) rfl hg rfl, Tick.advance_unwritten hip]
    rfl
  · rw [exec_noOperand (i := .inte g) rfl hg (enableHandler_ok (env := envOf (.inte g) s.rip).2 ⟨rfl, rfl⟩),
      Tick.advance_unwritten hip]
    rfl
  · rw [exec_noOperand (i := .intd g) rfl hg (enableHandler_ok (env := envOf (.intd g) s.rip).2 ⟨rfl, rfl⟩),
      Tick.advance_unwritten hip]
    rfl

/-! ## INT and EINT (R202, R203) -/

/-- An INT whose enqueue answers (R202). -/
theorem exec_int {g : Option Gate} {a b c : Operand} {s s' : State} {x y z : Word} {t : Tick}
    (h : Sources3 g a b c s x y z t)
    (hq : (4096 ≤ x.toNat ∧ enqueue 0 0x02 s.rip t.st = .ok ((), s')) ∨
      (x.toNat < 4096 ∧ enqueue x y z t.st = .ok ((), s'))) :
    exec (.int g a b c) s = .next { s' with rip := s.rip + BitVec.ofNat 64 (Instr.int g a b c).length } := by
  rw [exec_of_sources3 (i := .int g a b c) (t' := { t with st := s' }) h rfl
    fun oa ob oc => ⟨_, intHandler_ok.2 ⟨rfl, s', rfl, hq⟩⟩, Tick.advance_unwritten h.reads.2]
  rfl

/-- Settles O33: the record that INT queues, on each side of 4096. -/
theorem softwareInterrupt : Obligations.SoftwareInterrupt := by
  intro g a b c s x y z t h hq
  refine ⟨rfl, fun hx => ?_, fun hx => ?_⟩
  · exact exec_int h (.inr ⟨hx, enqueue_quiet hq hx⟩)
  · exact exec_int h (.inl ⟨hx, enqueue_quiet hq (by decide)⟩)

/-- EINT inside a handler (R203, R424). -/
theorem exec_eint_return {g : Option Gate} {s : State} {t : Tick} (hg : evalGate g ⟨s, false⟩ = .ok (true, t))
    (hin : t.st.inISR = true) : exec (.eint g) s = .next t.st.returnFromInterrupt :=
  exec_noOperand (i := .eint g) rfl hg (eintHandler_ok.2 ⟨rfl, .inl ⟨hin, rfl⟩⟩)

/-- EINT outside a handler, with no other agent about to act (R203, R413). -/
theorem exec_eint_invalid {g : Option Gate} {s : State} {t : Tick} (hg : evalGate g ⟨s, false⟩ = .ok (true, t))
    (hin : t.st.inISR = false) (hq : t.st.arrivals = .quiet) :
    exec (.eint g) s = .next { t.st with
      queue := t.st.queue ++ [⟨0, 0x03, s.rip, t.st.vectors.readWord 0⟩]
      rip := s.rip + BitVec.ofNat 64 (Instr.eint g).length } := by
  have hraise := enqueue_quiet (s := t.st) (type := typeInvalidInstruction) (d1 := 0x03) (d2 := s.rip) hq (by decide)
  rw [exec_noOperand (i := .eint g) rfl hg (eintHandler_ok.2 ⟨rfl, .inr ⟨hin, _, hraise, rfl⟩⟩),
    Tick.advance_unwritten (evalGate_unwritten hg)]
  rfl

/-- Settles O34: delivery enters the handler with RIP saved, and EINT there takes it back. -/
theorem returnFromInterrupt : Obligations.ReturnFromInterrupt := by
  refine ⟨fun s r rest hq hie hin hqueue => ?_, fun g s t hg => ?_⟩
  · have hentry := outcomeOfUnit_next.1 (deliver_entry hq hie hin hqueue)
    refine ⟨_, hentry, rfl, ?_⟩
    rw [exec_eint_return (evalGate_none _) rfl]
    simp only [State.returnFromInterrupt, State.enterInterrupt, ← hin]
  · have hr : s.ReadsTo t.st := (evalGate_reads hg).1
    have hisr : t.st.inISR = s.inISR := hr.sameControl.inISR
    have hrsip : t.st.rsip = s.rsip := hr.readReg (r := .rsip) (by decide)
    refine ⟨rfl, fun hin => ?_, fun hin hq => exec_eint_invalid hg (hisr.trans hin) hq⟩
    rw [exec_eint_return hg (hisr.trans hin), ← hrsip]
    rfl

/-! ## XCHG, CAS, SET, NOT (R206 to R208, R287) -/

/-- An XCHG whose loads and stores answer; `xchg_next` is the converse (R206). -/
theorem exec_xchg {g : Option Gate} {a b : Dest} {s : State} {t1 t2 t3 t4 t5 : Tick} {x y : Word} {oa ob : Option Word}
    (hg : evalGate g ⟨s, false⟩ = .ok (true, t1)) (ha : load a.operand t1 = .ok ((x, oa), t2))
    (hb : load b.operand t2 = .ok ((y, ob), t3)) (hsa : storeDest a y oa t3 = .ok ((), t4))
    (hsb : storeDest b x ob t4 = .ok ((), t5)) :
    exec (.xchg g a b) s = .next (t5.advance (nextIP s.rip (Instr.xchg g a b).length)) := by
  have hstore : storePhase [.readWrite a, .readWrite b] [⟨y, oa, true⟩, ⟨x, ob, true⟩] t3 = .ok ((), t5) :=
    storePhase_cons.2 ⟨t4, hsa, storePhase_cons.2 ⟨t5, hsb, storePhase_nil _ _⟩⟩
  rw [exec_eq]
  exact runInstr_gate_on (i := .xchg g a b) hg (loadPhase_ww_ok.2 ⟨_, _, _, ha, hb, rfl⟩)
    (xchgHandler_ok (env := envOf (.xchg g a b) s.rip).2 ⟨rfl, rfl⟩) hstore

/-- Settles O35. -/
theorem exchange : Obligations.Exchange := by
  intro g a b s t1 t2 t3 t4 t5 x y oa ob hg ha hb hsa hsb
  exact ⟨exec_xchg hg ha hb hsa hsb, rfl⟩

/-- A CAS whose loads answer and whose one store does; `cas_next` is the converse (R207). -/
theorem exec_cas {g : Option Gate} {a b : Dest} {c : Operand} {s : State} {t1 t2 t3 t4 t5 : Tick} {x y z : Word}
    {oa ob oc : Option Word} (hg : evalGate g ⟨s, false⟩ = .ok (true, t1)) (ha : load a.operand t1 = .ok ((x, oa), t2))
    (hb : load b.operand t2 = .ok ((y, ob), t3)) (hc : load c t3 = .ok ((z, oc), t4))
    (hs : storeDest (if x = y then a else b) (if x = y then z else x) (if x = y then oa else ob) t4 = .ok ((), t5)) :
    exec (.cas g a b c) s = .next (t5.advance (nextIP s.rip (Instr.cas g a b c).length)) := by
  rw [exec_eq]
  refine runInstr_gate_on (i := .cas g a b c) hg (loadPhase_wwr_ok.2 ⟨_, _, _, _, _, ha, hb, hc, rfl⟩)
    (casHandler_ok (env := envOf (.cas g a b c) s.rip).2 ⟨rfl, rfl⟩) ?_
  show storePhase [.readWrite a, .readWrite b, .read c] (if x = y then _ else _) t4 = _
  by_cases e : x = y
  · rw [if_pos e]
    simp only [if_pos e] at hs
    exact storePhase_cons.2 ⟨t5, hs, storePhase_clean _ _ (by simp) _⟩
  · rw [if_neg e]
    simp only [if_neg e] at hs
    exact storePhase_cons.2 ⟨t4, rfl, storePhase_cons.2 ⟨t5, hs, storePhase_clean _ _ (by simp) _⟩⟩

/-- Settles O36: the one store is the target's on success and the expected operand's on failure. -/
theorem compareAndSwap : Obligations.CompareAndSwap := by
  intro g a b c s t1 t2 t3 t4 t5 x y z oa ob oc hg ha hb hc
  refine ⟨rfl, fun e hs => ?_, fun e hs => ?_⟩
  · exact exec_cas hg ha hb hc (by simpa only [if_pos e] using hs)
  · exact exec_cas hg ha hb hc (by simpa only [if_neg e] using hs)

/-- An instruction that stores a function of its one source, where the store answers. -/
theorem exec_unary {i : Instr} {f : Word → Word} {d : Dest} {a : Operand} {s : State} {x : Word} {t u : Tick}
    (hi : handlerOf i = unaryHandler f) (hp : i.shape.params = [.write d, .read a])
    (h : Sources1 i.shape.gate a s x t) (hs : storeDest d (f x) none t = .ok ((), u)) :
    exec i s = .next (u.advance (nextIP s.rip i.length)) := by
  obtain ⟨t1, oa, hg, ha⟩ := h
  have hl : loadPhase i.shape.params t1 = .ok ([⟨0, none, false⟩, ⟨x, oa, false⟩], t) := by
    rw [hp]
    exact loadPhase_wr_ok.2 ⟨_, ha, rfl⟩
  have hstore : storePhase i.shape.params [⟨f x, none, true⟩, ⟨x, oa, false⟩] t = .ok ((), u) := by
    rw [hp]
    exact storePhase_cons.2 ⟨u, hs, storePhase_reads (by simp) _ _⟩
  rw [exec_eq, hi]
  exact runInstr_gate_on hg hl (unaryHandler_ok.2 ⟨rfl, rfl⟩) hstore

/-- The complement of a word, on numbers (R287). -/
theorem not_eq_ofNat (x : Word) : ~~~x = BitVec.ofNat 64 (2 ^ 64 - 1 - x.toNat) := by
  apply BitVec.eq_of_toNat_eq
  rw [BitVec.toNat_not, BitVec.toNat_ofNat]
  omega

/-- Settles O37. -/
theorem setAndNot : Obligations.SetAndNot := by
  intro g d a s x t u h
  refine ⟨rfl, rfl, fun hs => exec_unary (i := .set g d a) rfl rfl h hs, fun hs => ?_⟩
  rw [← not_eq_ofNat] at hs
  exact exec_unary (i := .not g d a) rfl rfl h hs

/-! ## CPY, CALL, RET (R209 to R211) -/

/-- A BusCopy writes no register (R60). -/
theorem busCopy_readReg {src dst len : Word} {s t : State} (h : busCopy src dst len s = .ok ((), t)) (r : Reg) :
    t.readReg r = s.readReg r := by
  obtain ⟨hbus, hrsp, -⟩ := busCopy_frame h
  by_cases hr : r = .rsp
  · rw [hr]; exact hrsp
  · exact hbus.readReg hr

/-- Settles O38: CPY's handler is one BusCopy, and RIP is left to the IP advance. -/
theorem blockCopy : Obligations.BlockCopy := by
  intro g a b c s u dst src len t h hcopy
  refine ⟨?_, busCopy_readReg hcopy, rfl⟩
  rw [exec_of_sources3 (i := .cpy g a b c) (t' := { t with st := u }) h rfl
    fun oa ob oc => ⟨_, cpyHandler_ok (env := envOf (.cpy g a b c) s.rip).2 ⟨rfl, u, hcopy, rfl⟩⟩,
    Tick.advance_unwritten h.reads.2]
  rfl

/-- Settles O39: CALL is a Push and a jump to what was read before it, RET a Pop and a jump to the popped word. -/
theorem callAndReturn : Obligations.CallAndReturn := by
  refine ⟨fun g a s u x t h hw => ⟨?_, rfl⟩, fun g s u v t hg hr => ⟨?_, rfl⟩⟩
  · have hpush : push (envOf (.call g a) s.rip).nextIP t = .ok ((), ⟨u, t.ipWritten⟩) := push_ok.2 ⟨u, hw, rfl⟩
    exact exec_of_sources1 (i := .call g a) (t' := ⟨{ u with rip := x }, true⟩) h rfl
      fun oa => callHandler_ok.2 ⟨rfl, _, hpush, rfl⟩
  · have hpop : pop t = .ok (v, ⟨{ u with rsp := t.st.rsp + 1 }, t.ipWritten⟩) := pop_ok.2 ⟨u, hr, rfl⟩
    exact exec_noOperand (i := .ret g) rfl hg
      (retHandler_ok (env := envOf (.ret g) s.rip).2 ⟨rfl, v, _, hpop, rfl⟩)

end Sys2Proof.Machine
end

section
/-!
PROOFS. What the basic instructions and the debug instructions leave unchanged: CAS and XCHG (O54), the instructions that
write no operand (O55), and CALL, RET and CPY (O56).
-/

namespace Sys2Proof.Machine

/-! ## The gate and the operands, for a frame (R155, R156) -/

/-- An instruction whose gate is off has only read (R155). -/
theorem exec_gateOff_sameWords {i : Instr} {s t : State} {t1 : Tick} (h : exec i s = .next t)
    (hg : evalGate i.shape.gate ⟨s, false⟩ = .ok (false, t1)) : SameWords s t := by
  rw [exec_eq, runInstr_gate_off hg] at h
  cases h
  exact fun w => (advance_peek _ _ w).trans ((evalGate_reads hg).1.peek w)

/-- No operand of an instruction that does not use the stack pops (R106). -/
theorem usesStack_param {i : Instr} {p : Param} (hu : usesStack i = false) (hp : p ∈ i.shape.params) :
    popsKind (paramKind p) = false :=
  Bool.eq_false_of_not_eq_true (List.any_eq_false.1 (usesStack_false hu).2 p hp)

/-! ## CAS and XCHG (R206, R207) -/

/-- What reading operands and storing to some of the destinations `ds` leaves alone; `pops` says that some operand pops or
pushes. -/
structure StoreFrame (ds : List Dest) (pops : Bool) (s t : State) : Prop where
  fixed : SameFixed s t
  control : SameControl s t
  arrivals : OnlyArrivals s t
  draws : t.draws = s.draws
  regs : ∀ r : Reg, r ≠ .rip → r ≠ .rsp → (∀ d ∈ ds, d ≠ .register r) → t.readReg r = s.readReg r
  rsp : pops = false → (∀ d ∈ ds, d ≠ .register .rsp) → t.rsp = s.rsp
  words : (∀ d ∈ ds, ∃ r, d = .register r) → SameWords s t

section
variable {ds : List Dest} {pops : Bool} {s t u : State}

theorem StoreFrame.of_reads (h : s.ReadsTo t) (hrsp : pops = false → t.rsp = s.rsp) : StoreFrame ds pops s t where
  fixed := h.sameFixed
  control := h.sameControl
  arrivals := h.onlyArrivals
  draws := h.draws
  regs _ _ hr _ := h.readReg hr
  rsp hp _ := hrsp hp
  words _ := h.sameWords

theorem StoreFrame.trans (h : StoreFrame ds pops s t) (k : StoreFrame ds pops t u) : StoreFrame ds pops s u where
  fixed := h.fixed.trans k.fixed
  control := h.control.trans k.control
  arrivals := h.arrivals.trans k.arrivals
  draws := k.draws.trans h.draws
  regs r hrip hrsp hd := (k.regs r hrip hrsp hd).trans (h.regs r hrip hrsp hd)
  rsp hp hd := (k.rsp hp hd).trans (h.rsp hp hd)
  words hd w := (k.words hd w).trans (h.words hd w)

theorem StoreFrame.of_store {d : Dest} {v : Word} {o : Option Word} {t u : Tick} (hd : d ∈ ds)
    (hpops : pops = false → popsKind d.operand.kind = false) (h : storeDest d v o t = .ok ((), u)) :
    StoreFrame ds pops t.st u.st := by
  obtain ⟨hfixed, hcontrol, harrivals, hdraws, hregs, hrsp, hwords, -⟩ := storeDest_changes h
  exact {
    fixed := hfixed
    control := hcontrol
    arrivals := harrivals
    draws := hdraws
    regs := fun r hr hr' hne => hregs r hr hr' (hne d hd)
    rsp := fun hp hne => hrsp (hpops hp) (hne d hd)
    words := fun hreg => by
      obtain ⟨r, hr⟩ := hreg d hd
      exact hwords r hr }

theorem StoreFrame.advance {t : Tick} (h : StoreFrame ds pops s t.st) (next : Word) :
    StoreFrame ds pops s (t.advance next) where
  fixed := advance_fixed h.fixed next
  control := advance_control h.control next
  arrivals := advance_onlyArrivals h.arrivals next
  draws := (advance_draws t next).trans h.draws
  regs r hrip hrsp hd := (advance_readReg t next hrip).trans (h.regs r hrip hrsp hd)
  rsp hp hd := (advance_rsp t next).trans (h.rsp hp hd)
  words hd w := (advance_peek t next w).trans (h.words hd w)

end

theorem cas_frame {g : Option Gate} {a b : Dest} {c : Operand} {s t : State} (h : exec (.cas g a b c) s = .next t) :
    StoreFrame [a, b] (usesStack (.cas g a b c)) s t := by
  rcases cas_next h with ⟨t1, hg, rfl⟩ | ⟨t1, t2, t3, t4, t5, x, y, z, oa, ob, oc, hg, ha, hb, hc, hs, rfl⟩
  · refine (StoreFrame.of_reads (evalGate_reads hg).1 fun hu => ?_).advance _
    exact evalGate_rsp (usesStack_false hu).1 hg
  · have hl : loadPhase (Instr.cas g a b c).shape.params t1 = .ok (_, t4) :=
      loadPhase_wwr_ok.2 ⟨_, _, _, _, _, ha, hb, hc, rfl⟩
    have hr : s.ReadsTo t4.st := ((evalGate_reads hg).trans (loadPhase_reads hl).1).1
    have hread : StoreFrame [a, b] (usesStack (.cas g a b c)) s t4.st := .of_reads hr fun hu => loaded_rsp hu hg hl
    refine (hread.trans (.of_store ?_ (fun hu => ?_) hs)).advance _
    · split <;> simp
    · split
      · exact usesStack_param hu (p := .readWrite a) (by simp [Instr.shape])
      · exact usesStack_param hu (p := .readWrite b) (by simp [Instr.shape])

theorem xchg_frame {g : Option Gate} {a b : Dest} {s t : State} (h : exec (.xchg g a b) s = .next t) :
    StoreFrame [a, b] (usesStack (.xchg g a b)) s t := by
  rcases xchg_next h with ⟨t1, hg, rfl⟩ | ⟨t1, t2, t3, t4, t5, x, y, oa, ob, hg, ha, hb, hsa, hsb, rfl⟩
  · refine (StoreFrame.of_reads (evalGate_reads hg).1 fun hu => ?_).advance _
    exact evalGate_rsp (usesStack_false hu).1 hg
  · have hl : loadPhase (Instr.xchg g a b).shape.params t1 = .ok (_, t3) := loadPhase_ww_ok.2 ⟨_, _, _, ha, hb, rfl⟩
    have hr : s.ReadsTo t3.st := ((evalGate_reads hg).trans (loadPhase_reads hl).1).1
    have hread : StoreFrame [a, b] (usesStack (.xchg g a b)) s t3.st := .of_reads hr fun hu => loaded_rsp hu hg hl
    have hpops {d : Dest} (hd : Param.readWrite d ∈ (Instr.xchg g a b).shape.params)
        (hu : usesStack (.xchg g a b) = false) : popsKind d.operand.kind = false := usesStack_param hu hd
    exact ((hread.trans (.of_store (by simp) (hpops (by simp [Instr.shape])) hsa)).trans
      (.of_store (by simp) (hpops (by simp [Instr.shape])) hsb)).advance _

/-- The one store of a CAS whose gate and loads are known (R207). -/
theorem cas_stores {g : Option Gate} {a b : Dest} {c : Operand} {s t : State} {t1 t2 t3 t4 : Tick} {x y z : Word}
    {oa ob oc : Option Word} (h : exec (.cas g a b c) s = .next t) (hg : evalGate g ⟨s, false⟩ = .ok (true, t1))
    (ha : load a.operand t1 = .ok ((x, oa), t2)) (hb : load b.operand t2 = .ok ((y, ob), t3))
    (hc : load c t3 = .ok ((z, oc), t4)) :
    ∃ u, storeDest (if x = y then a else b) (if x = y then z else x) (if x = y then oa else ob) t4 = .ok ((), u) ∧
      t = u.advance (nextIP s.rip (Instr.cas g a b c).length) := by
  rcases cas_next h with ⟨v, hg', -⟩ | ⟨v1, v2, v3, v4, v5, x', y', z', oa', ob', oc', hg', ha', hb', hc', hs, ht⟩
  · cases hg.symm.trans hg'
  · cases hg.symm.trans hg'
    cases ha.symm.trans ha'
    cases hb.symm.trans hb'
    cases hc.symm.trans hc'
    exact ⟨v5, hs, ht⟩

/-- The two stores of an XCHG whose gate and loads are known (R206). -/
theorem xchg_stores {g : Option Gate} {a b : Dest} {s t : State} {t1 t2 t3 : Tick} {x y : Word} {oa ob : Option Word}
    (h : exec (.xchg g a b) s = .next t) (hg : evalGate g ⟨s, false⟩ = .ok (true, t1))
    (ha : load a.operand t1 = .ok ((x, oa), t2)) (hb : load b.operand t2 = .ok ((y, ob), t3)) :
    ∃ u v, storeDest a y oa t3 = .ok ((), u) ∧ storeDest b x ob u = .ok ((), v) ∧
      t = v.advance (nextIP s.rip (Instr.xchg g a b).length) := by
  rcases xchg_next h with ⟨v, hg', -⟩ | ⟨v1, v2, v3, v4, v5, x', y', oa', ob', hg', ha', hb', hsa, hsb, ht⟩
  · cases hg.symm.trans hg'
  · cases hg.symm.trans hg'
    cases ha.symm.trans ha'
    cases hb.symm.trans hb'
    exact ⟨v4, v5, hsa, hsb, ht⟩

/-- A store changes no register but the one its destination resolves to, RIP and RSP apart (R163). -/
theorem storeDest_readReg {d : Dest} {v : Word} {o : Option Word} {p : Target} {t t' u : Tick}
    (h : storeDest d v o t = .ok ((), u)) (hp : resolveDest d o t = .ok (p, t')) {r : Reg} (hrip : r ≠ .rip)
    (hrsp : r ≠ .rsp) (hr : p ≠ .register r) : u.st.readReg r = t.st.readReg r := by
  obtain ⟨-, -, -, -, hregs, -⟩ := storeDest_changes h
  refine hregs r hrip hrsp fun hd => ?_
  subst hd
  cases hp
  exact hr rfl

/-- A store changes no word but the one its destination resolves to (R163). -/
theorem storeDest_peek {d : Dest} {v : Word} {o : Option Word} {p : Target} {t t' u : Tick}
    (h : storeDest d v o t = .ok ((), u)) (hp : resolveDest d o t = .ok (p, t')) (hc : t.st.controllerCount ≤ 1) {w : Word}
    (hw : p ≠ .word w) : u.st.peek w = t.st.peek w := by
  obtain ⟨-, -, -, -, -, -, -, hwords⟩ := storeDest_changes h
  exact hwords hc p t' hp w hw

/-- Settles O54: the frame of the reads and of the stores to the two operands, and the places those stores resolve to. -/
theorem frameSwaps : Obligations.FrameSwaps := by
  refine ⟨fun g a b c s t h => ?_, fun g a b s t h => ?_⟩
  · have hf := cas_frame h
    refine ⟨hf.fixed, hf.control, hf.arrivals, hf.draws, fun r hrip hrsp ha hb => hf.regs r hrip hrsp (by simp [ha, hb]),
      fun hu ha hb => hf.rsp hu (by simp [ha, hb]), fun r q ha hb => hf.words (by simp [ha, hb]),
      fun t1 hg => exec_gateOff_sameWords h hg, fun t1 t2 t3 t4 t5 x y z oa ob oc p hg ha hb hc hp => ?_⟩
    obtain ⟨u, hs, rfl⟩ := cas_stores h hg ha hb hc
    have hr : s.ReadsTo t4.st :=
      ((evalGate_reads hg).trans ((load_reads ha).trans ((load_reads hb).trans (load_reads hc)))).1
    refine ⟨fun r hrip hrsp hne => ?_, fun hcount w hw => ?_⟩
    · rw [advance_readReg _ _ hrip, storeDest_readReg hs hp hrip hrsp hne, hr.readReg hrsp]
    · have hcount4 : t4.st.controllerCount ≤ 1 := by rwa [controllerCount_same hr.sameFixed.devices]
      rw [advance_peek, storeDest_peek hs hp hcount4 hw, hr.peek]
  · have hf := xchg_frame h
    refine ⟨hf.fixed, hf.control, hf.arrivals, hf.draws, fun r hrip hrsp ha hb => hf.regs r hrip hrsp (by simp [ha, hb]),
      fun hu ha hb => hf.rsp hu (by simp [ha, hb]), fun r q ha hb => hf.words (by simp [ha, hb]),
      fun t1 hg => exec_gateOff_sameWords h hg,
      fun hcount t1 t2 t3 t4 t5 t6 x y oa ob p q hg ha hb hp hwrite hq w hpw hqw => ?_⟩
    obtain ⟨u, v, hsa, hsb, rfl⟩ := xchg_stores h hg ha hb
    obtain rfl : u = t5 := by
      rw [storeDest_of_resolve hp, hwrite] at hsa
      cases hsa
      rfl
    have hr : s.ReadsTo t3.st := ((evalGate_reads hg).trans ((load_reads ha).trans (load_reads hb))).1
    have hcount3 : t3.st.controllerCount ≤ 1 := by rwa [controllerCount_same hr.sameFixed.devices]
    have hcountu : u.st.controllerCount ≤ 1 := by rwa [controllerCount_same (storeDest_changes hsa).1.devices]
    rw [advance_peek, storeDest_peek hsb hq hcountu hqw, storeDest_peek hsa hp hcount3 hpw, hr.peek]

/-! ## The instructions that write no operand (R200 to R205, R330, R331) -/

/-- HLT to INTD, DBG and BRK only read their operands (R121). -/
theorem params_read_of_opcode {i : Instr} (h : i.shape.opcode ∈ [0x00, 0x01, 0x02, 0x03, 0x04, 0x05, 0x0C, 0x0D]) :
    ∀ p ∈ i.shape.params, ∃ q, p = .read q := by
  cases i with
  | hlt | nop | int | eint | inte | intd | dbg | brk => simp [Instr.shape]
  | _ => simp [Instr.shape] at h

/-- What `Obligations.FrameNoDestination` says of an instruction with opcode `op`; `pops` says that some operand pops. -/
structure NoDestFrame (op : BitVec 8) (pops : Bool) (s t : State) : Prop where
  fixed : SameFixed s t
  words : SameWords s t
  draws : t.draws = s.draws
  regs : ∀ r : Reg, r ≠ .rip → r ≠ .rsp → (op = 0x03 → r ≠ .rsip ∧ r ≠ .rint1 ∧ r ≠ .rint2) →
    t.readReg r = s.readReg r
  rsp : pops = false → t.rsp = s.rsp
  arrivals : op ∉ [0x02, 0x03] → OnlyArrivals s t
  queue : s.arrivals = .quiet → t.queue = s.queue ∨ ∃ r, t.queue = s.queue ++ [r]

section
variable {op : BitVec 8} {pops : Bool} {s t u : State}

/-- A change of control bits, hook events and, for EINT, the interrupt registers. -/
theorem NoDestFrame.of_data (h : SameData s t) (hdraws : t.draws = s.draws)
    (hregs : ∀ r : Reg, r ≠ .rip → (op = 0x03 → r ≠ .rsip ∧ r ≠ .rint1 ∧ r ≠ .rint2) → t.readReg r = s.readReg r) :
    NoDestFrame op pops s t where
  fixed := h.sameFixed
  words := State.peek_congr (by rw [h.devices]; exact sameDevices_refl _) h.directory h.mem h.vectors
  draws := hdraws
  regs r hrip _ hr := hregs r hrip hr
  rsp _ := hregs .rsp (by decide) fun _ => by decide
  arrivals _ := ⟨[], by simp [h.queue], fun hq => ⟨rfl, h.arrivals.trans hq⟩⟩
  queue _ := .inl h.queue

/-- The one record that INT or EINT queues. -/
theorem NoDestFrame.of_enqueue {ty a b : Word} (hop : op ∈ [0x02, 0x03]) (h : enqueue ty a b s = .ok ((), t)) :
    NoDestFrame op pops s t := by
  obtain ⟨hfixed, -, hwords, hdraws, hregs, hquiet, -⟩ := enqueue_changes h
  exact {
    fixed := hfixed
    words := hwords
    draws := hdraws
    regs := fun r _ _ _ => hregs r
    rsp := fun _ => hregs .rsp
    arrivals := fun hne => absurd hop hne
    queue := fun hq => .inr ⟨_, by rw [hquiet hq]⟩ }

theorem NoDestFrame.refl : NoDestFrame op pops s s :=
  .of_data ⟨rfl, rfl, rfl, rfl, rfl, rfl, rfl, rfl, rfl, rfl⟩ rfl fun _ _ _ => rfl

/-- Reading the gate and the operands comes before it. -/
theorem NoDestFrame.after_reads (h : NoDestFrame op pops t u) (hr : s.ReadsTo t) (hrsp : pops = false → t.rsp = s.rsp) :
    NoDestFrame op pops s u where
  fixed := hr.sameFixed.trans h.fixed
  words w := (h.words w).trans (hr.peek w)
  draws := h.draws.trans hr.draws
  regs r hrip hne hop := (h.regs r hrip hne hop).trans (hr.readReg hne)
  rsp hp := (h.rsp hp).trans (hrsp hp)
  arrivals hop := hr.onlyArrivals.trans (h.arrivals hop)
  queue hq := by
    rw [← hr.onlyArrivals.queue_quiet hq]
    exact h.queue (hr.onlyArrivals.stays_quiet hq)

theorem NoDestFrame.advance {t : Tick} (h : NoDestFrame op pops s t.st) (next : Word) :
    NoDestFrame op pops s (t.advance next) where
  fixed := advance_fixed h.fixed next
  words w := (advance_peek t next w).trans (h.words w)
  draws := (advance_draws t next).trans h.draws
  regs r hrip hrsp hop := (advance_readReg t next hrip).trans (h.regs r hrip hrsp hop)
  rsp hp := (advance_rsp t next).trans (h.rsp hp)
  arrivals hop := advance_onlyArrivals (h.arrivals hop) next
  queue hq := by rw [advance_queue]; exact h.queue hq

end

/-- What the handler of each of these instructions changes. -/
theorem handler_noDestFrame {i : Instr} {pops : Bool} {env : Env} {xs ys : List Slot} {t u : Tick}
    (hop : i.shape.opcode ∈ [0x00, 0x01, 0x02, 0x03, 0x04, 0x05, 0x0C, 0x0D])
    (h : handlerOf i env xs t = .ok (ys, u)) : NoDestFrame i.shape.opcode pops t.st u.st := by
  cases i with
  | hlt g =>
    obtain ⟨-, rfl⟩ := (hltHandler_ok (env := env)).1 h
    exact .of_data ⟨rfl, rfl, rfl, rfl, rfl, rfl, rfl, rfl, rfl, rfl⟩ rfl
      fun r hrip _ => State.readReg_writeReg_ne t.st .rip r env.a hrip
  | nop g => cases h; exact .refl
  | int g a b c =>
    obtain ⟨-, s, rfl, ⟨-, hq⟩ | ⟨-, hq⟩⟩ := (intHandler_ok (env := env)).1 h
    · exact .of_enqueue (by simp [Instr.shape]) hq
    · exact .of_enqueue (by simp [Instr.shape]) hq
  | eint g =>
    obtain ⟨-, ⟨-, rfl⟩ | ⟨-, s, hq, rfl⟩⟩ := (eintHandler_ok (env := env)).1 h
    · refine .of_data ⟨rfl, rfl, rfl, rfl, rfl, rfl, rfl, rfl, rfl, rfl⟩ rfl fun r hrip hr => ?_
      obtain ⟨hrsip, hrint1, hrint2⟩ := hr rfl
      cases r <;> first | rfl | contradiction
    · exact .of_enqueue (by simp [Instr.shape]) hq
  | inte g =>
    obtain ⟨-, rfl⟩ := (enableHandler_ok (env := env)).1 h
    exact .of_data ⟨rfl, rfl, rfl, rfl, rfl, rfl, rfl, rfl, rfl, rfl⟩ rfl fun r _ _ => by cases r <;> rfl
  | intd g =>
    obtain ⟨-, rfl⟩ := (enableHandler_ok (env := env)).1 h
    exact .of_data ⟨rfl, rfl, rfl, rfl, rfl, rfl, rfl, rfl, rfl, rfl⟩ rfl fun r _ _ => by cases r <;> rfl
  | dbg g a b c =>
    obtain ⟨-, rfl⟩ := (dbgHandler_ok (env := env)).1 h
    exact .of_data ⟨rfl, rfl, rfl, rfl, rfl, rfl, rfl, rfl, rfl, rfl⟩ rfl fun r _ _ => by cases r <;> rfl
  | brk g =>
    obtain ⟨-, rfl⟩ := (brkHandler_ok (env := env)).1 h
    exact .of_data ⟨rfl, rfl, rfl, rfl, rfl, rfl, rfl, rfl, rfl, rfl⟩ rfl fun r _ _ => by cases r <;> rfl
  | _ => simp [Instr.shape] at hop

/-- Settles O55: a Tick of these instructions reads, and then changes what its handler changes. -/
theorem frameNoDestination : Obligations.FrameNoDestination := by
  intro i s t hop h
  have hf : NoDestFrame i.shape.opcode (usesStack i) s t := by
    rcases noDestination_next (params_read_of_opcode hop) h with
      ⟨t1, hg, rfl⟩ | ⟨t1, t2, t3, xs, ys, hg, hl, hh, rfl⟩
    · exact (NoDestFrame.refl.after_reads (evalGate_reads hg).1
        fun hu => evalGate_rsp (usesStack_false hu).1 hg).advance _
    · exact ((handler_noDestFrame hop hh).after_reads ((evalGate_reads hg).trans (loadPhase_reads hl).1).1
        fun hu => loaded_rsp hu hg hl).advance _
  exact ⟨hf.fixed, hf.words, hf.draws, hf.regs, hf.rsp, hf.arrivals, hf.queue⟩

/-! ## CALL, RET and CPY (R209 to R211) -/

theorem Sources1.unique {g : Option Gate} {a : Operand} {s : State} {x y : Word} {t u : Tick} (h : Sources1 g a s x t)
    (k : Sources1 g a s y u) : x = y ∧ t = u := by
  obtain ⟨t1, oa, hg, ha⟩ := h
  obtain ⟨u1, ob, hg', ha'⟩ := k
  cases hg.symm.trans hg'
  cases ha.symm.trans ha'
  exact ⟨rfl, rfl⟩

theorem Sources3.unique {g : Option Gate} {a b c : Operand} {s : State} {x y z x' y' z' : Word} {t u : Tick}
    (h : Sources3 g a b c s x y z t) (k : Sources3 g a b c s x' y' z' u) : x = x' ∧ y = y' ∧ z = z' ∧ t = u := by
  obtain ⟨t1, t2, t3, oa, ob, oc, hg, ha, hb, hc⟩ := h
  obtain ⟨u1, u2, u3, oa', ob', oc', hg', ha', hb', hc'⟩ := k
  cases hg.symm.trans hg'
  cases ha.symm.trans ha'
  cases hb.symm.trans hb'
  cases hc.symm.trans hc'
  exact ⟨rfl, rfl, rfl, rfl⟩

/-- What a CPY that completes did (R209). -/
theorem cpy_next {g : Option Gate} {a b c : Operand} {s t : State} (h : exec (.cpy g a b c) s = .next t) :
    (∃ t1, evalGate g ⟨s, false⟩ = .ok (false, t1) ∧ t = t1.advance (nextIP s.rip (Instr.cpy g a b c).length)) ∨
    ∃ dst src len u v, Sources3 g a b c s dst src len u ∧ busCopy src dst len u.st = .ok ((), v) ∧
      t = Tick.advance ⟨v, u.ipWritten⟩ (nextIP s.rip (Instr.cpy g a b c).length) := by
  rcases noDestination_next (by simp [Instr.shape]) h with hoff | ⟨t1, t2, t3, xs, ys, hg, hl, hh, rfl⟩
  · exact .inl hoff
  · obtain ⟨⟨dst, oa⟩, ⟨src, ob⟩, ⟨len, oc⟩, u1, u2, ha, hb, hc, rfl⟩ :=
      loadPhase_rrr_ok.1 (show loadPhase [.read a, .read b, .read c] t1 = _ from hl)
    obtain ⟨-, v, hcopy, rfl⟩ := cpyHandler_ok.1 (show cpyHandler (envOf (.cpy g a b c) s.rip) _ t2 = _ from hh)
    exact .inr ⟨dst, src, len, t2, v, ⟨t1, u1, u2, oa, ob, oc, hg, ha, hb, hc⟩, hcopy, rfl⟩

/-- What a CALL that completes did (R210). -/
theorem call_next {g : Option Gate} {a : Operand} {s t : State} (h : exec (.call g a) s = .next t) :
    (∃ t1, evalGate g ⟨s, false⟩ = .ok (false, t1) ∧ t = t1.advance (nextIP s.rip (Instr.call g a).length)) ∨
    ∃ x u v, Sources1 g a s x u ∧
      busWrite (u.st.rsp - 1) (nextIP s.rip (Instr.call g a).length) { u.st with rsp := u.st.rsp - 1 } = .ok ((), v) ∧
      t = { v with rip := x } := by
  rcases noDestination_next (by simp [Instr.shape]) h with hoff | ⟨t1, t2, t3, xs, ys, hg, hl, hh, rfl⟩
  · exact .inl hoff
  · obtain ⟨⟨x, oa⟩, ha, rfl⟩ := loadPhase_r_ok.1 (show loadPhase [.read a] t1 = _ from hl)
    obtain ⟨-, w, hpush, rfl⟩ := callHandler_ok.1 (show callHandler (envOf (.call g a) s.rip) _ t2 = _ from hh)
    obtain ⟨v, hwrite, rfl⟩ := push_ok.1 hpush
    exact .inr ⟨x, t2, v, ⟨t1, oa, hg, ha⟩, hwrite, rfl⟩

/-- What a RET that completes did (R211). -/
theorem ret_next {g : Option Gate} {s t : State} (h : exec (.ret g) s = .next t) :
    (∃ t1, evalGate g ⟨s, false⟩ = .ok (false, t1) ∧ t = t1.advance (nextIP s.rip (Instr.ret g).length)) ∨
    ∃ u v w, evalGate g ⟨s, false⟩ = .ok (true, u) ∧ pop u = .ok (v, w) ∧ t = { w.st with rip := v } := by
  rcases noDestination_next (by simp [Instr.shape]) h with hoff | ⟨t1, t2, t3, xs, ys, hg, hl, hh, rfl⟩
  · exact .inl hoff
  · cases (loadPhase_nil t1).symm.trans hl
    obtain ⟨-, v, w, hpop, rfl⟩ := retHandler_ok.1 (show retHandler (envOf (.ret g) s.rip) _ t1 = _ from hh)
    exact .inr ⟨t1, v, w, hg, hpop, rfl⟩

/-- What bus accesses and the stack can change, and RIP. -/
def State.BusJumpsTo (s t : State) : Prop := ∃ u n, s.BusTo u ∧ t = { u with rip := n }

section
variable {s t : State}

theorem State.BusTo.advance {t : Tick} (h : s.BusTo t.st) (next : Word) : s.BusJumpsTo (t.advance next) :=
  ⟨t.st, _, h, t.advance_eq next⟩

theorem State.BusJumpsTo.sameFixed (h : s.BusJumpsTo t) : SameFixed s t := by
  obtain ⟨u, n, hb, rfl⟩ := h
  exact hb.sameFixed.trans ⟨rfl, rfl, rfl, rfl, rfl, sameDevices_refl _⟩

theorem State.BusJumpsTo.sameControl (h : s.BusJumpsTo t) : SameControl s t := by
  obtain ⟨u, n, hb, rfl⟩ := h
  exact hb.sameControl.trans ⟨rfl, rfl, rfl, rfl⟩

theorem State.BusJumpsTo.onlyArrivals (h : s.BusJumpsTo t) : OnlyArrivals s t := by
  obtain ⟨u, n, hb, rfl⟩ := h
  exact hb.onlyArrivals

theorem State.BusJumpsTo.draws (h : s.BusJumpsTo t) : t.draws = s.draws := by
  obtain ⟨u, n, hb, rfl⟩ := h
  exact hb.draws

theorem State.BusJumpsTo.readReg (h : s.BusJumpsTo t) {r : Reg} (hrip : r ≠ .rip) (hrsp : r ≠ .rsp) :
    t.readReg r = s.readReg r := by
  obtain ⟨u, n, hb, rfl⟩ := h
  exact (State.readReg_writeReg_ne u .rip r n hrip).trans (hb.readReg hrsp)

end

/-- CPY, CALL and RET change through the bus and the stack only, RIP apart (R209 to R211). -/
theorem exec_busJumpsTo {i : Instr} {s t : State} (hop : i.shape.opcode ∈ [0x09, 0x0A, 0x0B])
    (h : exec i s = .next t) : s.BusJumpsTo t := by
  have hoff {t1 : Tick} (hg : evalGate i.shape.gate ⟨s, false⟩ = .ok (false, t1)) (next : Word) :
      s.BusJumpsTo (t1.advance next) := (evalGate_reads hg).1.busTo.advance next
  cases i with
  | cpy g a b c =>
    rcases cpy_next h with ⟨t1, hg, rfl⟩ | ⟨dst, src, len, u, v, hs, hcopy, rfl⟩
    · exact hoff hg _
    · exact State.BusTo.advance (hs.reads.1.busTo.trans (busCopy_frame hcopy).1) _
  | call g a =>
    rcases call_next h with ⟨t1, hg, rfl⟩ | ⟨x, u, v, hs, hwrite, rfl⟩
    · exact hoff hg _
    · have hpush : u.st.BusTo v := (State.ReadsTo.setRsp u.st (u.st.rsp - 1)).busTo.trans (busWrite_busTo hwrite)
      exact ⟨v, x, hs.reads.1.busTo.trans hpush, rfl⟩
  | ret g =>
    rcases ret_next h with ⟨t1, hg, rfl⟩ | ⟨u, v, w, hg, hpop, rfl⟩
    · exact hoff hg _
    · exact ⟨w.st, v, ((evalGate_reads hg).trans (pop_reads hpop)).1.busTo, rfl⟩
  | _ => simp [Instr.shape] at hop

theorem cpy_rsp {g : Option Gate} {a b c : Operand} {s t : State} (h : exec (.cpy g a b c) s = .next t)
    (hu : usesStack (.cpy g a b c) = false) : t.rsp = s.rsp := by
  rcases cpy_next h with ⟨t1, hg, rfl⟩ | ⟨dst, src, len, u, v, ⟨t1, t2, t3, oa, ob, oc, hg, ha, hb, hc⟩, hcopy, rfl⟩
  · exact (advance_rsp _ _).trans (evalGate_rsp (usesStack_false hu).1 hg)
  · have hl : loadPhase (Instr.cpy g a b c).shape.params t1 = .ok (_, u) :=
      loadPhase_rrr_ok.2 ⟨_, _, _, _, _, ha, hb, hc, rfl⟩
    exact (advance_rsp _ _).trans ((busCopy_readReg hcopy .rsp).trans (loaded_rsp hu hg hl))

theorem ret_sameWords {g : Option Gate} {s t : State} (h : exec (.ret g) s = .next t) : SameWords s t := by
  rcases ret_next h with ⟨t1, hg, -⟩ | ⟨u, v, w, hg, hpop, rfl⟩
  · exact exec_gateOff_sameWords h hg
  · exact ((evalGate_reads hg).trans (pop_reads hpop)).1.sameWords

/-- CALL stores to the word below RSP as its target left it (R210). -/
theorem call_sameWordsBut {g : Option Gate} {a : Operand} {s t : State} {x : Word} {u : Tick}
    (h : exec (.call g a) s = .next t) (hs : Sources1 g a s x u) (hc : s.controllerCount ≤ 1) :
    SameWordsBut (u.st.rsp - 1) s t := by
  rcases call_next h with ⟨t1, hg, -⟩ | ⟨x', u', v, hs', hwrite, rfl⟩
  · exact fun w _ => exec_gateOff_sameWords h hg w
  · obtain ⟨rfl, rfl⟩ := hs.unique hs'
    have hr : s.ReadsTo { u.st with rsp := u.st.rsp - 1 } := hs.reads.1.trans (.setRsp u.st _)
    intro w hw
    have hpush := busWrite_sameWordsBut hwrite (by rwa [controllerCount_same hr.sameFixed.devices]) w hw
    exact hpush.trans (hr.peek w)

/-- CPY stores to its destination range (R60, R209). -/
theorem cpy_peek {g : Option Gate} {a b c : Operand} {s t : State} {dst src len : Word} {u : Tick}
    (h : exec (.cpy g a b c) s = .next t) (hs : Sources3 g a b c s dst src len u) (hc : s.controllerCount ≤ 1) {w : Word}
    (hw : ∀ k, k < len.toNat → w ≠ dst + BitVec.ofNat 64 k) : t.peek w = s.peek w := by
  rcases cpy_next h with ⟨t1, hg, -⟩ | ⟨dst', src', len', u', v, hs', hcopy, rfl⟩
  · exact exec_gateOff_sameWords h hg w
  · obtain ⟨rfl, rfl, rfl, rfl⟩ := hs.unique hs'
    have hr : s.ReadsTo u.st := hs.reads.1
    obtain ⟨-, -, hwords⟩ := busCopy_frame hcopy
    rw [advance_peek]
    exact (hwords (by rwa [controllerCount_same hr.sameFixed.devices]) w hw).trans (hr.peek w)

/-- Settles O56: what the bus and the stack can change, and the words that each of the three stores to. -/
theorem frameCallRetCpy : Obligations.FrameCallRetCpy := by
  intro i s t hop h
  have hf := exec_busJumpsTo hop h
  refine ⟨hf.sameFixed, hf.sameControl, hf.onlyArrivals, hf.draws, fun r hrip hrsp => hf.readReg hrip hrsp,
    fun hcpy hu => ?_, fun hret => ?_, fun t1 hg => exec_gateOff_sameWords h hg, fun g a x u e hs hc => ?_,
    fun g a b c dst src len u e hs hc w hw => ?_⟩
  · cases i with
    | cpy g a b c => exact cpy_rsp h hu
    | _ => simp [Instr.shape] at hcpy
  · cases i with
    | ret g => exact ret_sameWords h
    | _ => simp [Instr.shape] at hret
  · subst e
    exact call_sameWordsBut h hs hc
  · subst e
    exact cpy_peek h hs hc hw

end Sys2Proof.Machine
end

section
/-!
PROOFS. The arithmetic instructions: ADD, SUB and MUL (O41), DIV and MOD (O42), a zero divisor (O43), and the words that the
float instructions store (O48).
-/

namespace Sys2Proof.Machine

/-! ## The handlers that divide (R253) -/

section
variable (g : Option Gate) (d : Dest) (a b : Operand)

theorem handlerOf_div : handlerOf (.div g d a b) = divideHandler intIsZero fun x y => pure (BitVec.udiv x y) := rfl

theorem handlerOf_mod : handlerOf (.mod g d a b) = divideHandler intIsZero fun x y => pure (BitVec.umod x y) := rfl

theorem handlerOf_divf : handlerOf (.divf g d a b) = divideHandler f64IsZero fun x y => floatResult (f64Div x y) := rfl

theorem handlerOf_modf : handlerOf (.modf g d a b) = divideHandler f64IsZero fun x y => floatResult (f64Mod x y) := rfl

end

/-! ## An instruction `dest = src1 <op> src2`, forwards (R150, R156, R158) -/

section
variable {i : Instr} {d : Dest} {a b : Operand} {s : State} {x y : Word} {t t' : Tick}

theorem Sources2.reads {g : Option Gate} (h : Sources2 g a b s x y t) : Tick.Reads ⟨s, false⟩ t := by
  obtain ⟨t1, t2, oa, ob, hg, ha, hb⟩ := h
  exact (evalGate_reads hg).trans ((load_reads ha).trans (load_reads hb))

/-- The gate and the load phase of an instruction whose two sources read `x` and `y`: the destination's slot is empty. -/
theorem Sources2.loadPhase {g : Option Gate} (h : Sources2 g a b s x y t) (d : Dest) :
    ∃ t1 oa ob, evalGate g ⟨s, false⟩ = .ok (true, t1) ∧ Machine.loadPhase [.write d, .read a, .read b] t1 =
      .ok ([⟨0, none, false⟩, ⟨x, oa, false⟩, ⟨y, ob, false⟩], t) := by
  obtain ⟨t1, t2, oa, ob, hg, ha, hb⟩ := h
  exact ⟨t1, oa, ob, hg, loadPhase_wrr_ok.2 ⟨_, _, t2, ha, hb, rfl⟩⟩

/-- An instruction with one destination and two sources whose handler writes `v` to the destination's slot stores `v`. -/
theorem exec_stores {v : Word} {u : Tick} (hp : i.shape.params = [.write d, .read a, .read b])
    (h : Sources2 i.shape.gate a b s x y t)
    (hh : ∀ xs, slotValue xs 1 = x → slotValue xs 2 = y →
      handlerOf i (envOf i s.rip) xs t = .ok (setSlot xs 0 v, t'))
    (hs : storeDest d v none t' = .ok ((), u)) : exec i s = .next (u.advance (nextIP s.rip i.length)) := by
  obtain ⟨t1, oa, ob, hg, hl⟩ := h.loadPhase d
  rw [exec_eq]
  refine runInstr_gate_on hg (hp ▸ hl) (hh _ rfl rfl) ?_
  rw [hp]
  exact storePhase_cons.2 ⟨u, hs, storePhase_reads (by simp) _ _⟩

/-- Such an instruction whose handler writes no slot stores nothing (R158). -/
theorem exec_storesNothing (hp : i.shape.params = [.write d, .read a, .read b]) (h : Sources2 i.shape.gate a b s x y t)
    (hh : ∀ xs, slotValue xs 1 = x → slotValue xs 2 = y → handlerOf i (envOf i s.rip) xs t = .ok (xs, t')) :
    exec i s = .next (t'.advance (nextIP s.rip i.length)) := by
  obtain ⟨t1, oa, ob, hg, hl⟩ := h.loadPhase d
  rw [exec_eq]
  refine runInstr_gate_on hg (hp ▸ hl) (hh _ rfl rfl) ?_
  rw [hp]
  exact storePhase_cons.2 ⟨t', rfl, storePhase_reads (by simp) _ _⟩

/-- An instruction with a binary handler stores its function of the sources. -/
theorem exec_binary {f : Word → Word → Word} {u : Tick} (hi : handlerOf i = binaryHandler f)
    (hp : i.shape.params = [.write d, .read a, .read b]) (h : Sources2 i.shape.gate a b s x y t)
    (hs : storeDest d (f x y) none t = .ok ((), u)) : exec i s = .next (u.advance (nextIP s.rip i.length)) := by
  refine exec_stores hp h (fun xs hx hy => ?_) hs
  rw [hi]
  exact binaryHandler_ok.2 ⟨by rw [hx, hy], rfl⟩

/-- A division by a divisor that is not zero stores its result. -/
theorem exec_divide {isZero : Word → Bool} {f : Word → Word → TickM Word} {v : Word} {u : Tick}
    (hi : handlerOf i = divideHandler isZero f) (hp : i.shape.params = [.write d, .read a, .read b])
    (h : Sources2 i.shape.gate a b s x y t) (hy : isZero y = false) (hf : f x y t = .ok (v, t'))
    (hs : storeDest d v none t' = .ok ((), u)) : exec i s = .next (u.advance (nextIP s.rip i.length)) := by
  refine exec_stores hp h (fun xs hx hy' => ?_) hs
  rw [hi]
  refine divideHandler_ok.2 (.inr ⟨by rw [hy', hy], v, ?_, rfl⟩)
  rw [hx, hy', hf]

end

/-! ## ADD, SUB, MUL (R254 to R256) -/

/-- The difference of two words, on integers (R255). -/
theorem sub_eq_ofInt (x y : Word) : x - y = BitVec.ofInt 64 ((x.toNat : Int) - (y.toNat : Int)) := by
  rw [BitVec.sub_eq_add_neg, neg_eq_ofInt, Int.sub_eq_add_neg, BitVec.ofInt_add, BitVec.ofInt_natCast, BitVec.ofNat_toNat,
    BitVec.setWidth_eq]

/-- Settles O41: the handlers' word operations are the sums, differences and products of the statement modulo 2^64. -/
theorem addSubMul : Obligations.AddSubMul := by
  unfold Obligations.AddSubMul
  simp only [List.forall_mem_cons]
  refine ⟨?_, ?_, ?_, by simp⟩
  all_goals intro g d a b s x y t u h hs
  · have hf : x + y = BitVec.ofNat 64 ((x.toNat + y.toNat) % 2 ^ 64) := BitVec.eq_of_toNat_eq (by simp)
    exact ⟨exec_binary (i := .add g d a b) rfl rfl h (by rwa [hf]), rfl⟩
  · exact ⟨exec_binary (i := .sub g d a b) rfl rfl h (by rwa [sub_eq_ofInt]), rfl⟩
  · have hf : x * y = BitVec.ofNat 64 (x.toNat * y.toNat % 2 ^ 64) := BitVec.eq_of_toNat_eq (by simp)
    exact ⟨exec_binary (i := .mul g d a b) rfl rfl h (by rwa [hf]), rfl⟩

/-! ## DIV, MOD (R257, R258) -/

/-- The unsigned quotient of two words, on numbers (R257). -/
theorem udiv_eq_ofNat (x y : Word) : BitVec.udiv x y = BitVec.ofNat 64 (x.toNat / y.toNat) := by
  apply BitVec.eq_of_toNat_eq
  rw [BitVec.toNat_ofNat, Nat.mod_eq_of_lt (Nat.lt_of_le_of_lt (Nat.div_le_self _ _) x.isLt)]
  exact BitVec.toNat_udiv

/-- The unsigned remainder of two words, as the dividend less quotient times divisor (R258). -/
theorem umod_eq_ofNat (x y : Word) : BitVec.umod x y = BitVec.ofNat 64 (x.toNat - x.toNat / y.toNat * y.toNat) := by
  apply BitVec.eq_of_toNat_eq
  rw [BitVec.toNat_ofNat, Nat.mod_eq_of_lt (Nat.lt_of_le_of_lt (Nat.sub_le _ _) x.isLt), ← Nat.mod_eq_sub_div_mul]
  exact BitVec.toNat_umod

theorem intIsZero_eq_false {y : Word} (h : y ≠ 0) : intIsZero y = false := decide_eq_false h

/-- Settles O42. -/
theorem divideAndRemainder : Obligations.DivideAndRemainder := by
  unfold Obligations.DivideAndRemainder
  simp only [List.forall_mem_cons]
  refine ⟨?_, ?_, by simp⟩
  all_goals intro g d a b s x y t u h hy hs
  · rw [← udiv_eq_ofNat] at hs
    exact ⟨exec_divide (handlerOf_div g d a b) rfl h (intIsZero_eq_false hy) rfl hs, rfl⟩
  · rw [← umod_eq_ofNat] at hs
    exact ⟨exec_divide (handlerOf_mod g d a b) rfl h (intIsZero_eq_false hy) rfl hs, rfl⟩

/-! ## A zero divisor (R253) -/

/-- What O43 says of one instruction with opcode `op`, whose sources were read. -/
def RaisesDivideByZero (i : Instr) (op : BitVec 8) (s : State) (t : Tick) : Prop :=
  exec i s = .next { t.st with
      queue := t.st.queue ++ [⟨1, op.setWidth 64, s.rip, t.st.vectors.readWord 1⟩]
      rip := s.rip + BitVec.ofNat 64 i.length } ∧
    SameWords s t.st ∧ ∀ r : Reg, r ≠ .rsp → t.st.readReg r = s.readReg r

/-- A division by zero queues its record, and stores nothing. -/
theorem raisesDivideByZero {i : Instr} {d : Dest} {a b : Operand} {s : State} {x y : Word} {t : Tick}
    {isZero : Word → Bool} {f : Word → Word → TickM Word} (hi : handlerOf i = divideHandler isZero f)
    (hp : i.shape.params = [.write d, .read a, .read b]) (h : Sources2 i.shape.gate a b s x y t) (hy : isZero y = true)
    (hq : t.st.arrivals = .quiet) : RaisesDivideByZero i i.shape.opcode s t := by
  obtain ⟨hr, hw⟩ := h.reads
  have hh (xs : List Slot) (hy' : slotValue xs 2 = y) :
      handlerOf i (envOf i s.rip) xs t = .ok (xs, ⟨{ t.st with queue := t.st.queue ++
        [⟨1, i.shape.opcode.setWidth 64, s.rip, t.st.vectors.readWord 1⟩] }, t.ipWritten⟩) := by
    rw [hi]
    exact divideHandler_ok.2 (.inl ⟨by rw [hy', hy], rfl, _, enqueue_quiet hq (by decide), rfl⟩)
  refine ⟨?_, hr.sameWords, fun r => hr.readReg⟩
  rw [exec_storesNothing hp h fun xs _ => hh xs, Tick.advance_unwritten hw]
  rfl

/-- The words that R253 names are zeros of a binary64. -/
theorem f64IsZero_of_word {y : Word} (h : y = 0x0000_0000_0000_0000 ∨ y = 0x8000_0000_0000_0000) :
    f64IsZero y = true := by
  rcases h with rfl | rfl <;> decide

/-- Settles O43: the four instructions divide, and each names its zeros. -/
theorem divideByZero : Obligations.DivideByZero := by
  unfold Obligations.DivideByZero
  simp only [List.forall_mem_cons]
  refine ⟨?_, ?_, ?_, ?_, by simp⟩
  all_goals intro g d a b s x y t h hy hq
  · exact raisesDivideByZero (handlerOf_div g d a b) rfl h (decide_eq_true hy) hq
  · exact raisesDivideByZero (handlerOf_mod g d a b) rfl h (decide_eq_true hy) hq
  · exact raisesDivideByZero (handlerOf_divf g d a b) rfl h (f64IsZero_of_word hy) hq
  · exact raisesDivideByZero (handlerOf_modf g d a b) rfl h (f64IsZero_of_word hy) hq

/-! ## The float instructions (R251, R252) -/

/-- What O48 says of one instruction whose operation gives `r`. -/
def StoresFloatResult (i : Instr) (d : Dest) (r : Option Word) (s : State) (t u : Tick) : Prop :=
  (∀ w, r = some w → storeDest d w none t = .ok ((), u) → exec i s = .next (u.advance (nextIP s.rip i.length))) ∧
  (r = none →
    storeDest d (nanOf (Config.nanDraw t.st.draws)) none ⟨{ t.st with draws := t.st.draws + 1 }, t.ipWritten⟩ =
      .ok ((), u) → exec i s = .next (u.advance (nextIP s.rip i.length)))

section
variable {i : Instr} {d : Dest} {a b : Operand} {s : State} {x y : Word} {t u : Tick}

/-- A run that stores whatever word a float result writes stores the result, or the next draw. -/
theorem StoresFloatResult.of_result {r : Option Word}
    (h : ∀ w t', floatResult r t = .ok (w, t') → storeDest d w none t' = .ok ((), u) →
      exec i s = .next (u.advance (nextIP s.rip i.length))) : StoresFloatResult i d r s t u :=
  ⟨fun w hr => h w t (floatResult_ok.2 (.inl ⟨hr, rfl⟩)),
    fun hr => h _ _ (floatResult_ok.2 (.inr ⟨hr, rfl, rfl⟩))⟩

theorem storesFloatResult_of_float {f : Word → Word → Option Word} (hi : handlerOf i = floatHandler f)
    (hp : i.shape.params = [.write d, .read a, .read b]) (h : Sources2 i.shape.gate a b s x y t) :
    StoresFloatResult i d (f x y) s t u := by
  refine .of_result fun w t' hw => exec_stores hp h fun xs hx hy => ?_
  rw [hi]
  exact floatHandler_ok.2 ⟨w, by rw [hx, hy, hw], rfl⟩

theorem storesFloatResult_of_divide {f : Word → Word → Option Word}
    (hi : handlerOf i = divideHandler f64IsZero fun b c => floatResult (f b c))
    (hp : i.shape.params = [.write d, .read a, .read b]) (h : Sources2 i.shape.gate a b s x y t)
    (hy : f64IsZero y = false) : StoresFloatResult i d (f x y) s t u :=
  .of_result fun _ _ hw => exec_divide hi hp h hy hw

end

/-- Settles O48: the handler of each writes its float result. -/
theorem floatArithmetic : Obligations.FloatArithmetic := by
  unfold Obligations.FloatArithmetic
  simp only [List.forall_mem_cons]
  refine ⟨?_, ?_, ?_, ?_, ?_, by simp⟩
  all_goals intro g d a b s x y t u h hy
  · exact ⟨rfl, storesFloatResult_of_float (i := .addf g d a b) rfl rfl h⟩
  · exact ⟨rfl, storesFloatResult_of_float (i := .subf g d a b) rfl rfl h⟩
  · exact ⟨rfl, storesFloatResult_of_float (i := .mulf g d a b) rfl rfl h⟩
  · exact ⟨rfl, storesFloatResult_of_divide (handlerOf_divf g d a b) rfl h (hy trivial)⟩
  · exact ⟨rfl, storesFloatResult_of_divide (handlerOf_modf g d a b) rfl h (hy trivial)⟩

end Sys2Proof.Machine
end

section
/-!
PROOFS. Words as binary64 numbers, by sign and magnitude, and which operations give a NaN (O49).
-/

namespace Sys2Proof.Machine

/-! ## Sign and magnitude of a word (R251) -/

/-- The exponent and fraction bits of a word, as one number: the magnitudes of the binary64 numbers are ordered as these
are, and an infinity's stands above every finite one. -/
def f64Mag (w : Word) : Nat := w.toNat % 2 ^ 63

theorem f64Mag_lt (w : Word) : f64Mag w < 2 ^ 63 := Nat.mod_lt _ (by decide)

theorem f64Exp_eq (w : Word) : f64Exp w = f64Mag w / 2 ^ 52 := by
  rw [f64Exp, f64Mag, BitVec.extractLsb'_toNat, Nat.shiftRight_eq_div_pow]
  omega

theorem f64Frac_eq (w : Word) : f64Frac w = f64Mag w % 2 ^ 52 := by
  rw [f64Frac, f64Mag, BitVec.extractLsb'_toNat, Nat.shiftRight_zero]
  omega

theorem f64Mag_eq (w : Word) : f64Mag w = f64Exp w * 2 ^ 52 + f64Frac w := by
  rw [f64Exp_eq, f64Frac_eq, Nat.mul_comm, Nat.div_add_mod]

theorem f64Sign_eq (w : Word) : f64Sign w = decide (2 ^ 63 ≤ w.toNat) := BitVec.msb_eq_decide w

/-- The number of a word, from its sign and magnitude. -/
theorem toNat_eq_sign_add_mag (w : Word) : w.toNat = (if f64Sign w then 2 ^ 63 else 0) + f64Mag w := by
  have hlt := w.isLt
  rw [f64Sign_eq, f64Mag]
  by_cases h : 2 ^ 63 ≤ w.toNat
  · rw [decide_eq_true h, if_pos rfl]
    omega
  · rw [decide_eq_false h, if_neg Bool.false_ne_true]
    omega

section
variable {m : Nat} (neg : Bool) (hm : m < 2 ^ 63)
include hm

theorem f64Pack_toNat : (f64Pack neg m).toNat = (if neg then 2 ^ 63 else 0) + m := by
  rw [f64Pack, BitVec.toNat_ofNat]
  cases neg <;> simp only [if_true, Bool.false_eq_true, if_false] <;> omega

theorem f64Mag_pack : f64Mag (f64Pack neg m) = m := by
  rw [f64Mag, f64Pack_toNat neg hm]
  cases neg <;> simp only [if_true, Bool.false_eq_true, if_false] <;> omega

theorem f64Sign_pack : f64Sign (f64Pack neg m) = neg := by
  rw [f64Sign_eq, f64Pack_toNat neg hm]
  cases neg <;> simp only [if_true, Bool.false_eq_true, if_false, decide_eq_true_eq, decide_eq_false_iff_not] <;> omega

end

/-- A word is its sign and its magnitude. -/
theorem f64Pack_sign_mag (w : Word) : f64Pack (f64Sign w) (f64Mag w) = w :=
  BitVec.eq_of_toNat_eq (by rw [f64Pack_toNat _ (f64Mag_lt w), ← toNat_eq_sign_add_mag])

theorem f64_ext {b c : Word} (hs : f64Sign b = f64Sign c) (hm : f64Mag b = f64Mag c) : b = c := by
  rw [← f64Pack_sign_mag b, hs, hm, f64Pack_sign_mag]

/-- Negation keeps the magnitude. -/
@[simp] theorem f64Mag_neg (w : Word) : f64Mag (f64Neg w) = f64Mag w := by
  rw [f64Mag, f64Neg, BitVec.toNat_xor, Nat.xor_mod_two_pow]
  exact Nat.xor_zero _

/-- Negation inverts the sign. -/
@[simp] theorem f64Sign_neg (w : Word) : f64Sign (f64Neg w) = !f64Sign w := by
  rw [f64Sign, f64Neg, BitVec.getLsbD_xor]
  exact Bool.xor_true _

/-! ## The classes of words, by magnitude (R251, R252) -/

theorem f64InfBits_lt : f64InfBits < 2 ^ 63 := by decide

theorem f64IsNaN_iff {w : Word} : f64IsNaN w = true ↔ f64InfBits < f64Mag w := by
  have := f64Mag_lt w
  rw [f64IsNaN, Bool.and_eq_true, beq_iff_eq, bne_iff_ne, f64Exp_eq, f64Frac_eq, f64InfBits]
  omega

theorem f64IsInf_iff {w : Word} : f64IsInf w = true ↔ f64Mag w = f64InfBits := by
  rw [f64IsInf, Bool.and_eq_true, beq_iff_eq, beq_iff_eq, f64Exp_eq, f64Frac_eq, f64InfBits]
  omega

theorem f64IsZero_iff {w : Word} : f64IsZero w = true ↔ f64Mag w = 0 := by
  rw [f64IsZero, Bool.and_eq_true, beq_iff_eq, beq_iff_eq, f64Exp_eq, f64Frac_eq]
  omega

theorem f64Finite_iff {w : Word} : f64Finite w ↔ f64Mag w < f64InfBits := by
  have := f64Mag_lt w
  rw [f64Finite, f64Exp_eq, f64InfBits]
  omega

theorem f64Finite.not_nan {w : Word} (h : f64Finite w) : f64IsNaN w = false := by
  rw [f64Finite_iff] at h
  rw [← Bool.not_eq_true, f64IsNaN_iff]
  omega

theorem f64Finite.not_inf {w : Word} (h : f64Finite w) : f64IsInf w = false := by
  rw [f64Finite_iff] at h
  rw [← Bool.not_eq_true, f64IsInf_iff]
  omega

theorem f64IsInf_not_nan {w : Word} (h : f64IsInf w = true) : f64IsNaN w = false := by
  rw [f64IsInf_iff] at h
  rw [← Bool.not_eq_true, f64IsNaN_iff]
  omega

theorem f64IsInf_not_zero {w : Word} (h : f64IsInf w = true) : f64IsZero w = false := by
  rw [f64IsInf_iff] at h
  rw [← Bool.not_eq_true, f64IsZero_iff, h]
  decide

theorem f64IsInf_not_finite {w : Word} (h : f64IsInf w = true) : ¬ f64Finite w := by
  rw [f64Finite_iff, f64IsInf_iff.1 h]
  exact Nat.lt_irrefl _

/-- A word that is neither a NaN nor an infinity is finite. -/
theorem f64Finite_of_not {w : Word} (hn : f64IsNaN w = false) (hi : f64IsInf w = false) : f64Finite w := by
  rw [← Bool.not_eq_true, f64IsNaN_iff] at hn
  rw [← Bool.not_eq_true, f64IsInf_iff] at hi
  rw [f64Finite_iff]
  omega

/-- A word that is no NaN is an infinity or finite. -/
theorem f64IsInf_or_finite {w : Word} (hn : f64IsNaN w = false) : f64IsInf w = true ∨ f64Finite w := by
  cases hi : f64IsInf w with
  | true => exact .inl rfl
  | false => exact .inr (f64Finite_of_not hn hi)

/-- Negation keeps the class of a word. -/
@[simp] theorem f64IsNaN_neg (w : Word) : f64IsNaN (f64Neg w) = f64IsNaN w :=
  Bool.eq_iff_iff.2 (by rw [f64IsNaN_iff, f64IsNaN_iff, f64Mag_neg])

@[simp] theorem f64IsInf_neg (w : Word) : f64IsInf (f64Neg w) = f64IsInf w :=
  Bool.eq_iff_iff.2 (by rw [f64IsInf_iff, f64IsInf_iff, f64Mag_neg])

@[simp] theorem f64Finite_neg {w : Word} : f64Finite (f64Neg w) ↔ f64Finite w := by
  rw [f64Finite_iff, f64Finite_iff, f64Mag_neg]

/-! ## What each operation gives, by the classes of its operands (R259 to R263) -/

section
variable {b c : Word}

theorem f64Add_nan (h : f64IsNaN b = true ∨ f64IsNaN c = true) : f64Add b c = none := by
  rcases h with h | h <;> simp [f64Add, h]

theorem f64Add_inf (hb : f64IsInf b = true) (hc : f64IsNaN c = false) :
    f64Add b c = if f64IsInf c = true ∧ f64Sign b ≠ f64Sign c then none else some b := by
  simp [f64Add, f64IsInf_not_nan hb, hc, hb]

theorem f64Add_finite_inf (hb : f64Finite b) (hc : f64IsInf c = true) : f64Add b c = some c := by
  simp [f64Add, hb.not_nan, hb.not_inf, hc, f64IsInf_not_nan hc]

theorem f64Add_finite (hb : f64Finite b) (hc : f64Finite c) :
    f64Add b c = some (if f64Int b + f64Int c = 0 then f64Pack (f64Sign b && f64Sign c) 0
      else f64Pack (decide (f64Int b + f64Int c < 0)) (f64Round (f64Int b + f64Int c).natAbs 1)) := by
  simp only [f64Add, hb.not_nan, hc.not_nan, hb.not_inf, hc.not_inf, Bool.or_self, Bool.false_eq_true,
    if_false, apply_ite some]

theorem f64Mul_nan (h : f64IsNaN b = true ∨ f64IsNaN c = true) : f64Mul b c = none := by
  rcases h with h | h <;> simp [f64Mul, h]

theorem f64Mul_comm (b c : Word) : f64Mul b c = f64Mul c b := by
  simp only [f64Mul, Bool.or_comm (f64IsNaN b), Bool.or_comm (f64IsInf b), Bool.or_comm (f64IsZero b),
    Nat.mul_comm (f64Units b), bne_comm (a := f64Sign b)]

theorem f64Mul_inf (hb : f64IsInf b = true) (hc : f64IsNaN c = false) :
    f64Mul b c = if f64IsZero c = true then none else some (f64Pack (f64Sign b != f64Sign c) f64InfBits) := by
  simp [f64Mul, f64IsInf_not_nan hb, hc, hb, f64IsInf_not_zero hb]

theorem f64Mul_finite (hb : f64Finite b) (hc : f64Finite c) : f64Mul b c =
    some (f64Pack (f64Sign b != f64Sign c) (f64Round (f64Units b * f64Units c) (2 ^ 1074))) := by
  simp only [f64Mul, hb.not_nan, hc.not_nan, hb.not_inf, hc.not_inf, Bool.or_self, Bool.false_eq_true, if_false]

theorem f64Div_nan (h : f64IsNaN b = true ∨ f64IsNaN c = true) : f64Div b c = none := by
  rcases h with h | h <;> simp [f64Div, h]

theorem f64Div_inf (hb : f64IsInf b = true) (hc : f64IsNaN c = false) : f64Div b c =
    if f64IsInf c = true then none else some (f64Pack (f64Sign b != f64Sign c) f64InfBits) := by
  simp [f64Div, f64IsInf_not_nan hb, hc, hb]

theorem f64Div_finite_inf (hb : f64Finite b) (hc : f64IsInf c = true) :
    f64Div b c = some (f64Pack (f64Sign b != f64Sign c) 0) := by
  simp [f64Div, hb.not_nan, hb.not_inf, hc, f64IsInf_not_nan hc]

theorem f64Div_finite (hb : f64Finite b) (hc : f64Finite c) : f64Div b c =
    some (f64Pack (f64Sign b != f64Sign c) (f64Round (f64Units b * 2 ^ 1074) (f64Units c))) := by
  simp only [f64Div, hb.not_nan, hc.not_nan, hb.not_inf, hc.not_inf, Bool.or_self, Bool.false_eq_true, if_false]

theorem f64Mod_nan (h : f64IsNaN b = true ∨ f64IsNaN c = true ∨ f64IsInf b = true) : f64Mod b c = none := by
  rcases h with h | h | h <;> simp [f64Mod, h]

theorem f64Mod_finite_inf (hb : f64Finite b) (hc : f64IsInf c = true) : f64Mod b c = some b := by
  simp [f64Mod, hb.not_nan, hb.not_inf, hc, f64IsInf_not_nan hc]

theorem f64Mod_finite (hb : f64Finite b) (hc : f64Finite c) : f64Mod b c =
    some (f64Pack (f64Sign b) (f64Round (f64Units b % f64Units c) 1)) := by
  simp only [f64Mod, hb.not_nan, hc.not_nan, hb.not_inf, hc.not_inf, Bool.or_self, Bool.false_eq_true, if_false]

end

/-! ## Which operations give a NaN (R252) -/

section
variable {b c : Word}

theorem f64Add_eq_none : f64Add b c = none ↔
    f64IsNaN b = true ∨ f64IsNaN c = true ∨ (f64IsInf b = true ∧ f64IsInf c = true ∧ f64Sign b ≠ f64Sign c) := by
  cases hb : f64IsNaN b with
  | true => simp [f64Add_nan (.inl hb)]
  | false =>
  cases hc : f64IsNaN c with
  | true => simp [f64Add_nan (.inr hc)]
  | false =>
  rcases f64IsInf_or_finite hb with hb | hb
  · simp [f64Add_inf hb hc, hb]
  · rcases f64IsInf_or_finite hc with hc | hc
    · simp [f64Add_finite_inf hb hc, hb.not_inf]
    · simp [f64Add_finite hb hc, hb.not_inf]

theorem f64Sub_eq_none : f64Sub b c = none ↔
    f64IsNaN b = true ∨ f64IsNaN c = true ∨ (f64IsInf b = true ∧ f64IsInf c = true ∧ f64Sign b = f64Sign c) := by
  rw [f64Sub, f64Add_eq_none, f64IsNaN_neg, f64IsInf_neg, f64Sign_neg, ne_eq, Bool.eq_not, not_not]

theorem f64Mul_eq_none : f64Mul b c = none ↔
    f64IsNaN b = true ∨ f64IsNaN c = true ∨ (f64IsInf b = true ∧ f64IsZero c = true) ∨
      (f64IsZero b = true ∧ f64IsInf c = true) := by
  cases hb : f64IsNaN b with
  | true => simp [f64Mul_nan (.inl hb)]
  | false =>
  cases hc : f64IsNaN c with
  | true => simp [f64Mul_nan (.inr hc)]
  | false =>
  rcases f64IsInf_or_finite hb with hb' | hb'
  · simp [f64Mul_inf hb' hc, hb', f64IsInf_not_zero hb']
  · rcases f64IsInf_or_finite hc with hc' | hc'
    · simp [f64Mul_comm b c, f64Mul_inf hc' hb, hc', hb'.not_inf]
    · simp only [f64Mul_finite hb' hc', hb'.not_inf, hc'.not_inf, reduceCtorEq, false_and, and_false, or_false]

theorem f64Div_eq_none : f64Div b c = none ↔
    f64IsNaN b = true ∨ f64IsNaN c = true ∨ (f64IsInf b = true ∧ f64IsInf c = true) := by
  cases hb : f64IsNaN b with
  | true => simp [f64Div_nan (.inl hb)]
  | false =>
  cases hc : f64IsNaN c with
  | true => simp [f64Div_nan (.inr hc)]
  | false =>
  rcases f64IsInf_or_finite hb with hb | hb
  · simp [f64Div_inf hb hc, hb]
  · rcases f64IsInf_or_finite hc with hc | hc
    · simp [f64Div_finite_inf hb hc, hb.not_inf]
    · simp only [f64Div_finite hb hc, hb.not_inf, reduceCtorEq, false_and, or_false]

theorem f64Mod_eq_none : f64Mod b c = none ↔ f64IsNaN b = true ∨ f64IsNaN c = true ∨ f64IsInf b = true := by
  refine ⟨fun h => ?_, f64Mod_nan⟩
  by_contra hn
  simp only [not_or, Bool.not_eq_true] at hn
  obtain ⟨hb, hc, hi⟩ := hn
  have hb := f64Finite_of_not hb hi
  rcases f64IsInf_or_finite hc with hc | hc
  · simp [f64Mod_finite_inf hb hc] at h
  · simp [f64Mod_finite hb hc] at h

end

/-! ## No other result is a NaN (R252) -/

theorem f64Round_le (n d : Nat) : f64Round n d ≤ f64InfBits := Nat.min_le_right _ _

theorem f64IsNaN_pack (neg : Bool) {m : Nat} (h : m ≤ f64InfBits) : f64IsNaN (f64Pack neg m) = false := by
  rw [← Bool.not_eq_true, f64IsNaN_iff, f64Mag_pack neg (Nat.lt_of_le_of_lt h f64InfBits_lt)]
  exact Nat.not_lt.2 h

theorem f64IsNaN_pack_round (neg : Bool) (n d : Nat) : f64IsNaN (f64Pack neg (f64Round n d)) = false :=
  f64IsNaN_pack neg (f64Round_le n d)

section
variable {b c w : Word}

theorem f64Add_not_nan (h : f64Add b c = some w) : f64IsNaN w = false := by
  simp only [f64Add] at h
  split_ifs at h with hn <;> rw [← Option.some.inj h]
  · simp only [Bool.or_eq_true, not_or, Bool.not_eq_true] at hn
    exact hn.1
  · simp only [Bool.or_eq_true, not_or, Bool.not_eq_true] at hn
    exact hn.2
  · exact f64IsNaN_pack _ (Nat.zero_le _)
  · exact f64IsNaN_pack_round _ _ _

theorem f64Mul_not_nan (h : f64Mul b c = some w) : f64IsNaN w = false := by
  simp only [f64Mul] at h
  split_ifs at h <;> rw [← Option.some.inj h]
  · exact f64IsNaN_pack _ (Nat.le_refl _)
  · exact f64IsNaN_pack_round _ _ _

theorem f64Div_not_nan (h : f64Div b c = some w) : f64IsNaN w = false := by
  simp only [f64Div] at h
  split_ifs at h <;> rw [← Option.some.inj h]
  · exact f64IsNaN_pack _ (Nat.le_refl _)
  · exact f64IsNaN_pack _ (Nat.zero_le _)
  · exact f64IsNaN_pack_round _ _ _

theorem f64Mod_not_nan (h : f64Mod b c = some w) : f64IsNaN w = false := by
  simp only [f64Mod] at h
  split_ifs at h with hn <;> rw [← Option.some.inj h]
  · simp only [Bool.or_eq_true, not_or, Bool.not_eq_true] at hn
    exact hn.1
  · exact f64IsNaN_pack_round _ _ _

end

/-! ## NaN draws (R252) -/

/-- The exponent of the NaN of a draw is all ones. -/
theorem f64Exp_nanOf (draw : Word) : f64Exp (nanOf draw) = 2047 := by
  rw [f64Exp, nanOf, BitVec.extractLsb'_append_eq_of_le (Nat.le_refl 52), Nat.sub_self, BitVec.extractLsb'_append_eq_right]
  rfl

/-- Its fraction is the draw's, and 1 where that is 0. -/
theorem f64Frac_nanOf (draw : Word) : f64Frac (nanOf draw) = if f64Frac draw = 0 then 1 else f64Frac draw := by
  rw [f64Frac, nanOf, BitVec.extractLsb'_append_eq_right, f64Frac, apply_ite BitVec.toNat]
  exact if_congr BitVec.toNat_inj.symm rfl rfl

/-- Its sign is the draw's. -/
theorem f64Sign_nanOf (draw : Word) : f64Sign (nanOf draw) = f64Sign draw := by
  rw [f64Sign, nanOf, BitVec.getLsbD_append, BitVec.getLsbD_append, BitVec.getLsbD_extractLsb']
  simp [f64Sign]

theorem f64IsNaN_nanOf (draw : Word) : f64IsNaN (nanOf draw) = true := by
  rw [f64IsNaN, f64Exp_nanOf, f64Frac_nanOf]
  by_cases h : f64Frac draw = 0 <;> simp [h]

/-- A NaN is its own NaN of a draw. -/
theorem nanOf_of_isNaN {w : Word} (h : f64IsNaN w = true) : nanOf w = w := by
  rw [f64IsNaN, Bool.and_eq_true, beq_iff_eq, bne_iff_ne] at h
  obtain ⟨hexp, hfrac⟩ := h
  refine f64_ext (f64Sign_nanOf w) ?_
  rw [f64Mag_eq, f64Mag_eq w, f64Exp_nanOf, f64Frac_nanOf, if_neg hfrac, hexp]

/-- Settles O49. -/
theorem naNResults : Obligations.NaNResults := by
  refine ⟨fun _ _ => f64Add_eq_none, fun _ _ => f64Sub_eq_none, fun _ _ => f64Mul_eq_none, fun _ _ _ => f64Div_eq_none,
    fun _ _ _ => f64Mod_eq_none, ?_, f64IsNaN_nanOf, fun w h => ⟨w, nanOf_of_isNaN h⟩⟩
  simp only [List.forall_mem_cons]
  exact ⟨fun _ _ _ => f64Add_not_nan, fun _ _ _ => f64Add_not_nan, fun _ _ _ => f64Mul_not_nan,
    fun _ _ _ => f64Div_not_nan, fun _ _ _ => f64Mod_not_nan, by simp⟩

end Sys2Proof.Machine
end

section
/-!
PROOFS. Rounding to nearest, ties to even (O50): a magnitude's bits and its units are in the same order, and a rounding with
`k` dropped bits is the nearest of the multiples of `2 ^ k`, beside which no other binary64 is as near.
-/

namespace Sys2Proof.Machine

/-! ## The units of a magnitude (R251) -/

/-- The units of 2^-1074 of a finite magnitude, from its exponent and fraction bits. -/
def magUnits (m : Nat) : Nat :=
  if m / 2 ^ 52 = 0 then m % 2 ^ 52 else (2 ^ 52 + m % 2 ^ 52) * 2 ^ (m / 2 ^ 52 - 1)

theorem f64Units_eq (w : Word) : f64Units w = magUnits (f64Mag w) := by
  rw [f64Units, f64Exp_eq, f64Frac_eq]
  rfl

theorem f64Units_pack (neg : Bool) {m : Nat} (h : m < 2 ^ 63) : f64Units (f64Pack neg m) = magUnits m := by
  rw [f64Units_eq, f64Mag_pack neg h]

/-- A significand `f` of 53 bits stands for `f * 2 ^ k` units at bits `k * 2 ^ 52 + f`; also `2 ^ 53`, to which a rounding
may carry, and with `k = 0` a subnormal. -/
theorem magUnits_significand {k f : Nat} (hf : f ≤ 2 ^ 53) (hk : k = 0 ∨ 2 ^ 52 ≤ f) :
    magUnits (k * 2 ^ 52 + f) = f * 2 ^ k := by
  unfold magUnits
  rcases Nat.lt_or_ge f (2 ^ 52) with h | h
  · have hk : k = 0 := by omega
    rw [hk, if_pos (by omega), pow_zero]
    omega
  · rcases Nat.lt_or_eq_of_le hf with h' | rfl
    · have hdiv : (k * 2 ^ 52 + f) / 2 ^ 52 = k + 1 := by omega
      have hmod : 2 ^ 52 + (k * 2 ^ 52 + f) % 2 ^ 52 = f := by omega
      rw [hdiv, hmod, if_neg (Nat.succ_ne_zero k), Nat.add_sub_cancel]
    · have hdiv : (k * 2 ^ 52 + 2 ^ 53) / 2 ^ 52 = k + 1 + 1 := by omega
      have hmod : (k * 2 ^ 52 + 2 ^ 53) % 2 ^ 52 = 0 := by omega
      rw [hdiv, hmod, if_neg (Nat.succ_ne_zero _), Nat.add_sub_cancel, pow_succ]
      omega

/-- Every magnitude has a significand below 2 ^ 53, normalized or with no dropped bit. -/
theorem exists_significand (m : Nat) : ∃ k f, m = k * 2 ^ 52 + f ∧ f < 2 ^ 53 ∧ (k = 0 ∨ 2 ^ 52 ≤ f) :=
  ⟨m / 2 ^ 52 - 1, m - (m / 2 ^ 52 - 1) * 2 ^ 52, by omega⟩

theorem magUnits_strictMono : StrictMono magUnits := by
  refine strictMono_nat_of_lt_succ fun m => ?_
  obtain ⟨k, f, rfl, hf, hk⟩ := exists_significand m
  rw [Nat.add_assoc, magUnits_significand hf.le hk, magUnits_significand hf (by omega)]
  exact Nat.mul_lt_mul_of_pos_right (Nat.lt_succ_self f) (Nat.two_pow_pos k)

/-- A magnitude is a whole number of `2 ^ k` units, or lies below all that drop `k` bits. -/
theorem magUnits_multiple_or_lt (m k : Nat) :
    (∃ f, magUnits m = f * 2 ^ k) ∨ (k ≠ 0 ∧ magUnits m < 2 ^ 52 * 2 ^ k) := by
  obtain ⟨j, f, rfl, hf, hj⟩ := exists_significand m
  rcases Nat.lt_or_ge j k with h | h
  · refine .inr ⟨by omega, ?_⟩
    rw [← magUnits_significand (k := k) (by decide : 2 ^ 52 ≤ 2 ^ 53) (.inr (Nat.le_refl _))]
    exact magUnits_strictMono (by omega)
  · refine .inl ⟨f * 2 ^ (j - k), ?_⟩
    rw [magUnits_significand hf.le hj, Nat.mul_assoc, ← pow_add, Nat.sub_add_cancel h]

/-! ## Rounding to a whole number -/

/-- `r` is a nearest whole number to `n / d`, and even where `n / d` is halfway between two. -/
structure NearestEven (n d r : Nat) : Prop where
  le_add : 2 * n ≤ 2 * (d * r) + d
  sub_le : 2 * (d * r) ≤ 2 * n + d
  even : 2 * n = 2 * (d * r) + d ∨ 2 * (d * r) = 2 * n + d → r % 2 = 0

theorem nearestEven_roundHalfEven (n : Nat) {d : Nat} (hd : 0 < d) : NearestEven n d (roundHalfEven n d) := by
  have hdiv := Nat.div_add_mod n d
  have hmod := Nat.mod_lt n hd
  unfold roundHalfEven
  split
  · constructor <;> rw [Nat.mul_succ] <;> omega
  · constructor <;> omega

section
variable {n d r : Nat}

/-- No whole number is nearer, and where another is as near, `r` is even. -/
theorem NearestEven.dist_le (h : NearestEven n d r) (hd : 0 < d) (m : Nat) :
    ((n : Int) - (d * r : Nat)).natAbs ≤ ((n : Int) - (d * m : Nat)).natAbs ∧
      (((n : Int) - (d * r : Nat)).natAbs = ((n : Int) - (d * m : Nat)).natAbs → m ≠ r → r % 2 = 0) := by
  obtain ⟨hle, hsub, heven⟩ := h
  rcases Nat.lt_trichotomy m r with hm | rfl | hm
  · have := Nat.mul_le_mul_left d hm
    rw [Nat.mul_succ] at this
    omega
  · exact ⟨Nat.le_refl _, fun _ hm => absurd rfl hm⟩
  · have := Nat.mul_le_mul_left d hm
    rw [Nat.mul_succ] at this
    omega

theorem NearestEven.le_of_mul_le {m : Nat} (h : NearestEven n d r) (hd : 0 < d) (hm : d * m ≤ n) : m ≤ r := by
  by_contra hlt
  have hmul := Nat.mul_le_mul_left d (Nat.not_le.1 hlt)
  rw [Nat.mul_succ] at hmul
  have := h.le_add
  omega

theorem NearestEven.le_of_le_mul {m : Nat} (h : NearestEven n d r) (hd : 0 < d) (hm : n ≤ d * m) : r ≤ m := by
  by_contra hlt
  have hmul := Nat.mul_le_mul_left d (Nat.not_le.1 hlt)
  rw [Nat.mul_succ] at hmul
  have := h.sub_le
  omega

/-- A tie goes to an even number. -/
theorem NearestEven.le_iff_of_even {m : Nat} (h : NearestEven n d r) (hd : 0 < d) (he : m % 2 = 0) :
    m ≤ r ↔ 2 * (d * m) ≤ 2 * n + d := by
  obtain ⟨hle, hsub, heven⟩ := h
  refine ⟨fun hm => ?_, fun hm => ?_⟩
  · have := Nat.mul_le_mul_left d hm
    omega
  · by_contra hlt
    have hmul := Nat.mul_le_mul_left d (Nat.not_le.1 hlt)
    rw [Nat.mul_succ] at hmul
    have htie : d * m = d * (r + 1) := by rw [Nat.mul_succ]; omega
    have hsucc : m = r + 1 := Nat.eq_of_mul_eq_mul_left hd htie
    omega

end

/-! ## The significand of a rounding (R251) -/

/-- The rounding of `n / d` units drops `k` bits and has the significand `f`. -/
structure RoundsTo (n d k f : Nat) : Prop where
  bits : f64Round n d = min (k * 2 ^ 52 + f) f64InfBits
  significand_le : f ≤ 2 ^ 53
  normal : k = 0 ∨ 2 ^ 52 ≤ f
  le_units : k = 0 ∨ d * 2 ^ k * 2 ^ 52 ≤ n
  units_lt : n < d * 2 ^ k * 2 ^ 53
  nearest : NearestEven n (d * 2 ^ k) f

/-- With the bits that `f64Shift` drops, 53 significant ones are left. -/
theorem lt_f64Shift (q : Nat) : q < 2 ^ f64Shift q * 2 ^ 53 := by
  have hlog : q < 2 ^ (Nat.log2 q + 1) := Nat.lt_log2_self
  refine Nat.lt_of_lt_of_le hlog ?_
  rw [← pow_add]
  exact Nat.pow_le_pow_right (by decide) (by unfold f64Shift; omega)

theorem f64Shift_le (q : Nat) : f64Shift q = 0 ∨ 2 ^ f64Shift q * 2 ^ 52 ≤ q := by
  rw [or_iff_not_imp_left, f64Shift]
  intro h
  have hq : q ≠ 0 := by
    rintro rfl
    exact h (by decide)
  rw [← pow_add, Nat.sub_add_cancel (by omega)]
  exact Nat.log2_self_le hq

theorem f64Round_roundsTo (n : Nat) {d : Nat} (hd : 0 < d) : ∃ k f, RoundsTo n d k f := by
  have hpos : 0 < d * 2 ^ f64Shift (n / d) := Nat.mul_pos hd (Nat.two_pow_pos _)
  have hnear := nearestEven_roundHalfEven n hpos
  have hlt : n < d * 2 ^ f64Shift (n / d) * 2 ^ 53 := by
    rw [Nat.mul_assoc, Nat.mul_comm d]
    exact (Nat.div_lt_iff_lt_mul hd).1 (lt_f64Shift _)
  have hle : f64Shift (n / d) = 0 ∨ d * 2 ^ f64Shift (n / d) * 2 ^ 52 ≤ n := by
    refine (f64Shift_le (n / d)).imp_right fun h => ?_
    rw [Nat.mul_assoc, Nat.mul_comm d]
    exact (Nat.le_div_iff_mul_le hd).1 h
  exact ⟨_, _, rfl, hnear.le_of_le_mul hpos hlt.le, hle.imp_right (hnear.le_of_mul_le hpos), hle, hlt, hnear⟩

/-! ## Overflow (log 12) -/

section
variable {n d k f : Nat}

/-- A rounding reaches the magnitude of `2 ^ (e + 54)` units from half a unit of the last place below it on. -/
theorem RoundsTo.overflow_iff (h : RoundsTo n d k f) (hd : 0 < d) (e : Nat) :
    (e + 1) * 2 ^ 52 + 2 ^ 53 ≤ k * 2 ^ 52 + f ↔ d * ((2 ^ 54 - 1) * 2 ^ e) ≤ n := by
  obtain ⟨-, hf, hnormal, hle, hlt, hnear⟩ := h
  have hpos : 0 < d * 2 ^ e := Nat.mul_pos hd (Nat.two_pow_pos e)
  rw [Nat.mul_comm (2 ^ 54 - 1), ← Nat.mul_assoc]
  rcases Nat.lt_trichotomy k (e + 1) with hk | rfl | hk
  · have hpow : d * 2 ^ k ≤ d * 2 ^ e := Nat.mul_le_mul_left d (Nat.pow_le_pow_right (by decide) (Nat.le_of_lt_succ hk))
    omega
  · have hpow : d * 2 ^ (e + 1) = 2 * (d * 2 ^ e) := by rw [pow_succ, ← Nat.mul_assoc, Nat.mul_comm]
    rw [Nat.add_le_add_iff_left, hnear.le_iff_of_even (by omega) (by decide), hpow]
    omega
  · have hpow : d * 2 ^ (e + 2) ≤ d * 2 ^ k := Nat.mul_le_mul_left d (Nat.pow_le_pow_right (by decide) hk)
    have hpow' : d * 2 ^ (e + 2) = 4 * (d * 2 ^ e) := by rw [pow_add, ← Nat.mul_assoc, Nat.mul_comm]; rfl
    omega

theorem f64InfBits_eq : f64InfBits = (2044 + 1) * 2 ^ 52 + 2 ^ 53 := by decide

theorem f64Round_eq_inf_iff (n : Nat) (hd : 0 < d) : f64Round n d = f64InfBits ↔ d * ((2 ^ 54 - 1) * 2 ^ 2044) ≤ n := by
  obtain ⟨k, f, h⟩ := f64Round_roundsTo n hd
  rw [h.bits, min_eq_right_iff, ← h.overflow_iff hd 2044, ← f64InfBits_eq]

/-! ## The nearest binary64 (R251) -/

/-- A rounding that does not overflow is at least as near as any other finite magnitude, and even where another is as
near. -/
theorem RoundsTo.nearest_mag (h : RoundsTo n d k f) (hd : 0 < d) (r : Nat) :
    ((n : Int) - (d * magUnits (k * 2 ^ 52 + f) : Nat)).natAbs ≤ ((n : Int) - (d * magUnits r : Nat)).natAbs ∧
      (((n : Int) - (d * magUnits (k * 2 ^ 52 + f) : Nat)).natAbs = ((n : Int) - (d * magUnits r : Nat)).natAbs →
        r ≠ k * 2 ^ 52 + f → (k * 2 ^ 52 + f) % 2 = 0) := by
  have hpos : 0 < d * 2 ^ k := Nat.mul_pos hd (Nat.two_pow_pos k)
  have hunits : magUnits (k * 2 ^ 52 + f) = f * 2 ^ k := magUnits_significand h.significand_le h.normal
  have hscale (m : Nat) : d * (m * 2 ^ k) = d * 2 ^ k * m := by rw [Nat.mul_comm m, Nat.mul_assoc]
  rcases magUnits_multiple_or_lt r k with ⟨m, hm⟩ | ⟨hk, hlt⟩
  · -- both are multiples of `2 ^ k`
    have hne (hr : r ≠ k * 2 ^ 52 + f) : m ≠ f := by
      rintro rfl
      exact hr (magUnits_strictMono.injective (hm.trans hunits.symm))
    rw [hunits, hm, hscale, hscale]
    obtain ⟨hdist, heven⟩ := h.nearest.dist_le hpos m
    refine ⟨hdist, fun heq hr => ?_⟩
    have := heven heq (hne hr)
    omega
  · -- the other lies below `2 ^ 52 * 2 ^ k`, which does not exceed `n / d`
    have hle := h.le_units.resolve_left hk
    have hbelow : d * magUnits r < d * 2 ^ k * 2 ^ 52 := by
      rw [← hscale]
      exact Nat.mul_lt_mul_of_pos_left hlt hd
    obtain ⟨hdist, -⟩ := h.nearest.dist_le hpos (2 ^ 52)
    rw [hunits, hscale]
    omega

end

/-- Settles O50. -/
theorem roundsToNearestEven : Obligations.RoundsToNearestEven := by
  intro n d hd
  refine ⟨f64Round_eq_inf_iff n hd, fun hinf => ?_⟩
  have hlt : f64Round n d < f64InfBits := Nat.lt_of_le_of_ne (f64Round_le n d) hinf
  obtain ⟨k, f, h⟩ := f64Round_roundsTo n hd
  have hbits : f64Round n d = k * 2 ^ 52 + f := by
    have := h.bits
    omega
  refine ⟨hlt, fun r hr => ?_⟩
  rw [f64Units_pack false (hlt.trans f64InfBits_lt), f64Units_pack false (hr.trans f64InfBits_lt), hbits]
  exact h.nearest_mag hd r

end Sys2Proof.Machine
end

section
/-!
PROOFS. Float results from the exact ones (O51): what a rounding keeps exactly, the signs, and the results of zeros and
infinities.
-/

namespace Sys2Proof.Machine

/-! ## Exact roundings (R251) -/

theorem magUnits_zero : magUnits 0 = 0 := rfl

/-- A finite magnitude is its own rounding. -/
theorem f64Round_exact {d m : Nat} (hd : 0 < d) (hm : m < f64InfBits) : f64Round (d * magUnits m) d = m := by
  obtain ⟨k, f, h⟩ := f64Round_roundsTo (d * magUnits m) hd
  obtain ⟨hdist, -⟩ := h.nearest_mag hd m
  have hmul : d * magUnits m = d * magUnits (k * 2 ^ 52 + f) := by omega
  have hbits : m = k * 2 ^ 52 + f := magUnits_strictMono.injective (Nat.eq_of_mul_eq_mul_left hd hmul)
  rw [h.bits, ← hbits, Nat.min_eq_left hm.le]

theorem f64Round_zero {d : Nat} (hd : 0 < d) : f64Round 0 d = 0 := by
  have h := f64Round_exact hd (by decide : 0 < f64InfBits)
  rwa [magUnits_zero, Nat.mul_zero] at h

/-- A number of units with at most 53 significant bits is a magnitude's. -/
theorem exists_magUnits_eq (k : Nat) {f : Nat} (hf : f < 2 ^ 53) : ∃ m, magUnits m = f * 2 ^ k := by
  induction k generalizing f with
  | zero => exact ⟨_, magUnits_significand hf.le (.inl rfl)⟩
  | succ k ih =>
    rcases Nat.lt_or_ge f (2 ^ 52) with h | h
    · rw [pow_succ', ← Nat.mul_assoc]
      exact ih (by omega)
    · exact ⟨_, magUnits_significand hf.le (.inr h)⟩

/-- The remainder of two magnitudes is a magnitude's: it is a multiple of the lesser of their last places, and has no more
bits than the one with that last place (R263). -/
theorem exists_magUnits_mod (b : Nat) {c : Nat} (hc : magUnits c ≠ 0) : ∃ m, magUnits m = magUnits b % magUnits c := by
  obtain ⟨j, f, rfl, hf, hj⟩ := exists_significand b
  obtain ⟨k, g, rfl, hg, hk⟩ := exists_significand c
  rw [magUnits_significand hf.le hj, magUnits_significand hg.le hk]
  rw [magUnits_significand hg.le hk] at hc
  rcases Nat.le_total k j with h | h
  · have hmod : f * 2 ^ j % (g * 2 ^ k) = f * 2 ^ (j - k) % g * 2 ^ k := by
      rw [← Nat.mul_mod_mul_right, Nat.mul_assoc, ← pow_add, Nat.sub_add_cancel h]
    rw [hmod]
    exact exists_magUnits_eq k ((Nat.mod_lt _ (Nat.pos_of_ne_zero (left_ne_zero_of_mul hc))).trans hg)
  · have hmod : f * 2 ^ j % (g * 2 ^ k) = f % (g * 2 ^ (k - j)) * 2 ^ j := by
      rw [← Nat.mul_mod_mul_right, Nat.mul_assoc, ← pow_add, Nat.sub_add_cancel h]
    rw [hmod]
    exact exists_magUnits_eq j ((Nat.mod_le _ _).trans_lt hf)

/-! ## Signed values -/

theorem f64Int_pack (neg : Bool) {m : Nat} (h : m < 2 ^ 63) :
    f64Int (f64Pack neg m) = if neg then -(magUnits m : Int) else (magUnits m : Int) := by
  rw [f64Int, f64Sign_pack neg h, f64Units_pack neg h]

@[simp] theorem f64Int_pack_zero (neg : Bool) : f64Int (f64Pack neg 0) = 0 := by
  rw [f64Int_pack neg (by decide)]
  cases neg <;> rfl

@[simp] theorem natAbs_f64Int (w : Word) : (f64Int w).natAbs = f64Units w := by
  rw [f64Int]
  split <;> simp

@[simp] theorem f64Int_neg (w : Word) : f64Int (f64Neg w) = -f64Int w := by
  rw [f64Int, f64Int, f64Sign_neg, f64Units_eq, f64Mag_neg, ← f64Units_eq]
  cases f64Sign w <;> simp

theorem f64Units_eq_zero {w : Word} : f64Units w = 0 ↔ f64IsZero w = true := by
  rw [f64IsZero_iff, f64Units_eq]
  exact magUnits_strictMono.injective.eq_iff (b := 0)

theorem f64Units_pos {w : Word} (h : f64IsZero w = false) : 0 < f64Units w :=
  Nat.pos_of_ne_zero fun h0 => by rw [f64Units_eq_zero.1 h0] at h; cases h

theorem f64Int_eq_zero {w : Word} : f64Int w = 0 ↔ f64IsZero w = true := by
  rw [← Int.natAbs_eq_zero, natAbs_f64Int, f64Units_eq_zero]

/-- The sign of a value that is not zero. -/
theorem decide_f64Int_neg {w : Word} (h : f64Int w ≠ 0) : decide (f64Int w < 0) = f64Sign w := by
  rw [f64Int] at h ⊢
  cases hs : f64Sign w with
  | false =>
    rw [if_neg Bool.false_ne_true]
    exact decide_eq_false (by omega)
  | true =>
    rw [hs, if_pos rfl] at h
    rw [if_pos rfl]
    exact decide_eq_true (by omega)

/-- The sign of a product that is not zero. -/
theorem decide_f64Int_mul_neg {b c : Word} (h : f64Int b * f64Int c ≠ 0) :
    decide (f64Int b * f64Int c < 0) = (f64Sign b != f64Sign c) := by
  have hb := left_ne_zero_of_mul h
  have hc := right_ne_zero_of_mul h
  rw [← decide_f64Int_neg hb, ← decide_f64Int_neg hc, Bool.eq_iff_iff, decide_eq_true_eq, mul_neg_iff, bne_iff_ne, ne_eq,
    decide_eq_decide]
  omega

/-- A rounding of exactly the units of a finite word, with its sign, has its value. -/
theorem f64Int_pack_round {w : Word} {n d : Nat} {neg : Bool} (hw : f64Finite w) (hd : 0 < d) (hn : n = d * f64Units w)
    (hs : f64Int w ≠ 0 → neg = f64Sign w) : f64Int (f64Pack neg (f64Round n d)) = f64Int w := by
  rw [hn, f64Units_eq, f64Round_exact hd (f64Finite_iff.1 hw)]
  by_cases h0 : f64Int w = 0
  · rw [f64IsZero_iff.1 (f64Int_eq_zero.1 h0), f64Int_pack_zero, h0]
  · rw [hs h0, f64Pack_sign_mag]

/-! ## The remainder (R263) -/

section
variable {b c w : Word}

/-- The remainder of finite words has the magnitude of the remainder of their units, and the dividend's sign. -/
theorem f64Mod_exact (hb : f64Finite b) (hc : f64Finite c) (h0 : f64IsZero c = false) :
    ∃ m, m < f64InfBits ∧ magUnits m = f64Units b % f64Units c ∧ f64Mod b c = some (f64Pack (f64Sign b) m) := by
  obtain ⟨m, hm⟩ := exists_magUnits_mod (f64Mag b) (c := f64Mag c) (by rw [← f64Units_eq]; exact (f64Units_pos h0).ne')
  rw [← f64Units_eq, ← f64Units_eq] at hm
  have hle : m ≤ f64Mag b := by
    rw [← magUnits_strictMono.le_iff_le, hm, ← f64Units_eq]
    exact Nat.mod_le _ _
  have hlt : m < f64InfBits := hle.trans_lt (f64Finite_iff.1 hb)
  refine ⟨m, hlt, hm, ?_⟩
  rw [f64Mod_finite hb hc, ← hm, ← Nat.one_mul (magUnits m), f64Round_exact Nat.one_pos hlt]

theorem f64Int_tmod (b c : Word) : (f64Int b).tmod (f64Int c) =
    if f64Sign b then -((f64Units b % f64Units c : Nat) : Int) else ((f64Units b % f64Units c : Nat) : Int) := by
  rw [f64Int, f64Int]
  cases f64Sign b <;> cases f64Sign c <;> simp [Int.neg_tmod, Int.tmod_neg, ← Int.ofNat_tmod]

theorem f64Mod_value (hb : f64Finite b) (hc : f64Finite c) (h0 : f64IsZero c = false) :
    ∃ w, f64Mod b c = some w ∧ f64Int w = (f64Int b).tmod (f64Int c) ∧ f64Sign w = f64Sign b := by
  obtain ⟨m, hlt, hm, hmod⟩ := f64Mod_exact hb hc h0
  have hlt := hlt.trans f64InfBits_lt
  exact ⟨_, hmod, by rw [f64Int_pack _ hlt, f64Int_tmod, hm], f64Sign_pack _ hlt⟩

/-! ## Sums and differences of finite values (R259, R260) -/

theorem f64Add_rounded (hb : f64Finite b) (hc : f64Finite c) (h : f64Int b + f64Int c ≠ 0) :
    f64Add b c = some (f64Pack (decide (f64Int b + f64Int c < 0)) (f64Round (f64Int b + f64Int c).natAbs 1)) := by
  rw [f64Add_finite hb hc, if_neg h]

theorem f64Add_zero (hb : f64Finite b) (hc : f64Finite c) (h : f64Int b + f64Int c = 0) :
    f64Add b c = some (f64Pack (f64Sign b && f64Sign c) 0) := by
  rw [f64Add_finite hb hc, if_pos h]

/-- A sum that is a binary64 is that value. -/
theorem f64Add_value (hb : f64Finite b) (hc : f64Finite c) (hw : f64Finite w) (h : f64Int w = f64Int b + f64Int c) :
    ∃ v, f64Add b c = some v ∧ f64Int v = f64Int w := by
  by_cases h0 : f64Int b + f64Int c = 0
  · exact ⟨_, f64Add_zero hb hc h0, by rw [f64Int_pack_zero, h, h0]⟩
  · refine ⟨_, f64Add_rounded hb hc h0, ?_⟩
    rw [← h, natAbs_f64Int]
    exact f64Int_pack_round hw Nat.one_pos (Nat.one_mul _).symm decide_f64Int_neg

theorem f64Sub_rounded (hb : f64Finite b) (hc : f64Finite c) (h : f64Int b - f64Int c ≠ 0) :
    f64Sub b c = some (f64Pack (decide (f64Int b - f64Int c < 0)) (f64Round (f64Int b - f64Int c).natAbs 1)) := by
  rw [Int.sub_eq_add_neg, ← f64Int_neg] at h ⊢
  exact f64Add_rounded hb (f64Finite_neg.2 hc) h

theorem f64Sub_zero (hb : f64Finite b) (hc : f64Finite c) (h : f64Int b - f64Int c = 0) :
    f64Sub b c = some (f64Pack (f64Sign b && !f64Sign c) 0) := by
  rw [Int.sub_eq_add_neg, ← f64Int_neg] at h
  rw [f64Sub, f64Add_zero hb (f64Finite_neg.2 hc) h, f64Sign_neg]

/-- A difference that is a binary64 is that value. -/
theorem f64Sub_value (hb : f64Finite b) (hc : f64Finite c) (hw : f64Finite w) (h : f64Int w = f64Int b - f64Int c) :
    ∃ v, f64Sub b c = some v ∧ f64Int v = f64Int w := by
  rw [Int.sub_eq_add_neg, ← f64Int_neg] at h
  exact f64Add_value hb (f64Finite_neg.2 hc) hw h

/-- x - x is +0 (R260). -/
theorem f64Sub_self (hb : f64Finite b) : f64Sub b b = some 0 := by
  rw [f64Sub_zero hb hb (Int.sub_self _), Bool.and_not_self]
  rfl

/-! ## Products and quotients of finite values (R261, R262) -/

/-- A power of two changes no sign. -/
theorem decide_mul_two_pow_neg (x : Int) (n : Nat) : decide (x * 2 ^ n < 0) = decide (x < 0) := by
  have hpow : (0 : Int) < 2 ^ n := pow_pos (by decide) n
  rw [decide_eq_decide, Int.mul_neg_iff]
  omega

theorem natAbs_two_pow (n : Nat) : ((2 : Int) ^ n).natAbs = 2 ^ n := Int.natAbs_pow 2 n

theorem f64Mul_rounded (hb : f64Finite b) (hc : f64Finite c) (h : f64Int b * f64Int c ≠ 0) :
    f64Mul b c = some (f64Pack (decide (f64Int b * f64Int c < 0)) (f64Round (f64Int b * f64Int c).natAbs (2 ^ 1074))) := by
  rw [f64Mul_finite hb hc, decide_f64Int_mul_neg h, Int.natAbs_mul, natAbs_f64Int, natAbs_f64Int]

/-- A zero product has the exclusive or of the signs. -/
theorem f64Mul_zero (hb : f64Finite b) (hc : f64Finite c) (h : f64IsZero b = true ∨ f64IsZero c = true) :
    f64Mul b c = some (f64Pack (f64Sign b != f64Sign c) 0) := by
  have hmul : f64Units b * f64Units c = 0 := by
    rwa [Nat.mul_eq_zero, f64Units_eq_zero, f64Units_eq_zero]
  rw [f64Mul_finite hb hc, hmul, f64Round_zero (pow_pos Nat.two_pos 1074)]

/-- A product that is a binary64 is that value. -/
theorem f64Mul_value (hb : f64Finite b) (hc : f64Finite c) (hw : f64Finite w)
    (h : f64Int w * 2 ^ 1074 = f64Int b * f64Int c) : ∃ v, f64Mul b c = some v ∧ f64Int v = f64Int w := by
  have habs : f64Units b * f64Units c = 2 ^ 1074 * f64Units w := by
    rw [← natAbs_f64Int, ← natAbs_f64Int c, ← Int.natAbs_mul, ← h, Int.natAbs_mul, natAbs_f64Int, natAbs_two_pow,
      Nat.mul_comm]
  refine ⟨_, f64Mul_finite hb hc, f64Int_pack_round hw (pow_pos Nat.two_pos 1074) habs fun h0 => ?_⟩
  have hne : f64Int b * f64Int c ≠ 0 := by
    rw [← h]
    exact mul_ne_zero h0 (pow_ne_zero 1074 two_ne_zero)
  rw [← decide_f64Int_mul_neg hne, ← decide_f64Int_neg h0, ← h, decide_mul_two_pow_neg _ 1074]

theorem f64Div_rounded (hb : f64Finite b) (hc : f64Finite c) : f64Div b c = some (f64Pack (f64Sign b != f64Sign c)
    (f64Round ((f64Int b).natAbs * 2 ^ 1074) (f64Int c).natAbs)) := by
  rw [f64Div_finite hb hc, natAbs_f64Int, natAbs_f64Int]

/-- A quotient that is a binary64 is that value. -/
theorem f64Div_value (hb : f64Finite b) (hc : f64Finite c) (hw : f64Finite w) (hz : f64IsZero c = false)
    (h : f64Int w * f64Int c = f64Int b * 2 ^ 1074) : ∃ v, f64Div b c = some v ∧ f64Int v = f64Int w := by
  have hc0 : f64Int c ≠ 0 := by rw [ne_eq, f64Int_eq_zero, hz]; exact Bool.false_ne_true
  have habs : f64Units b * 2 ^ 1074 = f64Units c * f64Units w := by
    rw [Nat.mul_comm (f64Units c), ← natAbs_f64Int c, ← natAbs_f64Int w, ← Int.natAbs_mul, h, Int.natAbs_mul,
      natAbs_f64Int, natAbs_two_pow]
  refine ⟨_, f64Div_finite hb hc, f64Int_pack_round hw (f64Units_pos hz) habs fun h0 => ?_⟩
  have hne : f64Int w * f64Int c ≠ 0 := mul_ne_zero h0 hc0
  have hb0 : f64Int b ≠ 0 := left_ne_zero_of_mul (h ▸ hne)
  have hsign : f64Sign b = (f64Sign w != f64Sign c) := by
    rw [← decide_f64Int_mul_neg hne, ← decide_f64Int_neg hb0, h, decide_mul_two_pow_neg _ 1074]
  rw [hsign, Bool.bne_assoc, bne_self_eq_false, Bool.bne_false]

/-- A zero quotient, of a zero or by an infinity, has the exclusive or of the signs. -/
theorem f64Div_zero (hb : f64Finite b) (hn : f64IsNaN c = false) (hz : f64IsZero c = false)
    (h : f64IsZero b = true ∨ f64IsInf c = true) : f64Div b c = some (f64Pack (f64Sign b != f64Sign c) 0) := by
  rcases f64IsInf_or_finite hn with hc | hc
  · exact f64Div_finite_inf hb hc
  · have hb0 : f64Units b = 0 := f64Units_eq_zero.2 (h.resolve_right (by rw [hc.not_inf]; exact Bool.false_ne_true))
    rw [f64Div_finite hb hc, hb0, Nat.zero_mul, f64Round_zero (f64Units_pos hz)]

/-! ## Results with infinities (log 12) -/

/-- Two infinities of one sign are the same word. -/
theorem f64IsInf_unique (hb : f64IsInf b = true) (hc : f64IsInf c = true) (hs : f64Sign b = f64Sign c) : b = c :=
  f64_ext hs ((f64IsInf_iff.1 hb).trans (f64IsInf_iff.1 hc).symm)

theorem f64Add_inf_left (hb : f64IsInf b = true) (hc : f64IsNaN c = false) (h : f64Finite c ∨ f64Sign b = f64Sign c) :
    f64Add b c = some b := by
  rw [f64Add_inf hb hc, if_neg]
  rintro ⟨hi, hs⟩
  exact h.elim (f64IsInf_not_finite hi) hs

theorem f64Add_inf_right (hb : f64IsInf b = true) (hc : f64IsNaN c = false) (h : f64Finite c ∨ f64Sign b = f64Sign c) :
    f64Add c b = some b := by
  rcases f64IsInf_or_finite hc with hi | hf
  · have hs := h.resolve_left (f64IsInf_not_finite hi)
    rw [f64Add_inf_left hi (f64IsInf_not_nan hb) (.inr hs.symm), f64IsInf_unique hb hi hs]
  · exact f64Add_finite_inf hf hb

theorem f64Sub_inf_left (hb : f64IsInf b = true) (hc : f64IsNaN c = false) (h : f64Finite c ∨ f64Sign b ≠ f64Sign c) :
    f64Sub b c = some b :=
  f64Add_inf_left hb (by rwa [f64IsNaN_neg]) (by rwa [f64Finite_neg, f64Sign_neg, Bool.eq_not])

theorem f64Sub_inf_right (hb : f64IsInf b = true) (hc : f64Finite c) : f64Sub c b = some (f64Neg b) :=
  f64Add_finite_inf hc (by rwa [f64IsInf_neg])

end

/-- The word of a sign that is an exclusive or. -/
theorem f64Pack_bne (b c : Bool) (m : Nat) : f64Pack (b != c) m = if b = c then f64Pack false m else f64Pack true m := by
  cases b <;> cases c <;> rfl

theorem f64Pack_and (b c : Bool) (m : Nat) :
    f64Pack (b && c) m = if b = true ∧ c = true then f64Pack true m else f64Pack false m := by
  cases b <;> cases c <;> rfl

theorem f64Pack_false_inf : f64Pack false f64InfBits = 0x7FF0_0000_0000_0000 := by decide

theorem f64Pack_true_inf : f64Pack true f64InfBits = 0xFFF0_0000_0000_0000 := by decide

theorem f64Pack_false_zero : f64Pack false 0 = 0 := rfl

theorem f64Pack_true_zero : f64Pack true 0 = 0x8000_0000_0000_0000 := by decide

/-- Settles O51. -/
theorem exactResults : Obligations.ExactResults := by
  refine ⟨fun b c => f64Mod_value, fun b c => f64Mod_finite_inf, fun b c w => f64Add_value, fun b c w => f64Sub_value,
    fun b c w => f64Mul_value, fun b c w => f64Div_value, fun b => f64Sub_self, fun b c hb hc h => ?_,
    fun b c => f64Add_rounded, fun b c => f64Sub_rounded, fun b c => f64Mul_rounded,
    fun b c hb hc _ _ => f64Div_rounded hb hc, fun b c hb hc h => ?_, fun b c hb hc h => ?_, fun b c hb hn hz h => ?_,
    fun b c hb hc => ⟨fun h => ⟨f64Add_inf_left hb hc h, f64Add_inf_right hb hc h⟩, f64Sub_inf_left hb hc,
      f64Sub_inf_right hb, fun hz => ⟨?_, f64Mul_comm c b⟩, fun hf hz => ?_⟩,
    f64Pack_false_inf, f64Pack_true_inf⟩
  · rw [f64Mul_zero hb hc h, f64Pack_bne, f64Pack_false_zero, f64Pack_true_zero]
  · rw [f64Add_zero hb hc h, f64Pack_and, f64Pack_false_zero, f64Pack_true_zero]
  · simp only [f64Sub_zero hb hc h, f64Pack_and, Bool.not_eq_true', f64Pack_false_zero, f64Pack_true_zero]
  · rw [f64Div_zero hb hn hz h, f64Pack_bne, f64Pack_false_zero, f64Pack_true_zero]
  · rw [f64Mul_inf hb hc, if_neg (by rw [hz]; exact Bool.false_ne_true), f64Pack_bne, f64Pack_false_inf, f64Pack_true_inf]
  · rw [f64Div_inf hb hc, if_neg (by rw [hf.not_inf]; exact Bool.false_ne_true), f64Pack_bne, f64Pack_false_inf,
      f64Pack_true_inf]

end Sys2Proof.Machine
end

section
/-!
PROOFS. The bitwise and shift instructions: the logic operations (O44), the shifts (O45), the rotations (O46).
-/

namespace Sys2Proof.Machine

/-! ## AND, OR, XOR, NAND, NOR, NXOR (R281 to R286) -/

/-- The word operation `f` acts on each of the 64 bits as the Boolean operation `op`. -/
def ActsBitwise (f : Word → Word → Word) (op : Bool → Bool → Bool) : Prop :=
  ∀ (x y : Word) (k : Nat), k < 64 → (f x y).getLsbD k = op (x.getLsbD k) (y.getLsbD k)

theorem and_actsBitwise : ActsBitwise (fun x y => x &&& y) fun p q => p && q := fun _ _ _ _ => BitVec.getLsbD_and

theorem or_actsBitwise : ActsBitwise (fun x y => x ||| y) fun p q => p || q := fun _ _ _ _ => BitVec.getLsbD_or

theorem xor_actsBitwise : ActsBitwise (fun x y => x ^^^ y) fun p q => p != q := fun _ _ _ _ => BitVec.getLsbD_xor

/-- A complement acts as the complement, within the 64 bits. -/
theorem ActsBitwise.complement {f : Word → Word → Word} {op : Bool → Bool → Bool} (h : ActsBitwise f op) :
    ActsBitwise (fun x y => ~~~f x y) fun p q => !op p q := by
  intro x y k hk
  rw [BitVec.getLsbD_not, decide_eq_true hk, Bool.true_and, h x y k hk]

/-- The complement of exclusive or is equivalence (R286). -/
theorem nxor_actsBitwise : ActsBitwise (fun x y => ~~~(x ^^^ y)) fun p q => p == q := fun x y k hk =>
  (xor_actsBitwise.complement x y k hk).trans (Bool.not_not _)

/-- An instruction with a binary handler that acts bit by bit as `op` stores the word with these bits. -/
theorem exec_bitwise {i : Instr} {f : Word → Word → Word} {op : Bool → Bool → Bool} {d : Dest} {a b : Operand} {s : State}
    {x y v : Word} {t u : Tick} (hf : ActsBitwise f op) (hi : handlerOf i = binaryHandler f)
    (hp : i.shape.params = [.write d, .read a, .read b]) (h : Sources2 i.shape.gate a b s x y t)
    (hv : ∀ k, k < 64 → v.getLsbD k = op (x.getLsbD k) (y.getLsbD k)) (hs : storeDest d v none t = .ok ((), u)) :
    exec i s = .next (u.advance (nextIP s.rip i.length)) := by
  have hval : v = f x y := BitVec.eq_of_getLsbD_eq fun k hk => (hv k hk).trans (hf x y k hk).symm
  exact exec_binary hi hp h (hval ▸ hs)

/-- Settles O44: each handler's word operation acts on the bits as the statement's Boolean function. -/
theorem bitwiseLogic : Obligations.BitwiseLogic := by
  unfold Obligations.BitwiseLogic
  simp only [List.forall_mem_cons]
  refine ⟨?_, ?_, ?_, ?_, ?_, ?_, by simp⟩
  all_goals intro g d a b s x y v t u h hv hs
  · exact ⟨exec_bitwise (i := .and g d a b) and_actsBitwise rfl rfl h hv hs, rfl⟩
  · exact ⟨exec_bitwise (i := .or g d a b) or_actsBitwise rfl rfl h hv hs, rfl⟩
  · exact ⟨exec_bitwise (i := .xor g d a b) xor_actsBitwise rfl rfl h hv hs, rfl⟩
  · exact ⟨exec_bitwise (i := .nand g d a b) and_actsBitwise.complement rfl rfl h hv hs, rfl⟩
  · exact ⟨exec_bitwise (i := .nor g d a b) or_actsBitwise.complement rfl rfl h hv hs, rfl⟩
  · exact ⟨exec_bitwise (i := .nxor g d a b) nxor_actsBitwise rfl rfl h hv hs, rfl⟩

/-! ## SR, SL (R280, R288, R289) -/

theorem shiftAmount_mask (c : Word) : shiftAmount .mask c = c.toNat % 64 := rotateCount c

theorem shiftAmount_saturate (c : Word) : shiftAmount .saturate c = c.toNat := rfl

/-- The logical shift right on numbers (R288). -/
theorem shiftRight_eq_ofNat (mode : ShiftCountMode) (x y : Word) :
    shiftRight mode x y = BitVec.ofNat 64
      (if 64 ≤ shiftAmount mode y then 0 else x.toNat / 2 ^ shiftAmount mode y) := by
  simp only [shiftRight]
  split_ifs
  · rfl
  · rw [← Nat.shiftRight_eq_div_pow, ← BitVec.toNat_ushiftRight, BitVec.ofNat_toNat, BitVec.setWidth_eq]

/-- The logical shift left on numbers (R289). -/
theorem shiftLeft_eq_ofNat (mode : ShiftCountMode) (x y : Word) :
    shiftLeft mode x y = BitVec.ofNat 64
      (if 64 ≤ shiftAmount mode y then 0 else x.toNat * 2 ^ shiftAmount mode y % 2 ^ 64) := by
  simp only [shiftLeft]
  split_ifs
  · rfl
  · rw [← Nat.shiftLeft_eq, ← BitVec.toNat_shiftLeft, BitVec.ofNat_toNat, BitVec.setWidth_eq]

/-- A shift stores its function of the sources, in the mode in which the instruction began: reading operands leaves the
parameters. -/
theorem exec_shift {i : Instr} {f : ShiftCountMode → Word → Word → Word} {d : Dest} {a b : Operand} {s : State} {x y : Word}
    {t u : Tick} (hi : handlerOf i = shiftHandler f) (hp : i.shape.params = [.write d, .read a, .read b])
    (h : Sources2 i.shape.gate a b s x y t)
    (hs : storeDest d (f s.params.shiftCountMode x y) none t = .ok ((), u)) :
    exec i s = .next (u.advance (nextIP s.rip i.length)) := by
  have hparams : t.st.params = s.params := h.reads.1.sameFixed.params
  refine exec_stores hp h (fun xs hx hy => ?_) hs
  rw [hi]
  exact shiftHandler_ok.2 ⟨by rw [hx, hy, hparams], rfl⟩

/-- Settles O45: the statement's count is the model's amount in each mode. -/
theorem shifts : Obligations.Shifts := by
  unfold Obligations.Shifts
  simp only [List.forall_mem_cons]
  refine ⟨?_, ?_, by simp⟩
  all_goals
    intro g d a b s x y n t u h hn hs
    have hamount : n = shiftAmount s.params.shiftCountMode y := by
      rw [hn]
      cases s.params.shiftCountMode with
      | mask => exact (shiftAmount_mask y).symm
      | saturate => exact (shiftAmount_saturate y).symm
    subst hamount
  · rw [← shiftRight_eq_ofNat] at hs
    exact ⟨exec_shift (i := .sr g d a b) rfl rfl h hs, rfl⟩
  · rw [← shiftLeft_eq_ofNat] at hs
    exact ⟨exec_shift (i := .sl g d a b) rfl rfl h hs, rfl⟩

/-! ## RR, RL (R280, R290, R291) -/

/-- Bit `k` of a word rotated right is its bit `n` above, around the word (R290). -/
theorem getLsbD_rotateRight_word (x : Word) (n : Nat) {k : Nat} (hk : k < 64) :
    (x.rotateRight n).getLsbD k = x.getLsbD ((k + n % 64) % 64) := by
  have hn : n % 64 < 64 := Nat.mod_lt n (by decide)
  rw [BitVec.getLsbD_rotateRight, decide_eq_true hk, Bool.true_and]
  by_cases hlow : k < 64 - n % 64
  · rw [decide_eq_true hlow, cond_true, show (k + n % 64) % 64 = n % 64 + k by omega]
  · rw [decide_eq_false hlow, cond_false, show (k + n % 64) % 64 = k - (64 - n % 64) by omega]

/-- Bit `k` of a word is the bit `n` above it, around the word, of the word rotated left (R291). -/
theorem getLsbD_rotateLeft_word (x : Word) (n : Nat) {k : Nat} (hk : k < 64) :
    (x.rotateLeft n).getLsbD ((k + n % 64) % 64) = x.getLsbD k := by
  have hn : n % 64 < 64 := Nat.mod_lt n (by decide)
  rw [BitVec.getLsbD_rotateLeft, decide_eq_true (Nat.mod_lt _ (by decide)), Bool.true_and]
  by_cases hlow : (k + n % 64) % 64 < n % 64
  · rw [decide_eq_true hlow, cond_true, show 64 - n % 64 + (k + n % 64) % 64 = k by omega]
  · rw [decide_eq_false hlow, cond_false, show (k + n % 64) % 64 - n % 64 = k by omega]

theorem eq_rotateRight {x y v : Word} (hv : ∀ k, k < 64 → v.getLsbD k = x.getLsbD ((k + y.toNat % 64) % 64)) :
    v = rotateRight x y := by
  rw [rotateRight_eq]
  exact BitVec.eq_of_getLsbD_eq fun k hk => (hv k hk).trans (getLsbD_rotateRight_word x _ hk).symm

/-- The bits that R291 names are all of them: bit `j` is the one `n` above bit `j + 64 - n`, around the word. -/
theorem eq_rotateLeft {x y v : Word} (hv : ∀ k, k < 64 → v.getLsbD ((k + y.toNat % 64) % 64) = x.getLsbD k) :
    v = rotateLeft x y := by
  rw [rotateLeft_eq]
  refine BitVec.eq_of_getLsbD_eq fun j hj => ?_
  obtain ⟨k, hk, rfl⟩ : ∃ k, k < 64 ∧ (k + y.toNat % 64) % 64 = j :=
    ⟨(j + (64 - y.toNat % 64)) % 64, Nat.mod_lt _ (by decide), by omega⟩
  exact (hv k hk).trans (getLsbD_rotateLeft_word x _ hk).symm

/-- Settles O46: the bits determine the rotated word, and the handlers read no mode. -/
theorem rotations : Obligations.Rotations := by
  intro g d a b s x y v t u h hs
  refine ⟨rfl, rfl, fun hv => ?_, fun hv => ?_⟩
  · exact exec_binary (i := .rr g d a b) rfl rfl h (eq_rotateRight hv ▸ hs)
  · exact exec_binary (i := .rl g d a b) rfl rfl h (eq_rotateLeft hv ▸ hs)

end Sys2Proof.Machine
end

section
/-!
PROOFS. The comparison instructions (O47).
-/

namespace Sys2Proof.Machine

/-- MAX is the word with all 64 bits set (R310). -/
theorem boolWord_eq (p : Bool) : boolWord p = if p then 0xFFFF_FFFF_FFFF_FFFF else 0 := rfl

/-! ## The handlers, as relations of unsigned numbers (R311 to R316) -/

section
variable (g : Option Gate) (d : Dest) (a b : Operand)

theorem handlerOf_gt :
    handlerOf (.gt g d a b) = binaryHandler fun x y => boolWord (decide (x.toNat > y.toNat)) := rfl

theorem handlerOf_gte :
    handlerOf (.gte g d a b) = binaryHandler fun x y => boolWord (decide (x.toNat ≥ y.toNat)) := rfl

theorem handlerOf_lt :
    handlerOf (.lt g d a b) = binaryHandler fun x y => boolWord (decide (x.toNat < y.toNat)) := rfl

theorem handlerOf_lte :
    handlerOf (.lte g d a b) = binaryHandler fun x y => boolWord (decide (x.toNat ≤ y.toNat)) := rfl

/-- EQ compares words, which are equal where their numbers are. -/
theorem handlerOf_eq :
    handlerOf (.eq g d a b) = binaryHandler fun x y => boolWord (decide (x.toNat = y.toNat)) := by
  simp only [handlerOf, BitVec.toNat_inj]

/-- NEQ compares words, which differ where their numbers do. -/
theorem handlerOf_neq :
    handlerOf (.neq g d a b) = binaryHandler fun x y => boolWord (decide (x.toNat ≠ y.toNat)) := by
  simp only [handlerOf, ne_eq, BitVec.toNat_inj]

end

/-- Settles O47: each handler writes the Boolean word of its relation on the numbers. -/
theorem comparisons : Obligations.Comparisons := by
  unfold Obligations.Comparisons
  simp only [List.forall_mem_cons]
  refine ⟨?_, ?_, ?_, ?_, ?_, ?_, by simp⟩
  all_goals
    intro g d a b s x y t u h hs
    rw [← boolWord_eq] at hs
  · exact ⟨exec_binary (handlerOf_gt g d a b) rfl h hs, rfl⟩
  · exact ⟨exec_binary (handlerOf_gte g d a b) rfl h hs, rfl⟩
  · exact ⟨exec_binary (handlerOf_lt g d a b) rfl h hs, rfl⟩
  · exact ⟨exec_binary (handlerOf_lte g d a b) rfl h hs, rfl⟩
  · exact ⟨exec_binary (handlerOf_eq g d a b) rfl h hs, rfl⟩
  · exact ⟨exec_binary (handlerOf_neq g d a b) rfl h hs, rfl⟩

end Sys2Proof.Machine
end

section
/-!
PROOFS. The debug instructions (O40).
-/

namespace Sys2Proof.Machine

section
variable {g : Option Gate} {s : State} {t : Tick}

/-- A DBG whose operands were read (R330): the hook asked for is the one installed when the instruction began, because reading
operands leaves the parameters. -/
theorem exec_dbg {a b c : Operand} {x y z : Word} (h : Sources3 g a b c s x y z t) :
    exec (.dbg g a b c) s = .next { t.st with
      hooks := if s.params.debugHookInstalled = true then t.st.hooks ++ [.debug x y z] else t.st.hooks
      rip := s.rip + BitVec.ofNat 64 (Instr.dbg g a b c).length } := by
  have hparams : t.st.params = s.params := h.reads.1.sameFixed.params
  rw [← hparams, exec_of_sources3 (i := .dbg g a b c)
    (t' := { t with st := { t.st with
      hooks := if t.st.params.debugHookInstalled = true then t.st.hooks ++ [.debug x y z] else t.st.hooks } })
    h rfl fun oa ob oc => ⟨_, dbgHandler_ok (env := envOf (.dbg g a b c) s.rip).2 ⟨rfl, rfl⟩⟩,
    Tick.advance_unwritten h.reads.2]
  rfl

/-- A BRK whose gate is on (R331): it stops the run loop and still advances. -/
theorem exec_brk (hg : evalGate g ⟨s, false⟩ = .ok (true, t)) :
    exec (.brk g) s = .next { t.st with
      runState := .stopped
      hooks := t.st.hooks ++ [.brk]
      rip := s.rip + BitVec.ofNat 64 (Instr.brk g).length } := by
  rw [exec_noOperand (i := .brk g) rfl hg (brkHandler_ok (env := envOf (.brk g) s.rip).2 ⟨rfl, rfl⟩),
    Tick.advance_unwritten (evalGate_unwritten hg)]
  rfl

end

/-- Settles O40: what each of the two does once its gate and operands were read, and its opcode. -/
theorem debugInstructions : Obligations.DebugInstructions :=
  ⟨fun _ _ _ _ _ _ _ _ _ h => ⟨exec_dbg h, rfl⟩, fun _ _ _ hg => ⟨exec_brk hg, rfl⟩⟩

end Sys2Proof.Machine
end

section
/-!
PROOFS. Interrupts (60_exceptions.md): Enqueue and delivery (O21, O22), no nesting (O23), the interleaving point (O24), the
fairness of the timer (O25).
-/

namespace Sys2Proof.Machine

/-! ## Enqueue and delivery with no other agent about to act (R403, R420) -/

/-- An enqueue of a type that the vector table does not hold is fatal (R403). -/
theorem enqueue_badType {s : State} {type d1 d2 : Word} (hq : s.arrivals = .quiet) (ht : vectorCount ≤ type.toNat) :
    enqueue type d1 d2 s = .error .badInterruptType := by
  have happend : appendRecord type d1 d2 s = .error .badInterruptType := if_pos ht
  unfold enqueue
  rw [bind_of_ok (poll_quiet hq), get_bind, happend]
  rfl

/-- Settles O21: the two sides of 4096, and what a bus write leaves of the queue. -/
theorem enqueueCapturesVector : Obligations.EnqueueCapturesVector :=
  ⟨fun _ _ _ _ hq ht => enqueue_quiet hq ht, fun _ _ _ _ hq ht => enqueue_badType hq ht,
    fun _ _ _ _ hq h => (busWrite_busTo h).onlyArrivals.queue_quiet hq⟩

theorem State.deliverable_eq_false {s : State} (h : s.ie = false ∨ s.inISR = true ∨ s.queue = []) :
    s.deliverable = false := by
  unfold State.deliverable State.pendingCount
  rcases h with h | h | h <;> simp [h]

/-- Settles O22: the entry of the head of the queue, and the three cases in which nothing is entered. -/
theorem delivery : Obligations.Delivery := by
  refine ⟨fun s r rest hq hie hisr hqueue => ?_, fun s hq h => ?_⟩
  · exact outcomeOfUnit_next.1 (deliver_entry hq hie hisr hqueue)
  · exact deliver_ok.2 ⟨s, poll_quiet hq, .inl ⟨State.deliverable_eq_false h, rfl⟩⟩

/-! ## The interleaving point (R411, R414, R415) -/

theorem poll_eq (s : State) :
    poll s = (takeArrivals s.arrivals.now { s with arrivals := s.arrivals.rest }).map fun t => ((), t) := by
  unfold poll
  cases takeArrivals s.arrivals.now { s with arrivals := s.arrivals.rest } <;> rfl

/-- What an agent enqueues does not depend on the schedule. -/
theorem Arrival.record_withArrivals (x : Arrival) (s : State) (c : Schedule) :
    x.record { s with arrivals := c } = x.record s := by
  cases x <;> rfl

theorem takeArrivals_cons_none {x : Arrival} {xs : List Arrival} {s : State} (h : x.record s = none) :
    takeArrivals (x :: xs) s = takeArrivals xs s := by
  rw [takeArrivals, h]

theorem takeArrivals_cons_some {x : Arrival} {xs : List Arrival} {s : State} {type d1 d2 : Word}
    (h : x.record s = some (type, d1, d2)) :
    takeArrivals (x :: xs) s = appendRecord type d1 d2 s >>= takeArrivals xs := by
  simp only [takeArrivals, h]
  cases appendRecord type d1 d2 s <;> rfl

/-- The arrivals of one point fall one after the other. -/
theorem takeArrivals_append (xs ys : List Arrival) (s : State) :
    takeArrivals (xs ++ ys) s = takeArrivals xs s >>= takeArrivals ys := by
  induction xs generalizing s with
  | nil => rfl
  | cons x xs ih =>
    cases hx : x.record s with
    | none => rw [List.cons_append, takeArrivals_cons_none hx, takeArrivals_cons_none hx, ih]
    | some r =>
      obtain ⟨type, d1, d2⟩ := r
      rw [List.cons_append, takeArrivals_cons_some hx, takeArrivals_cons_some hx, bind_assoc]
      exact congrArg _ (funext ih)

/-- The arrivals of one point do not depend on the schedule after it. -/
theorem takeArrivals_withArrivals (xs : List Arrival) (s : State) (c : Schedule) :
    takeArrivals xs { s with arrivals := c } = (takeArrivals xs s).map fun t => { t with arrivals := c } := by
  induction xs generalizing s with
  | nil => rfl
  | cons x xs ih =>
    have hrec := x.record_withArrivals s c
    cases hx : x.record s with
    | none => rw [takeArrivals_cons_none hx, takeArrivals_cons_none (hrec.trans hx), ih]
    | some r =>
      obtain ⟨type, d1, d2⟩ := r
      rw [takeArrivals_cons_some hx, takeArrivals_cons_some (hrec.trans hx)]
      unfold appendRecord
      split_ifs
      · rfl
      · exact ih { s with queue := s.queue ++ [⟨type, d1, d2, s.vector type⟩] }

theorem takeArrivals_unstarted {s : State} (h : s.started = false) (xs : List Arrival) : takeArrivals xs s = .ok s := by
  induction xs with
  | nil => rfl
  | cons x xs ih => rw [takeArrivals_cons_none (Arrival.record_unstarted h), ih]

/-- A point at which one agent enqueues (R403, R411): its record joins the tail, with its vector of that moment. -/
theorem poll_one {s : State} {x : Arrival} {type d1 d2 : Word} (hx : x.record s = some (type, d1, d2))
    (ht : type.toNat < vectorCount) (hnow : s.arrivals.now = [x]) :
    poll s = .ok ((), { s with
      arrivals := s.arrivals.rest
      queue := s.queue ++ [⟨type, d1, d2, s.vector type⟩] }) := by
  rw [poll_eq, hnow, takeArrivals_cons_some ((x.record_withArrivals s _).trans hx)]
  unfold appendRecord
  rw [if_neg (Nat.not_le.2 ht)]
  rfl

/-- A point at which several agents enqueue is two points, the first agent's and the others' (R411). -/
theorem poll_cons {s : State} {x : Arrival} {xs : List Arrival} (hnow : s.arrivals.now = x :: xs) :
    poll s =
      (poll >>= fun _ => poll) { s with arrivals := ⟨[x] :: xs :: s.arrivals.rest.next, s.arrivals.again⟩ } := by
  have hrest : s.arrivals.rest = ⟨s.arrivals.rest.next, s.arrivals.again⟩ := by rw [← Schedule.rest_again]
  generalize hlater : s.arrivals.rest.next = later at hrest
  generalize s.arrivals.again = again at hrest
  have hsplit : x :: xs = [x] ++ xs := rfl
  rw [poll_eq, hnow, hrest, hsplit, takeArrivals_append]
  have hfirst := poll_eq { s with arrivals := ⟨[x] :: xs :: later, again⟩ }
  cases hx : takeArrivals [x] s with
  | error f =>
    have e (c : Schedule) : takeArrivals [x] { s with arrivals := c } = .error f := by
      rw [takeArrivals_withArrivals, hx]; rfl
    rw [bind_of_error (hfirst.trans (congrArg _ (e _))), e]
    rfl
  | ok t =>
    have e (c : Schedule) : takeArrivals [x] { s with arrivals := c } = .ok { t with arrivals := c } := by
      rw [takeArrivals_withArrivals, hx]; rfl
    rw [bind_of_ok (hfirst.trans (congrArg _ (e _))), e, poll_eq]
    rfl

/-- Settles O24: the records of one point, in their order, and the schedule followed. -/
theorem interleavingPoint : Obligations.InterleavingPoint := by
  refine ⟨fun s hs hnow => ?_, fun s id d type d1 d2 hs hd hty ht hnow => ?_, fun s x xs hnow => poll_cons hnow,
    fun s hs => ?_, fun s t h => ?_, fun now later again => ⟨rfl, rfl, rfl, rfl⟩⟩
  · exact poll_one (by simp [Arrival.record, hs, typeSystemTimer]) (by decide) hnow
  · exact poll_one (by simp [Arrival.record, hs, hd, hty]) ht hnow
  · rw [poll_eq, takeArrivals_withArrivals, takeArrivals_unstarted hs]
    rfl
  · obtain ⟨new, rfl, hj⟩ := poll_ok h
    exact ⟨new, rfl, hj.types⟩

/-! ## A Tick before its delivery (R150) -/

/-- What the report of a malformed instruction did (R153): an enqueue, and the IP advance. -/
theorem invalidTick_ok {r : RawInstr} {s t : State} (h : invalidTick r s = .ok ((), t)) :
    ∃ u, enqueue typeInvalidInstruction (r.opcode.setWidth 64) s.rip s = .ok ((), u) ∧
      t = { u with rip := nextIP s.rip r.length } := by
  unfold invalidTick at h
  rw [get_bind] at h
  obtain ⟨⟨⟩, u, hu, h⟩ := bind_ok.1 h
  cases h
  exact ⟨u, hu, rfl⟩

/-- What an execution that completes did: it ran the record's instruction or reported a malformed one. -/
theorem execute_next {r : RawInstr} {s t : State} (h : execute r s = .next t) :
    (∃ i, r = i.raw ∧ exec i s = .next t) ∨ invalidTick r s = .ok ((), t) := by
  cases he : elaborate r with
  | ok i =>
    rw [execute_instr he] at h
    exact .inl ⟨i, elaborate_ok.1 he, h⟩
  | error e =>
    rw [execute_malformed he] at h
    exact .inr (outcomeOfUnit_next.1 h)

/-- An execution that completes keeps what reading, a bus write, an enqueue and a change of registers keep. -/
theorem execute_closed {R : State → State → Prop} (hR : Closed R) {r : RawInstr} {s t : State}
    (h : execute r s = .next t) : R s t := by
  rcases execute_next h with ⟨i, -, h⟩ | h
  · exact exec_closed hR h
  · obtain ⟨u, hu, rfl⟩ := invalidTick_ok h
    exact hR.trans _ _ _ (hR.enqueue _ _ _ _ _ hu) (hR.data _ _ ⟨rfl, rfl, rfl, rfl, rfl, rfl, rfl, rfl, rfl, rfl⟩)

/-- What an execution that completes did to control state, by its opcode. -/
theorem execute_controlChange {r : RawInstr} {s t : State} (h : execute r s = .next t) : ControlChange r.opcode s t := by
  rcases execute_next h with ⟨i, rfl, hi⟩ | h
  · exact exec_controlChange hi
  · obtain ⟨u, hu, rfl⟩ := invalidTick_ok h
    obtain ⟨hie, hisr, hrun, hhooks⟩ := enqueue_sameControl hu
    exact SameControl.controlChange ⟨hie, hisr, hrun, hhooks⟩

/-- What a Tick that completes did (R150): fetch, execution, delivery. -/
theorem tick_execute {s t : State} (h : tick s = .next t) :
    ∃ r s1 s2, fetchDecode s = .ok (r, s1) ∧ execute r s1 = .next s2 ∧ deliver s2 = .ok ((), t) := by
  cases hf : fetchDecode s with
  | error f => unfold tick at h; rw [hf] at h; cases h
  | ok p =>
    obtain ⟨r, s1⟩ := p
    rw [tick_of_fetch hf] at h
    obtain ⟨s2, hx, hd⟩ := withDelivery_next.1 h
    exact ⟨r, s1, s2, rfl, hx, hd⟩

/-! ## What the queue gains before delivery (R403, R411, R414) -/

/-- The record of the system timer, whatever its handler (R414). -/
def InterruptRecord.isTimer (r : InterruptRecord) : Prop := r.type = 2 ∧ r.data1 = 0 ∧ r.data2 = 0

/-- From `s` to `t` the queue gained the tail `new` while `n` interleaving points passed: the timer's record is in it if the
timer was due at one of them in a started machine. -/
structure State.Gained (s t : State) (n : Nat) (new : List InterruptRecord) : Prop where
  queue : t.queue = s.queue ++ new
  arrivals : t.arrivals = s.arrivals.after n
  started : t.started = s.started
  timer : s.started = true → ∀ k < n, .timer ∈ (s.arrivals.after k).now → ∃ r ∈ new, r.isTimer

theorem State.Gained.trans {s t u : State} {n m : Nat} {new new' : List InterruptRecord} (h : s.Gained t n new)
    (k : t.Gained u m new') : s.Gained u (n + m) (new ++ new') where
  queue := by rw [k.queue, h.queue, List.append_assoc]
  arrivals := by rw [k.arrivals, h.arrivals, Schedule.after_after]
  started := k.started.trans h.started
  timer hs j hj hm := by
    by_cases hjn : j < n
    · obtain ⟨r, hr, hr'⟩ := h.timer hs j hjn hm
      exact ⟨r, List.mem_append_left _ hr, hr'⟩
    · obtain ⟨r, hr, hr'⟩ := k.timer (h.started.trans hs) (j - n) (by omega)
        (by rw [h.arrivals, Schedule.after_after, Nat.add_sub_cancel' (by omega)]; exact hm)
      exact ⟨r, List.mem_append_right _ hr, hr'⟩

/-- A tail gained at no interleaving point. -/
theorem State.Gained.of_tail {s t : State} {new : List InterruptRecord} (hq : t.queue = s.queue ++ new)
    (ha : t.arrivals = s.arrivals) (hs : t.started = s.started) : s.Gained t 0 new :=
  ⟨hq, ha, hs, by simp⟩

theorem State.BusTo.gained {s t : State} (h : s.BusTo t) : ∃ n new, s.Gained t n new := by
  obtain ⟨sp, new, n, ds, m, vs, rfl, -, hj⟩ := h
  exact ⟨n, new, rfl, rfl, rfl, hj.timer⟩

theorem poll_gained {s t : State} (h : poll s = .ok ((), t)) : ∃ new, s.Gained t 1 new := by
  obtain ⟨new, rfl, hj⟩ := poll_ok h
  exact ⟨new, rfl, rfl, rfl, hj.timer⟩

theorem gained_closed : Closed fun s t => ∃ n new, s.Gained t n new where
  trans _ _ _ := fun ⟨n, new, h⟩ ⟨m, new', k⟩ => ⟨n + m, new ++ new', h.trans k⟩
  reads _ _ h := h.busTo.gained
  write _ _ _ _ h := (busWrite_busTo h).gained
  enqueue _ _ _ _ _ h := by
    obtain ⟨s1, hp, -, rfl⟩ := enqueue_ok.1 h
    obtain ⟨new, hp⟩ := poll_gained hp
    exact ⟨_, _, hp.trans (.of_tail rfl rfl rfl)⟩
  data _ _ h := ⟨0, [], .of_tail (by rw [h.queue, List.append_nil]) h.arrivals h.started⟩

/-- The queue as the delivery test of a Tick finds it: at least the interleaving point before that test has passed. -/
theorem gained_before_delivery {s s1 s2 s3 : State} {r : RawInstr} (hf : fetchDecode s = .ok (r, s1))
    (hx : execute r s1 = .next s2) (hp : poll s2 = .ok ((), s3)) : ∃ n new, s.Gained s3 (n + 1) new := by
  obtain ⟨n, new, h⟩ := (fetchDecode_reads hf).1.busTo.gained
  obtain ⟨m, new', k⟩ := execute_closed gained_closed hx
  obtain ⟨new'', l⟩ := poll_gained hp
  exact ⟨n + m, _, (h.trans k).trans l⟩

/-! ## No nesting (R423) -/

/-- Inside a handler delivery is its interleaving point alone (R423). -/
theorem deliver_inISR {s t : State} (h : deliver s = .ok ((), t)) (hisr : s.inISR = true) : poll s = .ok ((), t) := by
  obtain ⟨s1, hp, ⟨-, rfl⟩ | ⟨hd, -⟩⟩ := deliver_ok.1 h
  · exact hp
  · have hisr1 : s1.inISR = true := (poll_readsTo hp).sameControl.inISR.trans hisr
    rw [State.deliverable_eq_false (.inr (.inl hisr1))] at hd
    cases hd

/-- Settles O23: only EINT leaves the handler, so that delivery enters nothing and the queue only gains. -/
theorem noNesting : Obligations.NoNesting := by
  intro s s1 t r hr hm hisr hf hop h
  rw [step_running hr hm, tick_of_fetch hf] at h
  obtain ⟨s2, hx, hd⟩ := withDelivery_next.1 h
  have hisr1 : s1.inISR = true := (fetchDecode_reads hf).1.sameControl.inISR.trans hisr
  have hisr2 : s2.inISR = true :=
    ((execute_controlChange hx).inISR.resolve_right fun ⟨e, _⟩ => hop e).trans hisr1
  have hp := deliver_inISR hd hisr2
  obtain ⟨n, new, hg⟩ := gained_before_delivery hf hx hp
  exact ⟨(poll_readsTo hp).sameControl.inISR.trans hisr2, new, hg.queue⟩

/-! ## Fairness (R430) -/

/-- A schedule whose first points have passed. -/
theorem Schedule.after_passed (passed later again : List (List Arrival)) :
    (Schedule.mk (passed ++ later) again).after passed.length = ⟨later, again⟩ := by
  induction passed with
  | nil => rfl
  | cons p passed ih => exact ih

/-- In a fair schedule the timer is due at some point to come. -/
theorem Schedule.fair.due {c : Schedule} (h : c.fair) : ∃ k, .timer ∈ (c.after k).now := by
  obtain ⟨next, again⟩ := c
  obtain ⟨now, hmem, htimer⟩ := h
  obtain ⟨before, later, e⟩ := List.append_of_mem hmem
  change again = before ++ now :: later at e
  have hend : (Schedule.mk next again).after next.length = ⟨[], again⟩ := by
    simpa using Schedule.after_passed next [] again
  refine ⟨next.length + before.length, ?_⟩
  rw [← Schedule.after_after, hend, e]
  cases before with
  | nil => exact htimer
  | cons p before =>
    have hrest : (Schedule.mk [] (p :: before ++ now :: later)).rest =
        ⟨before ++ now :: later, p :: before ++ now :: later⟩ := rfl
    rw [List.length_cons, Schedule.after_succ, hrest, Schedule.after_passed]
    exact htimer

theorem Schedule.fair_congr {c d : Schedule} (h : d.again = c.again) (hc : c.fair) : d.fair := by
  obtain ⟨now, hmem, htimer⟩ := hc
  exact ⟨now, h ▸ hmem, htimer⟩

/-- Delivery takes from the queue only: the schedule and the start stay as its interleaving point left them. -/
theorem deliver_polled {s t : State} (h : deliver s = .ok ((), t)) :
    ∃ u, poll s = .ok ((), u) ∧ t.arrivals = u.arrivals ∧ t.started = u.started := by
  obtain ⟨u, hp, ⟨-, rfl⟩ | ⟨-, r, rest, -, rfl⟩⟩ := deliver_ok.1 h
  · exact ⟨t, hp, rfl, rfl⟩
  · exact ⟨u, hp, rfl, rfl⟩

/-- A Tick of a started machine passes some interleaving points, at least one: the timer's record joins the queue in it if the
timer was due at one of them. -/
theorem tick_timer {s t : State} (h : tick s = .next t) (hs : s.started = true) :
    ∃ n, t.arrivals = s.arrivals.after (n + 1) ∧ t.started = true ∧
      ∀ k < n + 1, .timer ∈ (s.arrivals.after k).now → ∃ r, EnqueuedInTick s r ∧ r.isTimer := by
  obtain ⟨q, s1, s2, hf, hx, hd⟩ := tick_execute h
  obtain ⟨s3, hp, harr, hstart⟩ := deliver_polled hd
  obtain ⟨n, new, hg⟩ := gained_before_delivery hf hx hp
  refine ⟨n, harr.trans hg.arrivals, (hstart.trans hg.started).trans hs, fun k hk hm => ?_⟩
  obtain ⟨r, hr, htimer⟩ := hg.timer hs k hk hm
  exact ⟨r, ⟨q, s1, s2, s3, new, hf, hx, hp, hg.queue, hr⟩, htimer⟩

/-- If the timer is due in a Running run, in some later Tick its record joins the queue: each Tick brings that point nearer. -/
theorem timer_fires {run : Nat → State} (h : RunningForever run) (k : Nat) : ∀ n, (run n).started = true →
    .timer ∈ ((run n).arrivals.after k).now → ∃ m r, n ≤ m ∧ EnqueuedInTick (run m) r ∧ r.isTimer := by
  induction k using Nat.strong_induction_on with
  | _ k ih =>
    intro n hs hdue
    obtain ⟨hstep, hrun, hmoves⟩ := h n
    rw [step_running hrun hmoves] at hstep
    obtain ⟨p, harr, hs', hfired⟩ := tick_timer hstep hs
    by_cases hk : k < p + 1
    · obtain ⟨r, hr⟩ := hfired k hk hdue
      exact ⟨n, r, le_rfl, hr⟩
    · have hdue' : .timer ∈ ((run (n + 1)).arrivals.after (k - (p + 1))).now := by
        rw [harr, Schedule.after_after, Nat.add_sub_cancel' (Nat.not_lt.1 hk)]
        exact hdue
      obtain ⟨m, r, hm, hr⟩ := ih (k - (p + 1)) (by omega) (n + 1) hs' hdue'
      exact ⟨m, r, by omega, hr⟩

/-- The part of the schedule that is followed over and over is the same. -/
def SameAgain (s t : State) : Prop := t.arrivals.again = s.arrivals.again

theorem SameAgain.of_arrivals {s t : State} (h : t.arrivals = s.arrivals) : SameAgain s t := congrArg Schedule.again h

theorem State.Gained.sameAgain {s t : State} {n : Nat} {new : List InterruptRecord} (h : s.Gained t n new) :
    SameAgain s t := by
  unfold SameAgain
  rw [h.arrivals, Schedule.after_again]

theorem poll_sameAgain {s t : State} (h : poll s = .ok ((), t)) : SameAgain s t := by
  obtain ⟨new, hg⟩ := poll_gained h
  exact hg.sameAgain

theorem tick_sameAgain {s t : State} (h : tick s = .next t) : SameAgain s t := by
  obtain ⟨q, s1, s2, hf, hx, hd⟩ := tick_execute h
  obtain ⟨s3, hp, harr, -⟩ := deliver_polled hd
  obtain ⟨n, new, hg⟩ := gained_before_delivery hf hx hp
  exact (SameAgain.of_arrivals harr).trans hg.sameAgain

theorem callDevices_arrivals (c : Lifecycle) (s : State) :
    (State.callDevices c 0 s.devices s).arrivals = s.arrivals := by
  obtain ⟨es, q, v, e, -⟩ := callDevices_changes c s.devices 0 s fun j d hj =>
    ⟨d, by rw [Nat.zero_add]; exact hj, Device.same_refl d⟩
  rw [e]

theorem busPrepare_arrivals {s t : State} {c : Lifecycle} (h : s.busPrepare c = .ok t) : t.arrivals = s.arrivals := by
  obtain ⟨b, rfl⟩ := busPrepare_ok h
  exact callDevices_arrivals c { s.rebuildDirectory with bootAddr := bootAddress b }

/-- No host move's own effect touches the schedule. -/
theorem hostEffect_arrivals {s t : State} {m : HostMove} (h : s.hostEffect m = .next t) : t.arrivals = s.arrivals := by
  cases m with
  | addDevice d => obtain ⟨-, -, rfl⟩ := addDevice_next h; rfl
  | loadImage id image => obtain ⟨d, n, ws, -, -, -, rfl⟩ := loadImage_next h; rfl
  | loadRam id ws => obtain ⟨d, n, -, -, -, -, rfl⟩ := loadRam_next h; rfl
  | busStart =>
    obtain ⟨u, hu, rfl⟩ := busStart_ok (outcomeOf_next.1 h)
    exact (busPrepare_arrivals hu :)
  | busReset =>
    obtain ⟨u, hu, rfl⟩ := busReset_ok (outcomeOf_next.1 h)
    exact (busPrepare_arrivals hu :)
  | busStop => cases h; exact callDevices_arrivals .stop s
  | writeRegister r v => cases h; exact (SameData.writeReg s r v).arrivals
  | _ => cases h; rfl

theorem hostStep_sameAgain {s t : State} {m : HostMove} (h : hostStep m s = .next t) : SameAgain s t := by
  obtain ⟨s1, hp, ht | he⟩ := hostStep_next h
  · exact (tick_sameAgain ht).trans (poll_sameAgain hp)
  · exact (SameAgain.of_arrivals (hostEffect_arrivals he)).trans (poll_sameAgain hp)

theorem selfStep_sameAgain {s t : State} (h : selfStep s = .next t) : SameAgain s t := by
  cases hr : s.runState with
  | running =>
    rw [selfStep_running hr] at h
    exact tick_sameAgain h
  | stopped =>
    rw [selfStep_stopped hr] at h
    exact poll_sameAgain (outcomeOfUnit_next.1 h)

/-- No step, a host move's among them, changes the part of the schedule that is followed over and over. -/
theorem step_sameAgain {s t : State} (h : step s = .next t) : SameAgain s t := by
  rcases step_next h with h | ⟨m, rest, -, h | h⟩
  · exact selfStep_sameAgain h
  · exact selfStep_sameAgain (s := { s with hostMoves := rest }) h
  · exact hostStep_sameAgain (s := { s with hostMoves := rest }) h

/-- Settles O25: along a run the machine stays started and its schedule fair, so that after every state the timer is due, and
then it fires. -/
theorem timerFairness : Obligations.TimerFairness := by
  refine ⟨fun run h hs hfair n => ?_, fun s t h hfair => Schedule.fair_congr (step_sameAgain h) hfair⟩
  have hkept : (run n).started = true ∧ (run n).arrivals.fair := by
    induction n with
    | zero => exact ⟨hs, hfair⟩
    | succ n ih =>
      obtain ⟨hstep, hrun, hmoves⟩ := h n
      exact ⟨(tickLeavesFixed _ _ hrun hmoves hstep).started.trans ih.1, Schedule.fair_congr (step_sameAgain hstep) ih.2⟩
  obtain ⟨k, hk⟩ := hkept.2.due
  obtain ⟨m, r, hm, hr, htype, hdata1, hdata2⟩ := timer_fires h k n hkept.1 hk
  exact ⟨m, r, hm, hr, htype, hdata1, hdata2⟩

end Sys2Proof.Machine
end

section
/-!
PROOFS. The host's moves (O30).
-/

namespace Sys2Proof.Machine

/-! ## Whose turn it is (R435, R436) -/

/-- The host's Step with no other agent about to act is a Tick (R435). -/
theorem hostStep_stepOnce {s : State} (hr : s.runState = .stopped) (hq : s.arrivals = .quiet) :
    hostStep .stepOnce s = tick s := by
  have ha : HostMove.stepOnce.allowed s = true := decide_eq_true hr
  unfold hostStep
  rw [if_pos ha, poll_quiet hq]

/-- In a Stopped machine with no other agent about to act nothing happens (R478). -/
theorem selfStep_stopped_quiet {s : State} (hr : s.runState = .stopped) (hq : s.arrivals = .quiet) :
    selfStep s = .next s := by
  rw [selfStep_stopped hr, poll_quiet hq]
  rfl

section
variable {s : State} {m : HostMove} {rest : List HostMove}

/-- A move of the host, taken off its list. -/
theorem step_hostMove (h : s.hostMoves = m :: rest) (hm : m ≠ .wait) :
    step s = hostStep m { s with hostMoves := rest } := by
  unfold step cycle
  rw [h]
  exact if_neg hm

/-- A turn that the host leaves to the machine. -/
theorem step_wait (h : s.hostMoves = .wait :: rest) : step s = selfStep { s with hostMoves := rest } := by
  unfold step cycle
  rw [h]
  exact if_pos rfl

/-- A move that the spec does not give is refused (log 7). -/
theorem step_notAllowed (h : s.hostMoves = m :: rest) (hm : m ≠ .wait) (ha : m.allowed s = false) :
    step s = .refused .hostMoveNotAllowed := by
  have ha' : m.allowed { s with hostMoves := rest } = false := by cases m <;> exact ha
  rw [step_hostMove h hm]
  unfold hostStep
  rw [ha']
  rfl

/-- A move that the spec gives, Step aside, has its effect, with no other agent about to act. -/
theorem step_hostEffect (h : s.hostMoves = m :: rest) (hq : s.arrivals = .quiet) (hm : m ≠ .wait) (hs : m ≠ .stepOnce)
    (ha : m.allowed s = true) : step s = State.hostEffect { s with hostMoves := rest } m := by
  have ha' : m.allowed { s with hostMoves := rest } = true := by cases m <;> exact ha
  rw [step_hostMove h hm, hostStep_quiet ha' hs hq]

/-- Reset aside, a Running processor is given Break alone (R435, R475). -/
theorem HostMove.allowed_running (hr : s.runState = .running) (h1 : m ≠ .processorReset) (h2 : m ≠ .suspend)
    (h3 : m ≠ .wait) : m.allowed s = false := by
  cases m <;> simp_all [HostMove.allowed]

/-- Break aside, a Stopped processor is given every move (R39, R435, R436). -/
theorem HostMove.allowed_stopped (hr : s.runState = .stopped) (hm : m ≠ .suspend) : m.allowed s = true := by
  cases m <;> simp_all [HostMove.allowed]

end

/-- No Tick starts a Stopped processor (R32, R435). -/
theorem tick_stopped {s t : State} (h : tick s = .next t) (hr : s.runState = .stopped) : t.runState = .stopped := by
  obtain ⟨q, s1, s2, hf, hx, hd⟩ := tick_execute h
  have hr1 : s1.runState = .stopped := (fetchDecode_reads hf).1.sameControl.runState.trans hr
  have hr2 : s2.runState = .stopped := (execute_controlChange hx).runState.elim (·.trans hr1) (·.2)
  obtain ⟨s3, hread, rfl | ⟨r, rest, -, -, rfl⟩⟩ := deliver_next hd
  · exact hread.sameControl.runState.trans hr2
  · exact hread.sameControl.runState.trans hr2

/-! ## The loader's move on a RAM (R62, R470) -/

/-- The memory with these words in the window of the device at `id`, and no other word there. -/
def Memory.fillWindow (m : Memory) (id : Nat) (ws : List Word) : Memory :=
  (m.clearWindow id).writeWords (windowBase id) ws

section
variable {s : State} {id size : Nat} {d : Device} {ws : List Word}

theorem loadRam_fits (hd : s.devices[id]? = some d) (hk : d.kind = .ram size) (hw : ws.length ≤ min size windowWords) :
    s.loadRam id ws = .next { s with mem := s.mem.fillWindow id ws } := by
  unfold State.loadRam
  simp only [hd, hk]
  exact if_pos hw

theorem loadRam_tooLong (hd : s.devices[id]? = some d) (hk : d.kind = .ram size) (hw : size < ws.length) :
    s.loadRam id ws = .fault .deviceOutOfRange := by
  unfold State.loadRam
  simp only [hd, hk]
  exact if_neg fun h => (hw.trans_le (Nat.le_min.1 h).1).false

/-- A loaded RAM reads the words placed in it and 0 above them (log 2). -/
theorem State.peek_fillWindow {a : Word} (hd : s.devices[id]? = some d) (hk : d.kind = .ram size)
    (hid : id ≠ directoryId) (hm : s.mem.wf) (hw : ws.length ≤ windowWords) (ha : devId a = id)
    (hl : (localAddr a).toNat < size) :
    State.peek { s with mem := s.mem.fillWindow id ws } a = some (ws.getD (localAddr a).toNat 0) := by
  have hram : State.ramAt { s with mem := s.mem.fillWindow id ws } a := ⟨ha ▸ hid, d, size, ha ▸ hd, hk, hl⟩
  rw [State.peek_ramAt hram]
  unfold Memory.fillWindow
  rw [Memory.readWord_fillWindow hm hw, devId_eq_div, localAddr_eq_mod, if_pos ha]

/-- Every other window reads as before. -/
theorem State.peek_fillWindow_ne {a : Word} (hm : s.mem.wf) (hw : ws.length ≤ windowWords) (ha : devId a ≠ id) :
    State.peek { s with mem := s.mem.fillWindow id ws } a = s.peek a := by
  have hread : (s.mem.fillWindow id ws).readWord a.toNat = s.mem.readWord a.toNat := by
    unfold Memory.fillWindow
    rw [Memory.readWord_fillWindow hm hw, devId_eq_div, if_neg ha]
  unfold State.peek
  rw [hread]

end

/-- Settles O30: each move is the host's turn, allowed or not in the run state at hand, and has its own effect. -/
theorem hostMoves : Obligations.HostMoves := by
  intro s m rest h hq
  have stopped (hr : s.runState = .stopped) (hm : m ∉ [HostMove.suspend, .wait, .stepOnce]) :
      step s = State.hostEffect { s with hostMoves := rest } m := by
    simp only [List.mem_cons, List.not_mem_nil, or_false, not_or] at hm
    obtain ⟨hsuspend, hwait, hstep⟩ := hm
    exact step_hostEffect h hq hwait hstep (HostMove.allowed_stopped hr hsuspend)
  refine ⟨?reset, ?suspend, ?suspendStopped, ?running, ?waitRunning, ?waitStopped, ?loadImage, ?loadRam, ?loadRamLong,
    ?resume, ?writeRegister, ?busReset, ?busStart, ?busStop, ?addDevice, ?stepOnce⟩
  case reset =>
    rintro rfl
    exact step_hostEffect h hq (by simp) (by simp) rfl
  case suspend =>
    rintro rfl hr
    exact step_hostEffect h hq (by simp) (by simp) (by simp [HostMove.allowed, hr])
  case suspendStopped =>
    rintro rfl hr
    exact step_notAllowed h (by simp) (by simp [HostMove.allowed, hr])
  case running =>
    intro h1 h2 h3 hr
    exact step_notAllowed h h3 (HostMove.allowed_running hr h1 h2 h3)
  case waitRunning =>
    rintro rfl hr
    exact (step_wait h).trans (selfStep_running hr)
  case waitStopped =>
    rintro rfl hr
    exact (step_wait h).trans (selfStep_stopped_quiet hr hq)
  case loadImage =>
    rintro id image rfl hr
    exact stopped hr (by simp)
  case loadRam =>
    rintro id size d ws rfl hr hd hk hid hm hw
    have hwin : ws.length ≤ windowWords := (Nat.le_min.1 hw).2
    refine ⟨s.mem.fillWindow id ws, ?_, fun a ha hl => State.peek_fillWindow hd hk hid.ne hm hwin ha hl,
      fun a ha => State.peek_fillWindow_ne hm hwin ha⟩
    exact (stopped hr (by simp)).trans (loadRam_fits hd hk hw)
  case loadRamLong =>
    rintro id size d ws rfl hr hd hk hw
    exact (stopped hr (by simp)).trans (loadRam_tooLong hd hk hw)
  case stepOnce =>
    rintro rfl hr
    have hstep : step s = tick { s with hostMoves := rest } :=
      (step_hostMove h (by simp)).trans (hostStep_stepOnce hr hq)
    refine ⟨hstep, fun t ht => ?_⟩
    rw [hstep] at ht
    exact ⟨tick_stopped ht hr, (tick_closed sameFixed_closed (fun _ _ => deliver_sameFixed) ht).hostMoves⟩
  case writeRegister =>
    rintro r v rfl hr
    exact stopped hr (by simp)
  case addDevice =>
    rintro d rfl hr
    exact stopped hr (by simp)
  case resume | busReset | busStart | busStop =>
    rintro rfl hr
    exact stopped hr (by simp)

end Sys2Proof.Machine
end

section
/-!
PROOFS. The bus's lifecycle calls and the state they leave (O26, O27), the classification of states (O31), the invariant of the
reset state (O59).
-/

namespace Sys2Proof.Machine

/-! ## The boot device (R460, R462) -/

section
variable {s : State} {b : Nat} {d : Device}

theorem State.bootId_eq_none : s.bootId = none ↔ ∀ d ∈ s.devices, d.deviceType ≠ s.params.bootDeviceType := by
  simp [State.bootId]

/-- The lowest boot-capable device is the one the bus boots from (R462). -/
theorem State.bootId_eq_some (hd : s.devices[b]? = some d) (hboot : d.deviceType = s.params.bootDeviceType)
    (hlow : ∀ (k : Nat) (e : Device), k < b → s.devices[k]? = some e → e.deviceType ≠ s.params.bootDeviceType) :
    s.bootId = some b := by
  obtain ⟨hlt, hget⟩ := List.getElem?_eq_some_iff.1 hd
  refine List.findIdx?_eq_some_iff_getElem.2 ⟨hlt, by simpa [hget] using hboot, fun k hk => ?_⟩
  simpa using hlow k _ hk (List.getElem?_eq_getElem (hk.trans hlt))

/-! ## Bus Reset, Start and Stop, forwards (R460 to R466) -/

/-- The state in which a bus Reset or Start that boots from `a` calls the devices (R460 to R463). -/
def State.booting (s : State) (a : Word) : State :=
  { s with directory := directoryTable s.devices, bootAddr := a }

@[simp] theorem State.booting_devices (s : State) (a : Word) : (s.booting a).devices = s.devices := rfl

/-- Without a boot-capable device no device is called (R462). -/
theorem State.busPrepare_noBoot (h : s.bootId = none) (c : Lifecycle) : s.busPrepare c = .error .noBootDevice := by
  have hrebuilt : s.rebuildDirectory.bootId = none := h
  unfold State.busPrepare
  simp only [hrebuilt]

theorem State.busPrepare_boot (h : s.bootId = some b) (c : Lifecycle) :
    s.busPrepare c =
      .ok (State.callDevices c 0 (s.booting (bootAddress b)).devices (s.booting (bootAddress b))) := by
  have hrebuilt : s.rebuildDirectory.bootId = some b := h
  unfold State.busPrepare
  simp only [hrebuilt]
  rfl

theorem State.busReset_noBoot (h : s.bootId = none) : s.busReset = .error .noBootDevice := by
  unfold State.busReset
  rw [State.busPrepare_noBoot h]

theorem State.busStart_noBoot (h : s.bootId = none) : s.busStart = .error .noBootDevice := by
  unfold State.busStart
  rw [State.busPrepare_noBoot h]

theorem State.busReset_boot (h : s.bootId = some b) :
    s.busReset = .ok (State.callDevices .reset 0 (s.booting (bootAddress b)).devices
      (s.booting (bootAddress b))).processorReset := by
  unfold State.busReset
  rw [State.busPrepare_boot h]

theorem State.busStart_boot (h : s.bootId = some b) :
    s.busStart = .ok (State.callDevices .start 0 (s.booting (bootAddress b)).devices
      (s.booting (bootAddress b))).processorReset.resume := by
  unfold State.busStart
  rw [State.busPrepare_boot h]

/-- The devices' Start changes their own states alone (R409, R463). -/
theorem callDevices_start (s : State) :
    ∃ ds, sameDevices s.devices ds ∧ State.callDevices .start 0 s.devices s = { s with devices := ds } := by
  obtain ⟨ds, q, v, e, hds, -, hkept, -⟩ := callDevices_changes .start s.devices 0 s fun j d hj =>
    ⟨d, by rwa [Nat.zero_add], Device.same_refl d⟩
  obtain ⟨rfl, rfl⟩ := hkept rfl
  exact ⟨ds, hds, e⟩

/-- With an interrupt controller among them, the devices' Reset or Stop empties the queue and the vector table (R408, R463). -/
theorem callDevices_clear {c : Lifecycle} (hc : c ≠ .start) (hic : ∃ d ∈ s.devices, d.kind = .interruptController) :
    ∃ ds, sameDevices s.devices ds ∧
      State.callDevices c 0 s.devices s = { s with queue := [], vectors := [], devices := ds } := by
  obtain ⟨ds, q, v, e, hds, -, -, hcleared⟩ := callDevices_changes c s.devices 0 s fun j d hj =>
    ⟨d, by rwa [Nat.zero_add], Device.same_refl d⟩
  obtain ⟨rfl, rfl⟩ := hcleared hc hic
  exact ⟨ds, hds, e⟩

end

/-- Settles O27: the boot device decides whether a Reset or Start is fatal; the devices' calls give the queue, the table and the
device table, and the processor's own call the registers. -/
theorem busResetTable : Obligations.BusResetTable := by
  intro s ic c hc hkind
  have hic : ∃ d ∈ s.devices, d.kind = .interruptController := ⟨c, List.mem_of_getElem? hc, hkind⟩
  refine ⟨fun hnone => ?_, fun b d hd hboot hlow => ?_, fun b d hd hboot hlow => ?_, ?_⟩
  · have hid := State.bootId_eq_none.2 hnone
    exact ⟨State.busReset_noBoot hid, State.busStart_noBoot hid⟩
  · obtain ⟨ds, hds, e⟩ := callDevices_clear (s := s.booting (bootAddress b)) (c := .reset) (by decide)
      (by simpa using hic)
    refine ⟨ds, by simpa using hds, ?_⟩
    rw [State.busReset_boot (State.bootId_eq_some hd hboot hlow), e]
    unfold bootAddress
    -- the address is kept opaque, so that `rfl` compares fields and does not compute the shift
    generalize BitVec.ofNat 64 b <<< 52 = a
    rfl
  · obtain ⟨ds, hds, e⟩ := callDevices_start (s.booting (bootAddress b))
    refine ⟨ds, by simpa using hds, ?_⟩
    rw [State.busStart_boot (State.bootId_eq_some hd hboot hlow), e]
    unfold bootAddress
    generalize BitVec.ofNat 64 b <<< 52 = a
    rfl
  · obtain ⟨ds, hds, e⟩ := callDevices_clear (c := .stop) (by decide) hic
    exact ⟨ds, hds, congrArg State.suspend e⟩

/-! ## A machine that waits (R200, R478) -/

/-- From `s` to `t` only other agents acted: their records joined the queue, and the schedule moved on. -/
def State.WaitsTo (s t : State) : Prop :=
  ∃ new n, t = { s with queue := s.queue ++ new, arrivals := s.arrivals.after n } ∧ s.Joined n new

section
variable {s t u : State}

theorem State.WaitsTo.trans (h : s.WaitsTo t) (k : t.WaitsTo u) : s.WaitsTo u := by
  obtain ⟨new, n, rfl, hj⟩ := h
  obtain ⟨new', m, rfl, hj'⟩ := k
  exact ⟨new ++ new', n + m, by simp [Schedule.after_after], hj.append hj' rfl rfl⟩

theorem poll_waitsTo (h : poll s = .ok ((), t)) : s.WaitsTo t := by
  obtain ⟨new, rfl, hj⟩ := poll_ok h
  exact ⟨new, 1, rfl, hj⟩

/-- Reading that changes nothing while no other agent acts leaves all to the other agents. -/
theorem State.ReadsTo.waitsTo (h : s.ReadsTo t) (halone : t.apart s.queue = s.alone) : s.WaitsTo t := by
  obtain ⟨sp, new, n, ds, rfl, -, hj⟩ := h
  obtain rfl : sp = s.rsp := congrArg State.rsp halone
  obtain rfl : ds = s.devices := congrArg State.devices halone
  exact ⟨new, n, rfl, hj⟩

/-- No delivery can happen (R478). -/
def State.undeliverable (s : State) : Prop := s.ie = false ∨ s.inISR = true ∨ (s.queue = [] ∧ ¬ s.agentsAble)

theorem State.undeliverable.deliverable (h : s.undeliverable) : s.deliverable = false :=
  State.deliverable_eq_false (h.imp_right (.imp_right And.left))

/-- Where no delivery can happen, none becomes possible by what other agents do (R420, R478). -/
theorem State.undeliverable.waitsTo (h : s.undeliverable) (hw : s.WaitsTo t) : t.undeliverable := by
  obtain ⟨new, n, rfl, hj⟩ := hw
  refine h.imp_right (.imp_right fun ⟨hq, hagents⟩ => ⟨?_, hagents⟩)
  have hnew : new = [] := hj.unstarted (Bool.eq_false_iff.2 hagents)
  simp [hq, hnew]

/-- Where no delivery can happen, the delivery step is its interleaving point (R420). -/
theorem deliver_waitsTo (h : s.undeliverable) (hd : deliver s = .ok ((), t)) : s.WaitsTo t := by
  obtain ⟨s1, hp, ⟨-, rfl⟩ | ⟨hdel, -⟩⟩ := deliver_ok.1 hd
  · exact poll_waitsTo hp
  · rw [(h.waitsTo (poll_waitsTo hp)).deliverable] at hdel
    cases hdel

/-- A machine at a HLT stays at it while other agents act (R200, R411). -/
theorem State.atHlt.waitsTo (h : s.atHlt) (hw : s.WaitsTo t) : t.atHlt := by
  obtain ⟨r, g, hf, he, hg⟩ := h
  obtain ⟨new, n, rfl, -⟩ := hw
  have hf' := fetchDecode_apart (q := s.queue ++ new) hf
  have hg' := evalGate_apart (q := s.queue ++ new) g _ _ _ hg
  exact ⟨r, g, hf', he, hg'⟩

theorem State.idle.waitsTo (h : s.idle) (hw : s.WaitsTo t) : t.idle := by
  obtain ⟨hr, hhlt, hno⟩ := h
  refine ⟨?_, hhlt.waitsTo hw, State.undeliverable.waitsTo hno hw⟩
  obtain ⟨new, n, rfl, -⟩ := hw
  exact hr

/-- The fetch and the run of a HLT that the machine stands at leave it there (R200). -/
theorem State.atHlt.execute_waitsTo {s1 s2 : State} {r : RawInstr} (h : s.atHlt) (hf : fetchDecode s = .ok (r, s1))
    (hx : execute r s1 = .next s2) : s.WaitsTo s2 := by
  obtain ⟨r', g, hf', he, hg'⟩ := h
  obtain ⟨rfl, hs1⟩ : r = r' ∧ s1.apart s.queue = s.alone := by
    simpa using (fetchDecode_apart (q := s.queue) hf).symm.trans hf'
  rw [execute_instr he, exec_eq] at hx
  obtain ⟨u, hu, -⟩ := runInstr_next.1 hx
  have hgate {b : Bool} {t1 : Tick} (hg : evalGate g ⟨s1, false⟩ = .ok (b, t1)) :
      b = true ∧ t1.apart s.queue = ⟨s.alone, false⟩ := by
    have hapart := evalGate_apart (q := s.queue) g _ _ _ hg
    rw [Tick.apart, hs1, hg'] at hapart
    simpa [eq_comm] using hapart
  rcases tickBody_ok.1 hu with hg | ⟨t1, -, -, -, -, hg, -⟩
  · exact absurd (hgate hg).1 (by decide)
  · have hw : s.WaitsTo t1.st := ((fetchDecode_reads hf).1.trans (evalGate_reads hg).1).waitsTo
      (congrArg Tick.st (hgate hg).2)
    have hrip : s1.rip = t1.st.rip := ((evalGate_reads hg).1.readReg (r := .rip) (by decide)).symm
    have hhlt := (hltNopInteIntd g s1 t1 hg).1
    rw [exec_eq, hx, hrip] at hhlt
    injection hhlt with hhlt
    rwa [hhlt]

/-- The Tick of an idle machine leaves all to the other agents (R200, R478). -/
theorem State.idle.tick_waitsTo (h : s.idle) (ht : tick s = .next t) : s.WaitsTo t := by
  obtain ⟨-, hhlt, hno⟩ := h
  obtain ⟨r, s1, s2, hf, hx, hd⟩ := tick_execute ht
  have hw := hhlt.execute_waitsTo hf hx
  exact hw.trans (deliver_waitsTo (State.undeliverable.waitsTo hno hw) hd)

/-- With no other agent about to act, the Tick of an idle machine changes nothing (R200, R478). -/
theorem State.idle.tick_quiet (h : s.idle) (hq : s.arrivals = .quiet) : tick s = .next s := by
  obtain ⟨-, ⟨r, g, hf, he, hg⟩, hno⟩ := h
  have halone : s.alone = s := by
    unfold State.alone
    rw [← hq]
  rw [halone] at hf hg
  rw [tick_of_instr hf he]
  exact withDelivery_next.2 ⟨s, (hltNopInteIntd g s _ hg).1,
    deliver_ok.2 ⟨s, poll_quiet hq, .inl ⟨State.undeliverable.deliverable hno, rfl⟩⟩⟩

theorem step_stopped (h : s.stopped) (hm : s.hostMoves = []) : step s = outcomeOfUnit (poll s) :=
  (cycle_self hm).trans (selfStep_stopped h)

theorem State.idle.step_eq_tick (h : s.idle) (hm : s.hostMoves = []) : step s = tick s := step_running h.1 hm

/-- A stopped or idle machine to which the host does nothing leaves all to the other agents (R478). -/
theorem step_waitsTo (h : s.stopped ∨ s.idle) (hm : s.hostMoves = []) (hs : step s = .next t) : s.WaitsTo t := by
  rcases h with h | h
  · rw [step_stopped h hm] at hs
    exact poll_waitsTo (outcomeOfUnit_next.1 hs)
  · rw [h.step_eq_tick hm] at hs
    exact h.tick_waitsTo hs

theorem State.stopped.waitsTo (h : s.stopped) (hw : s.WaitsTo t) : t.stopped := by
  obtain ⟨new, n, rfl, -⟩ := hw
  exact h

/-- A started machine with IE = 1 outside a handler can be woken (R478). -/
theorem State.not_undeliverable (hs : s.started = true) (hie : s.ie = true) (hisr : s.inISR = false) :
    ¬ s.undeliverable := by
  rintro (h | h | ⟨-, h⟩)
  · exact Bool.false_ne_true (h.symm.trans hie)
  · exact Bool.false_ne_true (hisr.symm.trans h)
  · exact h hs

end

/-- Settles O31: a stopped or idle machine steps by waiting, which keeps it stopped or idle. -/
theorem idleAndStopped : Obligations.IdleAndStopped := by
  refine ⟨fun s t h hm hs => ?_, fun s t h hm hs => h.waitsTo (step_waitsTo (.inl h) hm hs),
    fun s t h hm hs => h.waitsTo (step_waitsTo (.inr h) hm hs), fun s h hm hq => ?_,
    fun s hs hie hisr h => State.not_undeliverable hs hie hisr h.2.2⟩
  · obtain ⟨new, n, rfl, -⟩ := step_waitsTo h hm hs
    exact ⟨new, n, rfl⟩
  · rcases h with h | h
    · exact (cycle_self hm).trans (selfStep_stopped_quiet h hq)
    · exact (h.step_eq_tick hm).trans (h.tick_quiet hq)

/-! ## The reset state (R408, R464, R466) -/

/-- A memory without cells reads 0 everywhere (R35, R62; log 2). -/
theorem Memory.readWord_nil (a : Nat) : Memory.readWord [] a = 0 := by
  simp only [Memory.readWord, Memory.readByte]
  rfl

/-- The example machine boots from its boot ROM, at id 0 (log 3). -/
theorem State.reset_bootId : State.reset.bootId = some 0 := rfl

/-- A bus Reset of the example machine rebuilds the same directory and gives the same boot address (R461, R462). -/
theorem State.reset_booting : State.reset.booting (bootAddress 0) = State.reset := by
  have hdir : directoryTable exampleDevices = State.reset.directory := rfl
  have hboot : bootAddress 0 = State.reset.bootAddr := rfl
  unfold State.booting
  rw [hboot, show State.reset.devices = exampleDevices from rfl, hdir]
  rfl

/-- Settles O26: the bus boots from the boot ROM and finds the directory and the boot address in place; the calls of the devices
and of the processor find nothing to clear. -/
theorem resetState : Obligations.ResetState := by
  have hreset : State.reset.busReset = .ok State.reset := by
    rw [State.busReset_boot State.reset_bootId, State.reset_booting]
    rfl
  refine ⟨hreset, fun n => ?_, rfl, rfl, rfl, rfl, rfl, rfl, rfl, rfl, rfl, rfl, fun k _ => Memory.readWord_nil k⟩
  exact Vector.getElem_replicate n.isLt

/-- Settles O59: nothing is stored or queued, and the directory is the table of the three example devices. -/
theorem resetInvariant : Obligations.ResetInvariant where
  memWf := Memory.wf_nil
  vectorsWf := Memory.wf_nil
  vectorsInTable _ h := nomatch h
  memBacked _ h := nomatch h
  queueTypes _ h := nomatch h
  idsAssignable := by decide
  oneController := by decide
  bootAligned := by decide
  directoryTable := ⟨3, by decide, rfl⟩

end Sys2Proof.Machine
end
